-- ==== Sys2Proof/Word.lean ====
section
/-! DEFINITION. The words of the TDU: bytes, 32-bit registers, the pixel tuple, and the names of the three
palette formats. The plainest arithmetic only; everything a test could show wrong stands under Machine/. -/

namespace Sys2Proof

/-- One byte of memory, one channel of a pixel (spec/00_scope.md R6). -/
abbrev Byte := BitVec 8

/-- One host-visible register (spec/10_state.md R24). -/
abbrev Word := BitVec 32

/-- A pixel `(R, G, B, A)`, stored in that order at four consecutive byte addresses, `R` lowest
(spec/00_scope.md R6, spec/20_memory.md R68). -/
structure Pixel where
  r : Byte
  g : Byte
  b : Byte
  a : Byte
deriving DecidableEq, Repr

/-- The document's `PaletteFormat` (spec/30_encoding.md R98). -/
inductive PalFmt where
  | ia8
  | rgb565
  | rgb5a3
deriving DecidableEq, Repr

/-- `ceil(a / b)` is `(a + b - 1) / b` (spec/00_scope.md R6). -/
def ceilDiv (a b : Nat) : Nat := (a + b - 1) / b

end Sys2Proof
end

