-- ==== Sys2Proof/Config.lean ====
section
/-! DEFINITION. What is fixed for the machine: the parameters of spec/00_scope.md R5, and the values the spec
leaves free. A free value is an `opaque` constant with no body: nothing can be proved about it. Each takes
an event number (State.draws) and a position within the event, so that no two occurrences are the same draw. -/

namespace Sys2Proof

/-- The memory space is 2^32 bytes (`AW` = 32; spec/00_scope.md R5, spec/10_state.md R40). -/
def Config.memSize : Nat := 2 ^ 32

/-- `DIM_MAX`: the largest legal WIDTH, HEIGHT or DEPTH (spec/00_scope.md R5). -/
def Config.dimMax : Nat := 65535

/-- `BHL2_MAX`: the largest legal `block_height_log2` (spec/00_scope.md R5). -/
def Config.bhl2Max : Nat := 5

/-- `PAL_RAM_ENTRIES`: entries of the palette RAM (spec/00_scope.md R5, spec/10_state.md R38). -/
abbrev Config.palRamEntries : Nat := 16384

/-- What a byte of memory that nothing has written reads as. DESIGN CHOICE (unsafe): the spec leaves memory
to the environment (R42); see notes/assumptions/3.md. -/
def Config.unlistedByte : Byte := 0

/-- `draw_u8()` for the pixels of an out-of-range palette index (spec/44_gx_tiled.md R258): event, destination
offset of the byte. Free; see notes/assumptions/6.md. -/
opaque Config.drawByte : Nat → Nat → Byte

/-- A destination byte of a command during which the host broke its duties (spec/20_memory.md R72,
spec/70_reset_and_hazards.md R366): event, destination offset. Free; see notes/assumptions/7.md. -/
opaque Config.hazardByte : Nat → Nat → Byte

/-- Whether a byte read or left half way through a command is the new one (spec/70_reset_and_hazards.md R361,
R366): event, destination offset. Free; see notes/assumptions/8.md. -/
opaque Config.takesNew : Nat → Nat → Bool

/-- Engine-internal state where the spec calls it unspecified (spec/10_state.md R38, R43,
spec/60_exceptions.md R334): event, position. Free; see notes/assumptions/5.md. -/
opaque Config.stale : Nat → Nat → Nat

end Sys2Proof
end

