-- ==== Sys2Proof/Syntax.lean ====
section
/-! DEFINITION. The commands of the TDU: one constructor per row of spec/opcode_table.json
(spec/30_encoding.md R100), with the operand fields the row leaves free as arguments. -/

namespace Sys2Proof

/-- The 22 commands (spec/30_encoding.md R100). `srgb` is FLAG = 1 against FLAG = 0 (R95), `lin` the LIN bit
(R96), `bhl2` the `block_height_log2` (R97), `pal` the PALFMT field (R98). BLKDIM, the second word of DESWZ, is a
descriptor register and so an operand in State, not part of the command word (R90, R92). -/
inductive Instr where
  | deswz (bhl2 : BitVec 3)
  | bc1 (srgb lin : Bool) (bhl2 : BitVec 3)
  | bc2 (srgb lin : Bool) (bhl2 : BitVec 3)
  | bc3 (srgb lin : Bool) (bhl2 : BitVec 3)
  | bc4u (srgb lin : Bool) (bhl2 : BitVec 3)
  | bc4s (lin : Bool) (bhl2 : BitVec 3)
  | bc5u (srgb lin : Bool) (bhl2 : BitVec 3)
  | bc5s (lin : Bool) (bhl2 : BitVec 3)
  | gxI4
  | gxI8
  | gxIa4
  | gxIa8
  | gxRgb565
  | gxRgb5a3
  | gxRgba8
  | gxC4 (pal : PalFmt)
  | gxC8 (pal : PalFmt)
  | gxC14x2 (pal : PalFmt)
  | gxCmpr
  | palIa8
  | palRgb565
  | palRgb5a3
deriving DecidableEq, Repr

end Sys2Proof
end

