-- ==== Sys2Proof/WellFormed.lean ====
section
/-! DEFINITION. The operand ranges that the masks of spec/30_encoding.md R100 cannot express. -/

namespace Sys2Proof

/-- BHL2 is 0 to 5 (spec/30_encoding.md R97, R101 item 6). -/
def bhl2Legal (bhl2 : BitVec 3) : Bool := decide (bhl2.toNat ≤ Config.bhl2Max)

/-- The source mode of a BCn command: a block-linear source has BHL2 0 to 5, a linear one has BHL2 = 0
(spec/30_encoding.md R96, R97, R101 items 4 and 6). -/
def srcModeLegal (lin : Bool) (bhl2 : BitVec 3) : Bool := if lin then bhl2 == 0 else bhl2Legal bhl2

/-- A command whose operand fields are all in range. PALFMT = 3 has no term: `PalFmt` names the three formats. -/
def Instr.wellFormed : Instr → Bool
  | .deswz bhl2 => bhl2Legal bhl2
  | .bc1 _ lin bhl2 => srcModeLegal lin bhl2
  | .bc2 _ lin bhl2 => srcModeLegal lin bhl2
  | .bc3 _ lin bhl2 => srcModeLegal lin bhl2
  | .bc4u _ lin bhl2 => srcModeLegal lin bhl2
  | .bc4s lin bhl2 => srcModeLegal lin bhl2
  | .bc5u _ lin bhl2 => srcModeLegal lin bhl2
  | .bc5s lin bhl2 => srcModeLegal lin bhl2
  | .gxI4 => true
  | .gxI8 => true
  | .gxIa4 => true
  | .gxIa8 => true
  | .gxRgb565 => true
  | .gxRgb5a3 => true
  | .gxRgba8 => true
  | .gxC4 _ => true
  | .gxC8 _ => true
  | .gxC14x2 _ => true
  | .gxCmpr => true
  | .palIa8 => true
  | .palRgb565 => true
  | .palRgb5a3 => true

end Sys2Proof
end

