-- ==== Sys2Proof/Decode.lean ====
section
/-! DEFINITION. The CMD word (spec/30_encoding.md R90 to R102): its fields, the decoder, total on all 2^32 words and
refusing by name in the order of R101, and after it the encoder. -/

namespace Sys2Proof

/-- Why a CMD word is none of the 22 commands: items (1) to (7) of spec/30_encoding.md R101. Item (8), an illegal
BLKDIM, is checked on the register by DESWZ's meaning. Each is E_UNSUP at START. -/
inductive DecodeError where
  /-- (1) OP is 0 or 5 to 15. -/
  | reservedOp
  /-- (2) CMD bit 11, 15 or one of 31:18 is set. -/
  | reservedBits
  /-- (3) FMT is not listed for the OP. -/
  | reservedFmt
  /-- (4) a field the command does not use is not 0. -/
  | unusedField
  /-- (5) FLAG = 3, or SNorm with BC1, BC2 or BC3. -/
  | badFlag
  /-- (6) BHL2 is 6 or 7. -/
  | badBlockHeight
  /-- (7) PALFMT is 3. -/
  | badPaletteFormat
deriving DecidableEq, Repr

/-! ## Fields (R91) -/

def cmdOp (w : Word) : BitVec 4 := w.extractLsb' 0 4
def cmdFmt (w : Word) : BitVec 4 := w.extractLsb' 4 4
def cmdFlag (w : Word) : BitVec 2 := w.extractLsb' 8 2
def cmdLin (w : Word) : BitVec 1 := w.extractLsb' 10 1
def cmdBhl2 (w : Word) : BitVec 3 := w.extractLsb' 12 3
def cmdPalfmt (w : Word) : BitVec 2 := w.extractLsb' 16 2

/-- No reserved bit is set: bits 11, 15 and 31:18 are 0 (R99). -/
def cmdReservedZero (w : Word) : Bool :=
  w.extractLsb' 11 1 == 0 && w.extractLsb' 15 1 == 0 && w.extractLsb' 18 14 == 0

/-! ## The decoder -/

/-- OP 1 (R93, R94, R97). -/
def decodeDeswz (w : Word) : Except DecodeError Instr :=
  if cmdFmt w ≠ 0 then .error .reservedFmt
  else if cmdFlag w ≠ 0 ∨ cmdLin w ≠ 0 ∨ cmdPalfmt w ≠ 0 then .error .unusedField
  else if 5 < (cmdBhl2 w).toNat then .error .badBlockHeight
  else .ok (.deswz (cmdBhl2 w))

/-- The BCn row that a legal FMT and FLAG select (R94, R95). -/
def bcnInstr (fmt : BitVec 4) (flag : BitVec 2) (lin : Bool) (bhl2 : BitVec 3) : Instr :=
  let srgb := flag == 1
  if fmt = 1 then .bc1 srgb lin bhl2
  else if fmt = 2 then .bc2 srgb lin bhl2
  else if fmt = 3 then .bc3 srgb lin bhl2
  else if fmt = 4 then (if flag = 2 then .bc4s lin bhl2 else .bc4u srgb lin bhl2)
  else (if flag = 2 then .bc5s lin bhl2 else .bc5u srgb lin bhl2)

/-- OP 2 (R93 to R97). -/
def decodeBcn (w : Word) : Except DecodeError Instr :=
  let fmt := cmdFmt w
  let flag := cmdFlag w
  let lin := cmdLin w
  let bhl2 := cmdBhl2 w
  if fmt = 0 ∨ 5 < fmt.toNat then .error .reservedFmt
  else if cmdPalfmt w ≠ 0 ∨ (lin = 1 ∧ bhl2 ≠ 0) then .error .unusedField
  else if flag = 3 ∨ (flag = 2 ∧ fmt.toNat ≤ 3) then .error .badFlag
  else if lin = 0 ∧ 5 < bhl2.toNat then .error .badBlockHeight
  else .ok (bcnInstr fmt flag (lin == 1) bhl2)

/-- PALFMT 0 IA8, 1 RGB565, 2 RGB5A3, 3 reserved (R98). -/
def palFmtOf (v : BitVec 2) : Option PalFmt :=
  if v = 0 then some .ia8 else if v = 1 then some .rgb565 else if v = 2 then some .rgb5a3 else none

/-- A paletted GX row with its palette format (R98, R101 item 7). -/
def withPalFmt (w : Word) (mk : PalFmt → Instr) : Except DecodeError Instr :=
  match palFmtOf (cmdPalfmt w) with
  | some p => .ok (mk p)
  | none => .error .badPaletteFormat

/-- A row that takes no palette format (R98, R101 item 4). -/
def withoutPalFmt (w : Word) (i : Instr) : Except DecodeError Instr :=
  if cmdPalfmt w ≠ 0 then .error .unusedField else .ok i

/-- The GX row of a FMT value: 7, 11, 12, 13 and 15 are reserved (R94). -/
def gxRow (w : Word) : Except DecodeError Instr :=
  let fmt := cmdFmt w
  if fmt = 0 then withoutPalFmt w .gxI4
  else if fmt = 1 then withoutPalFmt w .gxI8
  else if fmt = 2 then withoutPalFmt w .gxIa4
  else if fmt = 3 then withoutPalFmt w .gxIa8
  else if fmt = 4 then withoutPalFmt w .gxRgb565
  else if fmt = 5 then withoutPalFmt w .gxRgb5a3
  else if fmt = 6 then withoutPalFmt w .gxRgba8
  else if fmt = 8 then withPalFmt w .gxC4
  else if fmt = 9 then withPalFmt w .gxC8
  else if fmt = 10 then withPalFmt w .gxC14x2
  else if fmt = 14 then withoutPalFmt w .gxCmpr
  else .error .reservedFmt

/-- FLAG, LIN and BHL2 are all 0, as GX and PAL commands require (R95, R96, R97). -/
def bcnFieldsZero (w : Word) : Bool := cmdFlag w == 0 && cmdLin w == 0 && cmdBhl2 w == 0

/-- OP 3: FMT is looked at before the unused fields (R101 items 3 and 4). -/
def decodeGx (w : Word) : Except DecodeError Instr :=
  match gxRow w with
  | .error .reservedFmt => .error .reservedFmt
  | row => if bcnFieldsZero w then row else .error .unusedField

/-- OP 4 (R94, R98). -/
def decodePal (w : Word) : Except DecodeError Instr :=
  let fmt := cmdFmt w
  if 2 < fmt.toNat then .error .reservedFmt
  else if !bcnFieldsZero w then .error .unusedField
  else if fmt = 0 then withoutPalFmt w .palIa8
  else if fmt = 1 then withoutPalFmt w .palRgb565
  else withoutPalFmt w .palRgb5a3

/-- The command that a CMD word selects, or why it selects none (R93 to R101). -/
def decode (w : Word) : Except DecodeError Instr :=
  let op := cmdOp w
  if op = 0 ∨ 4 < op.toNat then .error .reservedOp
  else if !cmdReservedZero w then .error .reservedBits
  else if op = 1 then decodeDeswz w
  else if op = 2 then decodeBcn w
  else if op = 3 then decodeGx w
  else decodePal w

/-- The instruction that the decoder reads from a table row's bits: the command is one CMD word, bit 0 the least
significant (R91, R102). -/
def decodeTableWord (nbits w : Nat) : Option Instr :=
  match decode (BitVec.ofNat 32 (w % 2 ^ nbits)) with
  | .ok i => some i
  | .error _ => none

/-! ## The encoder (R91, R100, R104) -/

/-- `OP | FMT<<4 | FLAG<<8 | LIN<<10 | BHL2<<12 | PALFMT<<16`, the reserved bits 0 (R104). -/
def cmdWord (op fmt : BitVec 4) (flag : BitVec 2) (lin : Bool) (bhl2 : BitVec 3) (palfmt : BitVec 2) : Word :=
  0#14 ++ palfmt ++ 0#1 ++ bhl2 ++ 0#1 ++ BitVec.ofBool lin ++ flag ++ fmt ++ op

/-- FLAG of an unsigned BCn command: 0 UNorm, 1 sRGB (R95). -/
def unsignedFlag (srgb : Bool) : BitVec 2 := if srgb then 1 else 0

/-- The PALFMT field (R98). -/
def palFmtCode : PalFmt → BitVec 2
  | .ia8 => 0
  | .rgb565 => 1
  | .rgb5a3 => 2

/-- The CMD word of a command (R100). -/
def encode : Instr → Word
  | .deswz bhl2 => cmdWord 1 0 0 false bhl2 0
  | .bc1 srgb lin bhl2 => cmdWord 2 1 (unsignedFlag srgb) lin bhl2 0
  | .bc2 srgb lin bhl2 => cmdWord 2 2 (unsignedFlag srgb) lin bhl2 0
  | .bc3 srgb lin bhl2 => cmdWord 2 3 (unsignedFlag srgb) lin bhl2 0
  | .bc4u srgb lin bhl2 => cmdWord 2 4 (unsignedFlag srgb) lin bhl2 0
  | .bc4s lin bhl2 => cmdWord 2 4 2 lin bhl2 0
  | .bc5u srgb lin bhl2 => cmdWord 2 5 (unsignedFlag srgb) lin bhl2 0
  | .bc5s lin bhl2 => cmdWord 2 5 2 lin bhl2 0
  | .gxI4 => cmdWord 3 0 0 false 0 0
  | .gxI8 => cmdWord 3 1 0 false 0 0
  | .gxIa4 => cmdWord 3 2 0 false 0 0
  | .gxIa8 => cmdWord 3 3 0 false 0 0
  | .gxRgb565 => cmdWord 3 4 0 false 0 0
  | .gxRgb5a3 => cmdWord 3 5 0 false 0 0
  | .gxRgba8 => cmdWord 3 6 0 false 0 0
  | .gxC4 pal => cmdWord 3 8 0 false 0 (palFmtCode pal)
  | .gxC8 pal => cmdWord 3 9 0 false 0 (palFmtCode pal)
  | .gxC14x2 pal => cmdWord 3 10 0 false 0 (palFmtCode pal)
  | .gxCmpr => cmdWord 3 14 0 false 0 0
  | .palIa8 => cmdWord 4 0 0 false 0 0
  | .palRgb565 => cmdWord 4 1 0 false 0 0
  | .palRgb5a3 => cmdWord 4 2 0 false 0 0

end Sys2Proof
end

