-- ==== Sys2Proof/Machine/State.lean ====
section
/-! DEFINITION. The state of the TDU as plain data (spec/10_state.md), the reasons a step can stop, and the state after
reset. INVENTORY.md lists every field with the rule that names it. -/

namespace Sys2Proof.Machine

/-- Why the machine stops. The hardware itself never stops: a command error is a next state with STATUS.ERR set
(spec/60_exceptions.md R330). -/
inductive Fault where
  /-- Raised by an engine access (Ops.lean readers and `applyWrites`) at a byte address of 2^32 or more, which does not
  exist (spec/10_state.md R40). Safe: the spec gives no such access, and no command that passed the START checks
  makes one (spec/46_dispatch.md R308); notes/assumptions/11.md. -/
  | outsideMemory (addr : Nat)
deriving DecidableEq, Repr

/-- Why an instruction has no meaning. -/
inductive Refusal where
  /-- Raised only by an arm of exec for an instruction that is not modelled yet; no arm of this model raises it.
  Safe: the machine stops. -/
  | notModelled (mnemonic : String)
deriving DecidableEq, Repr

/-- The error codes (spec/60_exceptions.md R331). `bounds` is raised by a reader only and is unreachable (R308); `bus` is
never raised, since the memory port never fails (R76). -/
inductive ErrCode where
  | unsup
  | size
  | dim
  | dst
  | window
  | bounds
  | bus
deriving DecidableEq, Repr

/-- The eleven descriptor registers (spec/10_state.md R21); also the shape of the shadow descriptor (R27). -/
structure Desc where
  cmd : Word
  width : Word
  height : Word
  depth : Word
  blkdim : Word
  srcBase : Word
  srcLen : Word
  dstBase : Word
  dstLen : Word
  palBase : Word
  palLen : Word
deriving DecidableEq, Repr

/-- The engine's scratch state: sequencer position (spec/10_state.md R22), ramp tables (R37), palette RAM with its count
(R38). Not host-visible; nothing in it survives from one command to the next (R20). -/
structure Scratch where
  bx : Nat
  by_ : Nat
  cur : Nat
  cramp : Vector Pixel 4
  sramp0 : Vector Byte 8
  sramp1 : Vector Byte 8
  pal : Vector Pixel Config.palRamEntries
  palN : Nat
deriving DecidableEq, Repr

/-- What the engine does next while BUSY: the START checks (spec/46_dispatch.md R302), the palette fill (R310), the
unit at the sequencer position (R310), or the completion (R312). -/
inductive Phase where
  | check
  | fill
  | walk
  | finish
deriving DecidableEq, Repr

/-- The sixteen registers of the register port (spec/10_state.md R24). -/
inductive Reg where
  | ctrl
  | status
  | irqEn
  | cmd
  | width
  | height
  | depth
  | blkdim
  | srcBase
  | srcLen
  | dstBase
  | dstLen
  | palBase
  | palLen
  | outLen
  | errInfo
deriving DecidableEq, Repr

/-- One turn of the schedule: a transaction of the host (spec/46_dispatch.md R300), or a grant of engine steps between
two of them. `bytes` is the width of a register access: only 4 exists (spec/20_memory.md R61). -/
inductive HostOp where
  | regWrite (offset bytes : Nat) (value : Word)
  | regRead (offset bytes : Nat)
  | memWrite (addr : Word) (value : Byte)
  | memRead (addr : Word)
  /-- The host looks at the interrupt line (spec/60_exceptions.md R336). -/
  | irqRead
  /-- The reset input goes to the level `asserted` (spec/70_reset_and_hazards.md R360). -/
  | reset (asserted : Bool)
  /-- The engine moves: `some n` for at most `n` engine steps, `none` until the command has ended. -/
  | engine (steps : Option Nat)
deriving DecidableEq, Repr

/-- Memory: the bytes that differ from what an unlisted address reads as, addresses strictly rising. -/
structure Memory where
  cells : List Host.Cell
deriving DecidableEq, Repr

/-- A command that ended with DONE and whose end the host has not observed yet: its descriptor, its output length, and
memory at its START. The duties of spec/70_reset_and_hazards.md R366 go on until that observation
(notes/assumptions/19.md). -/
structure Ended where
  d : Desc
  outLen : Nat
  old : Memory
deriving DecidableEq, Repr

/-- The machine. -/
structure State where
  /-- The descriptor registers (spec/10_state.md R21). -/
  reg : Desc
  /-- STATUS bit 0 (R26). -/
  busy : Bool
  /-- STATUS bit 1 (R26). -/
  done : Bool
  /-- STATUS bit 2 (R26). -/
  err : Bool
  /-- STATUS bits 7:4 (R26). -/
  errcode : BitVec 4
  /-- IRQ_EN bit 0 (R28). -/
  doneIe : Bool
  /-- IRQ_EN bit 1 (R28). -/
  errIe : Bool
  /-- OUT_LEN (R33). -/
  outLen : Word
  /-- ERR_INFO (R34). -/
  errInfo : Word
  /-- The shadow descriptor (R27). -/
  d : Desc
  /-- Sequencer, ramp tables, palette RAM (R22, R37, R38). -/
  scr : Scratch
  /-- The stage of the running command; read only while BUSY. -/
  phase : Phase
  /-- The memory space (R40). -/
  mem : Memory
  /-- The reset input is asserted (spec/70_reset_and_hazards.md R360). -/
  inReset : Bool
  /-- MODEL's own: memory at the accepted START, for R361 and R366 (notes/assumptions/8.md). -/
  old : Memory
  /-- MODEL's own: the host broke R72 during the running command (notes/assumptions/7.md). -/
  touched : Bool
  /-- MODEL's own: the commands that ended with DONE and whose end the host has not observed, the latest first, for R366
  (notes/assumptions/19.md). -/
  ended : List Ended
  /-- MODEL's own: the event number free values are drawn with (notes/assumptions/6.md). -/
  draws : Nat
  /-- MODEL's own: how many engine steps exec may take now (notes/assumptions/1.md). -/
  slice : Option Nat
  /-- MODEL's own: the turns still to come, in issue order (notes/assumptions/1.md). -/
  script : List HostOp
  /-- MODEL's own: what the host's last register read, or look at `irq`, returned (notes/assumptions/1.md). -/
  regData : Word
  /-- MODEL's own: what the host's last memory read returned (notes/assumptions/1.md). -/
  memData : Byte
deriving DecidableEq, Repr

/-- All eleven registers 0 (spec/10_state.md R43). -/
def Desc.zero : Desc := ⟨0, 0, 0, 0, 0, 0, 0, 0, 0, 0, 0⟩

/-- The black, transparent pixel; the DESIGN CHOICE fill of ramps and palette RAM at reset (notes/assumptions/4.md). -/
def zeroPixel : Pixel := ⟨0, 0, 0, 0⟩

/-- Engine-internal state at reset: the spec leaves it unspecified (R43); DESIGN CHOICE zero (notes/assumptions/4.md). -/
def Scratch.zero : Scratch where
  bx := 0
  by_ := 0
  cur := 0
  cramp := Vector.replicate 4 zeroPixel
  sramp0 := Vector.replicate 8 0
  sramp1 := Vector.replicate 8 0
  pal := Vector.replicate Config.palRamEntries zeroPixel
  palN := 0

/-- Memory with nothing listed. -/
def Memory.empty : Memory := ⟨[]⟩

/-- The machine right after reset, the reset input released (spec/10_state.md R43, spec/70_reset_and_hazards.md R360):
every host-visible register 0, the engine idle. -/
def State.reset : State where
  reg := Desc.zero
  busy := false
  done := false
  err := false
  errcode := 0
  doneIe := false
  errIe := false
  outLen := 0
  errInfo := 0
  d := Desc.zero
  scr := Scratch.zero
  phase := .check
  mem := Memory.empty
  inReset := false
  old := Memory.empty
  touched := false
  ended := []
  draws := 0
  slice := none
  script := []
  regData := 0
  memData := 0

end Sys2Proof.Machine
end

