-- ==== Sys2Proof/Machine/Codec.lean ====
section
/-! DEFINITION. The primitive codec units (spec/40_primitives.md R138 to R141) and the two packed colour forms built on
them (spec/42_ramp_builder.md R181, spec/44_gx_tiled.md R249). Arithmetic is exact in Nat and narrowed at the end. -/

namespace Sys2Proof.Machine

/-- `expand_bits(w, v)` by bit replication, for widths 3 to 8 and `v < 2^w` (R138). -/
def expandBits (w v : Nat) : Nat :=
  if w = 3 then ((v <<< 5) ||| (v <<< 2) ||| (v >>> 1)) &&& 0xFF
  else ((v <<< (8 - w)) ||| (v >>> (2 * w - 8))) &&& 0xFF

/-- A field of a texel, widened to a byte with `expand_bits` (R138). -/
def expandField {w : Nat} (v : BitVec w) : Byte := BitVec.ofNat 8 (expandBits w v.toNat)

/-- `s3tc_blend(a, b) = (3*a + 5*b) >> 3`: nearer to `b` (R139). -/
def s3tcBlend (a b : Byte) : Byte := BitVec.ofNat 8 ((3 * a.toNat + 5 * b.toNat) >>> 3)

/-- `half_blend(a, b) = (a + b) >> 1` (R140). -/
def halfBlend (a b : Byte) : Byte := BitVec.ofNat 8 ((a.toNat + b.toNat) >>> 1)

/-- `rgb565_decode` with an alpha: R in bits 15:11, G in 10:5, B in 4:0 (spec/42_ramp_builder.md R181). -/
def rgb565Decode (c : BitVec 16) (alpha : Byte) : Pixel where
  r := expandField (c.extractLsb' 11 5)
  g := expandField (c.extractLsb' 5 6)
  b := expandField (c.extractLsb' 0 5)
  a := alpha

/-- `rgb5a3_decode`: bit 15 selects RGB5 with alpha 255 against A3RGB4 (spec/44_gx_tiled.md R249). -/
def rgb5a3Decode (v : BitVec 16) : Pixel :=
  if v.getLsbD 15 then
    { r := expandField (v.extractLsb' 10 5), g := expandField (v.extractLsb' 5 5),
      b := expandField (v.extractLsb' 0 5), a := 255 }
  else
    { r := expandField (v.extractLsb' 8 4), g := expandField (v.extractLsb' 4 4),
      b := expandField (v.extractLsb' 0 4), a := expandField (v.extractLsb' 12 3) }

/-- Intensity to R, G and B, and an alpha (spec/44_gx_tiled.md R245, R246). -/
def grey (i a : Byte) : Pixel := ⟨i, i, i, a⟩

/-- The pixel of a 16-bit palette entry or texel, read big-endian: IA8 has its alpha byte first (spec/44_gx_tiled.md
R246, R247, R248, spec/45_palette.md R290). -/
def palFmtPixel (fmt : PalFmt) (v : BitVec 16) : Pixel :=
  match fmt with
  | .ia8 => grey (v.extractLsb' 0 8) (v.extractLsb' 8 8)
  | .rgb565 => rgb565Decode v 255
  | .rgb5a3 => rgb5a3Decode v

end Sys2Proof.Machine
end

