-- ==== Sys2Proof/Machine/Ops.lean ====
section
/-! DEFINITION. The shared operations: memory, the bounded readers, destination writes, and the four events of the
engine: START, error completion (the TDU's only exception, spec/60_exceptions.md R330), success completion, and what
becomes of the internal state. There is no return from an error (R338). -/

namespace Sys2Proof.Machine

/-! ## Memory (spec/10_state.md R40, spec/20_memory.md R62, R63) -/

/-- The byte listed at `a`, else the unlisted byte. -/
def lookupCell : List Host.Cell → Nat → Byte
  | [], _ => Config.unlistedByte
  | (k, b) :: rest, a => if k = a then b else lookupCell rest a

/-- Put `b` at `a`, keeping the canonical form: addresses strictly rising, no entry equal to the unlisted byte. -/
def insertCell (a : Nat) (b : Byte) : List Host.Cell → List Host.Cell
  | [] => if b = Config.unlistedByte then [] else [(a, b)]
  | (k, c) :: rest =>
    if a < k then (if b = Config.unlistedByte then (k, c) :: rest else (a, b) :: (k, c) :: rest)
    else if a = k then (if b = Config.unlistedByte then rest else (a, b) :: rest)
    else (k, c) :: insertCell a b rest

/-- The canonical form of a list of cells whose addresses are `lo` or more. -/
def cellsWf (lo : Nat) : List Host.Cell → Bool
  | [] => true
  | (k, b) :: rest =>
    decide (lo ≤ k) && decide (k < Config.memSize) && decide (b ≠ Config.unlistedByte) && cellsWf (k + 1) rest

/-- One byte of memory. -/
def Memory.read (m : Memory) (a : Nat) : Byte := lookupCell m.cells a

/-- Memory with one byte written. -/
def Memory.write (m : Memory) (a : Nat) (b : Byte) : Memory := ⟨insertCell a b m.cells⟩

/-- Memory is in its canonical form. -/
def Memory.wf (m : Memory) : Bool := cellsWf 0 m.cells

/-! ## Bounded readers (spec/40_primitives.md R130 to R137) -/

/-- A window `(base, length)` of memory (spec/10_state.md R32). -/
structure Window where
  base : Nat
  len : Nat
deriving DecidableEq, Repr

/-- Why a unit stops half way: a reader's error (R131), or an access to no memory at all. Neither happens to a command
that passed the START checks (R308). -/
inductive Halt where
  | error (c : ErrCode)
  | fault (f : Fault)
deriving DecidableEq, Repr

/-- A read of `n` bytes at offset `off` is legal exactly when `off + n <= len`; an illegal one makes no access and is
E_BOUNDS (R131). -/
def guardRead (w : Window) (off n : Nat) : Except Halt Unit :=
  if w.len < off + n then .error (.error .bounds)
  else if Config.memSize < w.base + off + n then .error (.fault (.outsideMemory (w.base + off + n - 1)))
  else .ok ()

/-- The byte at offset `o` of a window: `SrcByte(o)`, `PalByte(o)` without the bound (spec/00_scope.md R6). -/
def byteAt (m : Memory) (w : Window) (o : Nat) : Byte := m.read (w.base + o)

/-- `SrcByte(off)` / `PalByte(off)`: the reader with N = 1 (R130). -/
def readU8 (w : Window) (m : Memory) (off : Nat) : Except Halt Byte :=
  (guardRead w off 1).map fun _ => byteAt m w off

/-- Two bytes, the lowest-addressed least significant (R132). -/
def u16le (b0 b1 : Byte) : BitVec 16 := b0.setWidth 16 ||| (b1.setWidth 16 <<< 8)

/-- Two bytes, the lowest-addressed most significant (R133). -/
def u16be (b0 b1 : Byte) : BitVec 16 := (b0.setWidth 16 <<< 8) ||| b1.setWidth 16

/-- Three bytes, little-endian (R134). -/
def u24le (b0 b1 b2 : Byte) : BitVec 24 :=
  b0.setWidth 24 ||| (b1.setWidth 24 <<< 8) ||| (b2.setWidth 24 <<< 16)

/-- Three bytes, big-endian (R135). -/
def u24be (b0 b1 b2 : Byte) : BitVec 24 :=
  (b0.setWidth 24 <<< 16) ||| (b1.setWidth 24 <<< 8) ||| b2.setWidth 24

/-- Four bytes, little-endian (R136). -/
def u32le (b0 b1 b2 b3 : Byte) : BitVec 32 :=
  b0.setWidth 32 ||| (b1.setWidth 32 <<< 8) ||| (b2.setWidth 32 <<< 16) ||| (b3.setWidth 32 <<< 24)

/-- Four bytes, big-endian (R137). -/
def u32be (b0 b1 b2 b3 : Byte) : BitVec 32 :=
  (b0.setWidth 32 <<< 24) ||| (b1.setWidth 32 <<< 16) ||| (b2.setWidth 32 <<< 8) ||| b3.setWidth 32

/-- `read_u16_le` (R132). -/
def readU16le (w : Window) (m : Memory) (off : Nat) : Except Halt (BitVec 16) :=
  (guardRead w off 2).map fun _ => u16le (byteAt m w off) (byteAt m w (off + 1))

/-- `read_u16_be` (R133). -/
def readU16be (w : Window) (m : Memory) (off : Nat) : Except Halt (BitVec 16) :=
  (guardRead w off 2).map fun _ => u16be (byteAt m w off) (byteAt m w (off + 1))

/-- `read_u24_le` (R134). -/
def readU24le (w : Window) (m : Memory) (off : Nat) : Except Halt (BitVec 24) :=
  (guardRead w off 3).map fun _ => u24le (byteAt m w off) (byteAt m w (off + 1)) (byteAt m w (off + 2))

/-- `read_u24_be` (R135); no command uses it. -/
def readU24be (w : Window) (m : Memory) (off : Nat) : Except Halt (BitVec 24) :=
  (guardRead w off 3).map fun _ => u24be (byteAt m w off) (byteAt m w (off + 1)) (byteAt m w (off + 2))

/-- `read_u32_le` (R136). -/
def readU32le (w : Window) (m : Memory) (off : Nat) : Except Halt (BitVec 32) :=
  (guardRead w off 4).map fun _ =>
    u32le (byteAt m w off) (byteAt m w (off + 1)) (byteAt m w (off + 2)) (byteAt m w (off + 3))

/-- `read_u32_be` (R137); no command uses it. -/
def readU32be (w : Window) (m : Memory) (off : Nat) : Except Halt (BitVec 32) :=
  (guardRead w off 4).map fun _ =>
    u32be (byteAt m w off) (byteAt m w (off + 1)) (byteAt m w (off + 2)) (byteAt m w (off + 3))

/-- `MemRead` of `n` bytes at window offset `off`, lowest address first (spec/00_scope.md R6). -/
def readBytes (w : Window) (m : Memory) (off n : Nat) : Except Halt (List Byte) :=
  (guardRead w off n).map fun _ => (List.range n).map fun k => byteAt m w (off + k)

/-! ## Destination writes (spec/20_memory.md R63, R68) -/

/-- One byte to be written: its destination offset and its value. -/
abbrev Write := Nat × Byte

/-- The bytes `bs` at consecutive destination offsets from `o`. -/
def writesAt (o : Nat) : List Byte → List Write
  | [] => []
  | b :: bs => (o, b) :: writesAt (o + 1) bs

/-- The four bytes of a pixel, R lowest (R68). -/
def pixelBytes (p : Pixel) : List Byte := [p.r, p.g, p.b, p.a]

/-- The bytes `f 0`, ..., `f (n - 1)` at consecutive addresses from `base`. -/
def putBytes (base : Nat) (f : Nat → Byte) : Nat → Memory → Memory
  | 0, m => m
  | n + 1, m => (putBytes base f n m).write (base + n) (f n)

/-- `DstWrite` of each byte in order, at `base` plus its offset. -/
def applyWrites (base : Nat) : List Write → Memory → Except Fault Memory
  | [], m => .ok m
  | (o, b) :: ws, m =>
    if base + o < Config.memSize then applyWrites base ws (m.write (base + o) b)
    else .error (.outsideMemory (base + o))

/-! ## Error codes (spec/60_exceptions.md R331) -/

/-- The number in STATUS.ERRCODE. -/
def ErrCode.code : ErrCode → BitVec 4
  | .unsup => 1
  | .size => 2
  | .dim => 3
  | .dst => 4
  | .window => 5
  | .bounds => 6
  | .bus => 7

/-- `min(n, 2^32 - 1)` as ERR_INFO stores it (spec/10_state.md R34). -/
def saturate (n : Nat) : Word := BitVec.ofNat 32 (min n (2 ^ 32 - 1))

/-! ## Unspecified internal state (spec/10_state.md R38, R43; notes/assumptions/5.md) -/

/-- An unspecified pixel drawn at event `ev`, position `p`. -/
def stalePixel (ev p : Nat) : Pixel :=
  ⟨BitVec.ofNat 8 (Config.stale ev (4 * p)), BitVec.ofNat 8 (Config.stale ev (4 * p + 1)),
    BitVec.ofNat 8 (Config.stale ev (4 * p + 2)), BitVec.ofNat 8 (Config.stale ev (4 * p + 3))⟩

/-- Unspecified scratch state drawn at event `ev`. `pal_n` stays a count of palette RAM entries. -/
def staleScratch (ev : Nat) : Scratch where
  bx := Config.stale ev 0
  by_ := Config.stale ev 1
  cur := Config.stale ev 2
  palN := Config.stale ev 3 % (Config.palRamEntries + 1)
  sramp0 := Vector.ofFn fun k => BitVec.ofNat 8 (Config.stale ev (4 + k))
  sramp1 := Vector.ofFn fun k => BitVec.ofNat 8 (Config.stale ev (12 + k))
  cramp := Vector.ofFn fun k => stalePixel ev (5 + k)
  pal := Vector.ofFn fun k => stalePixel ev (9 + k)

/-- An unspecified shadow descriptor drawn at event `ev`, at positions beyond the scratch state's. -/
def staleDesc (ev : Nat) : Desc :=
  let word (k : Nat) : Word := BitVec.ofNat 32 (Config.stale ev (4 * (9 + Config.palRamEntries) + k))
  { cmd := word 0, width := word 1, height := word 2, depth := word 3, blkdim := word 4, srcBase := word 5,
    srcLen := word 6, dstBase := word 7, dstLen := word 8, palBase := word 9, palLen := word 10 }

/-! ## The events of a command -/

/-- Accepted START, one atomic step (spec/46_dispatch.md R301): the shadow descriptor is loaded, flags and result
registers are cleared, BUSY is set, the sequencer goes to its start. -/
def startCommand (s : State) : State :=
  { s with
    d := s.reg
    busy := true
    done := false
    err := false
    errcode := 0
    outLen := 0
    errInfo := 0
    scr := { s.scr with bx := 0, by_ := 0, cur := 0 }
    phase := .check
    old := s.mem
    touched := false }

/-- Error completion, one atomic step: the TDU's one way of taking an exception (spec/46_dispatch.md R313,
spec/60_exceptions.md R330, R334). OUT_LEN and DONE keep the 0 that START gave them; descriptor registers, IRQ_EN and
memory are untouched; the internal state is unspecified afterwards, but the shadow descriptor: `d` keeps its value, as
spec/10_state.md R27 has it (`reg.X = d.X` after the command), where spec/93_implementation_defined.md U7 lets it be any
value. That is the model's choice (notes/assumptions/5.md). -/
def raiseError (c : ErrCode) (info : Word) (s : State) : State :=
  { s with
    busy := false
    err := true
    errcode := c.code
    errInfo := info
    scr := staleScratch s.draws
    phase := .check
    draws := s.draws + 1 }

/-- The bytes a command leaves when the host broke its duties: every byte of the output range is free (spec/20_memory.md
R72, spec/70_reset_and_hazards.md R366; notes/assumptions/7.md). -/
def hazardWrites (ev outLen : Nat) : List Write :=
  (List.range outLen).map fun o => (o, Config.hazardByte ev o)

/-- Successful completion, one atomic step (spec/46_dispatch.md R312). The internal state is unspecified afterwards
(spec/10_state.md R37, R38), but the shadow descriptor keeps its value (R27), the model's choice beside
spec/93_implementation_defined.md U7 (notes/assumptions/5.md). The command joins those whose end the host has not
observed (spec/70_reset_and_hazards.md R366; notes/assumptions/19.md). -/
def completeCommand (outLen : Nat) (s : State) : Except Fault State :=
  let finished (m : Memory) : State :=
    { s with
      mem := m
      busy := false
      done := true
      outLen := BitVec.ofNat 32 outLen
      scr := staleScratch s.draws
      phase := .check
      ended := ⟨s.d, outLen, s.old⟩ :: s.ended
      draws := s.draws + 1 }
  if s.touched then (applyWrites s.d.dstBase.toNat (hazardWrites s.draws outLen) s.mem).map finished
  else .ok (finished s.mem)

end Sys2Proof.Machine
end

