-- ==== Sys2Proof/Machine/Operands.lean ====
section
/-! DEFINITION. The operands of a command, read from the shadow descriptor: dimensions, windows, BLKDIM fields and the
block geometry (spec/10_state.md R30 to R32, spec/30_encoding.md R92, spec/41_address_translator.md R150). -/

namespace Sys2Proof.Machine

/-- WIDTH in pixels (R30). -/
def Desc.w (d : Desc) : Nat := d.width.toNat

/-- HEIGHT in pixels (R30). -/
def Desc.h (d : Desc) : Nat := d.height.toNat

/-- `tall = HEIGHT * DEPTH`: depth slices stacked into one tall buffer (R30, R150). -/
def Desc.tall (d : Desc) : Nat := d.height.toNat * d.depth.toNat

/-- The source window (R32). -/
def Desc.src (d : Desc) : Window := ⟨d.srcBase.toNat, d.srcLen.toNat⟩

/-- The palette window (R32). -/
def Desc.pal (d : Desc) : Window := ⟨d.palBase.toNat, d.palLen.toNat⟩

/-- The destination window (R32). -/
def Desc.dst (d : Desc) : Window := ⟨d.dstBase.toNat, d.dstLen.toNat⟩

/-- Whole entries of the palette window: `PAL_LEN / 2`, an odd last byte belongs to none (spec/45_palette.md R290). -/
def Desc.palEntries (d : Desc) : Nat := d.palLen.toNat / 2

/-! ## BLKDIM (spec/30_encoding.md R92) -/

/-- BW, bits 3:0. -/
def Desc.bw (d : Desc) : Nat := (d.blkdim.extractLsb' 0 4).toNat

/-- BH, bits 7:4. -/
def Desc.bh (d : Desc) : Nat := (d.blkdim.extractLsb' 4 4).toNat

/-- BPB, bits 12:8. -/
def Desc.bpb (d : Desc) : Nat := (d.blkdim.extractLsb' 8 5).toNat

/-- Every BLKDIM field is in the document's invariant set and bits 31:13 are 0 (R92). -/
def Desc.blkdimLegal (d : Desc) : Bool :=
  [1, 4, 5, 6, 8, 10, 12].contains d.bw && [1, 4, 5, 6, 8, 10, 12].contains d.bh &&
    [1, 4, 8, 16].contains d.bpb && d.blkdim.extractLsb' 13 19 == 0

/-! ## Windows (spec/20_memory.md R66) -/

/-- `base + len <= 2^32`, computed exactly (R66). -/
def Window.legal (w : Window) : Bool := decide (w.base + w.len ≤ Config.memSize)

/-- Two windows share a byte (R66). -/
def Window.shares (a b : Window) : Bool :=
  decide (0 < a.len) && decide (0 < b.len) && decide (a.base < b.base + b.len) && decide (b.base < a.base + a.len)

/-- A byte address lies in the window. -/
def Window.has (w : Window) (a : Nat) : Bool := decide (w.base ≤ a) && decide (a < w.base + w.len)

/-! ## Dimensions (spec/46_dispatch.md R304) -/

/-- A used dimension register holds 1 to DIM_MAX. -/
def dimLegal (v : Word) : Bool := decide (1 ≤ v.toNat) && decide (v.toNat ≤ Config.dimMax)

end Sys2Proof.Machine
end

