-- ==== Sys2Proof/Machine/Engine.lean ====
section
/-! DEFINITION. What every command shares (spec/46_dispatch.md): the START checks in order, the palette fill, the walk
over units, the completion, and the run of a command's engine steps. A family file gives a `Command`; a meaning is
`runCommand` of it. -/

namespace Sys2Proof.Machine

/-- What one unit's decode gives: the scratch state with its ramps (and cursor), and the bytes to write, as
destination offsets (spec/46_dispatch.md R310). -/
structure UnitOut where
  scr : Scratch
  writes : List Write

/-- What tells one command from another (spec/46_dispatch.md R303 to R310). -/
structure Command where
  /-- The command reads the source window (spec/20_memory.md R64). -/
  usesSrc : Bool
  /-- The command reads the palette window (spec/20_memory.md R64). -/
  usesPal : Bool
  /-- An operand that the CMD word or BLKDIM gives is out of range (spec/30_encoding.md R101). -/
  unsup : Desc → Bool
  /-- The dimension registers the command uses (spec/46_dispatch.md R304). -/
  dims : List (Desc → Word)
  /-- The required source length (spec/46_dispatch.md R306). -/
  need : Desc → Nat
  /-- SRC_LEN must equal `need`, or only reach it (spec/46_dispatch.md R306). -/
  exact : Bool
  /-- The output size in bytes (spec/10_state.md R33). -/
  outLen : Desc → Nat
  /-- Unit columns of the walk (spec/46_dispatch.md R310). -/
  cols : Desc → Nat
  /-- Unit rows of the walk (spec/46_dispatch.md R310). -/
  rows : Desc → Nat
  /-- The palette format to fill the palette RAM in before the first unit (spec/45_palette.md R294). -/
  fill : Option PalFmt
  /-- Decode of the unit at the sequencer position. -/
  decodeUnit : State → Except Halt UnitOut

/-! ## The START checks (R302 to R307) -/

/-- Check 2 fails (R304). -/
def dimsBad (c : Command) (d : Desc) : Bool := c.dims.any fun r => !dimLegal (r d)

/-- Check 3 fails: a used window wraps, or the destination shares a byte with a used input window (R305). -/
def windowsBad (c : Command) (d : Desc) : Bool :=
  !d.dst.legal || (c.usesSrc && (!d.src.legal || d.dst.shares d.src)) ||
    (c.usesPal && (!d.pal.legal || d.dst.shares d.pal))

/-- Check 4 fails (R306). -/
def sizeBad (c : Command) (d : Desc) : Bool :=
  if c.exact then decide (d.srcLen.toNat ≠ c.need d) else decide (d.srcLen.toNat < c.need d)

/-- The first check that fails, with the value ERR_INFO takes (R302, R333). -/
def validate (c : Command) (d : Desc) : Except (ErrCode × Word) Unit :=
  if c.unsup d then .error (.unsup, 0)
  else if dimsBad c d then .error (.dim, 0)
  else if windowsBad c d then .error (.window, 0)
  else if sizeBad c d then .error (.size, saturate (c.need d))
  else if d.dstLen.toNat < c.outLen d then .error (.dst, saturate (c.outLen d))
  else .ok ()

/-! ## The palette fill (spec/45_palette.md R290, R294) -/

/-- `pal_entry(fmt, i)`: the `i`-th entry of the palette window (R290). -/
def palEntry (fmt : PalFmt) (d : Desc) (m : Memory) (i : Nat) : Except Halt Pixel :=
  (readU16be d.pal m (2 * i)).map (palFmtPixel fmt)

/-- Entries `i, i+1, ..., i+n-1` of the palette RAM, each loaded from the palette window in that order. -/
def fillFrom (fmt : PalFmt) (d : Desc) (m : Memory) :
    Nat → Nat → Vector Pixel Config.palRamEntries → Except Halt (Vector Pixel Config.palRamEntries)
  | 0, _, pal => .ok pal
  | n + 1, i, pal =>
    (palEntry fmt d m i).bind fun p => fillFrom fmt d m n (i + 1) (pal.setIfInBounds i p)

/-- `pal_n = min(PAL_LEN / 2, 16384)` (R294). -/
def palCount (d : Desc) : Nat := min d.palEntries Config.palRamEntries

/-- The palette RAM filled from the palette window (R294). -/
def paletteFill (fmt : PalFmt) (s : State) : Except Halt Scratch :=
  (fillFrom fmt s.d s.mem (palCount s.d) 0 s.scr.pal).map fun pal =>
    { s.scr with pal := pal, palN := palCount s.d }

/-! ## One engine step -/

/-- The stage that follows the checks and the fill: a grid without units completes at once. -/
def walkPhase (c : Command) (d : Desc) : Phase :=
  if c.cols d = 0 ∨ c.rows d = 0 then .finish else .walk

/-- The stage that follows the checks (R302, R310). -/
def firstPhase (c : Command) (d : Desc) : Phase :=
  match c.fill with
  | some _ => .fill
  | none => walkPhase c d

/-- The sequencer after a unit: the next column, else the next row; where that would be past the last row the command
goes to its completion and the position stays inside the grid (spec/10_state.md R22; notes/assumptions/9.md). -/
def advance (c : Command) (s : State) : State :=
  if s.scr.bx + 1 < c.cols s.d then { s with scr := { s.scr with bx := s.scr.bx + 1 } }
  else if s.scr.by_ + 1 < c.rows s.d then { s with scr := { s.scr with bx := 0, by_ := s.scr.by_ + 1 } }
  else { s with phase := .finish }

/-- A unit that stopped: a reader's error ends the command with that code (R131), anything else is the model's fault. -/
def haltWith (h : Halt) (s : State) : Host.Outcome State Fault Refusal :=
  match h with
  | .error c => .next (raiseError c 0 s)
  | .fault f => .fault f

/-- The checks, on the shadow descriptor alone (R302). -/
def stepCheck (c : Command) (s : State) : Host.Outcome State Fault Refusal :=
  match validate c s.d with
  | .error (e, info) => .next (raiseError e info s)
  | .ok () => .next { s with phase := firstPhase c s.d }

/-- The palette fill, one step before the first unit (R310). -/
def stepFill (c : Command) (s : State) : Host.Outcome State Fault Refusal :=
  match c.fill with
  | none => .next { s with phase := walkPhase c s.d }
  | some fmt =>
    match paletteFill fmt s with
    | .error h => haltWith h s
    | .ok scr => .next { s with scr := scr, phase := walkPhase c s.d }

/-- One unit: its source bytes are read, then its output bytes are written (R310). -/
def stepUnit (c : Command) (s : State) : Host.Outcome State Fault Refusal :=
  match c.decodeUnit s with
  | .error h => haltWith h s
  | .ok u =>
    match applyWrites s.d.dstBase.toNat u.writes s.mem with
    | .error f => .fault f
    | .ok m => .next (advance c { s with scr := u.scr, mem := m })

/-- The completion (R312). -/
def stepFinish (c : Command) (s : State) : Host.Outcome State Fault Refusal :=
  match completeCommand (c.outLen s.d) s with
  | .error f => .fault f
  | .ok t => .next t

/-- One step of the engine on a running command (R300, R310). -/
def engineStep (c : Command) (s : State) : Host.Outcome State Fault Refusal :=
  match s.phase with
  | .check => stepCheck c s
  | .fill => stepFill c s
  | .walk => stepUnit c s
  | .finish => stepFinish c s

/-! ## The run of a command -/

/-- At most `n` engine steps, ending early where the command ends. -/
def runSteps (c : Command) : Nat → State → Host.Outcome State Fault Refusal
  | 0, s => .next s
  | n + 1, s =>
    if s.busy then
      match engineStep c s with
      | .next t => runSteps c n t
      | .fault f => .fault f
      | .refused r => .refused r
    else .next s

/-- Enough engine steps for any command with descriptor `d`: check, fill, every unit, completion (R314). -/
def stepBound (c : Command) (d : Desc) : Nat := 4 + c.rows d * (c.cols d + 1)

/-- The engine on a command: to the command's end (spec/46_dispatch.md R315), or for as many steps as the schedule
grants it (R300; notes/assumptions/1.md). An idle engine does nothing (spec/60_exceptions.md R345). -/
def runCommand (c : Command) (s : State) : Host.Outcome State Fault Refusal :=
  match s.slice with
  | some n => runSteps c n s
  | none => runSteps c (stepBound c s.d) s

end Sys2Proof.Machine
end

