-- ==== Sys2Proof/Machine/Ramp.lean ====
section
/-! DEFINITION. The ramp builders (spec/42_ramp_builder.md): the 4-entry colour ramp in its BC and CMPR variants and the
8-entry scalar ramp in its unsigned and signed modes. -/

namespace Sys2Proof.Machine

/-- `s3tc_blend` channel by channel, alpha 255 (R182). -/
def blendPixel (p q : Pixel) : Pixel := ⟨s3tcBlend p.r q.r, s3tcBlend p.g q.g, s3tcBlend p.b q.b, 255⟩

/-- `half_blend` channel by channel, alpha 255 (R182). -/
def averagePixel (p q : Pixel) : Pixel := ⟨halfBlend p.r q.r, halfBlend p.g q.g, halfBlend p.b q.b, 255⟩

/-- The four entries of a colour ramp, given what entry 3 is in the `c1 <= c2` branch. The comparison is of the raw
u16 values, unsigned (R180, R182). -/
def colorRampWith (last : Pixel → Pixel) (c1 c2 : BitVec 16) : Vector Pixel 4 :=
  let e0 := rgb565Decode c1 255
  let e1 := rgb565Decode c2 255
  if c2.toNat < c1.toNat then #v[e0, e1, blendPixel e1 e0, blendPixel e0 e1]
  else #v[e0, e1, averagePixel e0 e1, last (averagePixel e0 e1)]

/-- `color_ramp_bc`: entry 3 of the punch-through branch is transparent black (R182). -/
def colorRampBc (c1 c2 : BitVec 16) : Vector Pixel 4 := colorRampWith (fun _ => ⟨0, 0, 0, 0⟩) c1 c2

/-- `color_ramp_cmpr`: entry 3 of the `c1 <= c2` branch is entry 2 with alpha 0 (R187). -/
def colorRampCmpr (c1 c2 : BitVec 16) : Vector Pixel 4 := colorRampWith (fun e2 => { e2 with a := 0 }) c1 c2

/-- The sign mode of a scalar ramp (R183, R189). -/
inductive SignMode where
  | unsigned
  | signed
deriving DecidableEq, Repr

/-- An endpoint byte as the value its mode reads: 0x80 is -128 in signed mode, nothing clamps it (R183). -/
def endpointValue (mode : SignMode) (e : Byte) : Int :=
  match mode with
  | .unsigned => (e.toNat : Int)
  | .signed => e.toInt

/-- MIN of the mode's range (R183). -/
def rangeMin (mode : SignMode) : Int :=
  match mode with
  | .unsigned => 0
  | .signed => -128

/-- MAX of the mode's range (R183). -/
def rangeMax (mode : SignMode) : Int :=
  match mode with
  | .unsigned => 255
  | .signed => 127

/-- `idiv(n, m)`: the floor quotient in unsigned mode, truncation toward zero in signed mode (R186). -/
def idiv (mode : SignMode) (n m : Int) : Int :=
  match mode with
  | .unsigned => n / m
  | .signed => n.tdiv m

/-- A ramp value as the byte it is stored and written as (R183). -/
def rampByte (v : Int) : Byte := BitVec.ofInt 8 v

/-- The eight values of a scalar ramp: eight-value mode when `a1 > a2` (R184), six-value mode otherwise (R185). -/
def scalarRampValues (mode : SignMode) (a1 a2 : Int) : Vector Int 8 :=
  if a2 < a1 then
    #v[a1, a2, idiv mode (6 * a1 + 1 * a2) 7, idiv mode (5 * a1 + 2 * a2) 7, idiv mode (4 * a1 + 3 * a2) 7,
      idiv mode (3 * a1 + 4 * a2) 7, idiv mode (2 * a1 + 5 * a2) 7, idiv mode (1 * a1 + 6 * a2) 7]
  else
    #v[a1, a2, idiv mode (4 * a1 + 1 * a2) 5, idiv mode (3 * a1 + 2 * a2) 5, idiv mode (2 * a1 + 3 * a2) 5,
      idiv mode (1 * a1 + 4 * a2) 5, rangeMin mode, rangeMax mode]

/-- The scalar ramp of two endpoint bytes, as stored bytes (R183 to R186). -/
def scalarRamp (mode : SignMode) (e1 e2 : Byte) : Vector Byte 8 :=
  (scalarRampValues mode (endpointValue mode e1) (endpointValue mode e2)).map rampByte

end Sys2Proof.Machine
end

