-- ==== Sys2Proof/Machine/Translator.lean ====
section
/-! DEFINITION. The block-linear (GOB) address translator (spec/41_address_translator.md). -/

namespace Sys2Proof.Machine

/-- The least of `p, 2p, 4p, ...` that is `>= n`, given fuel for that many doublings. -/
def doubleUpTo (n : Nat) : Nat → Nat → Nat
  | 0, p => p
  | fuel + 1, p => if n ≤ p then p else doubleUpTo n fuel (2 * p)

/-- `next_pow2(n)`: the smallest power of two that is `>= n` (spec/00_scope.md R6). -/
def nextPow2 (n : Nat) : Nat := doubleUpTo n n 1

/-- `resolve_block_height`: the adaptive shrink, one halving at a time (R155). -/
def resolveBlockHeight (heightInBlocks : Nat) : Nat → Nat
  | 0 => 1
  | l + 1 =>
    if nextPow2 heightInBlocks < 8 * 2 ^ (l + 1) then resolveBlockHeight heightInBlocks l
    else 2 ^ (l + 1)

/-- GOBs side by side in one row of the surface (R152). -/
def widthInGobs (wb bpb : Nat) : Nat := ceilDiv (wb * bpb) 64

/-- `address(x_block, y_block, width_in_blocks, bytes_per_block, block_height, base)` (R152). -/
def blockAddress (x y wb bpb bh base : Nat) : Nat :=
  let xb := x * bpb
  let gob := base
    + (y / (8 * bh)) * 512 * bh * widthInGobs wb bpb
    + (xb / 64) * 512 * bh
    + ((y % (8 * bh)) / 8) * 512
  gob
    + ((xb % 64) / 32) * 256
    + ((y % 8) / 2) * 64
    + ((xb % 32) / 16) * 32
    + (y % 2) * 16
    + (xb % 16)

/-- `required_unswizzled_length`: the byte width rounded up to 64, times the block rows rounded up to `8*bh` (R154). -/
def requiredLength (wb hb bpb bh : Nat) : Nat :=
  (ceilDiv (wb * bpb) 64 * 64) * (ceilDiv hb (8 * bh) * (8 * bh))

end Sys2Proof.Machine
end

