-- ==== Sys2Proof/Machine/Bcn.lean ====
section
/-! DEFINITION. The BCn decompressor (spec/43_bcn_decompressor.md): the block layouts, the common procedure, and the
seven commands BC1, BC2, BC3, BC4U, BC4S, BC5U, BC5S. -/

namespace Sys2Proof.Machine

/-! ## Block layouts (R202 to R208) -/

/-- What a block header gives: the scratch state with the block's ramps, and the bytes of pixel `p` from its destination
offset on. -/
structure BlockOut where
  scr : Scratch
  texel : Nat → List Byte

/-- The 2-bit colour index of pixel `p`, pixel 0 least significant (R203, R208). -/
def colorIndex (idx : BitVec 32) (p : Nat) : BitVec 2 := idx.extractLsb' (2 * p) 2

/-- The 3-bit index of pixel `p`: pixels 0 to 7 in plane 0, 8 to 15 in plane 1 (R202, R208). -/
def scalarIndex (plane0 plane1 : BitVec 24) (p : Nat) : BitVec 3 :=
  if p < 8 then plane0.extractLsb' (3 * p) 3 else plane1.extractLsb' (3 * (p - 8)) 3

/-- The 4-bit alpha of pixel `p`: pixels 0 to 7 in plane 0, 8 to 15 in plane 1 (R204, R208). -/
def alphaNibble (plane0 plane1 : BitVec 32) (p : Nat) : BitVec 4 :=
  if p < 8 then plane0.extractLsb' (4 * p) 4 else plane1.extractLsb' (4 * (p - 8)) 4

/-- The colour ramp entry an index selects. -/
def colorAt (ramp : Vector Pixel 4) (i : BitVec 2) : Pixel := ramp[i.toNat]'(i.isLt)

/-- The scalar ramp entry an index selects. -/
def scalarAt (ramp : Vector Byte 8) (i : BitVec 3) : Byte := ramp[i.toNat]'(i.isLt)

/-- A colour block: its ramp and its index word (R203). -/
structure ColorBlock where
  ramp : Vector Pixel 4
  idx : BitVec 32

/-- Read a BC1-layout colour block at source offset `o` (R203). -/
def readColorBlock (w : Window) (m : Memory) (o : Nat) : Except Halt ColorBlock := do
  let c1 ← readU16le w m o
  let c2 ← readU16le w m (o + 2)
  let idx ← readU32le w m (o + 4)
  return { ramp := colorRampBc c1 c2, idx := idx }

/-- A scalar block: its ramp and its two index planes (R202). -/
structure ScalarBlock where
  ramp : Vector Byte 8
  plane0 : BitVec 24
  plane1 : BitVec 24

/-- Read a scalar block at source offset `o` (R202). -/
def readScalarBlock (mode : SignMode) (w : Window) (m : Memory) (o : Nat) : Except Halt ScalarBlock := do
  let e1 ← readU8 w m o
  let e2 ← readU8 w m (o + 1)
  let plane0 ← readU24le w m (o + 2)
  let plane1 ← readU24le w m (o + 5)
  return { ramp := scalarRamp mode e1 e2, plane0 := plane0, plane1 := plane1 }

/-- BC1: all four bytes from the colour ramp (R203, R210). -/
def bc1Block (w : Window) (m : Memory) (scr : Scratch) (o : Nat) : Except Halt BlockOut := do
  let c ← readColorBlock w m o
  let scr' := { scr with cramp := c.ramp }
  return { scr := scr', texel := fun p => pixelBytes (colorAt scr'.cramp (colorIndex c.idx p)) }

/-- BC2: alpha from the nibble planes, RGB from the colour block at `o + 8` (R204, R211). -/
def bc2Block (w : Window) (m : Memory) (scr : Scratch) (o : Nat) : Except Halt BlockOut := do
  let ap0 ← readU32le w m o
  let ap1 ← readU32le w m (o + 4)
  let c ← readColorBlock w m (o + 8)
  let scr' := { scr with cramp := c.ramp }
  return {
    scr := scr'
    texel := fun p =>
      pixelBytes { colorAt scr'.cramp (colorIndex c.idx p) with a := expandField (alphaNibble ap0 ap1 p) } }

/-- BC3: alpha from an unsigned scalar block, RGB from the colour block at `o + 8` (R205, R212). -/
def bc3Block (w : Window) (m : Memory) (scr : Scratch) (o : Nat) : Except Halt BlockOut := do
  let al ← readScalarBlock .unsigned w m o
  let c ← readColorBlock w m (o + 8)
  let scr' := { scr with cramp := c.ramp, sramp0 := al.ramp }
  return {
    scr := scr'
    texel := fun p =>
      pixelBytes { colorAt scr'.cramp (colorIndex c.idx p) with
        a := scalarAt scr'.sramp0 (scalarIndex al.plane0 al.plane1 p) } }

/-- BC4: the R byte only; G, B and A are not written at all (R206, R213, R214). -/
def bc4Block (mode : SignMode) (w : Window) (m : Memory) (scr : Scratch) (o : Nat) : Except Halt BlockOut := do
  let b ← readScalarBlock mode w m o
  let scr' := { scr with sramp0 := b.ramp }
  return { scr := scr', texel := fun p => [scalarAt scr'.sramp0 (scalarIndex b.plane0 b.plane1 p)] }

/-- BC5: R from channel 0, G from channel 1, B and A forced to MAX (R207, R215, R216). -/
def bc5Block (mode : SignMode) (w : Window) (m : Memory) (scr : Scratch) (o : Nat) : Except Halt BlockOut := do
  let b0 ← readScalarBlock mode w m o
  let b1 ← readScalarBlock mode w m (o + 8)
  let scr' := { scr with sramp0 := b0.ramp, sramp1 := b1.ramp }
  let max := rampByte (rangeMax mode)
  return {
    scr := scr'
    texel := fun p =>
      [scalarAt scr'.sramp0 (scalarIndex b0.plane0 b0.plane1 p),
        scalarAt scr'.sramp1 (scalarIndex b1.plane0 b1.plane1 p), max, max] }

/-! ## The common procedure (R201, R209) -/

/-- `width_in_blocks` of a BCn surface (R201). -/
def bcnCols (d : Desc) : Nat := ceilDiv d.w 4

/-- `height_in_blocks` of a BCn surface (R201). -/
def bcnRows (d : Desc) : Nat := ceilDiv d.tall 4

/-- The resolved block height of a block-linear BCn surface (R201 step 2). -/
def bcnBlockHeight (bhl2 : BitVec 3) (d : Desc) : Nat := resolveBlockHeight (bcnRows d) bhl2.toNat

/-- The required source length, block-linear or linear (R201, R209). -/
def bcnNeed (bpb : Nat) (lin : Bool) (bhl2 : BitVec 3) (d : Desc) : Nat :=
  if lin then bcnCols d * bcnRows d * bpb
  else requiredLength (bcnCols d) (bcnRows d) bpb (bcnBlockHeight bhl2 d)

/-- The source offset of block `(bx, by)` (R201 step 4, R209). -/
def bcnBlockOffset (bpb : Nat) (lin : Bool) (bhl2 : BitVec 3) (d : Desc) (bx by_ : Nat) : Nat :=
  if lin then (by_ * bcnCols d + bx) * bpb
  else blockAddress bx by_ (bcnCols d) bpb (bcnBlockHeight bhl2 d) 0

/-- The bytes of a block's pixels inside the image, row by row (R201: `iy < min(4, tall - by*4)`,
`ix < min(4, W - bx*4)`). -/
def clippedWrites (d : Desc) (bx by_ : Nat) (texel : Nat → List Byte) : List Write :=
  (List.range (min 4 (d.tall - by_ * 4))).flatMap fun iy =>
    (List.range (min 4 (d.w - bx * 4))).flatMap fun ix =>
      writesAt (((by_ * 4 + iy) * d.w + bx * 4 + ix) * 4) (texel (iy * 4 + ix))

/-- One block: the whole header is read, the ramps are built, the visible pixels are written (R201). -/
def bcnUnit (bpb : Nat) (lin : Bool) (bhl2 : BitVec 3)
    (block : Window → Memory → Scratch → Nat → Except Halt BlockOut) (s : State) : Except Halt UnitOut := do
  let b ← block s.d.src s.mem s.scr (bcnBlockOffset bpb lin bhl2 s.d s.scr.bx s.scr.by_)
  return { scr := b.scr, writes := clippedWrites s.d s.scr.bx s.scr.by_ b.texel }

/-- The seven commands differ in bytes per block and in the block decode only (R200). -/
def bcnCommand (bpb : Nat) (lin : Bool) (bhl2 : BitVec 3)
    (block : Window → Memory → Scratch → Nat → Except Halt BlockOut) : Command where
  usesSrc := true
  usesPal := false
  unsup := fun _ => !srcModeLegal lin bhl2
  dims := [Desc.width, Desc.height, Desc.depth]
  need := bcnNeed bpb lin bhl2
  exact := true
  outLen := fun d => d.w * d.tall * 4
  cols := bcnCols
  rows := bcnRows
  fill := none
  decodeUnit := bcnUnit bpb lin bhl2 block

/-! ## The commands (bytes per block: spec/10_state.md R39) -/

/-- BC1 (R210). -/
def bc1Command (lin : Bool) (bhl2 : BitVec 3) : Command := bcnCommand 8 lin bhl2 bc1Block

/-- BC2 (R211). -/
def bc2Command (lin : Bool) (bhl2 : BitVec 3) : Command := bcnCommand 16 lin bhl2 bc2Block

/-- BC3 (R212). -/
def bc3Command (lin : Bool) (bhl2 : BitVec 3) : Command := bcnCommand 16 lin bhl2 bc3Block

/-- BC4U (R213). -/
def bc4uCommand (lin : Bool) (bhl2 : BitVec 3) : Command := bcnCommand 8 lin bhl2 (bc4Block .unsigned)

/-- BC4S (R214). -/
def bc4sCommand (lin : Bool) (bhl2 : BitVec 3) : Command := bcnCommand 8 lin bhl2 (bc4Block .signed)

/-- BC5U (R215). -/
def bc5uCommand (lin : Bool) (bhl2 : BitVec 3) : Command := bcnCommand 16 lin bhl2 (bc5Block .unsigned)

/-- BC5S (R216). -/
def bc5sCommand (lin : Bool) (bhl2 : BitVec 3) : Command := bcnCommand 16 lin bhl2 (bc5Block .signed)

/-- BC1: FLAG 0 (UNorm) and 1 (sRGB) are identical in every effect (R210, spec/30_encoding.md R95). -/
def execBc1 (_srgb lin : Bool) (bhl2 : BitVec 3) (s : State) : Host.Outcome State Fault Refusal :=
  runCommand (bc1Command lin bhl2) s

/-- BC2 (R211). -/
def execBc2 (_srgb lin : Bool) (bhl2 : BitVec 3) (s : State) : Host.Outcome State Fault Refusal :=
  runCommand (bc2Command lin bhl2) s

/-- BC3 (R212). -/
def execBc3 (_srgb lin : Bool) (bhl2 : BitVec 3) (s : State) : Host.Outcome State Fault Refusal :=
  runCommand (bc3Command lin bhl2) s

/-- BC4U (R213). -/
def execBc4u (_srgb lin : Bool) (bhl2 : BitVec 3) (s : State) : Host.Outcome State Fault Refusal :=
  runCommand (bc4uCommand lin bhl2) s

/-- BC4S (R214). -/
def execBc4s (lin : Bool) (bhl2 : BitVec 3) (s : State) : Host.Outcome State Fault Refusal :=
  runCommand (bc4sCommand lin bhl2) s

/-- BC5U (R215). -/
def execBc5u (_srgb lin : Bool) (bhl2 : BitVec 3) (s : State) : Host.Outcome State Fault Refusal :=
  runCommand (bc5uCommand lin bhl2) s

/-- BC5S (R216). -/
def execBc5s (lin : Bool) (bhl2 : BitVec 3) (s : State) : Host.Outcome State Fault Refusal :=
  runCommand (bc5sCommand lin bhl2) s

end Sys2Proof.Machine
end

