-- ==== Sys2Proof/Machine/Deswz.lean ====
section
/-! DEFINITION. DESWZ (spec/41_address_translator.md R160): block-sized chunks of a swizzled surface copied into linear
block order, with the block constants of BLKDIM, and the inverse mapping (R161). -/

namespace Sys2Proof.Machine

/-- `width_in_blocks` of a DESWZ surface (R150). -/
def deswzCols (d : Desc) : Nat := ceilDiv d.w d.bw

/-- `height_in_blocks` of a DESWZ surface (R150). -/
def deswzRows (d : Desc) : Nat := ceilDiv d.tall d.bh

/-- The resolved block height (R155, R160). -/
def deswzBlockHeight (bhl2 : BitVec 3) (d : Desc) : Nat := resolveBlockHeight (deswzRows d) bhl2.toNat

/-- The source offset of block `(bx, by)` (R152, R160). -/
def deswzBlockOffset (bhl2 : BitVec 3) (d : Desc) (bx by_ : Nat) : Nat :=
  blockAddress bx by_ (deswzCols d) d.bpb (deswzBlockHeight bhl2 d) 0

/-- One block: BPB bytes read, BPB bytes written (R160). -/
def deswzUnit (bhl2 : BitVec 3) (s : State) : Except Halt UnitOut := do
  let bytes ← readBytes s.d.src s.mem (deswzBlockOffset bhl2 s.d s.scr.bx s.scr.by_) s.d.bpb
  return { scr := s.scr, writes := writesAt ((s.scr.by_ * deswzCols s.d + s.scr.bx) * s.d.bpb) bytes }

/-! ## The inverse mapping (R161), no command -/

/-- The copies of a re-swizzle: for every block `(bx, by)`, in raster order, its `bpb` bytes at `(by*wb + bx)*bpb` of the
linear bytes go to `address(bx, by, wb, bpb, bh, 0)` (R161). -/
def reswizzleWrites (wb hb bpb bh : Nat) (linear : Nat → Byte) : List Write :=
  (List.range hb).flatMap fun by_ =>
    (List.range wb).flatMap fun bx =>
      writesAt (blockAddress bx by_ wb bpb bh 0) ((List.range bpb).map fun k => linear ((by_ * wb + bx) * bpb + k))

/-- Re-swizzling the output of a DESWZ of descriptor `d`, as it stands in `m`, into the buffer that `start` holds at `base`:
the bytes of every block come from the output, the padding keeps what `start` has (R161). -/
def reswizzle (bhl2 : BitVec 3) (d : Desc) (m : Memory) (base : Nat) (start : Memory) : Except Fault Memory :=
  applyWrites base
    (reswizzleWrites (deswzCols d) (deswzRows d) d.bpb (deswzBlockHeight bhl2 d) fun o => byteAt m d.dst o) start

/-! ## The command -/

/-- DESWZ (R160). An illegal BLKDIM is E_UNSUP (spec/30_encoding.md R92, R101 item 8). -/
def deswzCommand (bhl2 : BitVec 3) : Command where
  usesSrc := true
  usesPal := false
  unsup := fun d => !bhl2Legal bhl2 || !d.blkdimLegal
  dims := [Desc.width, Desc.height, Desc.depth]
  need := fun d => requiredLength (deswzCols d) (deswzRows d) d.bpb (deswzBlockHeight bhl2 d)
  exact := true
  outLen := fun d => deswzCols d * deswzRows d * d.bpb
  cols := deswzCols
  rows := deswzRows
  fill := none
  decodeUnit := deswzUnit bhl2

/-- DESWZ (R160). -/
def execDeswz (bhl2 : BitVec 3) (s : State) : Host.Outcome State Fault Refusal :=
  runCommand (deswzCommand bhl2) s

end Sys2Proof.Machine
end

