-- ==== Sys2Proof/Machine/Gx.lean ====
section
/-! DEFINITION. The GX tiled decoder (spec/44_gx_tiled.md): the generic tiled walk with its cursor, the ten formats that
use it, RGBA8 with its two planes, and CMPR with its four sub-blocks. -/

namespace Sys2Proof.Machine

/-! ## The generic tiled walk (R241, R242) -/

/-- A format of the generic walk: macroblock size, bits per texel (spec/10_state.md R39), and the pixel of a texel, given
the destination offset it goes to. -/
structure GxFormat where
  tw : Nat
  th : Nat
  bits : Nat
  pixelOf : State → Nat → BitVec 16 → Pixel

/-- The nibble of a byte for texel `cur`: the high one first (R242). -/
def nibbleAt (b : Byte) (cur : Nat) : BitVec 4 := if cur % 2 = 0 then b.extractLsb' 4 4 else b.extractLsb' 0 4

/-- `fetch_texel(cur)`, zero-extended to 16 bits; a 16-bit texel is its two bytes, the first one high (R242). -/
def fetchTexel (bits : Nat) (w : Window) (m : Memory) (cur : Nat) : Except Halt (BitVec 16) :=
  if bits = 4 then (readU8 w m (cur / 2)).map fun b => (nibbleAt b cur).setWidth 16
  else if bits = 8 then (readU8 w m cur).map fun b => b.setWidth 16
  else readU16be w m (2 * cur)

/-- The bytes a texel writes: its pixel where `(x, y)` lies in the image, nothing for a padding texel (R241). -/
def texelWrites (f : GxFormat) (s : State) (x y : Nat) (t : BitVec 16) : List Write :=
  if x < s.d.w ∧ y < s.d.h then
    writesAt ((y * s.d.w + x) * 4) (pixelBytes (f.pixelOf s ((y * s.d.w + x) * 4) t))
  else []

/-- Texels `k, k+1, ..., k+n-1` of the macroblock at the sequencer position, row-major, the cursor advancing for each
whether or not it is written (R241). -/
def walkTexels (f : GxFormat) (s : State) : Nat → Nat → Nat → Except Halt (Nat × List Write)
  | 0, _, cur => .ok (cur, [])
  | n + 1, k, cur =>
    (fetchTexel f.bits s.d.src s.mem cur).bind fun t =>
      let here := texelWrites f s (s.scr.bx * f.tw + k % f.tw) (s.scr.by_ * f.th + k / f.tw) t
      (walkTexels f s n (k + 1) (cur + 1)).map fun r => (r.1, here ++ r.2)

/-- One macroblock from the cursor on (R241). -/
def gxUnit (f : GxFormat) (s : State) : Except Halt UnitOut :=
  (walkTexels f s (f.tw * f.th) 0 s.scr.cur).map fun r => { scr := { s.scr with cur := r.1 }, writes := r.2 }

/-- What all eleven GX commands share: source at least `gx_len`, WIDTH and HEIGHT only, output `W*H*4` (R240, R250). -/
def gxCommandOf (tw th bytesPerUnit : Nat) (fill : Option PalFmt) (unit : State → Except Halt UnitOut) : Command where
  usesSrc := true
  usesPal := fill.isSome
  unsup := fun _ => false
  dims := [Desc.width, Desc.height]
  need := fun d => ceilDiv d.w tw * ceilDiv d.h th * bytesPerUnit
  exact := false
  outLen := fun d => d.w * d.h * 4
  cols := fun d => ceilDiv d.w tw
  rows := fun d => ceilDiv d.h th
  fill := fill
  decodeUnit := unit

/-- A command of the generic walk: a macroblock is `TW*TH*bits/8` source bytes (R250). -/
def gxCommand (f : GxFormat) (fill : Option PalFmt) : Command :=
  gxCommandOf f.tw f.th (f.tw * f.th * f.bits / 8) fill (gxUnit f)

/-! ## Texel to pixel -/

/-- I4: the intensity in all four channels (R243). -/
def pixelI4 (t : BitVec 16) : Pixel := let i := expandField (t.extractLsb' 0 4); grey i i

/-- I8: the intensity in all four channels (R244). -/
def pixelI8 (t : BitVec 16) : Pixel := let i := t.extractLsb' 0 8; grey i i

/-- IA4: alpha in the high nibble, intensity in the low one (R245). -/
def pixelIa4 (t : BitVec 16) : Pixel := grey (expandField (t.extractLsb' 0 4)) (expandField (t.extractLsb' 4 4))

/-- `lookup(n)`: the palette entry, or four free bytes where `n >= pal_n`; no memory is read for it and no error is raised
(R258). The free bytes are drawn at the current event, at the pixel's destination offset (notes/assumptions/6.md). -/
def paletteLookup (s : State) (o n : Nat) : Pixel :=
  if n < s.scr.palN then s.scr.pal.getD n (stalePixel s.draws 0)
  else ⟨Config.drawByte s.draws o, Config.drawByte s.draws (o + 1), Config.drawByte s.draws (o + 2),
    Config.drawByte s.draws (o + 3)⟩

/-- C4 and C8: the index is the texel (R255, R256). -/
def pixelIndexed (s : State) (o : Nat) (t : BitVec 16) : Pixel := paletteLookup s o t.toNat

/-- C14X2: the index is bits 13:0 (R257). -/
def pixelC14x2 (s : State) (o : Nat) (t : BitVec 16) : Pixel := paletteLookup s o (t.extractLsb' 0 14).toNat

/-! ## Formats (spec/10_state.md R39) -/

/-- I4: 8x8, 4 bits. -/
def formatI4 : GxFormat := ⟨8, 8, 4, fun _ _ => pixelI4⟩

/-- I8: 8x4, 8 bits. -/
def formatI8 : GxFormat := ⟨8, 4, 8, fun _ _ => pixelI8⟩

/-- IA4: 8x4, 8 bits. -/
def formatIa4 : GxFormat := ⟨8, 4, 8, fun _ _ => pixelIa4⟩

/-- IA8: 4x4, 16 bits. -/
def formatIa8 : GxFormat := ⟨4, 4, 16, fun _ _ => palFmtPixel .ia8⟩

/-- RGB565: 4x4, 16 bits. -/
def formatRgb565 : GxFormat := ⟨4, 4, 16, fun _ _ => palFmtPixel .rgb565⟩

/-- RGB5A3: 4x4, 16 bits. -/
def formatRgb5a3 : GxFormat := ⟨4, 4, 16, fun _ _ => palFmtPixel .rgb5a3⟩

/-- C4: 8x8, 4 bits. -/
def formatC4 : GxFormat := ⟨8, 8, 4, pixelIndexed⟩

/-- C8: 8x4, 8 bits. -/
def formatC8 : GxFormat := ⟨8, 4, 8, pixelIndexed⟩

/-- C14X2: 4x4, 16 bits. -/
def formatC14x2 : GxFormat := ⟨4, 4, 16, pixelC14x2⟩

/-! ## RGBA8 (R260) -/

/-- Pixel `p` of the macroblock at source offset `o`: A and R from the first 32 bytes, G and B from the last 32. -/
def rgba8Pixel (m : Memory) (w : Window) (o p : Nat) : Pixel where
  r := byteAt m w (o + 2 * p + 1)
  g := byteAt m w (o + 32 + 2 * p)
  b := byteAt m w (o + 32 + 2 * p + 1)
  a := byteAt m w (o + 2 * p)

/-- The visible pixels among `ps` of a tile whose top left corner is `(x0, y0)`, four columns wide, each with its bytes
(R260, R262). -/
def tileWrites (d : Desc) (x0 y0 : Nat) (pixel : Nat → Pixel) : List Write :=
  (List.range 16).flatMap fun p =>
    if x0 + p % 4 < d.w ∧ y0 + p / 4 < d.h then
      writesAt (((y0 + p / 4) * d.w + (x0 + p % 4)) * 4) (pixelBytes (pixel p))
    else []

/-- One 4x4 macroblock of 64 bytes, in two passes (R260). -/
def rgba8Unit (s : State) : Except Halt UnitOut := do
  let o := (s.scr.by_ * ceilDiv s.d.w 4 + s.scr.bx) * 64
  let _ ← guardRead s.d.src o 32
  let _ ← guardRead s.d.src (o + 32) 32
  return { scr := s.scr, writes := tileWrites s.d (s.scr.bx * 4) (s.scr.by_ * 4) (rgba8Pixel s.mem s.d.src o) }

/-! ## CMPR (R261, R262) -/

/-- The 2-bit index of pixel `ix` in a row byte, pixel 0 in bits 7:6 (R261). -/
def cmprIndex (row : Byte) (ix : Nat) : BitVec 2 := row.extractLsb' (6 - 2 * ix) 2

/-- One sub-block at source offset `o`, its top left pixel at `(x0, y0)`: big-endian endpoints, one row byte a row
(R261). -/
def cmprSubBlock (s : State) (scr : Scratch) (o x0 y0 : Nat) : Except Halt UnitOut := do
  let c1 ← readU16be s.d.src s.mem o
  let c2 ← readU16be s.d.src s.mem (o + 2)
  let row0 ← readU8 s.d.src s.mem (o + 4)
  let row1 ← readU8 s.d.src s.mem (o + 5)
  let row2 ← readU8 s.d.src s.mem (o + 6)
  let row3 ← readU8 s.d.src s.mem (o + 7)
  let scr' := { scr with cramp := colorRampCmpr c1 c2 }
  let row (iy : Nat) : Byte := if iy = 0 then row0 else if iy = 1 then row1 else if iy = 2 then row2 else row3
  return {
    scr := scr'
    writes := tileWrites s.d x0 y0 fun p => colorAt scr'.cramp (cmprIndex (row (p / 4)) (p % 4)) }

/-- The sub-blocks `k, k+1, ..., k+n-1` of the macroblock at source offset `o`: UL, UR, BL, BR, eight bytes each whether
or not any pixel of it is visible (R262). -/
def cmprQuadrants (s : State) (o : Nat) : Nat → Nat → Scratch → Except Halt UnitOut
  | 0, _, scr => .ok { scr := scr, writes := [] }
  | n + 1, k, scr => do
    let u ← cmprSubBlock s scr (o + 8 * k) (s.scr.bx * 8 + k % 2 * 4) (s.scr.by_ * 8 + k / 2 * 4)
    let rest ← cmprQuadrants s o n (k + 1) u.scr
    return { scr := rest.scr, writes := u.writes ++ rest.writes }

/-- One 8x8 macroblock of 32 bytes (R262). -/
def cmprUnit (s : State) : Except Halt UnitOut :=
  cmprQuadrants s ((s.scr.by_ * ceilDiv s.d.w 8 + s.scr.bx) * 32) 4 0 s.scr

/-! ## The commands -/

/-- GX.I4 (R243). -/
def gxI4Command : Command := gxCommand formatI4 none

/-- GX.I8 (R244). -/
def gxI8Command : Command := gxCommand formatI8 none

/-- GX.IA4 (R245). -/
def gxIa4Command : Command := gxCommand formatIa4 none

/-- GX.IA8 (R246). -/
def gxIa8Command : Command := gxCommand formatIa8 none

/-- GX.RGB565 (R247). -/
def gxRgb565Command : Command := gxCommand formatRgb565 none

/-- GX.RGB5A3 (R248). -/
def gxRgb5a3Command : Command := gxCommand formatRgb5a3 none

/-- GX.RGBA8 (R260). -/
def gxRgba8Command : Command := gxCommandOf 4 4 64 none rgba8Unit

/-- GX.C4 (R255, R259). -/
def gxC4Command (pal : PalFmt) : Command := gxCommand formatC4 (some pal)

/-- GX.C8 (R256, R259). -/
def gxC8Command (pal : PalFmt) : Command := gxCommand formatC8 (some pal)

/-- GX.C14X2 (R257, R259). -/
def gxC14x2Command (pal : PalFmt) : Command := gxCommand formatC14x2 (some pal)

/-- GX.CMPR (R262). -/
def gxCmprCommand : Command := gxCommandOf 8 8 32 none cmprUnit

/-- GX.I4 (R243). -/
def execGxI4 (s : State) : Host.Outcome State Fault Refusal := runCommand gxI4Command s

/-- GX.I8 (R244). -/
def execGxI8 (s : State) : Host.Outcome State Fault Refusal := runCommand gxI8Command s

/-- GX.IA4 (R245). -/
def execGxIa4 (s : State) : Host.Outcome State Fault Refusal := runCommand gxIa4Command s

/-- GX.IA8 (R246). -/
def execGxIa8 (s : State) : Host.Outcome State Fault Refusal := runCommand gxIa8Command s

/-- GX.RGB565 (R247). -/
def execGxRgb565 (s : State) : Host.Outcome State Fault Refusal := runCommand gxRgb565Command s

/-- GX.RGB5A3 (R248). -/
def execGxRgb5a3 (s : State) : Host.Outcome State Fault Refusal := runCommand gxRgb5a3Command s

/-- GX.RGBA8 (R260). -/
def execGxRgba8 (s : State) : Host.Outcome State Fault Refusal := runCommand gxRgba8Command s

/-- GX.C4 (R255). -/
def execGxC4 (pal : PalFmt) (s : State) : Host.Outcome State Fault Refusal := runCommand (gxC4Command pal) s

/-- GX.C8 (R256). -/
def execGxC8 (pal : PalFmt) (s : State) : Host.Outcome State Fault Refusal := runCommand (gxC8Command pal) s

/-- GX.C14X2 (R257). -/
def execGxC14x2 (pal : PalFmt) (s : State) : Host.Outcome State Fault Refusal := runCommand (gxC14x2Command pal) s

/-- GX.CMPR (R262). -/
def execGxCmpr (s : State) : Host.Outcome State Fault Refusal := runCommand gxCmprCommand s

end Sys2Proof.Machine
end

