-- ==== Sys2Proof/Machine/Palette.lean ====
section
/-! DEFINITION. The palette expander's commands PAL.IA8, PAL.RGB565, PAL.RGB5A3 (spec/45_palette.md R291 to R293). -/

namespace Sys2Proof.Machine

/-- One palette entry, read and written as four bytes (R290, R291). -/
def palUnit (fmt : PalFmt) (s : State) : Except Halt UnitOut :=
  (palEntry fmt s.d s.mem s.scr.bx).map fun p => { scr := s.scr, writes := writesAt (4 * s.scr.bx) (pixelBytes p) }

/-- A PAL command: no dimensions, no source window, no required length; one row of `PAL_LEN / 2` entries, not capped by
the palette RAM (R291, spec/46_dispatch.md R304, R306, R310). -/
def palCommand (fmt : PalFmt) : Command where
  usesSrc := false
  usesPal := true
  unsup := fun _ => false
  dims := []
  need := fun _ => 0
  exact := false
  outLen := fun d => 4 * d.palEntries
  cols := Desc.palEntries
  rows := fun _ => 1
  fill := none
  decodeUnit := palUnit fmt

/-- PAL.IA8 (R291). -/
def execPalIa8 (s : State) : Host.Outcome State Fault Refusal := runCommand (palCommand .ia8) s

/-- PAL.RGB565 (R292). -/
def execPalRgb565 (s : State) : Host.Outcome State Fault Refusal := runCommand (palCommand .rgb565) s

/-- PAL.RGB5A3 (R293). -/
def execPalRgb5a3 (s : State) : Host.Outcome State Fault Refusal := runCommand (palCommand .rgb5a3) s

end Sys2Proof.Machine
end

