-- ==== Sys2Proof/Machine/Commands.lean ====
section
/-! DEFINITION. The command of each instruction (spec/46_dispatch.md R309), for the host's side (which windows are in
use) and for statements. -/

namespace Sys2Proof.Machine

/-- The datapath an instruction selects (R309). -/
def commandOf : Instr → Command
  | .deswz bhl2 => deswzCommand bhl2
  | .bc1 _ lin bhl2 => bc1Command lin bhl2
  | .bc2 _ lin bhl2 => bc2Command lin bhl2
  | .bc3 _ lin bhl2 => bc3Command lin bhl2
  | .bc4u _ lin bhl2 => bc4uCommand lin bhl2
  | .bc4s lin bhl2 => bc4sCommand lin bhl2
  | .bc5u _ lin bhl2 => bc5uCommand lin bhl2
  | .bc5s lin bhl2 => bc5sCommand lin bhl2
  | .gxI4 => gxI4Command
  | .gxI8 => gxI8Command
  | .gxIa4 => gxIa4Command
  | .gxIa8 => gxIa8Command
  | .gxRgb565 => gxRgb565Command
  | .gxRgb5a3 => gxRgb5a3Command
  | .gxRgba8 => gxRgba8Command
  | .gxC4 pal => gxC4Command pal
  | .gxC8 pal => gxC8Command pal
  | .gxC14x2 pal => gxC14x2Command pal
  | .gxCmpr => gxCmprCommand
  | .palIa8 => palCommand .ia8
  | .palRgb565 => palCommand .rgb565
  | .palRgb5a3 => palCommand .rgb5a3

/-- The command writes the byte at this offset of its output range: BC4 writes the R bytes only, every other command all
(spec/43_bcn_decompressor.md R217, spec/46_dispatch.md R311). -/
def writesOffset (i : Instr) (o : Nat) : Bool :=
  match i with
  | .bc4u _ _ _ => o % 4 == 0
  | .bc4s _ _ => o % 4 == 0
  | _ => true

end Sys2Proof.Machine
end

