-- ==== Sys2Proof/Machine/Dispatch.lean ====
section
/-! DEFINITION. One arm per command (spec/30_encoding.md R100): the engine running that command. -/

namespace Sys2Proof.Machine

open Sys2Proof

def exec (i : Instr) (s : State) : Host.Outcome State Fault Refusal :=
  match i with
  | .deswz bhl2 => Sys2Proof.Machine.execDeswz bhl2 s
  | .bc1 srgb lin bhl2 => Sys2Proof.Machine.execBc1 srgb lin bhl2 s
  | .bc2 srgb lin bhl2 => Sys2Proof.Machine.execBc2 srgb lin bhl2 s
  | .bc3 srgb lin bhl2 => Sys2Proof.Machine.execBc3 srgb lin bhl2 s
  | .bc4u srgb lin bhl2 => Sys2Proof.Machine.execBc4u srgb lin bhl2 s
  | .bc4s lin bhl2 => Sys2Proof.Machine.execBc4s lin bhl2 s
  | .bc5u srgb lin bhl2 => Sys2Proof.Machine.execBc5u srgb lin bhl2 s
  | .bc5s lin bhl2 => Sys2Proof.Machine.execBc5s lin bhl2 s
  | .gxI4 => Sys2Proof.Machine.execGxI4 s
  | .gxI8 => Sys2Proof.Machine.execGxI8 s
  | .gxIa4 => Sys2Proof.Machine.execGxIa4 s
  | .gxIa8 => Sys2Proof.Machine.execGxIa8 s
  | .gxRgb565 => Sys2Proof.Machine.execGxRgb565 s
  | .gxRgb5a3 => Sys2Proof.Machine.execGxRgb5a3 s
  | .gxRgba8 => Sys2Proof.Machine.execGxRgba8 s
  | .gxC4 pal => Sys2Proof.Machine.execGxC4 pal s
  | .gxC8 pal => Sys2Proof.Machine.execGxC8 pal s
  | .gxC14x2 pal => Sys2Proof.Machine.execGxC14x2 pal s
  | .gxCmpr => Sys2Proof.Machine.execGxCmpr s
  | .palIa8 => Sys2Proof.Machine.execPalIa8 s
  | .palRgb565 => Sys2Proof.Machine.execPalRgb565 s
  | .palRgb5a3 => Sys2Proof.Machine.execPalRgb5a3 s

end Sys2Proof.Machine
end

