-- ==== Sys2Proof/Machine/Flags.lean ====
section
/-! DEFINITION. STATUS, IRQ_EN and the interrupt line (spec/10_state.md R23, R26, R28, spec/60_exceptions.md R336). -/

namespace Sys2Proof.Machine

/-- A flag as its bit of a register. -/
def bitOf (b : Bool) : BitVec 1 := BitVec.ofBool b

/-- STATUS as the host reads it: BUSY, DONE, ERR in bits 0 to 2, ERRCODE in bits 7:4, every other bit 0 (R26). -/
def statusWord (s : State) : Word :=
  0#24 ++ s.errcode ++ 0#1 ++ bitOf s.err ++ bitOf s.done ++ bitOf s.busy

/-- A host write to STATUS: bit 1 set clears DONE, bit 2 set clears ERR and ERRCODE together, other written bits are
ignored; OUT_LEN and ERR_INFO keep their values (R26). -/
def writeStatus (v : Word) (s : State) : State :=
  { s with
    done := s.done && !v.getLsbD 1
    err := s.err && !v.getLsbD 2
    errcode := if v.getLsbD 2 then 0 else s.errcode }

/-- IRQ_EN as the host reads it: bits 31:2 read 0 (R28). -/
def irqEnWord (s : State) : Word := 0#30 ++ bitOf s.errIe ++ bitOf s.doneIe

/-- A host write to IRQ_EN: bits 31:2 ignore writes (R28). -/
def writeIrqEn (v : Word) (s : State) : State :=
  { s with doneIe := v.getLsbD 0, errIe := v.getLsbD 1 }

/-- The interrupt output, a level function of the two registers (R336). -/
def State.irq (s : State) : Bool := (s.done && s.doneIe) || (s.err && s.errIe)

end Sys2Proof.Machine
end

