-- ==== Sys2Proof/Machine/Agents.lean ====
section
/-! DEFINITION. The two agents (spec/46_dispatch.md R300): the engine's turn, and the host's register, memory and reset
transactions (spec/10_state.md R24 to R36, spec/20_memory.md R72, spec/70_reset_and_hazards.md R360, R361, R366). -/

namespace Sys2Proof.Machine

/-! ## The engine's turn -/

/-- The command the engine is on: the shadow descriptor's CMD word (spec/30_encoding.md R90). -/
def runningCommand (s : State) : Except DecodeError Instr := decode s.d.cmd

/-- The engine moves for as long as `slice` grants. A CMD word that selects no command is check 1's error E_UNSUP
(spec/46_dispatch.md R303); an idle engine does nothing (spec/60_exceptions.md R345). -/
def engineTurn (s : State) : Host.Outcome State Fault Refusal :=
  if s.busy = false ∨ s.slice = some 0 then .next s
  else
    match runningCommand s with
    | .error _ => .next (raiseError .unsup 0 s)
    | .ok i => exec i s

/-! ## The register port -/

/-- The sixteen registers in offset order (spec/10_state.md R24). -/
def regTable : List Reg :=
  [.ctrl, .status, .irqEn, .cmd, .width, .height, .depth, .blkdim, .srcBase, .srcLen, .dstBase, .dstLen, .palBase,
    .palLen, .outLen, .errInfo]

/-- The register an access names: only aligned 32-bit accesses at offsets below 0x40 name one (spec/10_state.md R35,
spec/20_memory.md R61). -/
def regAt (offset bytes : Nat) : Option Reg :=
  if bytes = 4 ∧ offset % 4 = 0 then regTable[offset / 4]? else none

/-- What a register read returns (spec/10_state.md R24 to R34). -/
def readReg (s : State) : Reg → Word
  | .ctrl => 0
  | .status => statusWord s
  | .irqEn => irqEnWord s
  | .cmd => s.reg.cmd
  | .width => s.reg.width
  | .height => s.reg.height
  | .depth => s.reg.depth
  | .blkdim => s.reg.blkdim
  | .srcBase => s.reg.srcBase
  | .srcLen => s.reg.srcLen
  | .dstBase => s.reg.dstBase
  | .dstLen => s.reg.dstLen
  | .palBase => s.reg.palBase
  | .palLen => s.reg.palLen
  | .outLen => s.outLen
  | .errInfo => s.errInfo

/-- A descriptor register written; dropped while BUSY (spec/10_state.md R27). -/
def writeDesc (s : State) (reg : Desc) : State := if s.busy then s else { s with reg := reg }

/-- A register write (spec/10_state.md R24 to R34): CTRL bit 0 is START, ignored while BUSY (R25); OUT_LEN and ERR_INFO
are read-only. -/
def writeReg (s : State) (r : Reg) (v : Word) : State :=
  match r with
  | .ctrl => if v.getLsbD 0 ∧ s.busy = false then startCommand s else s
  | .status => writeStatus v s
  | .irqEn => writeIrqEn v s
  | .cmd => writeDesc s { s.reg with cmd := v }
  | .width => writeDesc s { s.reg with width := v }
  | .height => writeDesc s { s.reg with height := v }
  | .depth => writeDesc s { s.reg with depth := v }
  | .blkdim => writeDesc s { s.reg with blkdim := v }
  | .srcBase => writeDesc s { s.reg with srcBase := v }
  | .srcLen => writeDesc s { s.reg with srcLen := v }
  | .dstBase => writeDesc s { s.reg with dstBase := v }
  | .dstLen => writeDesc s { s.reg with dstLen := v }
  | .palBase => writeDesc s { s.reg with palBase := v }
  | .palLen => writeDesc s { s.reg with palLen := v }
  | .outLen => s
  | .errInfo => s

/-! ## Host duties (spec/20_memory.md R72, spec/70_reset_and_hazards.md R366) -/

/-- The address lies in the destination window of the command that `d` describes. -/
def inDst (d : Desc) (a : Nat) : Bool :=
  match decode d.cmd with
  | .ok _ => d.dst.has a
  | .error _ => false

/-- The address lies in a source or palette window that the command that `d` describes uses. -/
def inInput (d : Desc) (a : Nat) : Bool :=
  match decode d.cmd with
  | .ok i => ((commandOf i).usesSrc && d.src.has a) || ((commandOf i).usesPal && d.pal.has a)
  | .error _ => false

/-- The address lies in the destination window of the running command. -/
def inRunningDst (s : State) (a : Nat) : Bool := s.busy && inDst s.d a

/-- The address lies in a source or palette window that the running command uses. -/
def inRunningInput (s : State) (a : Nat) : Bool := s.busy && inInput s.d a

/-- The command that `d` describes, with `n` bytes of output, writes the byte at `x` (spec/46_dispatch.md R311). -/
def writesByte (d : Desc) (n x : Nat) : Bool :=
  match decode d.cmd with
  | .ok i => decide (d.dst.base ≤ x) && decide (x < d.dst.base + n) && writesOffset i (x - d.dst.base)
  | .error _ => false

/-- The running command writes the byte at `x`; one that the checks refuse writes none (spec/46_dispatch.md R302). -/
def runningWrites (s : State) (x : Nat) : Bool :=
  s.busy && (match decode s.d.cmd with
    | .ok i =>
      match validate (commandOf i) s.d with
      | .ok _ => writesByte s.d ((commandOf i).outLen s.d) x
      | .error _ => false
    | .error _ => false)

/-- The running command taken to its end, where it ends without error: what memory would then hold, and how many bytes of
output it has. -/
def completed (s : State) : Option (Memory × Nat) :=
  if s.busy then
    match engineTurn { s with slice := none } with
    | .next t => if t.done then some (t.mem, t.outLen.toNat) else none
    | .fault _ => none
    | .refused _ => none
  else none

/-- A byte of memory that is, freely, its value at START or the one the running command leaves (spec/70_reset_and_hazards.md
R361, R366). `o` is its destination offset. -/
def oldOrNew (s : State) (final : Memory) (a o : Nat) : Byte :=
  if Config.takesNew s.draws o then final.read a else s.old.read a

/-- A host read of one byte of memory, as far as the running command goes: inside its destination window the read returns
the old or the new value, and breaks R72 (R366; notes/assumptions/8.md). -/
def readBesideRunning (s : State) (a : Nat) : State :=
  if inRunningDst s a then
    { s with
      memData :=
        match completed s with
        | some (final, _) => oldOrNew s final a (a - s.d.dst.base)
        | none => s.mem.read a
      touched := true
      draws := s.draws + 1 }
  else { s with memData := s.mem.read a }

/-- A host write of one byte of memory, as far as the running command goes: inside one of its windows the write breaks R72
(R366; notes/assumptions/7.md). -/
def writeBesideRunning (s : State) (a : Nat) (b : Byte) : State :=
  { s with
    mem := s.mem.write a b
    touched := s.touched || inRunningDst s a || inRunningInput s a }

/-- The output range of an ended command. -/
def Ended.output (e : Ended) : Window := ⟨e.d.dstBase.toNat, e.outLen⟩

/-- The ended command wrote the byte at `x`. -/
def Ended.wrote (e : Ended) (x : Nat) : Bool := writesByte e.d e.outLen x

/-- What stands at `x` after the ended commands `es`, the latest first, when the duties to those that `hit` names are
broken: a free value, where `x` is in the output range of such a command and no later one of `es` wrote it; else nothing
new. A later command's byte is that command's still (spec/46_dispatch.md R315). -/
def freedByte (hit : Ended → Bool) (ev x : Nat) : List Ended → Option Byte
  | [] => none
  | e :: es =>
    if hit e && e.output.has x then some (Config.hazardByte (ev + es.length) (x - e.output.base))
    else if e.wrote x then none
    else freedByte hit ev x es

/-- Memory `m` after the ended commands `es` with the freed bytes at their free values, but for those that `kept` names. -/
def freeMemory (hit : Ended → Bool) (ev : Nat) (kept : Nat → Bool) (es : List Ended) (m : Memory) : Memory :=
  es.foldl (fun m' e =>
    putBytes e.output.base (fun o =>
      if kept (e.output.base + o) then m.read (e.output.base + o)
      else (freedByte hit ev (e.output.base + o) es).getD (m.read (e.output.base + o))) e.output.len m') m

/-- The ended commands, each with the bytes freed that it found in memory at its START. -/
def freeOlds (hit : Ended → Bool) (ev : Nat) : List Ended → List Ended
  | [] => []
  | e :: es => { e with old := freeMemory hit ev (fun _ => false) es e.old } :: freeOlds hit ev es

/-- The bytes of the ended commands that `hit` names are unspecified from their completion on (R366): in memory, and in what
memory was at every later START. The running command's own bytes are not among them: they stay what
spec/20_memory.md R70 and spec/46_dispatch.md R315 make them. -/
def freeEnded (hit : Ended → Bool) (s : State) : State :=
  { s with
    mem := freeMemory hit s.draws (runningWrites s) s.ended s.mem
    old := freeMemory hit s.draws (fun _ => false) s.ended s.old
    ended := freeOlds hit s.draws s.ended
    draws := s.draws + s.ended.length }

/-- The running command, where the checks accept it, at its completion: every unit has been taken. Which units the engine
has taken at any moment is the schedule's choice (spec/46_dispatch.md R300). -/
def walkToEnd (s : State) : State :=
  match completed s with
  | some (final, _) => { s with mem := final, phase := .finish }
  | none => s

/-- The host broke its duties to the ended commands that `hit` names, before it observed `BUSY = 0`: the bytes of their
output range that no later command writes are now free (R366). No duty to another command is broken by that, so each of
them, a running one too, leaves what it makes of one content of its source (spec/20_memory.md R70, spec/46_dispatch.md
R315): of the bytes as they stood, where it started before the access (DESIGN CHOICE, notes/assumptions/19.md). -/
def breakDuties (hit : Ended → Bool) (s : State) : State :=
  if s.ended.any hit then freeEnded hit (walkToEnd s) else s

/-- What a host read at `a` returns, given the byte `b` that it finds: for every ended command whose destination window it
touches, the new value, or the one before that command (R366). -/
def seenByte (a ev : Nat) : List Ended → Byte → Byte
  | [], b => b
  | e :: es, b =>
    seenByte a ev es (if inDst e.d a && !Config.takesNew (ev + es.length) (a - e.output.base) then e.old.read a else b)

/-- A host read of one byte of memory: inside the destination window of an ended command it breaks the duty to it. -/
def hostMemRead (s : State) (a : Nat) : State :=
  let t := readBesideRunning s a
  breakDuties (fun e => inDst e.d a) { t with memData := seenByte a t.draws s.ended t.memData }

/-- A host write of one byte of memory: inside a window of an ended command it breaks the duty to it. -/
def hostMemWrite (s : State) (a : Nat) (b : Byte) : State :=
  breakDuties (fun e => inDst e.d a || inInput e.d a) (writeBesideRunning s a b)

/-! ## Reset (spec/70_reset_and_hazards.md R360, R361) -/

/-- Memory after a reset: untouched, but for the output range of a command that the reset abandons, each byte of which is
at its old or its new value (R361). -/
def memAfterReset (s : State) : Memory :=
  match completed s with
  | some (final, n) => putBytes s.d.dst.base (fun o => oldOrNew s final (s.d.dst.base + o) o) n s.mem
  | none => s.mem

/-- Reset asserted: every host-visible register at its reset value, the engine idle, the internal state unspecified
(R360, spec/10_state.md R43). The host's own transactions still to come, what it has read, and its duties to commands
whose end it has not observed are not the TDU's (notes/assumptions/14.md). -/
def resetMachine (s : State) : State :=
  { State.reset with
    mem := memAfterReset s
    inReset := true
    d := staleDesc s.draws
    scr := staleScratch s.draws
    ended := s.ended
    draws := s.draws + 1
    script := s.script
    regData := s.regData
    memData := s.memData }

/-- The reset input at a level: asserted it resets the machine, released it lets the machine go on from the reset values
(R360). -/
def resetInput (asserted : Bool) (s : State) : State :=
  if asserted then resetMachine s else { s with inReset := false }

/-! ## One turn of the host -/

/-- A register write on the register port: one that names no register writes nothing (spec/10_state.md R35), and while
reset is asserted every register is held at its reset value (R360; notes/assumptions/18.md). -/
def hostRegWrite (s : State) (offset bytes : Nat) (v : Word) : State :=
  match regAt offset bytes with
  | some r => if s.inReset then s else writeReg s r v
  | none => s

/-- The host has seen `BUSY = 0`, or `irq` up, if `seen`: every command has ended for it (spec/20_memory.md R71). -/
def observeIdle (seen : Bool) (s : State) : State := if seen then { s with ended := [] } else s

/-- A register read on the register port: one that names no register reads 0 (spec/10_state.md R35); one of STATUS that
shows `BUSY = 0` is the observation of spec/70_reset_and_hazards.md R366. -/
def hostRegRead (s : State) (offset bytes : Nat) : State :=
  match regAt offset bytes with
  | some r => observeIdle (decide (r = .status) && !s.busy) { s with regData := readReg s r }
  | none => { s with regData := 0 }

/-- The host looks at the interrupt line; where it is up, that is an observation too (spec/20_memory.md R71). -/
def hostIrqRead (s : State) : State := observeIdle s.irq { s with regData := (bitOf s.irq).setWidth 32 }

/-- The effect of one host transaction. The engine's turn is none of the host's: it is taken by `step`. -/
def hostTurn (op : HostOp) (s : State) : State :=
  match op with
  | .regWrite offset bytes v => hostRegWrite s offset bytes v
  | .regRead offset bytes => hostRegRead s offset bytes
  | .memWrite a b => hostMemWrite s a.toNat b
  | .memRead a => hostMemRead s a.toNat
  | .irqRead => hostIrqRead s
  | .reset asserted => resetInput asserted s
  | .engine _ => s

/-! ## Host-program notation (spec/30_encoding.md R105) -/

/-- The byte offset of a register (spec/10_state.md R24). -/
def Reg.offset (r : Reg) : Nat := 4 * regTable.idxOf r

/-- `WR reg, value`. -/
def opWr (r : Reg) (v : Word) : HostOp := .regWrite r.offset 4 v

/-- `RD reg`. -/
def opRd (r : Reg) : HostOp := .regRead r.offset 4

/-- `RUN mnemonic`: WR CMD with the command word, then WR CTRL, 1. -/
def opRun (i : Instr) : List HostOp := [opWr .cmd (encode i), opWr .ctrl 1]

/-- `WAIT`: the engine moves until the command has ended, then STATUS is read. -/
def opWait : List HostOp := [.engine none, opRd .status]

/-- `DECODE mnemonic, w, h, d, src, dst, pal`: the descriptor writes, then RUN, then WAIT. -/
def opDecode (i : Instr) (w h d srcB srcL dstB dstL palB palL : Word) : List HostOp :=
  [opWr .width w, opWr .height h, opWr .depth d, opWr .srcBase srcB, opWr .srcLen srcL, opWr .dstBase dstB,
    opWr .dstLen dstL, opWr .palBase palB, opWr .palLen palL] ++ opRun i ++ opWait

end Sys2Proof.Machine
end

