-- ==== Sys2Proof/Machine/Step.lean ====
section
/-! DEFINITION. One step of the machine: the next turn of the schedule, the host's or the engine's (spec/46_dispatch.md
R300). -/

namespace Sys2Proof.Machine

/-- With no host transaction to come, the engine runs its command to the end, or idles; else the next turn of `script` is
taken (notes/assumptions/1.md). -/
def step (s : State) : Host.Outcome State Fault Refusal :=
  match s.script with
  | [] => engineTurn { s with slice := none }
  | .engine n :: rest => engineTurn { s with script := rest, slice := n }
  | op :: rest => .next (hostTurn op { s with script := rest })

/-- `s` with the command word `w` in CMD, the reset input released, just after an accepted START and with no other host
transaction to come, so that the very next step runs the command (spec/46_dispatch.md R301; notes/assumptions/2.md). -/
def State.withFetchWord (s : State) (nbits w : Nat) : State :=
  startCommand { s with reg := { s.reg with cmd := BitVec.ofNat 32 (w % 2 ^ nbits) }, inReset := false, script := [] }

end Sys2Proof.Machine
end

