-- ==== Sys2Proof/Safety.lean ====
section
/-! DEFINITION. The terms that statements use, written from the spec's tables and not from the machine: when a command is
accepted (spec/46_dispatch.md R302 to R307), the byte it leaves at each destination offset (R315), and the invariant of
a sane state. -/

namespace Sys2Proof

/-- The `match` and `mask` of a command's row, written out from the table of spec/30_encoding.md R100. -/
def tableRow : Instr → Word × Word
  | .deswz _ => (0x00000001, 0xFFFF8FFF)
  | .bc1 _ _ _ => (0x00000012, 0xFFFF8AFF)
  | .bc2 _ _ _ => (0x00000022, 0xFFFF8AFF)
  | .bc3 _ _ _ => (0x00000032, 0xFFFF8AFF)
  | .bc4u _ _ _ => (0x00000042, 0xFFFF8AFF)
  | .bc4s _ _ => (0x00000242, 0xFFFF8BFF)
  | .bc5u _ _ _ => (0x00000052, 0xFFFF8AFF)
  | .bc5s _ _ => (0x00000252, 0xFFFF8BFF)
  | .gxI4 => (0x00000003, 0xFFFFFFFF)
  | .gxI8 => (0x00000013, 0xFFFFFFFF)
  | .gxIa4 => (0x00000023, 0xFFFFFFFF)
  | .gxIa8 => (0x00000033, 0xFFFFFFFF)
  | .gxRgb565 => (0x00000043, 0xFFFFFFFF)
  | .gxRgb5a3 => (0x00000053, 0xFFFFFFFF)
  | .gxRgba8 => (0x00000063, 0xFFFFFFFF)
  | .gxC4 _ => (0x00000083, 0xFFFCFFFF)
  | .gxC8 _ => (0x00000093, 0xFFFCFFFF)
  | .gxC14x2 _ => (0x000000A3, 0xFFFCFFFF)
  | .gxCmpr => (0x000000E3, 0xFFFFFFFF)
  | .palIa8 => (0x00000004, 0xFFFFFFFF)
  | .palRgb565 => (0x00000014, 0xFFFFFFFF)
  | .palRgb5a3 => (0x00000024, 0xFFFFFFFF)

end Sys2Proof

namespace Sys2Proof.Machine

/-! ## Refused command words (spec/30_encoding.md R91, R101) -/

/-- The bit slice `w[lo+n-1 : lo]` as a number (spec/00_scope.md R6). -/
def field (w : Word) (lo n : Nat) : Nat := w.toNat / 2 ^ lo % 2 ^ n

/-- Items (1) to (7) of spec/30_encoding.md R101, as the rule words them. -/
def RefusedWord (w : Word) : Prop :=
  let op := field w 0 4
  let fmt := field w 4 4
  let flag := field w 8 2
  let lin := field w 10 1
  let bhl2 := field w 12 3
  let palfmt := field w 16 2
  (op = 0 ∨ 5 ≤ op) ∨
  (field w 11 1 = 1 ∨ field w 15 1 = 1 ∨ field w 18 14 ≠ 0) ∨
  ((op = 1 ∧ fmt ≠ 0) ∨ (op = 2 ∧ fmt ∉ [1, 2, 3, 4, 5]) ∨ (op = 3 ∧ fmt ∈ [7, 11, 12, 13, 15]) ∨ (op = 4 ∧ 3 ≤ fmt)) ∨
  ((op = 1 ∧ (flag ≠ 0 ∨ lin ≠ 0 ∨ palfmt ≠ 0)) ∨ (op = 2 ∧ (palfmt ≠ 0 ∨ (lin = 1 ∧ bhl2 ≠ 0))) ∨
    (op = 3 ∧ (flag ≠ 0 ∨ lin ≠ 0 ∨ bhl2 ≠ 0 ∨ (palfmt ≠ 0 ∧ fmt ∉ [8, 9, 10]))) ∨
    (op = 4 ∧ (flag ≠ 0 ∨ lin ≠ 0 ∨ bhl2 ≠ 0 ∨ palfmt ≠ 0))) ∨
  (op = 2 ∧ (flag = 3 ∨ (flag = 2 ∧ fmt ∈ [1, 2, 3]))) ∨
  ((op = 1 ∨ (op = 2 ∧ lin = 0)) ∧ (bhl2 = 6 ∨ bhl2 = 7)) ∨
  (op = 3 ∧ fmt ∈ [8, 9, 10] ∧ palfmt = 3)

/-- The legal BLKDIM words (spec/30_encoding.md R92). -/
def BlkdimLegal (w : Word) : Prop :=
  field w 0 4 ∈ [1, 4, 5, 6, 8, 10, 12] ∧ field w 4 4 ∈ [1, 4, 5, 6, 8, 10, 12] ∧ field w 8 5 ∈ [1, 4, 8, 16] ∧
    field w 13 19 = 0

/-- The complete list of spec/30_encoding.md R101, item (8) included. -/
def RefusedDescriptor (d : Desc) : Prop :=
  RefusedWord d.cmd ∨ (field d.cmd 0 4 = 1 ∧ ¬ BlkdimLegal d.blkdim)

/-! ## The tables of the commands -/

/-- The command groups of spec/20_memory.md R64 and spec/60_exceptions.md R346. -/
inductive Group where
  | deswz
  | bcn
  | gxDirect
  | gxPaletted
  | pal
deriving DecidableEq, Repr

/-- The group of a command (spec/20_memory.md R64). -/
def groupOf : Instr → Group
  | .deswz _ => .deswz
  | .bc1 _ _ _ => .bcn
  | .bc2 _ _ _ => .bcn
  | .bc3 _ _ _ => .bcn
  | .bc4u _ _ _ => .bcn
  | .bc4s _ _ => .bcn
  | .bc5u _ _ _ => .bcn
  | .bc5s _ _ => .bcn
  | .gxI4 => .gxDirect
  | .gxI8 => .gxDirect
  | .gxIa4 => .gxDirect
  | .gxIa8 => .gxDirect
  | .gxRgb565 => .gxDirect
  | .gxRgb5a3 => .gxDirect
  | .gxRgba8 => .gxDirect
  | .gxC4 _ => .gxPaletted
  | .gxC8 _ => .gxPaletted
  | .gxC14x2 _ => .gxPaletted
  | .gxCmpr => .gxDirect
  | .palIa8 => .pal
  | .palRgb565 => .pal
  | .palRgb5a3 => .pal

/-- The command reads the source window (spec/20_memory.md R64). -/
def usesSource (i : Instr) : Bool :=
  match groupOf i with
  | .pal => false
  | _ => true

/-- The command reads the palette window (spec/20_memory.md R64). -/
def usesPalette (i : Instr) : Bool :=
  match groupOf i with
  | .gxPaletted => true
  | .pal => true
  | _ => false

/-- Bytes per 4x4 block of a BCn command (spec/10_state.md R39). -/
def blockBytes : Instr → Nat
  | .bc1 _ _ _ => 8
  | .bc4u _ _ _ => 8
  | .bc4s _ _ => 8
  | _ => 16

/-- Macroblock width of a GX command (spec/10_state.md R39). -/
def tileWidth : Instr → Nat
  | .gxI4 => 8
  | .gxI8 => 8
  | .gxIa4 => 8
  | .gxC4 _ => 8
  | .gxC8 _ => 8
  | .gxCmpr => 8
  | _ => 4

/-- Macroblock height of a GX command (spec/10_state.md R39). -/
def tileHeight : Instr → Nat
  | .gxI4 => 8
  | .gxC4 _ => 8
  | .gxCmpr => 8
  | _ => 4

/-- Source bytes of a GX macroblock (spec/10_state.md R39, spec/44_gx_tiled.md R250). -/
def tileBytes : Instr → Nat
  | .gxRgba8 => 64
  | _ => 32

/-- The source mode of a command: LIN (spec/30_encoding.md R96). -/
def linearSource : Instr → Bool
  | .bc1 _ lin _ => lin
  | .bc2 _ lin _ => lin
  | .bc3 _ lin _ => lin
  | .bc4u _ lin _ => lin
  | .bc4s lin _ => lin
  | .bc5u _ lin _ => lin
  | .bc5s lin _ => lin
  | _ => false

/-- The BHL2 operand of a command (spec/30_encoding.md R97). -/
def blockHeightLog2 : Instr → Nat
  | .deswz bhl2 => bhl2.toNat
  | .bc1 _ _ bhl2 => bhl2.toNat
  | .bc2 _ _ bhl2 => bhl2.toNat
  | .bc3 _ _ bhl2 => bhl2.toNat
  | .bc4u _ _ bhl2 => bhl2.toNat
  | .bc4s _ bhl2 => bhl2.toNat
  | .bc5u _ _ bhl2 => bhl2.toNat
  | .bc5s _ bhl2 => bhl2.toNat
  | _ => 0

/-- Unit columns of the walk (spec/46_dispatch.md R310). -/
def unitCols (i : Instr) (d : Desc) : Nat :=
  match groupOf i with
  | .deswz => ceilDiv d.w d.bw
  | .bcn => ceilDiv d.w 4
  | .gxDirect => ceilDiv d.w (tileWidth i)
  | .gxPaletted => ceilDiv d.w (tileWidth i)
  | .pal => d.palLen.toNat / 2

/-- Unit rows of the walk (spec/46_dispatch.md R310). -/
def unitRows (i : Instr) (d : Desc) : Nat :=
  match groupOf i with
  | .deswz => ceilDiv d.tall d.bh
  | .bcn => ceilDiv d.tall 4
  | .gxDirect => ceilDiv d.h (tileHeight i)
  | .gxPaletted => ceilDiv d.h (tileHeight i)
  | .pal => 1

/-- `need` (spec/46_dispatch.md R306). -/
def requiredSource (i : Instr) (d : Desc) : Nat :=
  let bh := resolveBlockHeight (unitRows i d) (blockHeightLog2 i)
  match groupOf i with
  | .deswz => requiredLength (unitCols i d) (unitRows i d) d.bpb bh
  | .bcn =>
    if linearSource i then unitCols i d * unitRows i d * blockBytes i
    else requiredLength (unitCols i d) (unitRows i d) (blockBytes i) bh
  | .gxDirect => unitCols i d * unitRows i d * tileBytes i
  | .gxPaletted => unitCols i d * unitRows i d * tileBytes i
  | .pal => 0

/-- `out_len` (spec/10_state.md R33). -/
def outputLength (i : Instr) (d : Desc) : Nat :=
  match groupOf i with
  | .deswz => unitCols i d * unitRows i d * d.bpb
  | .bcn => d.w * d.tall * 4
  | .gxDirect => d.w * d.h * 4
  | .gxPaletted => d.w * d.h * 4
  | .pal => d.palLen.toNat / 2 * 4

/-- Texels the cursor moves in one unit; only the generic GX walk has one (spec/44_gx_tiled.md R241). -/
def cursorStep (i : Instr) : Nat :=
  match i with
  | .gxRgba8 => 0
  | .gxCmpr => 0
  | _ =>
    match groupOf i with
    | .gxDirect => tileWidth i * tileHeight i
    | .gxPaletted => tileWidth i * tileHeight i
    | _ => 0

/-! ## The five checks (spec/46_dispatch.md R303 to R307) -/

/-- Check 1 passes for the command `i`. -/
def Supported (i : Instr) (d : Desc) : Prop :=
  i.wellFormed = true ∧ (groupOf i = .deswz → BlkdimLegal d.blkdim)

/-- A used dimension register holds 1 to 65535 (spec/10_state.md R30). -/
def DimInRange (v : Word) : Prop := 1 ≤ v.toNat ∧ v.toNat ≤ 65535

/-- Check 2 passes (spec/46_dispatch.md R304). -/
def DimsLegal (i : Instr) (d : Desc) : Prop :=
  match groupOf i with
  | .deswz => DimInRange d.width ∧ DimInRange d.height ∧ DimInRange d.depth
  | .bcn => DimInRange d.width ∧ DimInRange d.height ∧ DimInRange d.depth
  | .gxDirect => DimInRange d.width ∧ DimInRange d.height
  | .gxPaletted => DimInRange d.width ∧ DimInRange d.height
  | .pal => True

/-- The address lies in the window (spec/10_state.md R32). -/
def Covers (w : Window) (a : Nat) : Prop := w.base ≤ a ∧ a < w.base + w.len

/-- The window ends inside the memory space (spec/10_state.md R32). -/
def Fits (w : Window) : Prop := w.base + w.len ≤ 2 ^ 32

/-- The two windows share no byte (spec/20_memory.md R66). -/
def Apart (v w : Window) : Prop := ∀ a, ¬ (Covers v a ∧ Covers w a)

/-- Check 3 passes (spec/46_dispatch.md R305). -/
def WindowsLegal (i : Instr) (d : Desc) : Prop :=
  Fits d.dst ∧ (usesSource i = true → Fits d.src ∧ Apart d.dst d.src) ∧
    (usesPalette i = true → Fits d.pal ∧ Apart d.dst d.pal)

/-- Check 4 passes (spec/46_dispatch.md R306). -/
def SourceFits (i : Instr) (d : Desc) : Prop :=
  match groupOf i with
  | .deswz => d.srcLen.toNat = requiredSource i d
  | .bcn => d.srcLen.toNat = requiredSource i d
  | .gxDirect => requiredSource i d ≤ d.srcLen.toNat
  | .gxPaletted => requiredSource i d ≤ d.srcLen.toNat
  | .pal => True

/-- Check 5 passes (spec/46_dispatch.md R307). -/
def OutputFits (i : Instr) (d : Desc) : Prop := outputLength i d ≤ d.dstLen.toNat

/-- The descriptor passes all five checks for the command `i`. -/
def Accepted (i : Instr) (d : Desc) : Prop :=
  Supported i d ∧ DimsLegal i d ∧ WindowsLegal i d ∧ SourceFits i d ∧ OutputFits i d

/-! ## The byte a command leaves at a destination offset (spec/46_dispatch.md R315) -/

/-- `SrcByte(o)` without its bound (spec/00_scope.md R6). -/
def srcByte (s : State) (o : Nat) : Byte := s.mem.read (s.d.srcBase.toNat + o)

/-- `PalByte(o)` without its bound (spec/00_scope.md R6). -/
def palByte (s : State) (o : Nat) : Byte := s.mem.read (s.d.palBase.toNat + o)

/-- Byte `c` of a stored pixel: R, G, B, A (spec/20_memory.md R68). -/
def channel (p : Pixel) (c : Nat) : Byte := if c = 0 then p.r else if c = 1 then p.g else if c = 2 then p.b else p.a

/-- A linear, row-major RGBA8 image `w` pixels wide: destination offset `o` holds byte `o % 4` of the pixel at column
`o / 4 % w`, row `o / 4 / w` (spec/20_memory.md R68). -/
def rasterByte (w : Nat) (pixel : Nat → Nat → Pixel) (o : Nat) : Byte :=
  channel (pixel (o / 4 % w) (o / 4 / w)) (o % 4)

/-- DESWZ (spec/41_address_translator.md R160): offset `o` is byte `o % BPB` of block number `o / BPB`. -/
def deswzByte (bhl2 : BitVec 3) (s : State) (o : Nat) : Byte :=
  let wb := deswzCols s.d
  srcByte s (deswzBlockOffset bhl2 s.d (o / s.d.bpb % wb) (o / s.d.bpb / wb) + o % s.d.bpb)

/-- The source offset of the block that pixel `(x, y)` lies in (spec/43_bcn_decompressor.md R201). -/
def pixelBlock (bpb : Nat) (lin : Bool) (bhl2 : BitVec 3) (s : State) (x y : Nat) : Nat :=
  bcnBlockOffset bpb lin bhl2 s.d (x / 4) (y / 4)

/-- The number of pixel `(x, y)` in its block (spec/43_bcn_decompressor.md R208). -/
def pixelNumber (x y : Nat) : Nat := y % 4 * 4 + x % 4

/-- `colour(p)` of the colour block at source offset `o` (spec/43_bcn_decompressor.md R203). -/
def colourOf (s : State) (o p : Nat) : Pixel :=
  colorAt (colorRampBc (u16le (srcByte s o) (srcByte s (o + 1))) (u16le (srcByte s (o + 2)) (srcByte s (o + 3))))
    (colorIndex (u32le (srcByte s (o + 4)) (srcByte s (o + 5)) (srcByte s (o + 6)) (srcByte s (o + 7))) p)

/-- `value(p)` of the scalar block at source offset `o`, as its stored byte (spec/43_bcn_decompressor.md R202). -/
def valueOf (mode : SignMode) (s : State) (o p : Nat) : Byte :=
  scalarAt (scalarRamp mode (srcByte s o) (srcByte s (o + 1)))
    (scalarIndex (u24le (srcByte s (o + 2)) (srcByte s (o + 3)) (srcByte s (o + 4)))
      (u24le (srcByte s (o + 5)) (srcByte s (o + 6)) (srcByte s (o + 7))) p)

/-- `alpha(p)` of the BC2 block at source offset `o` (spec/43_bcn_decompressor.md R204). -/
def nibbleAlphaOf (s : State) (o p : Nat) : Byte :=
  expandField (alphaNibble (u32le (srcByte s o) (srcByte s (o + 1)) (srcByte s (o + 2)) (srcByte s (o + 3)))
    (u32le (srcByte s (o + 4)) (srcByte s (o + 5)) (srcByte s (o + 6)) (srcByte s (o + 7))) p)

/-- BC1 (spec/43_bcn_decompressor.md R210). -/
def bc1Pixel (lin : Bool) (bhl2 : BitVec 3) (s : State) (x y : Nat) : Pixel :=
  colourOf s (pixelBlock 8 lin bhl2 s x y) (pixelNumber x y)

/-- BC2 (spec/43_bcn_decompressor.md R211). -/
def bc2Pixel (lin : Bool) (bhl2 : BitVec 3) (s : State) (x y : Nat) : Pixel :=
  let o := pixelBlock 16 lin bhl2 s x y
  { colourOf s (o + 8) (pixelNumber x y) with a := nibbleAlphaOf s o (pixelNumber x y) }

/-- BC3 (spec/43_bcn_decompressor.md R212). -/
def bc3Pixel (lin : Bool) (bhl2 : BitVec 3) (s : State) (x y : Nat) : Pixel :=
  let o := pixelBlock 16 lin bhl2 s x y
  { colourOf s (o + 8) (pixelNumber x y) with a := valueOf .unsigned s o (pixelNumber x y) }

/-- The R byte of BC4 (spec/43_bcn_decompressor.md R213, R214). -/
def bc4Red (mode : SignMode) (lin : Bool) (bhl2 : BitVec 3) (s : State) (x y : Nat) : Byte :=
  valueOf mode s (pixelBlock 8 lin bhl2 s x y) (pixelNumber x y)

/-- BC5: 255 or 0x7F in B and A (spec/43_bcn_decompressor.md R215, R216). -/
def bc5Pixel (mode : SignMode) (lin : Bool) (bhl2 : BitVec 3) (s : State) (x y : Nat) : Pixel :=
  let o := pixelBlock 16 lin bhl2 s x y
  let max : Byte := match mode with
    | .unsigned => 0xFF
    | .signed => 0x7F
  ⟨valueOf mode s o (pixelNumber x y), valueOf mode s (o + 8) (pixelNumber x y), max, max⟩

/-- The cursor at which the generic GX walk fetches pixel `(x, y)` (spec/44_gx_tiled.md R241, spec/46_dispatch.md R310). -/
def gxCursor (tw th : Nat) (s : State) (x y : Nat) : Nat :=
  ((y / th) * ceilDiv s.d.w tw + x / tw) * (tw * th) + y % th * tw + x % tw

/-- `fetch_texel(cur)` of a 4-bit format: the high nibble first (spec/44_gx_tiled.md R242). -/
def texel4 (s : State) (cur : Nat) : BitVec 4 :=
  let b := (srcByte s (cur / 2)).toNat
  BitVec.ofNat 4 (if cur % 2 = 0 then b / 16 else b % 16)

/-- The 16-bit texel at a cursor, its first byte high (spec/44_gx_tiled.md R242). -/
def texel16 (s : State) (cur : Nat) : BitVec 16 := u16be (srcByte s (2 * cur)) (srcByte s (2 * cur + 1))

/-- GX.I4 (spec/44_gx_tiled.md R243). -/
def gxI4Pixel (s : State) (x y : Nat) : Pixel :=
  let i := expandField (texel4 s (gxCursor 8 8 s x y))
  ⟨i, i, i, i⟩

/-- GX.I8 (spec/44_gx_tiled.md R244). -/
def gxI8Pixel (s : State) (x y : Nat) : Pixel :=
  let t := srcByte s (gxCursor 8 4 s x y)
  ⟨t, t, t, t⟩

/-- GX.IA4 (spec/44_gx_tiled.md R245). -/
def gxIa4Pixel (s : State) (x y : Nat) : Pixel :=
  let t := srcByte s (gxCursor 8 4 s x y)
  let i := expandField (t.extractLsb' 0 4)
  ⟨i, i, i, expandField (t.extractLsb' 4 4)⟩

/-- GX.IA8: alpha byte first (spec/44_gx_tiled.md R246). -/
def gxIa8Pixel (s : State) (x y : Nat) : Pixel :=
  let cur := gxCursor 4 4 s x y
  let i := srcByte s (2 * cur + 1)
  ⟨i, i, i, srcByte s (2 * cur)⟩

/-- GX.RGB565 (spec/44_gx_tiled.md R247). -/
def gxRgb565Pixel (s : State) (x y : Nat) : Pixel := rgb565Decode (texel16 s (gxCursor 4 4 s x y)) 255

/-- GX.RGB5A3 (spec/44_gx_tiled.md R248). -/
def gxRgb5a3Pixel (s : State) (x y : Nat) : Pixel := rgb5a3Decode (texel16 s (gxCursor 4 4 s x y))

/-- GX.RGBA8 (spec/44_gx_tiled.md R260). -/
def gxRgba8Pixel (s : State) (x y : Nat) : Pixel :=
  let o := ((y / 4) * ceilDiv s.d.w 4 + x / 4) * 64
  let p := pixelNumber x y
  ⟨srcByte s (o + 2 * p + 1), srcByte s (o + 32 + 2 * p), srcByte s (o + 32 + 2 * p + 1), srcByte s (o + 2 * p)⟩

/-- GX.CMPR: sub-block `(y % 8 / 4) * 2 + x % 8 / 4` of its macroblock (spec/44_gx_tiled.md R261, R262). -/
def gxCmprPixel (s : State) (x y : Nat) : Pixel :=
  let o := ((y / 8) * ceilDiv s.d.w 8 + x / 8) * 32 + (y % 8 / 4 * 2 + x % 8 / 4) * 8
  colorAt (colorRampCmpr (u16be (srcByte s o) (srcByte s (o + 1))) (u16be (srcByte s (o + 2)) (srcByte s (o + 3))))
    ((srcByte s (o + 4 + y % 4)).extractLsb' (6 - 2 * (x % 4)) 2)

/-- `pal_entry(fmt, i)` (spec/45_palette.md R290). -/
def paletteEntry (fmt : PalFmt) (s : State) (i : Nat) : Pixel :=
  match fmt with
  | .ia8 => ⟨palByte s (2 * i + 1), palByte s (2 * i + 1), palByte s (2 * i + 1), palByte s (2 * i)⟩
  | .rgb565 => rgb565Decode (u16be (palByte s (2 * i)) (palByte s (2 * i + 1))) 255
  | .rgb5a3 => rgb5a3Decode (u16be (palByte s (2 * i)) (palByte s (2 * i + 1)))

/-- The palette index of pixel `(x, y)` (spec/44_gx_tiled.md R255 to R257). -/
def gxIndex (i : Instr) (s : State) (x y : Nat) : Nat :=
  match i with
  | .gxC4 _ => (texel4 s (gxCursor 8 8 s x y)).toNat
  | .gxC8 _ => (srcByte s (gxCursor 8 4 s x y)).toNat
  | _ => (texel16 s (gxCursor 4 4 s x y)).toNat % 2 ^ 14

/-- `pal_n` (spec/45_palette.md R294). -/
def paletteSize (d : Desc) : Nat := min (d.palLen.toNat / 2) 16384

/-- The byte a paletted command leaves: the entry's where the index is in range, else a free one (spec/44_gx_tiled.md
R258, R259). -/
def gxPalettedByte (i : Instr) (fmt : PalFmt) (s : State) (o : Nat) : Byte :=
  let n := gxIndex i s (o / 4 % s.d.w) (o / 4 / s.d.w)
  if n < paletteSize s.d then channel (paletteEntry fmt s n) (o % 4) else Config.drawByte s.draws o

/-- PAL (spec/45_palette.md R291 to R293). -/
def palettedByte (fmt : PalFmt) (s : State) (o : Nat) : Byte := channel (paletteEntry fmt s (o / 4)) (o % 4)

/-! ## Who writes which byte (spec/46_dispatch.md R311) -/

/-- BC4 writes channel 0 of a pixel only, every other command all of its output (spec/43_bcn_decompressor.md R217,
spec/44_gx_tiled.md R263). -/
def WritesChannel (i : Instr) (k : Nat) : Prop :=
  match i with
  | .bc4u _ _ _ => k = 0
  | .bc4s _ _ => k = 0
  | _ => True

/-- The column and row of the unit that output offset `o` belongs to. -/
def unitOfOffset (i : Instr) (d : Desc) (o : Nat) : Nat × Nat :=
  match groupOf i with
  | .deswz => (o / d.bpb % unitCols i d, o / d.bpb / unitCols i d)
  | .bcn => (o / 4 % d.w / 4, o / 4 / d.w / 4)
  | .gxDirect => (o / 4 % d.w / tileWidth i, o / 4 / d.w / tileHeight i)
  | .gxPaletted => (o / 4 % d.w / tileWidth i, o / 4 / d.w / tileHeight i)
  | .pal => (o / 4, 0)

/-- The same BCn command with a plain linear source (spec/43_bcn_decompressor.md R209). -/
def withLinear : Instr → Instr
  | .bc1 srgb _ _ => .bc1 srgb true 0
  | .bc2 srgb _ _ => .bc2 srgb true 0
  | .bc3 srgb _ _ => .bc3 srgb true 0
  | .bc4u srgb _ _ => .bc4u srgb true 0
  | .bc4s _ _ => .bc4s true 0
  | .bc5u srgb _ _ => .bc5u srgb true 0
  | .bc5s _ _ => .bc5s true 0
  | i => i

/-! ## Runs -/

/-- Just after an accepted START (spec/46_dispatch.md R301), memory in canonical form, the engine granted the whole
command. -/
structure Fresh (s : State) : Prop where
  busy : s.busy = true
  phase : s.phase = .check
  bx : s.scr.bx = 0
  by_ : s.scr.by_ = 0
  cur : s.scr.cur = 0
  touched : s.touched = false
  slice : s.slice = none
  mem : s.mem.wf = true

/-- The state that successful completion leaves, with memory `m` and `n` bytes of output (spec/46_dispatch.md R312); the
shadow descriptor as before (notes/assumptions/5.md), the command on record as ended (notes/assumptions/19.md). -/
def finished (s : State) (m : Memory) (n : Nat) : State :=
  { s with
    mem := m
    busy := false
    done := true
    outLen := BitVec.ofNat 32 n
    scr := staleScratch s.draws
    phase := .check
    ended := ⟨s.d, n, s.old⟩ :: s.ended
    draws := s.draws + 1 }

/-- The command `i` runs to DONE; the only changes of state are those of its completion, and of memory: the byte at
destination offset `o < out_len` is `image o`, or as before where that is none, and every other byte is as before. -/
def Completes (i : Instr) (s : State) (image : Nat → Option Byte) : Prop :=
  ∃ m, exec i s = .next (finished s m (outputLength i s.d)) ∧ m.wf = true ∧
    ∀ a, m.read a =
      if s.d.dstBase.toNat ≤ a ∧ a < s.d.dstBase.toNat + outputLength i s.d then
        (image (a - s.d.dstBase.toNat)).getD (s.mem.read a)
      else s.mem.read a

/-! ## Host duties (spec/20_memory.md R72, spec/70_reset_and_hazards.md R366) -/

/-- The address lies in an input window that the command `i` uses. -/
def InputCovers (i : Instr) (d : Desc) (a : Nat) : Prop :=
  (usesSource i = true ∧ Covers d.src a) ∨ (usesPalette i = true ∧ Covers d.pal a)

/-- A host read of the address breaks a duty to the command that `d` describes. -/
def ReadBreaks (d : Desc) (a : Nat) : Prop := ∃ i, decode d.cmd = .ok i ∧ Covers d.dst a

/-- A host write to the address breaks a duty to the command that `d` describes. -/
def WriteBreaks (d : Desc) (a : Nat) : Prop := ∃ i, decode d.cmd = .ok i ∧ (Covers d.dst a ∨ InputCovers i d a)

/-- The command `i` with descriptor `d` and `n` bytes of output writes the byte at `x` (spec/46_dispatch.md R311). -/
def WritesByte (i : Instr) (d : Desc) (n x : Nat) : Prop :=
  d.dstBase.toNat ≤ x ∧ x < d.dstBase.toNat + n ∧ WritesChannel i ((x - d.dstBase.toNat) % 4)

/-- The byte lies in the output range of an ended command. -/
def Ended.InOutput (e : Ended) (x : Nat) : Prop := e.d.dstBase.toNat ≤ x ∧ x < e.d.dstBase.toNat + e.outLen

/-- The ended command wrote the byte. -/
def Ended.Wrote (e : Ended) (x : Nat) : Prop := ∃ i, decode e.d.cmd = .ok i ∧ WritesByte i e.d e.outLen x

/-- The command `i` runs, and the checks accept it. -/
def Runs (i : Instr) (s : State) : Prop := s.busy = true ∧ decode s.d.cmd = .ok i ∧ Accepted i s.d

/-- The running command writes the byte. -/
def RunningWrites (s : State) (x : Nat) : Prop := ∃ i, Runs i s ∧ WritesByte i s.d (outputLength i s.d) x

/-- The byte is in the output range of a command of `es` that `hit` names, and no later command of `es`, which has the
latest first, wrote it. -/
def Frees (hit : Ended → Prop) (es : List Ended) (x : Nat) : Prop :=
  ∃ later e earlier, es = later ++ e :: earlier ∧ hit e ∧ e.InOutput x ∧ ∀ e' ∈ later, ¬ e'.Wrote x

/-- The byte of memory is a free value of a broken duty, drawn at the event `draws` or later (spec/20_memory.md R72). -/
def FreeFrom (draws : Nat) (b : Byte) : Prop := ∃ ev o, draws ≤ ev ∧ b = Config.hazardByte ev o

/-- Memory `m'` is `m` with the bytes that `p` names freed, and no other changed. -/
def FreedIn (p : Nat → Prop) (draws : Nat) (m m' : Memory) : Prop :=
  ∀ x, (p x → FreeFrom draws (m'.read x)) ∧ (¬ p x → m'.read x = m.read x)

/-- The records `es'` are those of `es`, each with the bytes freed that it found in memory at its START: those of the
commands before it, which stand after it in the list. -/
def OldsFreed (hit : Ended → Prop) (draws : Nat) : List Ended → List Ended → Prop
  | [], [] => True
  | e :: es, e' :: es' =>
    e'.d = e.d ∧ e'.outLen = e.outLen ∧ FreedIn (Frees hit es) draws e.old e'.old ∧ OldsFreed hit draws es es'
  | _, _ => False

/-- Memory `m` is what the running command leaves at its end; memory as it is, where no accepted command runs. -/
def Walked (s : State) (m : Memory) : Prop :=
  (∀ i, Runs i s → engineTurn { s with slice := none } =
    .next (finished { s with slice := none } m (outputLength i s.d))) ∧
  ((¬ ∃ i, Runs i s) → m = s.mem)

/-- What `t` is after `s`, when the host breaks its duties to the ended commands that `hit` names: the bytes of their output
that no later command writes are free, in memory and in what a later command found at its START; a running command whose
own duties are kept leaves every byte it writes as it would have left it (spec/20_memory.md R70, R72,
spec/46_dispatch.md R315, spec/70_reset_and_hazards.md R366). That an accepted running command takes all the units it has
left in that turn, so that memory is compared with what it leaves at its end, is the model's choice
(notes/assumptions/19.md). -/
structure DutiesBroken (hit : Ended → Prop) (s t : State) : Prop where
  frame : t = { s with mem := t.mem, old := t.old, ended := t.ended, draws := t.draws, phase := t.phase }
  phase : (¬ ∃ i, Runs i s) → t.phase = s.phase
  mem : ∃ m, Walked s m ∧ FreedIn (fun x => Frees hit s.ended x ∧ ¬ RunningWrites s x) s.draws m t.mem
  kept : ∀ i, Runs i s → s.touched = false →
    engineTurn { t with slice := none } = .next (finished { t with slice := none } t.mem (outputLength i s.d))
  old : FreedIn (Frees hit s.ended) s.draws s.old t.old
  ended : OldsFreed hit s.draws s.ended t.ended

/-! ## The invariant -/

/-- What holds of a command past its checks: it is one of the 22, its descriptor is accepted, and the sequencer is at a
unit of the grid, the cursor where the walk has it (spec/10_state.md R22, spec/46_dispatch.md R308, R310). -/
def PastChecks (s : State) : Prop :=
  ∃ i, decode s.d.cmd = .ok i ∧ Accepted i s.d ∧
    match s.phase with
    | .check => False
    | .fill => s.scr.bx = 0 ∧ s.scr.by_ = 0 ∧ s.scr.cur = 0 ∧ groupOf i = .gxPaletted
    | .walk =>
      s.scr.bx < unitCols i s.d ∧ s.scr.by_ < unitRows i s.d ∧
        s.scr.cur = (s.scr.by_ * unitCols i s.d + s.scr.bx) * cursorStep i ∧
        (groupOf i = .gxPaletted → s.scr.palN = paletteSize s.d)
    | .finish => True

/-- A sane state: memory in canonical form; at most one of BUSY, DONE, ERR (spec/10_state.md R23); ERRCODE zero exactly
without ERR and one of the five codes with it (R26, spec/60_exceptions.md R331); while BUSY the registers equal the shadow
descriptor and the result registers are zero (R27, R33, R34) and the engine is at its start or past its checks; an ended
command wrote inside memory (R67); while reset is asserted nothing runs and every register holds 0
(spec/70_reset_and_hazards.md R360). -/
structure State.Inv (s : State) : Prop where
  mem : s.mem.wf = true
  old : s.old.wf = true
  busy_done : ¬ (s.busy = true ∧ s.done = true)
  busy_err : ¬ (s.busy = true ∧ s.err = true)
  done_err : ¬ (s.done = true ∧ s.err = true)
  errcode : if s.err then 1 ≤ s.errcode.toNat ∧ s.errcode.toNat ≤ 5 else s.errcode = 0
  shadow : s.busy = true → s.reg = s.d
  results : s.busy = true → s.outLen = 0 ∧ s.errInfo = 0
  engine : s.busy = true →
    (s.phase = .check ∧ s.scr.bx = 0 ∧ s.scr.by_ = 0 ∧ s.scr.cur = 0) ∨ PastChecks s
  ended : ∀ e ∈ s.ended, e.old.wf = true ∧ e.d.dstBase.toNat + e.outLen ≤ 2 ^ 32
  asserted : s.inReset = true → s.busy = false ∧ ∀ r : Reg, readReg s r = 0

end Sys2Proof.Machine
end

