-- ==== Sys2Proof/Certificates/Slice0/Obligations.lean ====
section
/-! DEFINITION. The statements for the provers. Each docstring names the rules of spec/ it formalises. -/

section

open Sys2Proof Sys2Proof.Machine

/-! ## Encoding -/

/-- Decoding the CMD word of a well-formed command gives the command back, with every operand field at every value
(spec/30_encoding.md R91, R100, R104). -/
def Obligations.EncodeThenDecode : Prop :=
  ∀ i : Instr, i.wellFormed = true → decode (encode i) = .ok i

/-- A CMD word that selects a command is that command's encoding, and the command's operands are in range: no bit of the
word is dropped and no word has two meanings (spec/30_encoding.md R99, R101). -/
def Obligations.DecodeThenEncode : Prop :=
  ∀ (w : Word) (i : Instr), decode w = .ok i → i.wellFormed = true ∧ encode i = w

/-- A CMD word selects only the command of the table row whose match it has under the row's mask, and the rows are
disjoint (spec/30_encoding.md R100). -/
def Obligations.DecodeFollowsTheTable : Prop :=
  (∀ (w : Word) (i : Instr), decode w = .ok i → w &&& (tableRow i).2 = (tableRow i).1) ∧
  ∀ (w : Word) (i j : Instr), w &&& (tableRow i).2 = (tableRow i).1 → w &&& (tableRow j).2 = (tableRow j).1 →
    tableRow i = tableRow j

/-- Words written out from spec/30_encoding.md R91 decode to the commands they stand for: the two examples of R104, and
one word of each other group. -/
def Obligations.SampleWordsDecode : Prop :=
  decode 0x00002252#32 = .ok (.bc5s false 2) ∧ decode 0x00020093#32 = .ok (.gxC8 .rgb5a3) ∧
    decode 0x00005001#32 = .ok (.deswz 5) ∧ decode 0x00000512#32 = .ok (.bc1 true true 0) ∧
    decode 0x000000E3#32 = .ok .gxCmpr ∧ decode 0x00000014#32 = .ok .palRgb565

/-- The complete list of refused descriptors: the engine ends such a command with E_UNSUP, code 1, at its first step;
every other descriptor selects one of the 22 commands, with operands in range, and in a sane state no turn of the engine
on it ends with E_UNSUP (spec/30_encoding.md R101). -/
def Obligations.RefusedDescriptorsAreR101 : Prop :=
  ∀ s : State, s.busy = true → s.phase = .check → s.slice ≠ some 0 →
    (RefusedDescriptor s.d → ∃ t, engineTurn s = .next t ∧ t = raiseError .unsup 0 s ∧ t.busy = false ∧ t.err = true ∧
      t.errcode = 1) ∧
    (¬ RefusedDescriptor s.d → (∃ i, decode s.d.cmd = .ok i ∧ Supported i s.d) ∧
      (s.Inv → ∃ t, engineTurn s = .next t ∧ t.errcode ≠ 1))

/-! ## Readers and codec units -/

/-- Inside its window a reader assembles the bytes in its byte order; beyond it, it is E_BOUNDS with no byte read
(spec/40_primitives.md R131 to R137). -/
def Obligations.ReadersAssembleBytes : Prop :=
  ∀ (w : Window) (m : Memory) (off : Nat), Fits w →
    let b (k : Nat) : Nat := (byteAt m w (off + k)).toNat
    (off + 1 ≤ w.len → readU8 w m off = .ok (byteAt m w off)) ∧
    (off + 2 ≤ w.len →
      readU16le w m off = .ok (BitVec.ofNat 16 (b 0 + 2 ^ 8 * b 1)) ∧
      readU16be w m off = .ok (BitVec.ofNat 16 (2 ^ 8 * b 0 + b 1))) ∧
    (off + 3 ≤ w.len →
      readU24le w m off = .ok (BitVec.ofNat 24 (b 0 + 2 ^ 8 * b 1 + 2 ^ 16 * b 2)) ∧
      readU24be w m off = .ok (BitVec.ofNat 24 (2 ^ 16 * b 0 + 2 ^ 8 * b 1 + b 2))) ∧
    (off + 4 ≤ w.len →
      readU32le w m off = .ok (BitVec.ofNat 32 (b 0 + 2 ^ 8 * b 1 + 2 ^ 16 * b 2 + 2 ^ 24 * b 3)) ∧
      readU32be w m off = .ok (BitVec.ofNat 32 (2 ^ 24 * b 0 + 2 ^ 16 * b 1 + 2 ^ 8 * b 2 + b 3))) ∧
    (w.len < off + 1 → readU8 w m off = .error (.error .bounds)) ∧
    (w.len < off + 2 → readU16le w m off = .error (.error .bounds) ∧ readU16be w m off = .error (.error .bounds)) ∧
    (w.len < off + 3 → readU24le w m off = .error (.error .bounds) ∧ readU24be w m off = .error (.error .bounds)) ∧
    (w.len < off + 4 → readU32le w m off = .error (.error .bounds) ∧ readU32be w m off = .error (.error .bounds))

/-- `expand_bits` replicates the value's bits from the top of the byte down: for widths 4 to 8 the high `w` bits are the
value and the low ones its own high bits; for width 3 the pattern is `v`, `v`, and the high two bits of `v`. 0 expands to
0 and the largest value to 255 (spec/40_primitives.md R138). -/
def Obligations.ExpandBitsReplicates : Prop :=
  (∀ w v : Nat, 4 ≤ w → w ≤ 8 → v < 2 ^ w →
    expandBits w v < 256 ∧ expandBits w v / 2 ^ (8 - w) = v ∧
      expandBits w v % 2 ^ (8 - w) = v / 2 ^ (2 * w - 8)) ∧
  (∀ v : Nat, v < 8 → expandBits 3 v = 32 * v + 4 * v + v / 2) ∧
  ∀ w : Nat, 3 ≤ w → w ≤ 8 → expandBits w 0 = 0 ∧ expandBits w (2 ^ w - 1) = 255

/-- `s3tc_blend` is 3/8 of the first operand plus 5/8 of the second, floored, and never leaves the interval between them
(spec/40_primitives.md R139). -/
def Obligations.S3tcBlendFormula : Prop :=
  ∀ a b : Byte, (s3tcBlend a b).toNat = (3 * a.toNat + 5 * b.toNat) / 8 ∧ s3tcBlend a a = a ∧
    min a.toNat b.toNat ≤ (s3tcBlend a b).toNat ∧ (s3tcBlend a b).toNat ≤ max a.toNat b.toNat

/-- `half_blend` is the floor of the mean, symmetric (spec/40_primitives.md R140). -/
def Obligations.HalfBlendIsFlooredMean : Prop :=
  (∀ a b : Byte, (halfBlend a b).toNat = (a.toNat + b.toNat) / 2 ∧ halfBlend a b = halfBlend b a) ∧
    halfBlend 0 255 = 127 ∧ halfBlend 255 255 = 255 ∧ halfBlend 0 1 = 0

/-- `rgb565_decode`: red in bits 15:11, green in 10:5, blue in 4:0, with the rule's six examples
(spec/42_ramp_builder.md R181). -/
def Obligations.Rgb565DecodeFields : Prop :=
  (∀ (c : BitVec 16) (alpha : Byte),
    (rgb565Decode c alpha).r.toNat = expandBits 5 (c.toNat / 2 ^ 11) ∧
    (rgb565Decode c alpha).g.toNat = expandBits 6 (c.toNat / 2 ^ 5 % 2 ^ 6) ∧
    (rgb565Decode c alpha).b.toNat = expandBits 5 (c.toNat % 2 ^ 5) ∧ (rgb565Decode c alpha).a = alpha) ∧
  rgb565Decode 0xF800 255 = ⟨255, 0, 0, 255⟩ ∧ rgb565Decode 0x001F 255 = ⟨0, 0, 255, 255⟩ ∧
  rgb565Decode 0x07E0 255 = ⟨0, 255, 0, 255⟩ ∧ rgb565Decode 0x1234 255 = ⟨16, 69, 165, 255⟩ ∧
  rgb565Decode 0x8410 255 = ⟨132, 130, 132, 255⟩ ∧ rgb565Decode 0xA6B5 255 = ⟨165, 215, 173, 255⟩

/-- `rgb5a3_decode`: bit 15 set, three 5-bit fields and alpha 255; clear, a 3-bit alpha and three 4-bit fields; with the
rule's ten examples (spec/44_gx_tiled.md R249). -/
def Obligations.Rgb5a3DecodeFields : Prop :=
  (∀ v : BitVec 16, 2 ^ 15 ≤ v.toNat →
    (rgb5a3Decode v).r.toNat = expandBits 5 (v.toNat / 2 ^ 10 % 2 ^ 5) ∧
    (rgb5a3Decode v).g.toNat = expandBits 5 (v.toNat / 2 ^ 5 % 2 ^ 5) ∧
    (rgb5a3Decode v).b.toNat = expandBits 5 (v.toNat % 2 ^ 5) ∧ (rgb5a3Decode v).a = 255) ∧
  (∀ v : BitVec 16, v.toNat < 2 ^ 15 →
    (rgb5a3Decode v).a.toNat = expandBits 3 (v.toNat / 2 ^ 12) ∧
    (rgb5a3Decode v).r.toNat = expandBits 4 (v.toNat / 2 ^ 8 % 2 ^ 4) ∧
    (rgb5a3Decode v).g.toNat = expandBits 4 (v.toNat / 2 ^ 4 % 2 ^ 4) ∧
    (rgb5a3Decode v).b.toNat = expandBits 4 (v.toNat % 2 ^ 4)) ∧
  rgb5a3Decode 0x8000 = ⟨0, 0, 0, 255⟩ ∧ rgb5a3Decode 0xFFFF = ⟨255, 255, 255, 255⟩ ∧
  rgb5a3Decode 0xFC00 = ⟨255, 0, 0, 255⟩ ∧ rgb5a3Decode 0x83E0 = ⟨0, 255, 0, 255⟩ ∧
  rgb5a3Decode 0xC210 = ⟨132, 132, 132, 255⟩ ∧ rgb5a3Decode 0x0000 = ⟨0, 0, 0, 0⟩ ∧
  rgb5a3Decode 0x7FFF = ⟨255, 255, 255, 255⟩ ∧ rgb5a3Decode 0x10F0 = ⟨0, 255, 0, 36⟩ ∧
  rgb5a3Decode 0x200F = ⟨0, 0, 255, 73⟩ ∧ rgb5a3Decode 0x4ABC = ⟨170, 187, 204, 146⟩

/-! ## Ramps -/

/-- The colour ramp, entry by entry, and what it guarantees. With `c1 > c2`: entry 2 is 3/8 of entry 1 plus 5/8 of entry
0, floored, and entry 3 the reverse; four distinct entries of alpha 255, and in every channel entries 2 and 3 lie between
entries 0 and 1, strictly where those differ. With `c1 <= c2`: entry 2 is the floored mean with alpha 255, and entry 3 has
alpha 0, black in the BC variant, entry 2's RGB in the CMPR variant (spec/42_ramp_builder.md R182, R187; that the four are
distinct and entries 2 and 3 lie between is what R188 derives). -/
def Obligations.ColourRampShape : Prop :=
  ∀ (c1 c2 : BitVec 16) (r : Vector Pixel 4), r = colorRampBc c1 c2 ∨ r = colorRampCmpr c1 c2 →
    r[0] = rgb565Decode c1 255 ∧ r[1] = rgb565Decode c2 255 ∧
    (c2.toNat < c1.toNat →
      (∀ k < 3,
        (channel r[2] k).toNat = (3 * (channel r[1] k).toNat + 5 * (channel r[0] k).toNat) / 8 ∧
        (channel r[3] k).toNat = (3 * (channel r[0] k).toNat + 5 * (channel r[1] k).toNat) / 8) ∧
      r[0] ≠ r[1] ∧ r[0] ≠ r[2] ∧ r[0] ≠ r[3] ∧ r[1] ≠ r[2] ∧ r[1] ≠ r[3] ∧ r[2] ≠ r[3] ∧
      r[2].a = 255 ∧ r[3].a = 255 ∧
      ∀ k < 3, ∀ e, e = r[2] ∨ e = r[3] →
        let lo := min (channel r[0] k).toNat (channel r[1] k).toNat
        let hi := max (channel r[0] k).toNat (channel r[1] k).toNat
        lo ≤ (channel e k).toNat ∧ (channel e k).toNat ≤ hi ∧
          (lo ≠ hi → lo < (channel e k).toNat ∧ (channel e k).toNat < hi)) ∧
    (c1.toNat ≤ c2.toNat →
      (∀ k < 3, (channel r[2] k).toNat = ((channel r[0] k).toNat + (channel r[1] k).toNat) / 2) ∧ r[2].a = 255 ∧
      (r = colorRampBc c1 c2 → r[3] = ⟨0, 0, 0, 0⟩) ∧ (r = colorRampCmpr c1 c2 → r[3] = { r[2] with a := 0 }))

/-- The unsigned scalar ramp, entry by entry: eight-value mode when the first endpoint is the larger, six-value mode
otherwise, floor division; with the rules' examples (spec/42_ramp_builder.md R184, R185). -/
def Obligations.UnsignedScalarRamp : Prop :=
  (∀ e1 e2 : Byte, e2.toNat < e1.toNat →
    let r := scalarRamp .unsigned e1 e2
    r[0] = e1 ∧ r[1] = e2 ∧ ∀ k, (h : k < 6) → (r[2 + k]).toNat = ((6 - k) * e1.toNat + (1 + k) * e2.toNat) / 7) ∧
  (∀ e1 e2 : Byte, e1.toNat ≤ e2.toNat →
    let r := scalarRamp .unsigned e1 e2
    r[0] = e1 ∧ r[1] = e2 ∧ (∀ k, (h : k < 4) → (r[2 + k]).toNat = ((4 - k) * e1.toNat + (1 + k) * e2.toNat) / 5) ∧
      r[6] = 0 ∧ r[7] = 255) ∧
  scalarRamp .unsigned 255 0 = #v[255, 0, 218, 182, 145, 109, 72, 36] ∧
  scalarRamp .unsigned 200 100 = #v[200, 100, 185, 171, 157, 142, 128, 114] ∧
  scalarRamp .unsigned 128 127 = #v[128, 127, 127, 127, 127, 127, 127, 127] ∧
  scalarRamp .unsigned 0 255 = #v[0, 255, 51, 102, 153, 204, 0, 255] ∧
  scalarRamp .unsigned 0 7 = #v[0, 7, 1, 2, 4, 5, 0, 255] ∧
  scalarRamp .unsigned 5 5 = #v[5, 5, 5, 5, 5, 5, 0, 255]

/-- The signed scalar ramp: endpoints and entries two's complement, comparison signed, division truncating toward zero,
MIN -128 and MAX 127; with the rules' examples (spec/42_ramp_builder.md R183 to R186). -/
def Obligations.SignedScalarRamp : Prop :=
  (∀ e1 e2 : Byte, e2.toInt < e1.toInt →
    let r := scalarRamp .signed e1 e2
    r[0] = e1 ∧ r[1] = e2 ∧
      ∀ k, (h : k < 6) → (r[2 + k]).toInt = ((6 - (k : Int)) * e1.toInt + (1 + k) * e2.toInt).tdiv 7) ∧
  (∀ e1 e2 : Byte, e1.toInt ≤ e2.toInt →
    let r := scalarRamp .signed e1 e2
    r[0] = e1 ∧ r[1] = e2 ∧
      (∀ k, (h : k < 4) → (r[2 + k]).toInt = ((4 - (k : Int)) * e1.toInt + (1 + k) * e2.toInt).tdiv 5) ∧
      (r[6]).toInt = -128 ∧ (r[7]).toInt = 127) ∧
  scalarRamp .signed 0x7F 0x80 = #v[0x7F, 0x80, 0x5A, 0x36, 0x11, 0xEE, 0xC9, 0xA5] ∧
  scalarRamp .signed 0x9C 0x38 = #v[0x9C, 0x38, 0xBC, 0xDB, 0xFA, 0x18, 0x80, 0x7F] ∧
  scalarRamp .signed 0x00 0xFF = #v[0x00, 0xFF, 0x00, 0x00, 0x00, 0x00, 0x00, 0x00] ∧
  scalarRamp .signed 0x80 0x80 = #v[0x80, 0x80, 0x80, 0x80, 0x80, 0x80, 0x80, 0x7F]

/-- No ramp value leaves the interval between its endpoints but the fixed MIN and MAX, and the interpolated values are
monotone, in both sign modes (spec/42_ramp_builder.md R186). -/
def Obligations.ScalarRampMonotone : Prop :=
  ∀ (mode : SignMode) (e1 e2 : Byte),
    let v (k : Nat) (h : k < 8) : Int := endpointValue mode ((scalarRamp mode e1 e2)[k])
    (endpointValue mode e2 < endpointValue mode e1 →
      v 0 (by omega) ≥ v 2 (by omega) ∧ (∀ k, (h : k < 5) → v (2 + k) (by omega) ≥ v (3 + k) (by omega)) ∧
        v 7 (by omega) ≥ v 1 (by omega)) ∧
    (endpointValue mode e1 ≤ endpointValue mode e2 →
      v 0 (by omega) ≤ v 2 (by omega) ∧ (∀ k, (h : k < 3) → v (2 + k) (by omega) ≤ v (3 + k) (by omega)) ∧
        v 5 (by omega) ≤ v 1 (by omega) ∧ v 6 (by omega) = rangeMin mode ∧ v 7 (by omega) = rangeMax mode)

/-- Which bits of a block select pixel `p`: little-endian fields, pixel 0 lowest, for BCn; one byte a row, pixel 0
highest, for CMPR (spec/43_bcn_decompressor.md R202, R203, R204, R208, spec/44_gx_tiled.md R261). -/
def Obligations.PixelIndexFields : Prop :=
  (∀ (idx : BitVec 32) (p : Nat), p < 16 → (colorIndex idx p).toNat = idx.toNat / 4 ^ p % 4) ∧
  (∀ (p0 p1 : BitVec 24) (p : Nat), p < 8 → (scalarIndex p0 p1 p).toNat = p0.toNat / 8 ^ p % 8 ∧
    (scalarIndex p0 p1 (p + 8)).toNat = p1.toNat / 8 ^ p % 8) ∧
  (∀ (a0 a1 : BitVec 32) (p : Nat), p < 8 → (alphaNibble a0 a1 p).toNat = a0.toNat / 16 ^ p % 16 ∧
    (alphaNibble a0 a1 (p + 8)).toNat = a1.toNat / 16 ^ p % 16) ∧
  ∀ (row : Byte) (ix : Nat), ix < 4 → (cmprIndex row ix).toNat = row.toNat / 4 ^ (3 - ix) % 4

/-! ## The address translator -/

/-- The adaptive shrink of the block height, in closed form, with the rule's examples. The closed form is the sentence of
spec/41_address_translator.md R155 that opens "Equivalent closed form", which the spec marks as derived from the loop. -/
def Obligations.BlockHeightClosedForm : Prop :=
  (∀ l h : Nat, 1 ≤ h →
    resolveBlockHeight h l = max 1 (min (2 ^ l) (nextPow2 h / 8)) ∧ resolveBlockHeight h l ≤ 2 ^ l ∧
      ∃ k, resolveBlockHeight h l = 2 ^ k) ∧
  resolveBlockHeight 1 0 = 1 ∧ resolveBlockHeight 1 4 = 1 ∧ resolveBlockHeight 8 4 = 1 ∧ resolveBlockHeight 9 4 = 2 ∧
  resolveBlockHeight 16 4 = 2 ∧ resolveBlockHeight 17 4 = 4 ∧ resolveBlockHeight 33 4 = 8 ∧
  resolveBlockHeight 64 4 = 8 ∧ resolveBlockHeight 65 4 = 16 ∧ resolveBlockHeight 128 5 = 16 ∧
  resolveBlockHeight 129 5 = 32 ∧ resolveBlockHeight 15 2 = 2 ∧ resolveBlockHeight 8 1 = 1 ∧ resolveBlockHeight 9 1 = 2

/-- `next_pow2(n)` is the smallest power of two that is not below `n` (spec/00_scope.md R6). -/
def Obligations.NextPow2IsLeast : Prop :=
  ∀ n : Nat, 1 ≤ n → (∃ k, nextPow2 n = 2 ^ k) ∧ n ≤ nextPow2 n ∧ ∀ k, n ≤ 2 ^ k → nextPow2 n ≤ 2 ^ k

/-- The required length is a positive multiple of 512, every block lies inside it, and distinct blocks share no byte. Byte
`k` of block `(x, y)` stands where R153 lays it out: with `xb` its byte column, the nine offset bits inside a GOB are, from
the top, `xb` bit 5, `y` bits 2 and 1, `xb` bit 4, `y` bit 0, `xb` bits 3:0, and the GOB number counts the GOBs of a block
of `bh` from top to bottom, the GOB blocks of a row from left to right, then the rows. With the examples of the address and
of the length (spec/41_address_translator.md R152, R153, R154, R156). -/
def Obligations.SurfaceHoldsBlocksApart : Prop :=
  (∀ wb hb bpb bh : Nat, 1 ≤ wb → 1 ≤ hb → bpb ∈ [1, 4, 8, 16] → 1 ≤ bh →
    0 < requiredLength wb hb bpb bh ∧ requiredLength wb hb bpb bh % 512 = 0 ∧
    ∀ x y x' y' : Nat, x < wb → y < hb → x' < wb → y' < hb →
      blockAddress x y wb bpb bh 0 + bpb ≤ requiredLength wb hb bpb bh ∧
      ((x, y) ≠ (x', y') →
        blockAddress x y wb bpb bh 0 + bpb ≤ blockAddress x' y' wb bpb bh 0 ∨
        blockAddress x' y' wb bpb bh 0 + bpb ≤ blockAddress x y wb bpb bh 0) ∧
      ∀ k < bpb,
        let a := blockAddress x y wb bpb bh 0 + k
        let xb := x * bpb + k
        a % 2 ^ 4 = xb % 2 ^ 4 ∧ a / 2 ^ 4 % 2 = y % 2 ∧ a / 2 ^ 5 % 2 = xb / 2 ^ 4 % 2 ∧ a / 2 ^ 6 % 2 = y / 2 % 2 ∧
        a / 2 ^ 7 % 2 = y / 2 ^ 2 % 2 ∧ a / 2 ^ 8 % 2 = xb / 2 ^ 5 % 2 ∧
        a / 2 ^ 9 = (y / (8 * bh) * ((wb * bpb + 63) / 64) + xb / 64) * bh + y % (8 * bh) / 8) ∧
  blockAddress 0 0 1 8 1 0 = 0 ∧ blockAddress 1 0 4 8 1 0 = 8 ∧ blockAddress 0 1 4 8 1 0 = 16 ∧
  blockAddress 3 3 4 8 1 0 = 120 ∧ blockAddress 8 0 16 8 1 0 = 512 ∧ blockAddress 0 8 16 8 1 0 = 1024 ∧
  blockAddress 0 8 16 8 2 0 = 512 ∧ blockAddress 5 9 16 16 2 0 = 1584 ∧ blockAddress 4 0 16 16 1 0 = 512 ∧
  blockAddress 7 13 10 16 4 0 = 2992 ∧ blockAddress 63 0 64 1 1 0 = 303 ∧ blockAddress 64 0 65 1 1 0 = 512 ∧
  blockAddress 2 17 3 4 16 0 = 1048 ∧
  requiredLength 1 1 8 1 = 512 ∧ requiredLength 4 4 8 1 = 512 ∧ requiredLength 16 16 8 2 = 2048 ∧
  requiredLength 9 9 16 2 = 3072 ∧ requiredLength 10 14 16 4 = 6144 ∧ requiredLength 65 1 1 1 = 1024 ∧
  requiredLength 64 8 1 1 = 512 ∧ requiredLength 64 9 1 1 = 1024

/-! ## The register port -/

/-- The register map, read at its offsets: nothing of the TDU changes, and the sixteen registers stand where the table
has them; the interrupt line is read as a level (spec/10_state.md R24, R28). A read of STATUS that shows `BUSY = 0`, and a
look at `irq` that finds it up, end the host's duties to the commands that have ended (spec/20_memory.md R71); the record
of these, `ended`, is the model's (notes/assumptions/19.md). -/
def Obligations.RegisterMapReads : Prop :=
  ∀ s : State,
    let reads (offset : Nat) (v : Word) : Prop := hostTurn (.regRead offset 4) s = { s with regData := v }
    reads 0x00 0 ∧
    hostTurn (.regRead 0x04 4) s = { s with regData := statusWord s, ended := if s.busy then s.ended else [] } ∧
    hostTurn .irqRead s = { s with regData := if s.irq then 1 else 0, ended := if s.irq then [] else s.ended } ∧
    reads 0x08 (irqEnWord s) ∧ reads 0x0C s.reg.cmd ∧
    reads 0x10 s.reg.width ∧ reads 0x14 s.reg.height ∧ reads 0x18 s.reg.depth ∧ reads 0x1C s.reg.blkdim ∧
    reads 0x20 s.reg.srcBase ∧ reads 0x24 s.reg.srcLen ∧ reads 0x28 s.reg.dstBase ∧ reads 0x2C s.reg.dstLen ∧
    reads 0x30 s.reg.palBase ∧ reads 0x34 s.reg.palLen ∧ reads 0x38 s.outLen ∧ reads 0x3C s.errInfo

/-- Register offsets 0x40 and above, and accesses that are not aligned and 32 bits wide: a read returns 0, a write is
ignored (spec/10_state.md R35). -/
def Obligations.AccessesOutsideTheMap : Prop :=
  ∀ (s : State) (offset bytes : Nat) (v : Word), 0x40 ≤ offset ∨ bytes ≠ 4 ∨ offset % 4 ≠ 0 →
    hostTurn (.regRead offset bytes) s = { s with regData := 0 } ∧ hostTurn (.regWrite offset bytes v) s = s

/-- The eleven descriptor registers: a write while idle stores all 32 bits of that register and nothing else; a write
while BUSY is dropped. OUT_LEN and ERR_INFO are read-only (spec/10_state.md R21, R27, R33, R34). A write while reset is
asserted is dropped too, which the model reads from spec/70_reset_and_hazards.md R360 (notes/assumptions/18.md). -/
def Obligations.DescriptorRegisterWrites : Prop :=
  ∀ (s : State) (v : Word),
    let writes (offset : Nat) (reg : Desc) : Prop :=
      hostTurn (.regWrite offset 4 v) s = if s.busy ∨ s.inReset then s else { s with reg := reg }
    writes 0x0C { s.reg with cmd := v } ∧ writes 0x10 { s.reg with width := v } ∧
    writes 0x14 { s.reg with height := v } ∧ writes 0x18 { s.reg with depth := v } ∧
    writes 0x1C { s.reg with blkdim := v } ∧ writes 0x20 { s.reg with srcBase := v } ∧
    writes 0x24 { s.reg with srcLen := v } ∧ writes 0x28 { s.reg with dstBase := v } ∧
    writes 0x2C { s.reg with dstLen := v } ∧ writes 0x30 { s.reg with palBase := v } ∧
    writes 0x34 { s.reg with palLen := v } ∧
    hostTurn (.regWrite 0x38 4 v) s = s ∧ hostTurn (.regWrite 0x3C 4 v) s = s

/-- STATUS: its fields where the table has them, every other bit 0; a write clears DONE by bit 1, ERR and ERRCODE together
by bit 2, and changes nothing else; while BUSY, or while reset is asserted, it changes nothing at all (spec/10_state.md
R23, R26, spec/70_reset_and_hazards.md R360). -/
def Obligations.StatusRegister : Prop :=
  ∀ (s : State) (v : Word), s.Inv →
    (statusWord s).toNat = s.busy.toNat + 2 * s.done.toNat + 4 * s.err.toNat + 16 * s.errcode.toNat ∧
    (s.err = false → s.errcode = 0) ∧
    hostTurn (.regWrite 0x04 4 v) s =
      { s with
        done := s.done && !v.getLsbD 1
        err := s.err && !v.getLsbD 2
        errcode := if v.getLsbD 2 then 0 else s.errcode } ∧
    (s.busy = true ∨ s.inReset = true → hostTurn (.regWrite 0x04 4 v) s = s)

/-- IRQ_EN: a write stores bits 1:0 and nothing else, also while BUSY, unless reset is asserted; bits 31:2 read 0; the
interrupt output is the level function of the two registers; an accepted START leaves IRQ_EN alone (spec/10_state.md R28).
That a write is dropped while reset is asserted is the model's reading of spec/70_reset_and_hazards.md R360, where R28 says
that IRQ_EN may be written at any time (notes/assumptions/18.md). -/
def Obligations.IrqEnRegister : Prop :=
  ∀ (s : State) (v : Word),
    (s.inReset = false →
      hostTurn (.regWrite 0x08 4 v) s = { s with doneIe := v.getLsbD 0, errIe := v.getLsbD 1 } ∧
      irqEnWord (hostTurn (.regWrite 0x08 4 v) s) = v &&& 3) ∧
    (s.inReset = true → hostTurn (.regWrite 0x08 4 v) s = s) ∧
    (irqEnWord s).toNat = s.doneIe.toNat + 2 * s.errIe.toNat ∧
    s.irq = ((s.done && s.doneIe) || (s.err && s.errIe)) ∧
    irqEnWord (startCommand s) = irqEnWord s

/-- START: a 1 in CTRL bit 0 while idle loads the shadow descriptor, clears the flags and the result registers, sets BUSY
and sends the sequencer to its start, in one step; while BUSY, or with bit 0 clear, the write does nothing; bits 31:1 do
not matter (spec/10_state.md R25, spec/46_dispatch.md R301). That the write does nothing while reset is asserted, so that
START is accepted only with the reset input released, is the model's reading of spec/70_reset_and_hazards.md R360
(notes/assumptions/18.md). Of the model's own fields `phase`, `old` and `touched` nothing is said. -/
def Obligations.StartIsOneStep : Prop :=
  ∀ (s : State) (v : Word),
    (v.getLsbD 0 = true → s.busy = false → s.inReset = false →
      let t := hostTurn (.regWrite 0x00 4 v) s
      t = { s with
        d := s.reg, done := false, err := false, errcode := 0, outLen := 0, errInfo := 0, busy := true
        scr := { s.scr with bx := 0, by_ := 0, cur := 0 }
        phase := t.phase, old := t.old, touched := t.touched }) ∧
    (s.busy = true ∨ s.inReset = true → hostTurn (.regWrite 0x00 4 v) s = s) ∧
    (v.getLsbD 0 = false → hostTurn (.regWrite 0x00 4 v) s = s)

/-- The interrupt line: up in the step that sets an enabled flag; up when an enable is set under a flag that is 1; down
when the flags are cleared by STATUS or by START, or the enables are cleared (spec/60_exceptions.md R336). -/
def Obligations.InterruptLineFollowsFlags : Prop :=
  ∀ s : State, s.Inv →
    (s.err = false → ∀ m n, (finished s m n).irq = s.doneIe) ∧
    (s.done = false → ∀ c info, (raiseError c info s).irq = s.errIe) ∧
    (s.done = true → (hostTurn (opWr .irqEn 1) s).irq = true) ∧
    (s.err = true → (hostTurn (opWr .irqEn 2) s).irq = true) ∧
    (hostTurn (opWr .status 6) s).irq = false ∧ (hostTurn (opWr .irqEn 0) s).irq = false ∧
    (s.busy = false → (hostTurn (opWr .ctrl 1) s).irq = false)

/-! ## Reset -/

/-- After reset every host-visible register reads 0 and `irq` is 0; nothing runs; a START with nothing else written ends
with E_UNSUP (spec/10_state.md R43, spec/70_reset_and_hazards.md R360, and R362, which the spec derives). -/
def Obligations.ResetStateIsIdle : Prop :=
  (∀ r : Reg, readReg State.reset r = 0) ∧ State.reset.irq = false ∧ step State.reset = .next State.reset ∧
    ∃ t, step (hostTurn (opWr .ctrl 1) State.reset) = .next t ∧ statusWord t = 0x14 ∧ t.outLen = 0 ∧ t.errInfo = 0 ∧
      t.mem = State.reset.mem

/-- The reset input. Asserted, in any state: every host-visible register 0, `irq` 0, the engine idle, and with no command
running memory is not changed. While it is asserted every register reads 0, `irq` is 0, the engine's turn does nothing and
a register write, START among them, changes nothing; only releasing it ends that, and releasing it changes nothing else
(spec/10_state.md R43, spec/70_reset_and_hazards.md R360). That a write is dropped rather than kept for the release is the
model's reading (notes/assumptions/18.md), and that reset keeps the host's own `script` is the model's choice
(notes/assumptions/14.md). -/
def Obligations.ResetClearsRegisters : Prop :=
  (∀ s : State,
    let t := hostTurn (.reset true) s
    (∀ r : Reg, readReg t r = 0) ∧ t.irq = false ∧ t.busy = false ∧ t.inReset = true ∧ t.script = s.script ∧
      (s.busy = false → t.mem = s.mem) ∧ (s.Inv → t.Inv)) ∧
  (∀ s : State, s.Inv → s.inReset = true →
    (∀ r : Reg, readReg s r = 0) ∧ s.irq = false ∧ engineTurn s = .next s ∧
      (∀ offset bytes v, hostTurn (.regWrite offset bytes v) s = s) ∧
      ∀ op, op ≠ .reset false → (hostTurn op s).inReset = true) ∧
  ∀ s : State, hostTurn (.reset false) s = { s with inReset := false }

/-- Reset during a command: each byte of the output range is its old value or the one the command would have written, and
no other byte of memory is changed; with a descriptor that the checks refuse, or a CMD word that selects no command, no
byte is changed at all (spec/70_reset_and_hazards.md R361). That the choice is a free value of the reset's event and the
byte's offset, and that the old value is the byte at START, is the model's choice (notes/assumptions/8.md). -/
def Obligations.ResetDuringCommand : Prop :=
  ∀ s : State, s.Inv → s.busy = true →
    (∀ i, decode s.d.cmd = .ok i →
      (Accepted i s.d → ∃ t, engineTurn { s with slice := none } = .next t ∧ t.done = true ∧
        ∀ a, (hostTurn (.reset true) s).mem.read a =
            (if s.d.dstBase.toNat ≤ a ∧ a < s.d.dstBase.toNat + outputLength i s.d then
              (if Config.takesNew s.draws (a - s.d.dstBase.toNat) then t.mem.read a else s.old.read a)
            else s.mem.read a)) ∧
      (¬ Accepted i s.d → (hostTurn (.reset true) s).mem = s.mem)) ∧
    ((∀ i, decode s.d.cmd ≠ .ok i) → (hostTurn (.reset true) s).mem = s.mem)

/-! ## Host accesses to memory -/

/-- Host accesses to memory that break no duty to a command that has ended: a write stores its byte and no other; a read
returns the byte and changes nothing, unless it lies in the destination window of a running command: there it returns the
byte at START or the one the command leaves, where the checks accept the command, and the byte as it stands where they
refuse it. The access breaks the host's duty to the running command exactly when it is a read or write inside the
destination window or a write inside an input window in use (spec/20_memory.md R72, spec/70_reset_and_hazards.md R366). The
record `touched`, and old or new as a free value of the event and the byte's offset, are the model's choice
(notes/assumptions/7.md and 8.md). -/
def Obligations.HostMemoryAccesses : Prop :=
  ∀ (s : State) (a : Word) (b : Byte), s.Inv →
    ((∀ e ∈ s.ended, ¬ WriteBreaks e.d a.toNat) →
      let t := hostTurn (.memWrite a b) s
      t = { s with mem := t.mem, touched := t.touched } ∧
      (∀ x, t.mem.read x = if x = a.toNat then b else s.mem.read x) ∧
      (t.touched = true ↔ s.touched = true ∨ (s.busy = true ∧ WriteBreaks s.d a.toNat))) ∧
    ((∀ e ∈ s.ended, ¬ ReadBreaks e.d a.toNat) →
      let t := hostTurn (.memRead a) s
      (¬ (s.busy = true ∧ ReadBreaks s.d a.toNat) → t = { s with memData := s.mem.read a.toNat }) ∧
      (s.busy = true → ReadBreaks s.d a.toNat →
        t = { s with memData := t.memData, touched := true, draws := t.draws } ∧
        ∀ i, decode s.d.cmd = .ok i →
          (Accepted i s.d → ∃ u, engineTurn { s with slice := none } = .next u ∧ u.done = true ∧
            t.memData =
              if Config.takesNew s.draws (a.toNat - s.d.dstBase.toNat) then u.mem.read a.toNat
              else s.old.read a.toNat) ∧
          (¬ Accepted i s.d → t.memData = s.mem.read a.toNat)))

/-- A command during which the host broke its duties still ends with DONE and writes nowhere else; every byte of its
output is a free value of the event it completes at. The duties last until the host observes the end: an access to a
window of a command that has ended but is not observed frees the bytes of that command's output that no later command
writes; of the other bytes it changes the one that a write stores and, where an accepted command runs, those of the units
that command has left: in the same turn of the host, also at a read, memory takes what that command leaves at its end. The
duties to a later command are not broken by that: one that has ended keeps the bytes it wrote, one that runs counts as
touched only by an access to its own windows, and else completes with the bytes it would have left. A read of the destination window returns what it would beside the
running command, or the byte before such an ended command (spec/20_memory.md R70, R72, spec/46_dispatch.md R315,
spec/70_reset_and_hazards.md R366). That every byte of the output range is free, also those BC4 does not write, the record
`ended`, that the running command takes all the units it has left at such an access, and that a later command made its
output of the bytes as they stood before the access, are the model's choice (notes/assumptions/7.md and 19.md). -/
def Obligations.BrokenDutyLeavesFreeBytes : Prop :=
  (∀ (s : State) (i : Instr), s.Inv → s.busy = true → s.touched = true → s.slice = none → decode s.d.cmd = .ok i →
    Accepted i s.d →
    ∃ m, engineTurn s = .next (finished s m (outputLength i s.d)) ∧
      ∀ a, m.read a =
        if s.d.dstBase.toNat ≤ a ∧ a < s.d.dstBase.toNat + outputLength i s.d then
          Config.hazardByte s.draws (a - s.d.dstBase.toNat)
        else s.mem.read a) ∧
  ∀ (s : State) (a : Word) (b : Byte), s.Inv →
    ((∃ e ∈ s.ended, WriteBreaks e.d a.toNat) →
      let t := hostTurn (.memWrite a b) s
      (t.touched = true ↔ s.touched = true ∨ (s.busy = true ∧ WriteBreaks s.d a.toNat)) ∧
      ∃ w : Memory, w.wf = true ∧ (∀ x, w.read x = if x = a.toNat then b else s.mem.read x) ∧
        DutiesBroken (fun e => WriteBreaks e.d a.toNat) { s with mem := w, touched := t.touched } t) ∧
    ((∃ e ∈ s.ended, ReadBreaks e.d a.toNat) →
      let t := hostTurn (.memRead a) s
      (t.touched = true ↔ s.touched = true ∨ (s.busy = true ∧ ReadBreaks s.d a.toNat)) ∧
      (∃ r, (r = s.draws ∨ (s.busy = true ∧ ReadBreaks s.d a.toNat ∧ r = s.draws + 1)) ∧
        DutiesBroken (fun e => ReadBreaks e.d a.toNat)
          { s with touched := t.touched, draws := r, memData := t.memData } t) ∧
      ((t.memData = s.mem.read a.toNat ∧ ¬ ((∃ i, Runs i s) ∧ Covers s.d.dst a.toNat)) ∨
        ((∃ i, Runs i s) ∧ Covers s.d.dst a.toNat ∧
          ∃ u, engineTurn { s with slice := none } = .next u ∧ u.done = true ∧
            (t.memData = s.old.read a.toNat ∨ t.memData = u.mem.read a.toNat)) ∨
        ∃ e ∈ s.ended, ReadBreaks e.d a.toNat ∧ t.memData = e.old.read a.toNat))

/-! ## Errors -/

/-- Exactly one code is reported, that of the first check that fails in the order E_UNSUP, E_DIM, E_WINDOW, E_SIZE, E_DST;
a CMD word that selects no command is E_UNSUP, whatever else is wrong. The codes are 1, 3, 5, 2 and 4; ERR_INFO is the
required source length after E_SIZE and the output length after E_DST, saturated at 2^32 - 1, and 0 after the others; no
byte of memory changes (spec/60_exceptions.md R331, R333, spec/10_state.md R34; the checks are those of
spec/46_dispatch.md R303 to R307). -/
def Obligations.FirstFailingCheckDecides : Prop :=
  ∀ s : State, s.busy = true → s.phase = .check → s.slice = none →
    let ends (e : ErrCode) (code : BitVec 4) (info : Nat) : Prop :=
      ∃ t, engineTurn s = .next t ∧ t = raiseError e (BitVec.ofNat 32 info) s ∧ t.busy = false ∧ t.err = true ∧
        t.errcode = code ∧ t.errInfo.toNat = info ∧ t.mem = s.mem
    ((∀ i, decode s.d.cmd ≠ .ok i) → ends .unsup 1 0) ∧
    ∀ i, decode s.d.cmd = .ok i →
      (¬ Supported i s.d → ends .unsup 1 0) ∧
      (Supported i s.d → ¬ DimsLegal i s.d → ends .dim 3 0) ∧
      (Supported i s.d → DimsLegal i s.d → ¬ WindowsLegal i s.d → ends .window 5 0) ∧
      (Supported i s.d → DimsLegal i s.d → WindowsLegal i s.d → ¬ SourceFits i s.d →
        ends .size 2 (min (requiredSource i s.d) (2 ^ 32 - 1))) ∧
      (Supported i s.d → DimsLegal i s.d → WindowsLegal i s.d → SourceFits i s.d → ¬ OutputFits i s.d →
        ends .dst 4 (min (outputLength i s.d) (2 ^ 32 - 1)))

/-- The state an error changes: BUSY cleared, ERR set, ERRCODE one of the five codes, ERR_INFO; OUT_LEN and DONE keep the 0
that START gave them; the descriptor registers, IRQ_EN and memory are not updated. Engine-internal state (`scr`, `phase`,
the model's draw counter) is free to change (spec/60_exceptions.md R331, R334). That the shadow descriptor keeps its value
is spec/10_state.md R27's reading, the model's choice beside spec/93_implementation_defined.md U7
(notes/assumptions/5.md). -/
def Obligations.ErrorUpdatesOnlyStatus : Prop :=
  ∀ (s t : State), s.Inv → s.busy = true → s.slice = none → engineTurn s = .next t → t.err = true →
    t = { s with
      busy := false, err := true, errcode := t.errcode, errInfo := t.errInfo, scr := t.scr, phase := t.phase
      draws := t.draws } ∧
    1 ≤ t.errcode.toNat ∧ t.errcode.toNat ≤ 5 ∧ t.outLen = 0 ∧ t.done = false

/-- A START with the same descriptor gives the same error, whatever memory, flags, scratch state and result registers
hold: every check is a function of the descriptor alone (spec/60_exceptions.md R338). -/
def Obligations.SameDescriptorSameError : Prop :=
  ∀ (s u t : State), s.Inv → u.Inv → s.busy = false → u.busy = false → s.slice = none → u.slice = none →
    u.reg = s.reg → engineTurn (startCommand s) = .next t → t.err = true →
    ∃ v, engineTurn (startCommand u) = .next v ∧ v.err = true ∧ v.errcode = t.errcode ∧ v.errInfo = t.errInfo ∧
      v.mem = u.mem

/-! ## Runs of the engine -/

/-- Every command ends, from any point of its run: with DONE and its whole output length if the checks accept it, with one
of the five errors if they do not; no fault, no E_BOUNDS (spec/46_dispatch.md R308, R312, R314). -/
def Obligations.EveryCommandEnds : Prop :=
  ∀ s : State, s.Inv → s.busy = true → s.slice = none → ∃ t, engineTurn s = .next t ∧ t.busy = false ∧
    (((∃ i, decode s.d.cmd = .ok i ∧ Accepted i s.d ∧ t.outLen.toNat = outputLength i s.d) ∧
        t.done = true ∧ t.err = false ∧ t.errcode = 0 ∧ t.errInfo = 0) ∨
      ((¬ ∃ i, decode s.d.cmd = .ok i ∧ Accepted i s.d) ∧
        t.done = false ∧ t.err = true ∧ 1 ≤ t.errcode.toNat ∧ t.errcode.toNat ≤ 5 ∧ t.outLen = 0))

/-- Small steps and the big step agree: after any number of engine steps the rest of the command leads to the state that
the whole command leads to (spec/46_dispatch.md R300, R315). -/
def Obligations.SmallStepsMakeTheBigStep : Prop :=
  ∀ (s : State) (n : Nat), s.Inv → s.busy = true → ∃ t, engineTurn { s with slice := some n } = .next t ∧
    engineTurn { t with slice := none } = engineTurn { s with slice := none }

/-- The engine's turn writes nowhere but in the output range of its command, and none of its steps changes a descriptor
register, the shadow descriptor, IRQ_EN, the reset input, or what is the host's; an ended command joins those that the host
has not observed, the model's record (spec/10_state.md R21, spec/20_memory.md R64, R67; notes/assumptions/19.md). That the
shadow descriptor keeps its value also where the command ends is spec/10_state.md R27's reading, the model's choice beside
U7 (notes/assumptions/5.md). -/
def Obligations.EngineStaysInItsWindow : Prop :=
  ∀ (s t : State), s.Inv → s.busy = true → engineTurn s = .next t →
    t.reg = s.reg ∧ t.d = s.d ∧ t.doneIe = s.doneIe ∧ t.errIe = s.errIe ∧ t.script = s.script ∧
    t.regData = s.regData ∧ t.memData = s.memData ∧ t.old = s.old ∧ t.touched = s.touched ∧
    t.inReset = s.inReset ∧ t.ended = (if t.done then ⟨s.d, t.outLen.toNat, s.old⟩ :: s.ended else s.ended) ∧
    ((∀ i, decode s.d.cmd ≠ .ok i) → t.mem = s.mem) ∧
    (∀ i, decode s.d.cmd = .ok i →
      ∀ a, ¬ (s.d.dstBase.toNat ≤ a ∧ a < s.d.dstBase.toNat + outputLength i s.d) → t.mem.read a = s.mem.read a)

/-- One engine step of the walk takes the sequencer to the next unit in raster order, the cursor by one unit's texels; the
last unit leads to the completion (spec/10_state.md R22, spec/46_dispatch.md R310). -/
def Obligations.SequencerIsRasterOrder : Prop :=
  ∀ (s : State) (i : Instr), s.Inv → s.busy = true → s.phase = .walk → decode s.d.cmd = .ok i →
    ∃ t, engineTurn { s with slice := some 1 } = .next t ∧ t.busy = true ∧
      t.scr.cur = s.scr.cur + cursorStep i ∧
      (s.scr.by_ * unitCols i s.d + s.scr.bx + 1 < unitRows i s.d * unitCols i s.d →
        t.phase = .walk ∧ t.scr.bx < unitCols i s.d ∧ t.scr.by_ < unitRows i s.d ∧
          t.scr.by_ * unitCols i s.d + t.scr.bx = s.scr.by_ * unitCols i s.d + s.scr.bx + 1) ∧
      (s.scr.by_ * unitCols i s.d + s.scr.bx + 1 = unitRows i s.d * unitCols i s.d → t.phase = .finish)

/-- Each output byte is written by exactly one unit, once, except the G, B and A bytes under BC4, which none writes
(spec/43_bcn_decompressor.md R217, spec/44_gx_tiled.md R263, spec/46_dispatch.md R311). -/
def Obligations.EachByteHasOneWriter : Prop :=
  ∀ (i : Instr) (d : Desc), Accepted i d →
    (∀ s : State, s.d = d → s.scr.bx < unitCols i d → s.scr.by_ < unitRows i d →
      s.scr.cur = (s.scr.by_ * unitCols i d + s.scr.bx) * cursorStep i →
      ∃ u, (commandOf i).decodeUnit s = .ok u ∧ (u.writes.map Prod.fst).Nodup ∧
        ∀ o, o ∈ u.writes.map Prod.fst ↔ o < outputLength i d ∧ WritesChannel i (o % 4) ∧
          unitOfOffset i d o = (s.scr.bx, s.scr.by_)) ∧
    ∀ o < outputLength i d, (unitOfOffset i d o).1 < unitCols i d ∧ (unitOfOffset i d o).2 < unitRows i d

/-- The unit of BC3 and of BC5 leaves its block's ramps in the ramp tables, BC1's and BC2's in the colour table, BC4's in
the first scalar table; the unit of GX.CMPR leaves in the colour table the ramp of its last sub-block, the lower right one,
from big-endian endpoints (spec/10_state.md R37, spec/43_bcn_decompressor.md R202, R203, spec/44_gx_tiled.md R261,
R262). -/
def Obligations.UnitsBuildTheirRamps : Prop :=
  ∀ (s : State) (i : Instr), s.Inv → s.busy = true → s.phase = .walk → decode s.d.cmd = .ok i →
    groupOf i = .bcn ∨ i = .gxCmpr → ∃ t, engineTurn { s with slice := some 1 } = .next t ∧
      let last := (s.scr.by_ * unitCols i s.d + s.scr.bx) * 32 + 24
      let o := bcnBlockOffset (blockBytes i) (linearSource i) (BitVec.ofNat 3 (blockHeightLog2 i)) s.d s.scr.bx s.scr.by_
      let colour (o : Nat) : Vector Pixel 4 :=
        colorRampBc (u16le (srcByte s o) (srcByte s (o + 1))) (u16le (srcByte s (o + 2)) (srcByte s (o + 3)))
      let scalar (mode : SignMode) (o : Nat) : Vector Byte 8 := scalarRamp mode (srcByte s o) (srcByte s (o + 1))
      match i with
      | .bc1 _ _ _ => t.scr.cramp = colour o
      | .bc2 _ _ _ => t.scr.cramp = colour (o + 8)
      | .bc3 _ _ _ => t.scr.cramp = colour (o + 8) ∧ t.scr.sramp0 = scalar .unsigned o
      | .bc4u _ _ _ => t.scr.sramp0 = scalar .unsigned o
      | .bc4s _ _ => t.scr.sramp0 = scalar .signed o
      | .bc5u _ _ _ => t.scr.sramp0 = scalar .unsigned o ∧ t.scr.sramp1 = scalar .unsigned (o + 8)
      | .bc5s _ _ => t.scr.sramp0 = scalar .signed o ∧ t.scr.sramp1 = scalar .signed (o + 8)
      | .gxCmpr =>
        t.scr.cramp =
          colorRampCmpr (u16be (srcByte s last) (srcByte s (last + 1))) (u16be (srcByte s (last + 2)) (srcByte s (last + 3)))
      | _ => True

/-- The palette fill loads the first `min(PAL_LEN / 2, 16384)` entries of the palette window, in the command's palette
format, makes that their count, and writes no memory; any PAL_LEN, 0 included, is accepted (spec/45_palette.md R294). -/
def Obligations.PaletteFillLoadsTheWindow : Prop :=
  ∀ (s : State) (i : Instr) (fmt : PalFmt), s.Inv → s.busy = true → s.phase = .fill → decode s.d.cmd = .ok i →
    i = .gxC4 fmt ∨ i = .gxC8 fmt ∨ i = .gxC14x2 fmt →
    ∃ t, engineTurn { s with slice := some 1 } = .next t ∧ t.mem = s.mem ∧ t.phase = .walk ∧
      t.scr.palN = min (s.d.palLen.toNat / 2) 16384 ∧
      ∀ k, (h : k < Config.palRamEntries) → k < t.scr.palN → t.scr.pal[k] = paletteEntry fmt s k

/-- No state of one command reaches the next: what the scratch state holds at START makes no difference to the outcome
(spec/10_state.md R20, spec/46_dispatch.md R316). The unspecified internal state afterwards is drawn at one event in both
runs, the model's choice (notes/assumptions/5.md). -/
def Obligations.ScratchDoesNotCarryOver : Prop :=
  ∀ (i : Instr) (s : State) (scr : Scratch), Fresh s → scr.bx = 0 → scr.by_ = 0 → scr.cur = 0 →
    exec i { s with scr := scr } = exec i s

/-- The output of a command is a function of the shadow descriptor and of the bytes of the windows the command reads:
two sane runs that agree on these agree on every byte the command writes, and on every status register, and both end with
DONE (spec/20_memory.md R64, R70). The free bytes of an out-of-range palette index are drawn at the same event in both runs, the
model's choice (notes/assumptions/6.md). -/
def Obligations.OutputDependsOnWindowsOnly : Prop :=
  ∀ (i : Instr) (s t : State), Fresh s → Fresh t → Accepted i s.d → t.d = s.d → t.draws = s.draws →
    (∀ a, (usesSource i = true ∧ Covers s.d.src a) ∨ (usesPalette i = true ∧ Covers s.d.pal a) →
      t.mem.read a = s.mem.read a) →
    ∃ s' t', exec i s = .next s' ∧ exec i t = .next t' ∧ s'.outLen = t'.outLen ∧ s'.done = t'.done ∧
      s'.done = true ∧ s'.busy = false ∧ t'.busy = false ∧
      (s.Inv → t.Inv → statusWord s' = 2 ∧ statusWord t' = 2 ∧ s'.err = t'.err ∧ s'.errcode = t'.errcode ∧
        s'.errInfo = 0 ∧ t'.errInfo = 0) ∧
      ∀ o < outputLength i s.d, WritesChannel i (o % 4) →
        s'.mem.read (s.d.dstBase.toNat + o) = t'.mem.read (s.d.dstBase.toNat + o)

/-! ## What each command computes -/

/-- DESWZ completes, and output byte `o` is byte `o % BPB` of block number `o / BPB` of the swizzled source; nothing else
changes. Re-swizzling that output into any buffer of the source's length gives back every source byte that belongs to a
block, and leaves the buffer's other bytes, the padding, as they were (spec/41_address_translator.md R152, R160, R161). -/
def Obligations.DeswzResult : Prop :=
  ∀ (bhl2 : BitVec 3) (s : State), Fresh s → Accepted (.deswz bhl2) s.d →
    (Completes (.deswz bhl2) s fun o => some (deswzByte bhl2 s o)) ∧
    ∃ t, exec (.deswz bhl2) s = .next t ∧
      ∀ (base : Nat) (start : Memory), start.wf = true → base + s.d.srcLen.toNat ≤ 2 ^ 32 →
        ∃ m, reswizzle bhl2 s.d t.mem base start = .ok m ∧ m.wf = true ∧
          (∀ bx < unitCols (.deswz bhl2) s.d, ∀ by_ < unitRows (.deswz bhl2) s.d, ∀ k < s.d.bpb,
            m.read (base + deswzBlockOffset bhl2 s.d bx by_ + k) =
              srcByte s (deswzBlockOffset bhl2 s.d bx by_ + k)) ∧
          ∀ a, (∀ bx < unitCols (.deswz bhl2) s.d, ∀ by_ < unitRows (.deswz bhl2) s.d, ∀ k < s.d.bpb,
              a ≠ base + deswzBlockOffset bhl2 s.d bx by_ + k) → m.read a = start.read a

/-- BC1 completes, every pixel its block's ramp entry with its alpha; nothing else changes
(spec/43_bcn_decompressor.md R201, R203, R210). -/
def Obligations.Bc1Result : Prop :=
  ∀ (srgb lin : Bool) (bhl2 : BitVec 3) (s : State), Fresh s → Accepted (.bc1 srgb lin bhl2) s.d →
    Completes (.bc1 srgb lin bhl2) s fun o => some (rasterByte s.d.w (bc1Pixel lin bhl2 s) o)

/-- BC2 and BC3 complete, RGB from the colour block and alpha from the nibble planes or the unsigned scalar block; nothing
else changes (spec/43_bcn_decompressor.md R204, R205, R211, R212). -/
def Obligations.Bc2Bc3Result : Prop :=
  ∀ (srgb lin : Bool) (bhl2 : BitVec 3) (s : State), Fresh s →
    (Accepted (.bc2 srgb lin bhl2) s.d →
      Completes (.bc2 srgb lin bhl2) s fun o => some (rasterByte s.d.w (bc2Pixel lin bhl2 s) o)) ∧
    (Accepted (.bc3 srgb lin bhl2) s.d →
      Completes (.bc3 srgb lin bhl2) s fun o => some (rasterByte s.d.w (bc3Pixel lin bhl2 s) o))

/-- BC4U and BC4S complete, writing the R byte of every pixel only: the bytes at offsets 1, 2 and 3 modulo 4 keep what
memory held; nothing else changes (spec/43_bcn_decompressor.md R206, R213, R214). -/
def Obligations.Bc4Result : Prop :=
  ∀ (srgb lin : Bool) (bhl2 : BitVec 3) (s : State), Fresh s →
    (Accepted (.bc4u srgb lin bhl2) s.d →
      Completes (.bc4u srgb lin bhl2) s fun o =>
        if o % 4 = 0 then some (bc4Red .unsigned lin bhl2 s (o / 4 % s.d.w) (o / 4 / s.d.w)) else none) ∧
    (Accepted (.bc4s lin bhl2) s.d →
      Completes (.bc4s lin bhl2) s fun o =>
        if o % 4 = 0 then some (bc4Red .signed lin bhl2 s (o / 4 % s.d.w) (o / 4 / s.d.w)) else none)

/-- BC5U and BC5S complete, R and G from the two scalar blocks, B and A forced to 255 or 0x7F; nothing else changes
(spec/43_bcn_decompressor.md R207, R215, R216). -/
def Obligations.Bc5Result : Prop :=
  ∀ (srgb lin : Bool) (bhl2 : BitVec 3) (s : State), Fresh s →
    (Accepted (.bc5u srgb lin bhl2) s.d →
      Completes (.bc5u srgb lin bhl2) s fun o => some (rasterByte s.d.w (bc5Pixel .unsigned lin bhl2 s) o)) ∧
    (Accepted (.bc5s lin bhl2) s.d →
      Completes (.bc5s lin bhl2) s fun o => some (rasterByte s.d.w (bc5Pixel .signed lin bhl2 s) o))

/-- FLAG 0 (UNorm) and FLAG 1 (sRGB) are identical in every effect (spec/30_encoding.md R95). -/
def Obligations.SrgbMakesNoDifference : Prop :=
  ∀ (lin : Bool) (bhl2 : BitVec 3) (s : State),
    exec (.bc1 true lin bhl2) s = exec (.bc1 false lin bhl2) s ∧
    exec (.bc2 true lin bhl2) s = exec (.bc2 false lin bhl2) s ∧
    exec (.bc3 true lin bhl2) s = exec (.bc3 false lin bhl2) s ∧
    exec (.bc4u true lin bhl2) s = exec (.bc4u false lin bhl2) s ∧
    exec (.bc5u true lin bhl2) s = exec (.bc5u false lin bhl2) s

/-- The output of a BCn command with LIN = 1 on the output of DESWZ equals the output of the same command with LIN = 0 on
DESWZ's input (spec/43_bcn_decompressor.md R209). -/
def Obligations.LinearAfterDeswz : Prop :=
  ∀ (i : Instr) (bhl2 : BitVec 3) (s0 s1 s2 : State),
    groupOf i = .bcn → linearSource i = false → blockHeightLog2 i = bhl2.toNat →
    Fresh s0 → Accepted (.deswz bhl2) s0.d → s0.d.bw = 4 → s0.d.bh = 4 → s0.d.bpb = blockBytes i →
    Fresh s1 → Accepted (withLinear i) s1.d → Fresh s2 → Accepted i s2.d →
    s1.d.w = s0.d.w → s1.d.tall = s0.d.tall → s2.d.w = s0.d.w → s2.d.tall = s0.d.tall →
    (∀ o < s2.d.srcLen.toNat, srcByte s2 o = srcByte s0 o) →
    ∃ t0, exec (.deswz bhl2) s0 = .next t0 ∧
      ((∀ o < s1.d.srcLen.toNat, srcByte s1 o = t0.mem.read (s0.d.dstBase.toNat + o)) →
        ∃ t1 t2, exec (withLinear i) s1 = .next t1 ∧ exec i s2 = .next t2 ∧
          ∀ o < outputLength i s2.d, WritesChannel i (o % 4) →
            t1.mem.read (s1.d.dstBase.toNat + o) = t2.mem.read (s2.d.dstBase.toNat + o))

/-- GX.I4, GX.I8, GX.IA4 and GX.IA8 complete, each pixel from the texel at its place in the macroblock order; nothing else
changes (spec/44_gx_tiled.md R241 to R246). -/
def Obligations.GxIntensityResult : Prop :=
  ∀ s : State, Fresh s →
    (Accepted .gxI4 s.d → Completes .gxI4 s fun o => some (rasterByte s.d.w (gxI4Pixel s) o)) ∧
    (Accepted .gxI8 s.d → Completes .gxI8 s fun o => some (rasterByte s.d.w (gxI8Pixel s) o)) ∧
    (Accepted .gxIa4 s.d → Completes .gxIa4 s fun o => some (rasterByte s.d.w (gxIa4Pixel s) o)) ∧
    (Accepted .gxIa8 s.d → Completes .gxIa8 s fun o => some (rasterByte s.d.w (gxIa8Pixel s) o))

/-- GX.RGB565 and GX.RGB5A3 complete, each pixel from the big-endian texel at its place; nothing else changes
(spec/44_gx_tiled.md R247, R248). -/
def Obligations.GxDirectColourResult : Prop :=
  ∀ s : State, Fresh s →
    (Accepted .gxRgb565 s.d → Completes .gxRgb565 s fun o => some (rasterByte s.d.w (gxRgb565Pixel s) o)) ∧
    (Accepted .gxRgb5a3 s.d → Completes .gxRgb5a3 s fun o => some (rasterByte s.d.w (gxRgb5a3Pixel s) o))

/-- GX.RGBA8 completes, each pixel from the AR plane and the GB plane of its macroblock; nothing else changes
(spec/44_gx_tiled.md R260). -/
def Obligations.GxRgba8Result : Prop :=
  ∀ s : State, Fresh s → Accepted .gxRgba8 s.d →
    Completes .gxRgba8 s fun o => some (rasterByte s.d.w (gxRgba8Pixel s) o)

/-- GX.CMPR completes, each pixel from the sub-block of its quadrant; nothing else changes (spec/44_gx_tiled.md R261,
R262). -/
def Obligations.GxCmprResult : Prop :=
  ∀ s : State, Fresh s → Accepted .gxCmpr s.d →
    Completes .gxCmpr s fun o => some (rasterByte s.d.w (gxCmprPixel s) o)

/-- GX.C4, GX.C8 and GX.C14X2 complete for every palette format: a pixel whose index is below the palette's size is that
entry of the palette window, any other pixel is four free bytes; nothing else changes (spec/44_gx_tiled.md R255 to R259).
That the free bytes are drawn at the command's event and the byte's offset is the model's choice
(notes/assumptions/6.md). -/
def Obligations.GxPalettedResult : Prop :=
  ∀ (fmt : PalFmt) (s : State), Fresh s →
    (Accepted (.gxC4 fmt) s.d → Completes (.gxC4 fmt) s fun o => some (gxPalettedByte (.gxC4 fmt) fmt s o)) ∧
    (Accepted (.gxC8 fmt) s.d → Completes (.gxC8 fmt) s fun o => some (gxPalettedByte (.gxC8 fmt) fmt s o)) ∧
    (Accepted (.gxC14x2 fmt) s.d → Completes (.gxC14x2 fmt) s fun o => some (gxPalettedByte (.gxC14x2 fmt) fmt s o))

/-- The three PAL commands complete, output pixel `i` being entry `i` of the palette window, uncapped, an odd last byte
ignored; nothing else changes (spec/45_palette.md R290 to R293). -/
def Obligations.PalResult : Prop :=
  ∀ s : State, Fresh s →
    (Accepted .palIa8 s.d → Completes .palIa8 s fun o => some (palettedByte .ia8 s o)) ∧
    (Accepted .palRgb565 s.d → Completes .palRgb565 s fun o => some (palettedByte .rgb565 s o)) ∧
    (Accepted .palRgb5a3 s.d → Completes .palRgb5a3 s fun o => some (palettedByte .rgb5a3 s o))

/-! ## The machine -/

/-- The invariant of a sane state is kept by every step, the engine's and the host's (spec/10_state.md R22, R23, R26, R27,
spec/46_dispatch.md R308, spec/70_reset_and_hazards.md R360). -/
def Obligations.StepKeepsInvariant : Prop :=
  ∀ s t : State, s.Inv → step s = .next t → t.Inv

/-- The state right after reset is sane (spec/10_state.md R43). -/
def Obligations.ResetHasInvariant : Prop := State.reset.Inv

/-- From every sane state a step answers a next state: the machine never faults and never refuses
(spec/46_dispatch.md R308, spec/60_exceptions.md R330). -/
def Obligations.StepNeverStops : Prop :=
  ∀ s : State, s.Inv → ∃ t, step s = .next t

/-- A step runs the decoded command. With no host transaction to come the whole command that CMD of the shadow descriptor
selects is run; with an engine turn next, as many of its engine steps as that turn grants; an idle engine does nothing; a
host transaction takes effect in issue order; and a word placed for the next step is what that step runs
(spec/20_memory.md R74, spec/46_dispatch.md R300, R309, spec/60_exceptions.md R345; the schedule is the model's,
notes/assumptions/1.md and 2.md). -/
def Obligations.StepRunsDecodedCommand : Prop :=
  ∀ (s : State) (i : Instr) (rest : List HostOp),
    (s.script = [] → s.busy = true → decode s.d.cmd = .ok i → step s = exec i { s with slice := none }) ∧
    (∀ n, s.script = .engine n :: rest → n ≠ some 0 → s.busy = true → decode s.d.cmd = .ok i →
      step s = exec i { s with script := rest, slice := n }) ∧
    (s.script = [] → s.busy = false → step s = .next { s with slice := none }) ∧
    (∀ op, s.script = op :: rest → (∀ n, op ≠ .engine n) → step s = .next (hostTurn op { s with script := rest })) ∧
    (∀ w, w < 2 ^ 32 → decode (BitVec.ofNat 32 w) = .ok i →
      step (s.withFetchWord 32 w) = exec i { s.withFetchWord 32 w with slice := none } ∧
        (s.withFetchWord 32 w).d.cmd = BitVec.ofNat 32 w)

end
end

