-- ==== Sys2Proof/Laws/Memory.lean ====
section
/-! SUPPORT. Memory: a read after a write, the canonical form, and what a list of destination writes does. -/

namespace Sys2Proof.Machine

/-! ## Cells -/

theorem cellsWf_cons {lo k : Nat} {b : Byte} {rest : List Host.Cell} :
    cellsWf lo ((k, b) :: rest) = true ↔
      lo ≤ k ∧ k < Config.memSize ∧ b ≠ Config.unlistedByte ∧ cellsWf (k + 1) rest = true := by
  simp [cellsWf, and_assoc]

theorem cellsWf_mono {lo lo' : Nat} (h : lo' ≤ lo) : ∀ {cs : List Host.Cell}, cellsWf lo cs = true → cellsWf lo' cs = true
  | [], _ => rfl
  | (_, _) :: _, hw => by
    rw [cellsWf_cons] at *
    exact ⟨h.trans hw.1, hw.2⟩

/-- Below the first listed address every byte is the unlisted one. -/
theorem lookupCell_below {lo a : Nat} (h : a < lo) :
    ∀ {cs : List Host.Cell}, cellsWf lo cs = true → lookupCell cs a = Config.unlistedByte
  | [], _ => rfl
  | (k, b) :: rest, hw => by
    rw [cellsWf_cons] at hw
    have hk : k ≠ a := by omega
    simp only [lookupCell, if_neg hk]
    exact lookupCell_below (lo := k + 1) (by omega) hw.2.2.2

theorem lookupCell_insertCell {lo a : Nat} {b : Byte} (x : Nat) :
    ∀ {cs : List Host.Cell}, cellsWf lo cs = true →
      lookupCell (insertCell a b cs) x = if x = a then b else lookupCell cs x
  | [], _ => by
    by_cases hb : b = Config.unlistedByte <;> by_cases hx : x = a
    · simp [insertCell, lookupCell, hb]
    · simp [insertCell, lookupCell, hb]
    · simp [insertCell, lookupCell, hb, hx]
    · simp [insertCell, lookupCell, hb, hx, Ne.symm hx]
  | (k, c) :: rest, hw => by
    rw [cellsWf_cons] at hw
    have below : ∀ {y}, y ≤ k → lookupCell rest y = Config.unlistedByte := fun hy =>
      lookupCell_below (lo := k + 1) (by omega) hw.2.2.2
    unfold insertCell
    by_cases h1 : a < k
    · have hk : k ≠ a := by omega
      by_cases hb : b = Config.unlistedByte
      · by_cases hx : x = a
        · subst hx; simp [h1, hb, lookupCell, hk, below (Nat.le_of_lt h1)]
        · simp [h1, hb, lookupCell, hx]
      · by_cases hx : x = a
        · simp [h1, hb, lookupCell, hx]
        · simp [h1, hb, lookupCell, hx, Ne.symm hx]
    · by_cases h2 : a = k
      · subst h2
        by_cases hb : b = Config.unlistedByte
        · by_cases hx : x = a
          · subst hx; simp [hb, below (Nat.le_refl _)]
          · simp [hb, lookupCell, hx, Ne.symm hx]
        · by_cases hx : x = a
          · simp [hb, lookupCell, hx]
          · simp [hb, lookupCell, hx, Ne.symm hx]
      · have ih := lookupCell_insertCell (lo := k + 1) (a := a) (b := b) x hw.2.2.2
        by_cases hx : k = x
        · subst hx
          simp [h1, h2, lookupCell, Ne.symm h2]
        · simp [h1, h2, lookupCell, hx, ih]

theorem insertCell_wf {a : Nat} {b : Byte} (ha : a < Config.memSize) :
    ∀ {lo : Nat} {cs : List Host.Cell}, lo ≤ a → cellsWf lo cs = true → cellsWf lo (insertCell a b cs) = true
  | lo, [], hl, _ => by
    by_cases hb : b = Config.unlistedByte
    · simp [insertCell, hb, cellsWf]
    · simp [insertCell, hb, cellsWf, hl, ha]
  | lo, (k, c) :: rest, hl, hw => by
    have hw' := hw
    rw [cellsWf_cons] at hw
    unfold insertCell
    by_cases h1 : a < k
    · by_cases hb : b = Config.unlistedByte
      · simpa [h1, hb] using hw'
      · simp only [h1, hb, if_true, if_false]
        rw [cellsWf_cons, cellsWf_cons]
        exact ⟨hl, ha, hb, by omega, hw.2⟩
    · by_cases h2 : a = k
      · subst h2
        by_cases hb : b = Config.unlistedByte
        · simp only [h1, hb, if_true, if_false]
          exact cellsWf_mono (by omega) hw.2.2.2
        · simp only [h1, hb, if_true, if_false]
          rw [cellsWf_cons]
          exact ⟨hl, ha, hb, hw.2.2.2⟩
      · simp only [h1, h2, if_false]
        rw [cellsWf_cons]
        exact ⟨hw.1, hw.2.1, hw.2.2.1, insertCell_wf ha (by omega) hw.2.2.2⟩

/-! ## Memory -/

/-- A write changes the byte written and no other (spec/20_memory.md R63). -/
theorem Memory.read_write {m : Memory} (hm : m.wf = true) (a x : Nat) (b : Byte) :
    (m.write a b).read x = if x = a then b else m.read x :=
  lookupCell_insertCell x hm

/-- A write keeps the canonical form. -/
theorem Memory.write_wf {m : Memory} (hm : m.wf = true) {a : Nat} (ha : a < Config.memSize) (b : Byte) :
    (m.write a b).wf = true :=
  insertCell_wf ha (Nat.zero_le a) hm

@[simp] theorem Memory.empty_wf : Memory.empty.wf = true := rfl

@[simp] theorem Memory.empty_read (a : Nat) : Memory.empty.read a = Config.unlistedByte := rfl

theorem reset_mem_wf : State.reset.mem.wf = true := rfl

/-- Two memories in canonical form that read the same everywhere are equal. -/
theorem cells_ext : ∀ {lo : Nat} {cs ds : List Host.Cell}, cellsWf lo cs = true → cellsWf lo ds = true →
    (∀ a, lookupCell cs a = lookupCell ds a) → cs = ds
  | _, [], [], _, _, _ => rfl
  | _, [], (k, b) :: rest, _, hd, h => by
    rw [cellsWf_cons] at hd
    have := h k
    simp only [lookupCell, if_true] at this
    exact absurd this.symm hd.2.2.1
  | _, (k, b) :: rest, [], hc, _, h => by
    rw [cellsWf_cons] at hc
    have := h k
    simp only [lookupCell, if_true] at this
    exact absurd this hc.2.2.1
  | _, (k, b) :: cs, (l, e) :: ds, hc, hd, h => by
    rw [cellsWf_cons] at hc hd
    have hkl : k = l := by
      rcases Nat.lt_trichotomy k l with hlt | heq | hgt
      · have := h k
        have hne : l ≠ k := by omega
        simp only [lookupCell, if_true, if_neg hne] at this
        rw [lookupCell_below (lo := l + 1) (by omega) hd.2.2.2] at this
        exact absurd this hc.2.2.1
      · exact heq
      · have := h l
        have hne : k ≠ l := by omega
        simp only [lookupCell, if_true, if_neg hne] at this
        rw [lookupCell_below (lo := k + 1) (by omega) hc.2.2.2] at this
        exact absurd this.symm hd.2.2.1
    subst hkl
    have hb : b = e := by simpa [lookupCell] using h k
    subst hb
    have := cells_ext (lo := k + 1) hc.2.2.2 hd.2.2.2 (fun a => by
      by_cases ha : k = a
      · subst ha
        rw [lookupCell_below (lo := k + 1) (by omega) hc.2.2.2, lookupCell_below (lo := k + 1) (by omega) hd.2.2.2]
      · simpa [lookupCell, ha] using h a)
    rw [this]

theorem Memory.ext_read {m n : Memory} (hm : m.wf = true) (hn : n.wf = true) (h : ∀ a, m.read a = n.read a) : m = n := by
  cases m; cases n
  exact congrArg Memory.mk (cells_ext hm hn h)

/-! ## Lists of writes -/

theorem mem_writesAt {o x : Nat} {b : Byte} : ∀ {bs : List Byte},
    (x, b) ∈ writesAt o bs ↔ ∃ k, ∃ h : k < bs.length, x = o + k ∧ b = bs[k]
  | [] => by simp [writesAt]
  | c :: bs => by
    have ih := mem_writesAt (o := o + 1) (x := x) (b := b) (bs := bs)
    simp only [writesAt, List.mem_cons, Prod.mk.injEq, ih]
    constructor
    · rintro (⟨rfl, rfl⟩ | ⟨k, hk, rfl, rfl⟩)
      · exact ⟨0, by simp, by simp, by simp⟩
      · exact ⟨k + 1, by simpa using hk, by omega, by simp⟩
    · rintro ⟨k, hk, rfl, rfl⟩
      cases k with
      | zero => exact .inl ⟨by simp, by simp⟩
      | succ k => exact .inr ⟨k, by simpa using hk, by omega, by simp⟩

/-- All that a list of writes can do: it succeeds where every address exists, keeps the canonical form, leaves every
address it does not name alone, and an address gets the value of one of the writes that name it. -/
theorem applyWrites_spec {base : Nat} : ∀ {ws : List Write} {m : Memory}, m.wf = true →
    (∀ w ∈ ws, base + w.1 < Config.memSize) →
    ∃ m', applyWrites base ws m = .ok m' ∧ m'.wf = true ∧
      (∀ a, (∀ w ∈ ws, a ≠ base + w.1) → m'.read a = m.read a) ∧
      (∀ a, m'.read a = m.read a ∨ ∃ w ∈ ws, a = base + w.1 ∧ m'.read a = w.2) ∧
      (∀ w ∈ ws, ∃ w' ∈ ws, w'.1 = w.1 ∧ m'.read (base + w.1) = w'.2)
  | [], m, hm, _ => ⟨m, rfl, hm, fun _ _ => rfl, fun _ => .inl rfl, by simp⟩
  | (o, b) :: ws, m, hm, hb => by
    have ho : base + o < Config.memSize := hb _ (List.mem_cons_self ..)
    obtain ⟨m', e, w, frame, val, wr⟩ := applyWrites_spec (ws := ws) (m := m.write (base + o) b)
      (Memory.write_wf hm ho b) (fun w hw => hb w (List.mem_cons_of_mem _ hw))
    refine ⟨m', by simp [applyWrites, ho, e], w, fun a ha => ?_, fun a => ?_, fun w hw => ?_⟩
    · rw [frame a fun w hw => ha w (List.mem_cons_of_mem _ hw), Memory.read_write hm,
        if_neg (ha (o, b) (List.mem_cons_self ..))]
    · rcases val a with h | ⟨w, hw, ha, hv⟩
      · by_cases hao : a = base + o
        · right
          refine ⟨(o, b), List.mem_cons_self .., hao, ?_⟩
          rw [h, Memory.read_write hm, if_pos hao]
        · left
          rw [h, Memory.read_write hm, if_neg hao]
      · exact .inr ⟨w, List.mem_cons_of_mem _ hw, ha, hv⟩
    · rcases List.mem_cons.1 hw with rfl | hw
      · by_cases hin : ∃ w ∈ ws, w.1 = o
        · obtain ⟨v, hv, rfl⟩ := hin
          obtain ⟨w', hw', h1, h2⟩ := wr v hv
          exact ⟨w', List.mem_cons_of_mem _ hw', h1, h2⟩
        · refine ⟨(o, b), List.mem_cons_self .., rfl, ?_⟩
          have : ∀ w ∈ ws, base + o ≠ base + w.1 := fun w hw h => hin ⟨w, hw, by omega⟩
          show m'.read (base + o) = b
          rw [frame _ this, Memory.read_write hm, if_pos rfl]
      · obtain ⟨w', hw', h1, h2⟩ := wr w hw
        exact ⟨w', List.mem_cons_of_mem _ hw', h1, h2⟩

/-- All that a run of bytes can do: it keeps the canonical form, and changes the bytes it names only. -/
theorem putBytes_spec {base : Nat} {f : Nat → Byte} {m : Memory} (hm : m.wf = true) : ∀ {n : Nat},
    base + n ≤ Config.memSize → (putBytes base f n m).wf = true ∧
      ∀ a, (putBytes base f n m).read a = if base ≤ a ∧ a < base + n then f (a - base) else m.read a
  | 0, _ => ⟨hm, fun a => by rw [if_neg (by omega)]; rfl⟩
  | n + 1, h => by
    obtain ⟨hw, hr⟩ := putBytes_spec (base := base) (f := f) hm (n := n) (by omega)
    refine ⟨Memory.write_wf hw (by omega) _, fun a => ?_⟩
    rw [putBytes, Memory.read_write hw, hr]
    by_cases ha : a = base + n
    · rw [if_pos ha, if_pos (by omega), ha, Nat.add_sub_cancel_left]
    · rw [if_neg ha]
      by_cases hin : base ≤ a ∧ a < base + n
      · rw [if_pos hin, if_pos (by omega)]
      · rw [if_neg hin, if_neg (by omega)]

/-- Where all the writes of a list agree with a function of the offset, every byte named holds that function's value. -/
theorem applyWrites_image {base : Nat} {ws : List Write} {m m' : Memory} {f : Nat → Byte} (hm : m.wf = true)
    (hb : ∀ w ∈ ws, base + w.1 < Config.memSize) (hf : ∀ w ∈ ws, w.2 = f w.1)
    (h : applyWrites base ws m = .ok m') {w : Write} (hw : w ∈ ws) : m'.read (base + w.1) = f w.1 := by
  obtain ⟨m'', e, -, -, -, wr⟩ := applyWrites_spec hm hb
  obtain rfl : m'' = m' := by simpa [e] using h
  obtain ⟨w', hw', h1, h2⟩ := wr w hw
  rw [h2, hf w' hw', h1]

end Sys2Proof.Machine
end

