-- ==== Sys2Proof/Laws/State.lean ====
section
/-! SUPPORT. One simp lemma per field for each shared update of the state, so that no proof unfolds a record update. -/

namespace Sys2Proof.Machine

/-! ## START (spec/46_dispatch.md R301) -/

@[simp] theorem startCommand_reg (s : State) : (startCommand s).reg = s.reg := rfl
@[simp] theorem startCommand_busy (s : State) : (startCommand s).busy = true := rfl
@[simp] theorem startCommand_done (s : State) : (startCommand s).done = false := rfl
@[simp] theorem startCommand_err (s : State) : (startCommand s).err = false := rfl
@[simp] theorem startCommand_errcode (s : State) : (startCommand s).errcode = 0 := rfl
@[simp] theorem startCommand_doneIe (s : State) : (startCommand s).doneIe = s.doneIe := rfl
@[simp] theorem startCommand_errIe (s : State) : (startCommand s).errIe = s.errIe := rfl
@[simp] theorem startCommand_outLen (s : State) : (startCommand s).outLen = 0 := rfl
@[simp] theorem startCommand_errInfo (s : State) : (startCommand s).errInfo = 0 := rfl
@[simp] theorem startCommand_d (s : State) : (startCommand s).d = s.reg := rfl
@[simp] theorem startCommand_scr (s : State) : (startCommand s).scr = { s.scr with bx := 0, by_ := 0, cur := 0 } := rfl
@[simp] theorem startCommand_phase (s : State) : (startCommand s).phase = .check := rfl
@[simp] theorem startCommand_mem (s : State) : (startCommand s).mem = s.mem := rfl
@[simp] theorem startCommand_inReset (s : State) : (startCommand s).inReset = s.inReset := rfl
@[simp] theorem startCommand_old (s : State) : (startCommand s).old = s.mem := rfl
@[simp] theorem startCommand_touched (s : State) : (startCommand s).touched = false := rfl
@[simp] theorem startCommand_ended (s : State) : (startCommand s).ended = s.ended := rfl
@[simp] theorem startCommand_draws (s : State) : (startCommand s).draws = s.draws := rfl
@[simp] theorem startCommand_slice (s : State) : (startCommand s).slice = s.slice := rfl
@[simp] theorem startCommand_script (s : State) : (startCommand s).script = s.script := rfl
@[simp] theorem startCommand_regData (s : State) : (startCommand s).regData = s.regData := rfl
@[simp] theorem startCommand_memData (s : State) : (startCommand s).memData = s.memData := rfl

/-! ## Error completion (spec/46_dispatch.md R313) -/

@[simp] theorem raiseError_reg (c : ErrCode) (info : Word) (s : State) : (raiseError c info s).reg = s.reg := rfl
@[simp] theorem raiseError_busy (c : ErrCode) (info : Word) (s : State) : (raiseError c info s).busy = false := rfl
@[simp] theorem raiseError_done (c : ErrCode) (info : Word) (s : State) : (raiseError c info s).done = s.done := rfl
@[simp] theorem raiseError_err (c : ErrCode) (info : Word) (s : State) : (raiseError c info s).err = true := rfl
@[simp] theorem raiseError_errcode (c : ErrCode) (info : Word) (s : State) : (raiseError c info s).errcode = c.code := rfl
@[simp] theorem raiseError_doneIe (c : ErrCode) (info : Word) (s : State) : (raiseError c info s).doneIe = s.doneIe := rfl
@[simp] theorem raiseError_errIe (c : ErrCode) (info : Word) (s : State) : (raiseError c info s).errIe = s.errIe := rfl
@[simp] theorem raiseError_outLen (c : ErrCode) (info : Word) (s : State) : (raiseError c info s).outLen = s.outLen := rfl
@[simp] theorem raiseError_errInfo (c : ErrCode) (info : Word) (s : State) : (raiseError c info s).errInfo = info := rfl
@[simp] theorem raiseError_d (c : ErrCode) (info : Word) (s : State) : (raiseError c info s).d = s.d := rfl
@[simp] theorem raiseError_scr (c : ErrCode) (info : Word) (s : State) : (raiseError c info s).scr = staleScratch s.draws := rfl
@[simp] theorem raiseError_phase (c : ErrCode) (info : Word) (s : State) : (raiseError c info s).phase = .check := rfl
@[simp] theorem raiseError_mem (c : ErrCode) (info : Word) (s : State) : (raiseError c info s).mem = s.mem := rfl
@[simp] theorem raiseError_inReset (c : ErrCode) (info : Word) (s : State) : (raiseError c info s).inReset = s.inReset := rfl
@[simp] theorem raiseError_old (c : ErrCode) (info : Word) (s : State) : (raiseError c info s).old = s.old := rfl
@[simp] theorem raiseError_touched (c : ErrCode) (info : Word) (s : State) : (raiseError c info s).touched = s.touched := rfl
@[simp] theorem raiseError_ended (c : ErrCode) (info : Word) (s : State) : (raiseError c info s).ended = s.ended := rfl
@[simp] theorem raiseError_draws (c : ErrCode) (info : Word) (s : State) : (raiseError c info s).draws = s.draws + 1 := rfl
@[simp] theorem raiseError_slice (c : ErrCode) (info : Word) (s : State) : (raiseError c info s).slice = s.slice := rfl
@[simp] theorem raiseError_script (c : ErrCode) (info : Word) (s : State) : (raiseError c info s).script = s.script := rfl
@[simp] theorem raiseError_regData (c : ErrCode) (info : Word) (s : State) : (raiseError c info s).regData = s.regData := rfl
@[simp] theorem raiseError_memData (c : ErrCode) (info : Word) (s : State) : (raiseError c info s).memData = s.memData := rfl

/-! ## Host writes of STATUS and IRQ_EN (spec/10_state.md R26, R28) -/

@[simp] theorem writeStatus_reg (v : Word) (s : State) : (writeStatus v s).reg = s.reg := rfl
@[simp] theorem writeStatus_busy (v : Word) (s : State) : (writeStatus v s).busy = s.busy := rfl
@[simp] theorem writeStatus_done (v : Word) (s : State) : (writeStatus v s).done = (s.done && !v.getLsbD 1) := rfl
@[simp] theorem writeStatus_err (v : Word) (s : State) : (writeStatus v s).err = (s.err && !v.getLsbD 2) := rfl
@[simp] theorem writeStatus_errcode (v : Word) (s : State) : (writeStatus v s).errcode = if v.getLsbD 2 then 0 else s.errcode := rfl
@[simp] theorem writeStatus_doneIe (v : Word) (s : State) : (writeStatus v s).doneIe = s.doneIe := rfl
@[simp] theorem writeStatus_errIe (v : Word) (s : State) : (writeStatus v s).errIe = s.errIe := rfl
@[simp] theorem writeStatus_outLen (v : Word) (s : State) : (writeStatus v s).outLen = s.outLen := rfl
@[simp] theorem writeStatus_errInfo (v : Word) (s : State) : (writeStatus v s).errInfo = s.errInfo := rfl
@[simp] theorem writeStatus_d (v : Word) (s : State) : (writeStatus v s).d = s.d := rfl
@[simp] theorem writeStatus_scr (v : Word) (s : State) : (writeStatus v s).scr = s.scr := rfl
@[simp] theorem writeStatus_phase (v : Word) (s : State) : (writeStatus v s).phase = s.phase := rfl
@[simp] theorem writeStatus_mem (v : Word) (s : State) : (writeStatus v s).mem = s.mem := rfl
@[simp] theorem writeStatus_inReset (v : Word) (s : State) : (writeStatus v s).inReset = s.inReset := rfl
@[simp] theorem writeStatus_old (v : Word) (s : State) : (writeStatus v s).old = s.old := rfl
@[simp] theorem writeStatus_touched (v : Word) (s : State) : (writeStatus v s).touched = s.touched := rfl
@[simp] theorem writeStatus_ended (v : Word) (s : State) : (writeStatus v s).ended = s.ended := rfl
@[simp] theorem writeStatus_draws (v : Word) (s : State) : (writeStatus v s).draws = s.draws := rfl
@[simp] theorem writeStatus_slice (v : Word) (s : State) : (writeStatus v s).slice = s.slice := rfl
@[simp] theorem writeStatus_script (v : Word) (s : State) : (writeStatus v s).script = s.script := rfl
@[simp] theorem writeStatus_regData (v : Word) (s : State) : (writeStatus v s).regData = s.regData := rfl
@[simp] theorem writeStatus_memData (v : Word) (s : State) : (writeStatus v s).memData = s.memData := rfl
@[simp] theorem writeIrqEn_reg (v : Word) (s : State) : (writeIrqEn v s).reg = s.reg := rfl
@[simp] theorem writeIrqEn_busy (v : Word) (s : State) : (writeIrqEn v s).busy = s.busy := rfl
@[simp] theorem writeIrqEn_done (v : Word) (s : State) : (writeIrqEn v s).done = s.done := rfl
@[simp] theorem writeIrqEn_err (v : Word) (s : State) : (writeIrqEn v s).err = s.err := rfl
@[simp] theorem writeIrqEn_errcode (v : Word) (s : State) : (writeIrqEn v s).errcode = s.errcode := rfl
@[simp] theorem writeIrqEn_doneIe (v : Word) (s : State) : (writeIrqEn v s).doneIe = v.getLsbD 0 := rfl
@[simp] theorem writeIrqEn_errIe (v : Word) (s : State) : (writeIrqEn v s).errIe = v.getLsbD 1 := rfl
@[simp] theorem writeIrqEn_outLen (v : Word) (s : State) : (writeIrqEn v s).outLen = s.outLen := rfl
@[simp] theorem writeIrqEn_errInfo (v : Word) (s : State) : (writeIrqEn v s).errInfo = s.errInfo := rfl
@[simp] theorem writeIrqEn_d (v : Word) (s : State) : (writeIrqEn v s).d = s.d := rfl
@[simp] theorem writeIrqEn_scr (v : Word) (s : State) : (writeIrqEn v s).scr = s.scr := rfl
@[simp] theorem writeIrqEn_phase (v : Word) (s : State) : (writeIrqEn v s).phase = s.phase := rfl
@[simp] theorem writeIrqEn_mem (v : Word) (s : State) : (writeIrqEn v s).mem = s.mem := rfl
@[simp] theorem writeIrqEn_inReset (v : Word) (s : State) : (writeIrqEn v s).inReset = s.inReset := rfl
@[simp] theorem writeIrqEn_old (v : Word) (s : State) : (writeIrqEn v s).old = s.old := rfl
@[simp] theorem writeIrqEn_touched (v : Word) (s : State) : (writeIrqEn v s).touched = s.touched := rfl
@[simp] theorem writeIrqEn_ended (v : Word) (s : State) : (writeIrqEn v s).ended = s.ended := rfl
@[simp] theorem writeIrqEn_draws (v : Word) (s : State) : (writeIrqEn v s).draws = s.draws := rfl
@[simp] theorem writeIrqEn_slice (v : Word) (s : State) : (writeIrqEn v s).slice = s.slice := rfl
@[simp] theorem writeIrqEn_script (v : Word) (s : State) : (writeIrqEn v s).script = s.script := rfl
@[simp] theorem writeIrqEn_regData (v : Word) (s : State) : (writeIrqEn v s).regData = s.regData := rfl
@[simp] theorem writeIrqEn_memData (v : Word) (s : State) : (writeIrqEn v s).memData = s.memData := rfl

/-! ## Host writes of memory (spec/20_memory.md R72) -/

@[simp] theorem writeBesideRunning_reg (a : Nat) (b : Byte) (s : State) : (writeBesideRunning s a b).reg = s.reg := rfl
@[simp] theorem writeBesideRunning_busy (a : Nat) (b : Byte) (s : State) : (writeBesideRunning s a b).busy = s.busy := rfl
@[simp] theorem writeBesideRunning_done (a : Nat) (b : Byte) (s : State) : (writeBesideRunning s a b).done = s.done := rfl
@[simp] theorem writeBesideRunning_err (a : Nat) (b : Byte) (s : State) : (writeBesideRunning s a b).err = s.err := rfl
@[simp] theorem writeBesideRunning_errcode (a : Nat) (b : Byte) (s : State) : (writeBesideRunning s a b).errcode = s.errcode := rfl
@[simp] theorem writeBesideRunning_doneIe (a : Nat) (b : Byte) (s : State) : (writeBesideRunning s a b).doneIe = s.doneIe := rfl
@[simp] theorem writeBesideRunning_errIe (a : Nat) (b : Byte) (s : State) : (writeBesideRunning s a b).errIe = s.errIe := rfl
@[simp] theorem writeBesideRunning_outLen (a : Nat) (b : Byte) (s : State) : (writeBesideRunning s a b).outLen = s.outLen := rfl
@[simp] theorem writeBesideRunning_errInfo (a : Nat) (b : Byte) (s : State) : (writeBesideRunning s a b).errInfo = s.errInfo := rfl
@[simp] theorem writeBesideRunning_d (a : Nat) (b : Byte) (s : State) : (writeBesideRunning s a b).d = s.d := rfl
@[simp] theorem writeBesideRunning_scr (a : Nat) (b : Byte) (s : State) : (writeBesideRunning s a b).scr = s.scr := rfl
@[simp] theorem writeBesideRunning_phase (a : Nat) (b : Byte) (s : State) : (writeBesideRunning s a b).phase = s.phase := rfl
@[simp] theorem writeBesideRunning_mem (a : Nat) (b : Byte) (s : State) : (writeBesideRunning s a b).mem = s.mem.write a b := rfl
@[simp] theorem writeBesideRunning_inReset (a : Nat) (b : Byte) (s : State) : (writeBesideRunning s a b).inReset = s.inReset := rfl
@[simp] theorem writeBesideRunning_old (a : Nat) (b : Byte) (s : State) : (writeBesideRunning s a b).old = s.old := rfl
@[simp] theorem writeBesideRunning_touched (a : Nat) (b : Byte) (s : State) : (writeBesideRunning s a b).touched = (s.touched || inRunningDst s a || inRunningInput s a) := rfl
@[simp] theorem writeBesideRunning_ended (a : Nat) (b : Byte) (s : State) : (writeBesideRunning s a b).ended = s.ended := rfl
@[simp] theorem writeBesideRunning_draws (a : Nat) (b : Byte) (s : State) : (writeBesideRunning s a b).draws = s.draws := rfl
@[simp] theorem writeBesideRunning_slice (a : Nat) (b : Byte) (s : State) : (writeBesideRunning s a b).slice = s.slice := rfl
@[simp] theorem writeBesideRunning_script (a : Nat) (b : Byte) (s : State) : (writeBesideRunning s a b).script = s.script := rfl
@[simp] theorem writeBesideRunning_regData (a : Nat) (b : Byte) (s : State) : (writeBesideRunning s a b).regData = s.regData := rfl
@[simp] theorem writeBesideRunning_memData (a : Nat) (b : Byte) (s : State) : (writeBesideRunning s a b).memData = s.memData := rfl
@[simp] theorem walkToEnd_reg (s : State) : (walkToEnd s).reg = s.reg := by
  unfold walkToEnd; split <;> rfl
@[simp] theorem walkToEnd_busy (s : State) : (walkToEnd s).busy = s.busy := by
  unfold walkToEnd; split <;> rfl
@[simp] theorem walkToEnd_done (s : State) : (walkToEnd s).done = s.done := by
  unfold walkToEnd; split <;> rfl
@[simp] theorem walkToEnd_err (s : State) : (walkToEnd s).err = s.err := by
  unfold walkToEnd; split <;> rfl
@[simp] theorem walkToEnd_errcode (s : State) : (walkToEnd s).errcode = s.errcode := by
  unfold walkToEnd; split <;> rfl
@[simp] theorem walkToEnd_doneIe (s : State) : (walkToEnd s).doneIe = s.doneIe := by
  unfold walkToEnd; split <;> rfl
@[simp] theorem walkToEnd_errIe (s : State) : (walkToEnd s).errIe = s.errIe := by
  unfold walkToEnd; split <;> rfl
@[simp] theorem walkToEnd_outLen (s : State) : (walkToEnd s).outLen = s.outLen := by
  unfold walkToEnd; split <;> rfl
@[simp] theorem walkToEnd_errInfo (s : State) : (walkToEnd s).errInfo = s.errInfo := by
  unfold walkToEnd; split <;> rfl
@[simp] theorem walkToEnd_d (s : State) : (walkToEnd s).d = s.d := by
  unfold walkToEnd; split <;> rfl
@[simp] theorem walkToEnd_scr (s : State) : (walkToEnd s).scr = s.scr := by
  unfold walkToEnd; split <;> rfl
@[simp] theorem walkToEnd_inReset (s : State) : (walkToEnd s).inReset = s.inReset := by
  unfold walkToEnd; split <;> rfl
@[simp] theorem walkToEnd_old (s : State) : (walkToEnd s).old = s.old := by
  unfold walkToEnd; split <;> rfl
@[simp] theorem walkToEnd_touched (s : State) : (walkToEnd s).touched = s.touched := by
  unfold walkToEnd; split <;> rfl
@[simp] theorem walkToEnd_ended (s : State) : (walkToEnd s).ended = s.ended := by
  unfold walkToEnd; split <;> rfl
@[simp] theorem walkToEnd_draws (s : State) : (walkToEnd s).draws = s.draws := by
  unfold walkToEnd; split <;> rfl
@[simp] theorem walkToEnd_slice (s : State) : (walkToEnd s).slice = s.slice := by
  unfold walkToEnd; split <;> rfl
@[simp] theorem walkToEnd_script (s : State) : (walkToEnd s).script = s.script := by
  unfold walkToEnd; split <;> rfl
@[simp] theorem walkToEnd_regData (s : State) : (walkToEnd s).regData = s.regData := by
  unfold walkToEnd; split <;> rfl
@[simp] theorem walkToEnd_memData (s : State) : (walkToEnd s).memData = s.memData := by
  unfold walkToEnd; split <;> rfl
@[simp] theorem freeEnded_reg (hit : Ended → Bool) (s : State) : (freeEnded hit s).reg = s.reg := rfl
@[simp] theorem freeEnded_busy (hit : Ended → Bool) (s : State) : (freeEnded hit s).busy = s.busy := rfl
@[simp] theorem freeEnded_done (hit : Ended → Bool) (s : State) : (freeEnded hit s).done = s.done := rfl
@[simp] theorem freeEnded_err (hit : Ended → Bool) (s : State) : (freeEnded hit s).err = s.err := rfl
@[simp] theorem freeEnded_errcode (hit : Ended → Bool) (s : State) : (freeEnded hit s).errcode = s.errcode := rfl
@[simp] theorem freeEnded_doneIe (hit : Ended → Bool) (s : State) : (freeEnded hit s).doneIe = s.doneIe := rfl
@[simp] theorem freeEnded_errIe (hit : Ended → Bool) (s : State) : (freeEnded hit s).errIe = s.errIe := rfl
@[simp] theorem freeEnded_outLen (hit : Ended → Bool) (s : State) : (freeEnded hit s).outLen = s.outLen := rfl
@[simp] theorem freeEnded_errInfo (hit : Ended → Bool) (s : State) : (freeEnded hit s).errInfo = s.errInfo := rfl
@[simp] theorem freeEnded_d (hit : Ended → Bool) (s : State) : (freeEnded hit s).d = s.d := rfl
@[simp] theorem freeEnded_scr (hit : Ended → Bool) (s : State) : (freeEnded hit s).scr = s.scr := rfl
@[simp] theorem freeEnded_phase (hit : Ended → Bool) (s : State) : (freeEnded hit s).phase = s.phase := rfl
@[simp] theorem freeEnded_mem (hit : Ended → Bool) (s : State) : (freeEnded hit s).mem = freeMemory hit s.draws (runningWrites s) s.ended s.mem := rfl
@[simp] theorem freeEnded_inReset (hit : Ended → Bool) (s : State) : (freeEnded hit s).inReset = s.inReset := rfl
@[simp] theorem freeEnded_old (hit : Ended → Bool) (s : State) : (freeEnded hit s).old = freeMemory hit s.draws (fun _ => false) s.ended s.old := rfl
@[simp] theorem freeEnded_touched (hit : Ended → Bool) (s : State) : (freeEnded hit s).touched = s.touched := rfl
@[simp] theorem freeEnded_ended (hit : Ended → Bool) (s : State) : (freeEnded hit s).ended = freeOlds hit s.draws s.ended := rfl
@[simp] theorem freeEnded_draws (hit : Ended → Bool) (s : State) : (freeEnded hit s).draws = s.draws + s.ended.length := rfl
@[simp] theorem freeEnded_slice (hit : Ended → Bool) (s : State) : (freeEnded hit s).slice = s.slice := rfl
@[simp] theorem freeEnded_script (hit : Ended → Bool) (s : State) : (freeEnded hit s).script = s.script := rfl
@[simp] theorem freeEnded_regData (hit : Ended → Bool) (s : State) : (freeEnded hit s).regData = s.regData := rfl
@[simp] theorem freeEnded_memData (hit : Ended → Bool) (s : State) : (freeEnded hit s).memData = s.memData := rfl
@[simp] theorem breakDuties_reg (hit : Ended → Bool) (s : State) : (breakDuties hit s).reg = s.reg := by
  unfold breakDuties; split <;> simp
@[simp] theorem breakDuties_busy (hit : Ended → Bool) (s : State) : (breakDuties hit s).busy = s.busy := by
  unfold breakDuties; split <;> simp
@[simp] theorem breakDuties_done (hit : Ended → Bool) (s : State) : (breakDuties hit s).done = s.done := by
  unfold breakDuties; split <;> simp
@[simp] theorem breakDuties_err (hit : Ended → Bool) (s : State) : (breakDuties hit s).err = s.err := by
  unfold breakDuties; split <;> simp
@[simp] theorem breakDuties_errcode (hit : Ended → Bool) (s : State) : (breakDuties hit s).errcode = s.errcode := by
  unfold breakDuties; split <;> simp
@[simp] theorem breakDuties_doneIe (hit : Ended → Bool) (s : State) : (breakDuties hit s).doneIe = s.doneIe := by
  unfold breakDuties; split <;> simp
@[simp] theorem breakDuties_errIe (hit : Ended → Bool) (s : State) : (breakDuties hit s).errIe = s.errIe := by
  unfold breakDuties; split <;> simp
@[simp] theorem breakDuties_outLen (hit : Ended → Bool) (s : State) : (breakDuties hit s).outLen = s.outLen := by
  unfold breakDuties; split <;> simp
@[simp] theorem breakDuties_errInfo (hit : Ended → Bool) (s : State) : (breakDuties hit s).errInfo = s.errInfo := by
  unfold breakDuties; split <;> simp
@[simp] theorem breakDuties_d (hit : Ended → Bool) (s : State) : (breakDuties hit s).d = s.d := by
  unfold breakDuties; split <;> simp
@[simp] theorem breakDuties_scr (hit : Ended → Bool) (s : State) : (breakDuties hit s).scr = s.scr := by
  unfold breakDuties; split <;> simp
@[simp] theorem breakDuties_inReset (hit : Ended → Bool) (s : State) : (breakDuties hit s).inReset = s.inReset := by
  unfold breakDuties; split <;> simp
@[simp] theorem breakDuties_touched (hit : Ended → Bool) (s : State) : (breakDuties hit s).touched = s.touched := by
  unfold breakDuties; split <;> simp
@[simp] theorem breakDuties_slice (hit : Ended → Bool) (s : State) : (breakDuties hit s).slice = s.slice := by
  unfold breakDuties; split <;> simp
@[simp] theorem breakDuties_script (hit : Ended → Bool) (s : State) : (breakDuties hit s).script = s.script := by
  unfold breakDuties; split <;> simp
@[simp] theorem breakDuties_regData (hit : Ended → Bool) (s : State) : (breakDuties hit s).regData = s.regData := by
  unfold breakDuties; split <;> simp
@[simp] theorem breakDuties_memData (hit : Ended → Bool) (s : State) : (breakDuties hit s).memData = s.memData := by
  unfold breakDuties; split <;> simp

/-! ## The host sees that the engine is idle (spec/20_memory.md R71) -/

@[simp] theorem observeIdle_reg (seen : Bool) (s : State) : (observeIdle seen s).reg = s.reg := by
  cases seen <;> rfl
@[simp] theorem observeIdle_busy (seen : Bool) (s : State) : (observeIdle seen s).busy = s.busy := by
  cases seen <;> rfl
@[simp] theorem observeIdle_done (seen : Bool) (s : State) : (observeIdle seen s).done = s.done := by
  cases seen <;> rfl
@[simp] theorem observeIdle_err (seen : Bool) (s : State) : (observeIdle seen s).err = s.err := by
  cases seen <;> rfl
@[simp] theorem observeIdle_errcode (seen : Bool) (s : State) : (observeIdle seen s).errcode = s.errcode := by
  cases seen <;> rfl
@[simp] theorem observeIdle_doneIe (seen : Bool) (s : State) : (observeIdle seen s).doneIe = s.doneIe := by
  cases seen <;> rfl
@[simp] theorem observeIdle_errIe (seen : Bool) (s : State) : (observeIdle seen s).errIe = s.errIe := by
  cases seen <;> rfl
@[simp] theorem observeIdle_outLen (seen : Bool) (s : State) : (observeIdle seen s).outLen = s.outLen := by
  cases seen <;> rfl
@[simp] theorem observeIdle_errInfo (seen : Bool) (s : State) : (observeIdle seen s).errInfo = s.errInfo := by
  cases seen <;> rfl
@[simp] theorem observeIdle_d (seen : Bool) (s : State) : (observeIdle seen s).d = s.d := by
  cases seen <;> rfl
@[simp] theorem observeIdle_scr (seen : Bool) (s : State) : (observeIdle seen s).scr = s.scr := by
  cases seen <;> rfl
@[simp] theorem observeIdle_phase (seen : Bool) (s : State) : (observeIdle seen s).phase = s.phase := by
  cases seen <;> rfl
@[simp] theorem observeIdle_mem (seen : Bool) (s : State) : (observeIdle seen s).mem = s.mem := by
  cases seen <;> rfl
@[simp] theorem observeIdle_inReset (seen : Bool) (s : State) : (observeIdle seen s).inReset = s.inReset := by
  cases seen <;> rfl
@[simp] theorem observeIdle_old (seen : Bool) (s : State) : (observeIdle seen s).old = s.old := by
  cases seen <;> rfl
@[simp] theorem observeIdle_touched (seen : Bool) (s : State) : (observeIdle seen s).touched = s.touched := by
  cases seen <;> rfl
@[simp] theorem observeIdle_ended (seen : Bool) (s : State) : (observeIdle seen s).ended = if seen then [] else s.ended := by
  cases seen <;> rfl
@[simp] theorem observeIdle_draws (seen : Bool) (s : State) : (observeIdle seen s).draws = s.draws := by
  cases seen <;> rfl
@[simp] theorem observeIdle_slice (seen : Bool) (s : State) : (observeIdle seen s).slice = s.slice := by
  cases seen <;> rfl
@[simp] theorem observeIdle_script (seen : Bool) (s : State) : (observeIdle seen s).script = s.script := by
  cases seen <;> rfl
@[simp] theorem observeIdle_regData (seen : Bool) (s : State) : (observeIdle seen s).regData = s.regData := by
  cases seen <;> rfl
@[simp] theorem observeIdle_memData (seen : Bool) (s : State) : (observeIdle seen s).memData = s.memData := by
  cases seen <;> rfl

/-! ## Reset (spec/70_reset_and_hazards.md R360) -/

@[simp] theorem resetMachine_reg (s : State) : (resetMachine s).reg = Desc.zero := rfl
@[simp] theorem resetMachine_busy (s : State) : (resetMachine s).busy = false := rfl
@[simp] theorem resetMachine_done (s : State) : (resetMachine s).done = false := rfl
@[simp] theorem resetMachine_err (s : State) : (resetMachine s).err = false := rfl
@[simp] theorem resetMachine_errcode (s : State) : (resetMachine s).errcode = 0 := rfl
@[simp] theorem resetMachine_doneIe (s : State) : (resetMachine s).doneIe = false := rfl
@[simp] theorem resetMachine_errIe (s : State) : (resetMachine s).errIe = false := rfl
@[simp] theorem resetMachine_outLen (s : State) : (resetMachine s).outLen = 0 := rfl
@[simp] theorem resetMachine_errInfo (s : State) : (resetMachine s).errInfo = 0 := rfl
@[simp] theorem resetMachine_d (s : State) : (resetMachine s).d = staleDesc s.draws := rfl
@[simp] theorem resetMachine_scr (s : State) : (resetMachine s).scr = staleScratch s.draws := rfl
@[simp] theorem resetMachine_phase (s : State) : (resetMachine s).phase = .check := rfl
@[simp] theorem resetMachine_mem (s : State) : (resetMachine s).mem = memAfterReset s := rfl
@[simp] theorem resetMachine_inReset (s : State) : (resetMachine s).inReset = true := rfl
@[simp] theorem resetMachine_old (s : State) : (resetMachine s).old = Memory.empty := rfl
@[simp] theorem resetMachine_touched (s : State) : (resetMachine s).touched = false := rfl
@[simp] theorem resetMachine_ended (s : State) : (resetMachine s).ended = s.ended := rfl
@[simp] theorem resetMachine_draws (s : State) : (resetMachine s).draws = s.draws + 1 := rfl
@[simp] theorem resetMachine_slice (s : State) : (resetMachine s).slice = none := rfl
@[simp] theorem resetMachine_script (s : State) : (resetMachine s).script = s.script := rfl
@[simp] theorem resetMachine_regData (s : State) : (resetMachine s).regData = s.regData := rfl
@[simp] theorem resetMachine_memData (s : State) : (resetMachine s).memData = s.memData := rfl

/-! ## The sequencer (spec/10_state.md R22): everything but the position and the stage is unchanged -/

@[simp] theorem advance_reg (c : Command) (s : State) : (advance c s).reg = s.reg := by
  unfold advance; split <;> [rfl; (split <;> rfl)]
@[simp] theorem advance_busy (c : Command) (s : State) : (advance c s).busy = s.busy := by
  unfold advance; split <;> [rfl; (split <;> rfl)]
@[simp] theorem advance_done (c : Command) (s : State) : (advance c s).done = s.done := by
  unfold advance; split <;> [rfl; (split <;> rfl)]
@[simp] theorem advance_err (c : Command) (s : State) : (advance c s).err = s.err := by
  unfold advance; split <;> [rfl; (split <;> rfl)]
@[simp] theorem advance_errcode (c : Command) (s : State) : (advance c s).errcode = s.errcode := by
  unfold advance; split <;> [rfl; (split <;> rfl)]
@[simp] theorem advance_doneIe (c : Command) (s : State) : (advance c s).doneIe = s.doneIe := by
  unfold advance; split <;> [rfl; (split <;> rfl)]
@[simp] theorem advance_errIe (c : Command) (s : State) : (advance c s).errIe = s.errIe := by
  unfold advance; split <;> [rfl; (split <;> rfl)]
@[simp] theorem advance_outLen (c : Command) (s : State) : (advance c s).outLen = s.outLen := by
  unfold advance; split <;> [rfl; (split <;> rfl)]
@[simp] theorem advance_errInfo (c : Command) (s : State) : (advance c s).errInfo = s.errInfo := by
  unfold advance; split <;> [rfl; (split <;> rfl)]
@[simp] theorem advance_d (c : Command) (s : State) : (advance c s).d = s.d := by
  unfold advance; split <;> [rfl; (split <;> rfl)]
@[simp] theorem advance_mem (c : Command) (s : State) : (advance c s).mem = s.mem := by
  unfold advance; split <;> [rfl; (split <;> rfl)]
@[simp] theorem advance_inReset (c : Command) (s : State) : (advance c s).inReset = s.inReset := by
  unfold advance; split <;> [rfl; (split <;> rfl)]
@[simp] theorem advance_old (c : Command) (s : State) : (advance c s).old = s.old := by
  unfold advance; split <;> [rfl; (split <;> rfl)]
@[simp] theorem advance_touched (c : Command) (s : State) : (advance c s).touched = s.touched := by
  unfold advance; split <;> [rfl; (split <;> rfl)]
@[simp] theorem advance_ended (c : Command) (s : State) : (advance c s).ended = s.ended := by
  unfold advance; split <;> [rfl; (split <;> rfl)]
@[simp] theorem advance_draws (c : Command) (s : State) : (advance c s).draws = s.draws := by
  unfold advance; split <;> [rfl; (split <;> rfl)]
@[simp] theorem advance_slice (c : Command) (s : State) : (advance c s).slice = s.slice := by
  unfold advance; split <;> [rfl; (split <;> rfl)]
@[simp] theorem advance_script (c : Command) (s : State) : (advance c s).script = s.script := by
  unfold advance; split <;> [rfl; (split <;> rfl)]
@[simp] theorem advance_regData (c : Command) (s : State) : (advance c s).regData = s.regData := by
  unfold advance; split <;> [rfl; (split <;> rfl)]
@[simp] theorem advance_memData (c : Command) (s : State) : (advance c s).memData = s.memData := by
  unfold advance; split <;> [rfl; (split <;> rfl)]

/-! ## Host writes of a descriptor register (spec/10_state.md R27) -/

@[simp] theorem writeDesc_reg (s : State) (r : Desc) : (writeDesc s r).reg = if s.busy then s.reg else r := by
  unfold writeDesc; split <;> rfl
@[simp] theorem writeDesc_busy (s : State) (r : Desc) : (writeDesc s r).busy = s.busy := by
  unfold writeDesc; split <;> rfl
@[simp] theorem writeDesc_done (s : State) (r : Desc) : (writeDesc s r).done = s.done := by
  unfold writeDesc; split <;> rfl
@[simp] theorem writeDesc_err (s : State) (r : Desc) : (writeDesc s r).err = s.err := by
  unfold writeDesc; split <;> rfl
@[simp] theorem writeDesc_errcode (s : State) (r : Desc) : (writeDesc s r).errcode = s.errcode := by
  unfold writeDesc; split <;> rfl
@[simp] theorem writeDesc_doneIe (s : State) (r : Desc) : (writeDesc s r).doneIe = s.doneIe := by
  unfold writeDesc; split <;> rfl
@[simp] theorem writeDesc_errIe (s : State) (r : Desc) : (writeDesc s r).errIe = s.errIe := by
  unfold writeDesc; split <;> rfl
@[simp] theorem writeDesc_outLen (s : State) (r : Desc) : (writeDesc s r).outLen = s.outLen := by
  unfold writeDesc; split <;> rfl
@[simp] theorem writeDesc_errInfo (s : State) (r : Desc) : (writeDesc s r).errInfo = s.errInfo := by
  unfold writeDesc; split <;> rfl
@[simp] theorem writeDesc_d (s : State) (r : Desc) : (writeDesc s r).d = s.d := by
  unfold writeDesc; split <;> rfl
@[simp] theorem writeDesc_scr (s : State) (r : Desc) : (writeDesc s r).scr = s.scr := by
  unfold writeDesc; split <;> rfl
@[simp] theorem writeDesc_phase (s : State) (r : Desc) : (writeDesc s r).phase = s.phase := by
  unfold writeDesc; split <;> rfl
@[simp] theorem writeDesc_mem (s : State) (r : Desc) : (writeDesc s r).mem = s.mem := by
  unfold writeDesc; split <;> rfl
@[simp] theorem writeDesc_inReset (s : State) (r : Desc) : (writeDesc s r).inReset = s.inReset := by
  unfold writeDesc; split <;> rfl
@[simp] theorem writeDesc_old (s : State) (r : Desc) : (writeDesc s r).old = s.old := by
  unfold writeDesc; split <;> rfl
@[simp] theorem writeDesc_touched (s : State) (r : Desc) : (writeDesc s r).touched = s.touched := by
  unfold writeDesc; split <;> rfl
@[simp] theorem writeDesc_ended (s : State) (r : Desc) : (writeDesc s r).ended = s.ended := by
  unfold writeDesc; split <;> rfl
@[simp] theorem writeDesc_draws (s : State) (r : Desc) : (writeDesc s r).draws = s.draws := by
  unfold writeDesc; split <;> rfl
@[simp] theorem writeDesc_slice (s : State) (r : Desc) : (writeDesc s r).slice = s.slice := by
  unfold writeDesc; split <;> rfl
@[simp] theorem writeDesc_script (s : State) (r : Desc) : (writeDesc s r).script = s.script := by
  unfold writeDesc; split <;> rfl
@[simp] theorem writeDesc_regData (s : State) (r : Desc) : (writeDesc s r).regData = s.regData := by
  unfold writeDesc; split <;> rfl
@[simp] theorem writeDesc_memData (s : State) (r : Desc) : (writeDesc s r).memData = s.memData := by
  unfold writeDesc; split <;> rfl

end Sys2Proof.Machine
end

