-- ==== Sys2Proof/Laws/Ops.lean ====
section
/-! SUPPORT. What each shared operation can do, said once: the bounded readers, the completion, the engine's single step,
and a run of steps. -/

namespace Sys2Proof.Machine

/-! ## Bounded readers -/

/-- Inside its window, in existing memory, a read is legal (spec/40_primitives.md R131). -/
theorem guardRead_ok {w : Window} {off n : Nat} (h : off + n ≤ w.len) (hw : Fits w) : guardRead w off n = .ok () := by
  unfold Fits at hw
  have h1 : ¬ w.len < off + n := by omega
  have h2 : ¬ Config.memSize < w.base + off + n := by simp only [Config.memSize]; omega
  simp [guardRead, h1, h2]

/-- Beyond its window a read is E_BOUNDS (spec/40_primitives.md R131). -/
theorem guardRead_bounds {w : Window} {off n : Nat} (h : w.len < off + n) :
    guardRead w off n = .error (.error .bounds) := by simp [guardRead, h]

theorem readU8_ok {w : Window} {m : Memory} {off : Nat} (h : off + 1 ≤ w.len) (hw : Fits w) :
    readU8 w m off = .ok (byteAt m w off) := by simp [readU8, guardRead_ok h hw, Except.map]

theorem readU16le_ok {w : Window} {m : Memory} {off : Nat} (h : off + 2 ≤ w.len) (hw : Fits w) :
    readU16le w m off = .ok (u16le (byteAt m w off) (byteAt m w (off + 1))) := by
  simp [readU16le, guardRead_ok h hw, Except.map]

theorem readU16be_ok {w : Window} {m : Memory} {off : Nat} (h : off + 2 ≤ w.len) (hw : Fits w) :
    readU16be w m off = .ok (u16be (byteAt m w off) (byteAt m w (off + 1))) := by
  simp [readU16be, guardRead_ok h hw, Except.map]

theorem readU24le_ok {w : Window} {m : Memory} {off : Nat} (h : off + 3 ≤ w.len) (hw : Fits w) :
    readU24le w m off = .ok (u24le (byteAt m w off) (byteAt m w (off + 1)) (byteAt m w (off + 2))) := by
  simp [readU24le, guardRead_ok h hw, Except.map]

theorem readU32le_ok {w : Window} {m : Memory} {off : Nat} (h : off + 4 ≤ w.len) (hw : Fits w) :
    readU32le w m off =
      .ok (u32le (byteAt m w off) (byteAt m w (off + 1)) (byteAt m w (off + 2)) (byteAt m w (off + 3))) := by
  simp [readU32le, guardRead_ok h hw, Except.map]

theorem readBytes_ok {w : Window} {m : Memory} {off n : Nat} (h : off + n ≤ w.len) (hw : Fits w) :
    readBytes w m off n = .ok ((List.range n).map fun k => byteAt m w (off + k)) := by
  simp [readBytes, guardRead_ok h hw, Except.map]

/-! ## Completion -/

theorem mem_hazardWrites {ev n o : Nat} {b : Byte} : (o, b) ∈ hazardWrites ev n ↔ o < n ∧ b = Config.hazardByte ev o := by
  simp only [hazardWrites, List.mem_map, List.mem_range, Prod.mk.injEq]
  constructor
  · rintro ⟨x, h, rfl, rfl⟩; exact ⟨h, rfl⟩
  · rintro ⟨h, rfl⟩; exact ⟨o, h, rfl, rfl⟩

theorem completeCommand_eq (n : Nat) (s : State) :
    completeCommand n s =
      if s.touched then (applyWrites s.d.dstBase.toNat (hazardWrites s.draws n) s.mem).map (finished s · n)
      else .ok (finished s s.mem n) := rfl

/-- Completion answers the finished state; memory is as it was where the host kept its duties, and outside the output
range in any case (spec/46_dispatch.md R312, spec/20_memory.md R72). -/
theorem completeCommand_spec {n : Nat} {s : State} (hm : s.mem.wf = true) (hn : s.d.dstBase.toNat + n ≤ 2 ^ 32) :
    ∃ m, completeCommand n s = .ok (finished s m n) ∧ m.wf = true ∧ (s.touched = false → m = s.mem) ∧
      ∀ a, ¬ (s.d.dstBase.toNat ≤ a ∧ a < s.d.dstBase.toNat + n) → m.read a = s.mem.read a := by
  rw [completeCommand_eq]
  cases ht : s.touched
  · exact ⟨s.mem, rfl, hm, fun _ => rfl, fun _ _ => rfl⟩
  · obtain ⟨m, e, hw, frame, -, -⟩ := applyWrites_spec (base := s.d.dstBase.toNat) (ws := hazardWrites s.draws n) hm (by
      rintro ⟨o, b⟩ hw
      have := (mem_hazardWrites.1 hw).1
      simp only [Config.memSize]; omega)
    refine ⟨m, by simp [e, Except.map], hw, by simp, fun a ha => frame a ?_⟩
    rintro ⟨o, b⟩ hw rfl
    have := (mem_hazardWrites.1 hw).1
    exact ha ⟨by omega, by omega⟩

@[simp] theorem finished_busy (s : State) (m : Memory) (n : Nat) : (finished s m n).busy = false := rfl
@[simp] theorem finished_done (s : State) (m : Memory) (n : Nat) : (finished s m n).done = true := rfl
@[simp] theorem finished_err (s : State) (m : Memory) (n : Nat) : (finished s m n).err = s.err := rfl
@[simp] theorem finished_errcode (s : State) (m : Memory) (n : Nat) : (finished s m n).errcode = s.errcode := rfl
@[simp] theorem finished_mem (s : State) (m : Memory) (n : Nat) : (finished s m n).mem = m := rfl
@[simp] theorem finished_old (s : State) (m : Memory) (n : Nat) : (finished s m n).old = s.old := rfl
@[simp] theorem finished_reg (s : State) (m : Memory) (n : Nat) : (finished s m n).reg = s.reg := rfl
@[simp] theorem finished_d (s : State) (m : Memory) (n : Nat) : (finished s m n).d = s.d := rfl
@[simp] theorem finished_errInfo (s : State) (m : Memory) (n : Nat) : (finished s m n).errInfo = s.errInfo := rfl
@[simp] theorem finished_inReset (s : State) (m : Memory) (n : Nat) : (finished s m n).inReset = s.inReset := rfl
@[simp] theorem finished_ended (s : State) (m : Memory) (n : Nat) :
    (finished s m n).ended = ⟨s.d, n, s.old⟩ :: s.ended := rfl
@[simp] theorem finished_outLen (s : State) (m : Memory) (n : Nat) : (finished s m n).outLen = BitVec.ofNat 32 n := rfl

/-! ## The sequencer -/

/-- The sequencer moves one unit on, or the walk is over; nothing else changes (spec/10_state.md R22). -/
theorem advance_cases (c : Command) (s : State) :
    (s.scr.bx + 1 < c.cols s.d ∧ advance c s = { s with scr := { s.scr with bx := s.scr.bx + 1 } }) ∨
    (c.cols s.d ≤ s.scr.bx + 1 ∧ s.scr.by_ + 1 < c.rows s.d ∧
      advance c s = { s with scr := { s.scr with bx := 0, by_ := s.scr.by_ + 1 } }) ∨
    (c.cols s.d ≤ s.scr.bx + 1 ∧ c.rows s.d ≤ s.scr.by_ + 1 ∧ advance c s = { s with phase := .finish }) := by
  unfold advance
  by_cases h1 : s.scr.bx + 1 < c.cols s.d
  · exact .inl ⟨h1, if_pos h1⟩
  · by_cases h2 : s.scr.by_ + 1 < c.rows s.d
    · exact .inr (.inl ⟨by omega, h2, by rw [if_neg h1, if_pos h2]⟩)
    · exact .inr (.inr ⟨by omega, by omega, by rw [if_neg h1, if_neg h2]⟩)

/-! ## Runs of engine steps -/

@[simp] theorem runSteps_zero (c : Command) (s : State) : runSteps c 0 s = .next s := rfl

theorem runSteps_idle {c : Command} {n : Nat} {s : State} (h : s.busy = false) : runSteps c n s = .next s := by
  cases n <;> simp [runSteps, h]

theorem runSteps_succ {c : Command} {n : Nat} {s t : State} (hb : s.busy = true) (h : engineStep c s = .next t) :
    runSteps c (n + 1) s = runSteps c n t := by simp [runSteps, hb, h]

/-- A run of `a + b` steps is a run of `a` steps and then one of `b`. -/
theorem runSteps_add {c : Command} {b : Nat} : ∀ {a : Nat} {s t : State}, runSteps c a s = .next t →
    runSteps c (a + b) s = runSteps c b t
  | 0, s, t, h => by
    simp only [runSteps_zero, Host.Outcome.next.injEq] at h
    rw [h, Nat.zero_add]
  | a + 1, s, t, h => by
    cases hb : s.busy
    · rw [runSteps_idle hb] at h ⊢
      simp only [Host.Outcome.next.injEq] at h
      rw [← h, runSteps_idle hb]
    · rw [Nat.add_right_comm]
      simp only [runSteps, hb, if_true] at h ⊢
      cases he : engineStep c s with
      | next u => rw [he] at h; exact runSteps_add h
      | fault f => rw [he] at h; cases h
      | refused r => rw [he] at h; cases h

/-- Steps beyond the command's end change nothing. -/
theorem runSteps_enough {c : Command} {a b : Nat} {s t : State} (h : runSteps c a s = .next t) (ht : t.busy = false)
    (hab : a ≤ b) : runSteps c b s = .next t := by
  obtain ⟨k, rfl⟩ := Nat.exists_eq_add_of_le hab
  rw [runSteps_add h, runSteps_idle ht]

end Sys2Proof.Machine
end

