-- ==== Sys2Proof/Laws/Walk.lean ====
section
/-! SUPPORT. The walk over units, once for all commands: where every unit decodes and writes exactly the bytes of an image
that it owns, the run of a command ends with that image in memory (spec/46_dispatch.md R310 to R315). -/

namespace Sys2Proof.Machine

/-- Where the sequencer is, and the cursor with it (spec/46_dispatch.md R310). -/
structure AtUnit (c : Command) (texels : Nat) (s : State) : Prop where
  bx : s.scr.bx < c.cols s.d
  by_ : s.scr.by_ < c.rows s.d
  cur : s.scr.cur = (s.scr.by_ * c.cols s.d + s.scr.bx) * texels

/-- The raster number of the unit at the sequencer position. -/
def unitNumber (c : Command) (s : State) : Nat := s.scr.by_ * c.cols s.d + s.scr.bx

/-- What every unit of a command does on a descriptor `d`: it decodes without a halt, moves the cursor by `texels`, leaves
the palette RAM alone, and writes the bytes of `image` at exactly the offsets it owns. `image` depends on nothing that
another unit changes. -/
structure UnitsOk (c : Command) (d : Desc) (texels : Nat) (owner : Nat → Nat) (image : State → Nat → Option Byte) :
    Prop where
  fits : d.dstBase.toNat + c.outLen d ≤ 2 ^ 32
  inside : c.outLen d ≤ d.dstLen.toNat
  owned : ∀ o, o < c.outLen d → owner o < c.rows d * c.cols d
  unit : ∀ s, s.d = d → AtUnit c texels s → ∃ u, c.decodeUnit s = .ok u ∧
    u.scr.bx = s.scr.bx ∧ u.scr.by_ = s.scr.by_ ∧ u.scr.cur = s.scr.cur + texels ∧ u.scr.pal = s.scr.pal ∧
    u.scr.palN = s.scr.palN ∧
    (∀ w ∈ u.writes, w.1 < c.outLen d ∧ owner w.1 = unitNumber c s ∧ image s w.1 = some w.2) ∧
    (∀ o < c.outLen d, owner o = unitNumber c s → ∀ b, image s o = some b → (o, b) ∈ u.writes)
  stable : ∀ s t : State, s.d = d → t.d = d → s.scr.pal = t.scr.pal → s.scr.palN = t.scr.palN → s.draws = t.draws →
    (∀ a, ¬ (d.dstBase.toNat ≤ a ∧ a < d.dstBase.toNat + c.outLen d) → s.mem.read a = t.mem.read a) →
    ∀ o < c.outLen d, image s o = image t o

variable {c : Command} {d : Desc} {texels : Nat} {owner : Nat → Nat} {image : State → Nat → Option Byte}

/-- The byte at address `a` when the units numbered `k` and up have written the image of `s` over its memory. -/
def imageFrom (c : Command) (owner : Nat → Nat) (image : State → Nat → Option Byte) (k : Nat) (s : State) (a : Nat) :
    Byte :=
  if s.d.dstBase.toNat ≤ a ∧ a < s.d.dstBase.toNat + c.outLen s.d ∧ k ≤ owner (a - s.d.dstBase.toNat) then
    (image s (a - s.d.dstBase.toNat)).getD (s.mem.read a)
  else s.mem.read a

theorem engineStep_check {s : State} (h : s.phase = .check) : engineStep c s = stepCheck c s := by
  unfold engineStep; rw [h]

theorem engineStep_fill {s : State} (h : s.phase = .fill) : engineStep c s = stepFill c s := by
  unfold engineStep; rw [h]

theorem engineStep_walk {s : State} (h : s.phase = .walk) : engineStep c s = stepUnit c s := by
  unfold engineStep; rw [h]

theorem engineStep_finish {s : State} (h : s.phase = .finish) : engineStep c s = stepFinish c s := by
  unfold engineStep; rw [h]

/-- One unit: the engine answers a next state, one unit further on or past the walk, with that unit's bytes written. -/
theorem stepUnit_spec (h : UnitsOk c d texels owner image) {s : State} (hd : s.d = d) (hm : s.mem.wf = true)
    (hu : AtUnit c texels s) :
    ∃ scr m, stepUnit c s = .next (advance c { s with scr := scr, mem := m }) ∧ m.wf = true ∧
      scr.bx = s.scr.bx ∧ scr.by_ = s.scr.by_ ∧ scr.cur = s.scr.cur + texels ∧ scr.pal = s.scr.pal ∧
      scr.palN = s.scr.palN ∧
      ∀ a, m.read a =
        if s.d.dstBase.toNat ≤ a ∧ a < s.d.dstBase.toNat + c.outLen s.d ∧
            owner (a - s.d.dstBase.toNat) = unitNumber c s then
          (image s (a - s.d.dstBase.toNat)).getD (s.mem.read a)
        else s.mem.read a := by
  subst hd
  obtain ⟨u, e, hbx, hby, hcur, hpal, hpn, sound, complete⟩ := h.unit s rfl hu
  have hb : ∀ w ∈ u.writes, s.d.dstBase.toNat + w.1 < Config.memSize := fun w hw => by
    have := (sound w hw).1
    have := h.fits
    simp only [Config.memSize]; omega
  obtain ⟨m, em, hmw, frame, -, wr⟩ := applyWrites_spec hm hb
  refine ⟨u.scr, m, by simp [stepUnit, e, em], hmw, hbx, hby, hcur, hpal, hpn, fun a => ?_⟩
  by_cases ha : ∃ w ∈ u.writes, a = s.d.dstBase.toNat + w.1
  · obtain ⟨w, hw, rfl⟩ := ha
    obtain ⟨h1, h2, h3⟩ := sound w hw
    obtain ⟨w', hw', e1, e2⟩ := wr w hw
    have h3' := (sound w' hw').2.2
    rw [e1, h3] at h3'
    have : s.d.dstBase.toNat + w.1 - s.d.dstBase.toNat = w.1 := by omega
    rw [if_pos ⟨by omega, by omega, by rw [this]; exact h2⟩, this, h3, e2]
    exact (Option.some.inj h3').symm
  · rw [frame a fun w hw e => ha ⟨w, hw, e⟩]
    split
    · rename_i hc
      obtain ⟨hc1, hc2, hc3⟩ := hc
      cases hi : image s (a - s.d.dstBase.toNat) with
      | none => rfl
      | some b =>
        exact absurd ⟨_, complete _ (by omega) hc3 b hi, by simp only; omega⟩ ha
    · rfl

/-- From any unit of the walk the run comes to the completion stage, with the image written from that unit on. -/
theorem runWalk_spec (h : UnitsOk c d texels owner image) : ∀ (r : Nat) {s : State}, s.d = d → s.busy = true →
    s.phase = .walk → s.mem.wf = true → AtUnit c texels s → unitNumber c s + r = c.rows d * c.cols d →
    ∃ scr m, runSteps c r s = .next { s with scr := scr, mem := m, phase := .finish } ∧ m.wf = true ∧
      ∀ a, m.read a = imageFrom c owner image (unitNumber c s) s a := by
  intro r
  induction r with
  | zero =>
    intro s hd hb hp hm hu hr
    exfalso
    obtain ⟨h1, h2, -⟩ := hu
    rw [hd] at h1 h2
    have : (s.scr.by_ + 1) * c.cols d ≤ c.rows d * c.cols d := Nat.mul_le_mul_right _ h2
    rw [Nat.add_one_mul] at this
    simp only [unitNumber, hd] at hr
    omega
  | succ r ih =>
    intro s hd hb hp hm hu hr
    have h0 := h
    rw [← hd] at h hr
    obtain ⟨scr, m, e, hmw, hbx, hby, hcur, hpal, hpn, hread⟩ := stepUnit_spec h rfl hm hu
    have he : engineStep c s = .next (advance c { s with scr := scr, mem := m }) := by
      rw [engineStep_walk hp]; exact e
    rw [runSteps_succ hb he]
    -- the image of the rest is that of `s`
    have himg : ∀ (t : State), t.d = s.d → t.scr.pal = s.scr.pal → t.scr.palN = s.scr.palN → t.draws = s.draws →
        t.mem = m → ∀ o < c.outLen s.d, image t o = image s o := by
      intro t h1 h2 h3 h4 h5
      refine h.stable t s h1 rfl h2 h3 h4 fun a ha => ?_
      rw [h5, hread a, if_neg fun hc => ha ⟨hc.1, hc.2.1⟩]
    obtain ⟨hub, huy, huc⟩ := hu
    -- all the successors that stay in the walk
    have stay : ∀ (t : State), advance c { s with scr := scr, mem := m } = t → t.d = s.d → t.busy = true →
        t.phase = .walk → t.mem = m → t.scr.pal = s.scr.pal → t.scr.palN = s.scr.palN → t.draws = s.draws →
        AtUnit c texels t → unitNumber c t = unitNumber c s + 1 →
        (∀ scr' m', { t with scr := scr', mem := m', phase := Phase.finish } =
          { s with scr := scr', mem := m', phase := Phase.finish }) →
        ∃ scr' m', runSteps c r (advance c { s with scr := scr, mem := m }) =
          .next { s with scr := scr', mem := m', phase := .finish } ∧ m'.wf = true ∧
          ∀ a, m'.read a = imageFrom c owner image (unitNumber c s) s a := by
      intro t ht td tb tp tm tpal tpn tdr tu tn teq
      rw [ht]
      obtain ⟨scr', m', e', hw', hr'⟩ := ih (td.trans hd) tb tp (tm ▸ hmw) tu (by rw [tn, ← hd]; omega)
      refine ⟨scr', m', by rw [e', teq], hw', fun a => ?_⟩
      rw [hr' a]
      unfold imageFrom
      rw [td, tn, tm]
      by_cases hin : s.d.dstBase.toNat ≤ a ∧ a < s.d.dstBase.toNat + c.outLen s.d
      · have hi := himg t td tpal tpn tdr tm (a - s.d.dstBase.toNat) (by omega)
        rw [hi, hread a]
        have e1 := hin.1
        have e2 := hin.2
        simp only [e1, e2, true_and]
        split_ifs <;> first | rfl | (exfalso; omega)
      · rw [if_neg (fun hc => hin ⟨hc.1, hc.2.1⟩), if_neg (fun hc => hin ⟨hc.1, hc.2.1⟩), hread a,
          if_neg (fun hc => hin ⟨hc.1, hc.2.1⟩)]
    rcases advance_cases c { s with scr := scr, mem := m } with ⟨hlt, hadv⟩ | ⟨hge, hlt, hadv⟩ | ⟨hge, hge2, hadv⟩
    · refine stay _ hadv rfl hb hp rfl hpal hpn rfl ⟨hlt, ?_, ?_⟩ ?_ (fun _ _ => rfl)
      · show scr.by_ < _; rw [hby]; exact huy
      · show scr.cur = (scr.by_ * c.cols s.d + (scr.bx + 1)) * texels
        rw [hcur, huc, hby, hbx, ← Nat.add_one_mul]; rfl
      · show scr.by_ * c.cols s.d + (scr.bx + 1) = _
        rw [hby, hbx]; simp only [unitNumber]; omega
    · have hbxe : s.scr.bx + 1 = c.cols s.d := by
        have : c.cols s.d ≤ scr.bx + 1 := hge
        rw [hbx] at this; omega
      have hnum : (scr.by_ + 1) * c.cols s.d = s.scr.by_ * c.cols s.d + s.scr.bx + 1 := by
        rw [hby, Nat.add_one_mul]; omega
      refine stay _ hadv rfl hb hp rfl hpal hpn rfl ⟨?_, hlt, ?_⟩ ?_ (fun _ _ => rfl)
      · show 0 < c.cols s.d; omega
      · show scr.cur = ((scr.by_ + 1) * c.cols s.d + 0) * texels
        rw [hcur, huc, hnum, ← Nat.add_one_mul]
      · show (scr.by_ + 1) * c.cols s.d + 0 = _
        rw [hnum]; rfl
    · -- the last unit
      have hge' : c.cols s.d ≤ scr.bx + 1 := hge
      have hge2' : c.rows s.d ≤ scr.by_ + 1 := hge2
      rw [hbx] at hge'
      rw [hby] at hge2'
      have hlast : unitNumber c s + 1 = c.rows s.d * c.cols s.d := by
        have : c.rows s.d = s.scr.by_ + 1 := by omega
        rw [this, Nat.add_one_mul]; simp only [unitNumber]; omega
      obtain rfl : r = 0 := by omega
      refine ⟨scr, m, by rw [hadv]; rfl, hmw, fun a => ?_⟩
      rw [hread a]
      unfold imageFrom
      by_cases hin : s.d.dstBase.toNat ≤ a ∧ a < s.d.dstBase.toNat + c.outLen s.d
      · have := h.owned (a - s.d.dstBase.toNat) (by omega)
        simp only [hin.1, hin.2, true_and]
        split_ifs <;> first | rfl | (exfalso; omega)
      · rw [if_neg (fun hc => hin ⟨hc.1, hc.2.1⟩), if_neg (fun hc => hin ⟨hc.1, hc.2.1⟩)]

/-- From any unit of the walk the command runs to DONE; memory outside the output range is untouched, and where the host
kept its duties it holds the image from that unit on. -/
theorem runWalk_done (h : UnitsOk c d texels owner image) {s : State} (hd : s.d = d) (hb : s.busy = true)
    (hp : s.phase = .walk) (hm : s.mem.wf = true) (hu : AtUnit c texels s) :
    ∃ m, runSteps c (c.rows d * c.cols d - unitNumber c s + 1) s = .next (finished s m (c.outLen d)) ∧ m.wf = true ∧
      (∀ a, ¬ (s.d.dstBase.toNat ≤ a ∧ a < s.d.dstBase.toNat + c.outLen s.d) → m.read a = s.mem.read a) ∧
      (s.touched = false → ∀ a, m.read a = imageFrom c owner image (unitNumber c s) s a) := by
  subst hd
  have hle : unitNumber c s + (c.rows s.d * c.cols s.d - unitNumber c s) = c.rows s.d * c.cols s.d := by
    obtain ⟨h1, h2, -⟩ := hu
    have : (s.scr.by_ + 1) * c.cols s.d ≤ c.rows s.d * c.cols s.d := Nat.mul_le_mul_right _ h2
    rw [Nat.add_one_mul] at this
    simp only [unitNumber]; omega
  obtain ⟨scr, m, e, hmw, hread⟩ := runWalk_spec h _ rfl hb hp hm hu hle
  obtain ⟨m', e', hmw', hsame, hframe⟩ := completeCommand_spec (n := c.outLen s.d)
    (s := { s with scr := scr, mem := m, phase := .finish }) hmw h.fits
  have hfin : engineStep c { s with scr := scr, mem := m, phase := .finish } = .next (finished s m' (c.outLen s.d)) := by
    show stepFinish c _ = _
    simp only [stepFinish, e']; rfl
  refine ⟨m', by rw [runSteps_add e, ← Nat.zero_add 1, runSteps_succ (s := { s with scr := scr, mem := m, phase := .finish }) hb hfin,
    runSteps_zero], hmw', fun a ha => ?_, fun ht a => ?_⟩
  · rw [hframe a ha, show (State.mem { s with scr := scr, mem := m, phase := Phase.finish }) = m from rfl, hread a]
    unfold imageFrom
    rw [if_neg fun hc => ha ⟨hc.1, hc.2.1⟩]
  · rw [hsame ht]; exact hread a

end Sys2Proof.Machine
end

