-- ==== Sys2Proof/Laws/Start.lean ====
section
/-! SUPPORT. A command from its accepted START: the checks, the palette fill, the whole run (spec/46_dispatch.md R302,
R310, R312, spec/45_palette.md R294). -/

namespace Sys2Proof.Machine

/-! ## The palette fill -/

/-- A palette entry that lies in the palette window is read without a halt (spec/45_palette.md R290). -/
theorem palEntry_ok {fmt : PalFmt} {d : Desc} {m : Memory} {i : Nat} (h : 2 * i + 2 ≤ d.palLen.toNat)
    (hf : Fits d.pal) :
    palEntry fmt d m i = .ok (palFmtPixel fmt (u16be (byteAt m d.pal (2 * i)) (byteAt m d.pal (2 * i + 1)))) := by
  simp [palEntry, readU16be_ok (show 2 * i + 2 ≤ d.pal.len from h) hf, Except.map]

/-- The fill loads the entries `i` to `i + n - 1` and leaves the others alone. -/
theorem fillFrom_ok {fmt : PalFmt} {d : Desc} {m : Memory} (hf : Fits d.pal) : ∀ (n i : Nat)
    (pal : Vector Pixel Config.palRamEntries), 2 * (i + n) ≤ d.palLen.toNat →
    ∃ pal', fillFrom fmt d m n i pal = .ok pal' ∧ ∀ k, (hk : k < Config.palRamEntries) →
      pal'[k] = if i ≤ k ∧ k < i + n then
        palFmtPixel fmt (u16be (byteAt m d.pal (2 * k)) (byteAt m d.pal (2 * k + 1))) else pal[k]
  | 0, i, pal, _ => ⟨pal, rfl, fun k _ => by rw [if_neg (by omega)]⟩
  | n + 1, i, pal, h => by
    obtain ⟨pal', e, he⟩ := fillFrom_ok hf n (i + 1) (pal.setIfInBounds i
      (palFmtPixel fmt (u16be (byteAt m d.pal (2 * i)) (byteAt m d.pal (2 * i + 1))))) (by omega)
    refine ⟨pal', ?_, fun k hk => ?_⟩
    · simp only [fillFrom, palEntry_ok (fmt := fmt) (m := m) (show 2 * i + 2 ≤ d.palLen.toNat by omega) hf, Except.bind]
      exact e
    · rw [he k hk]
      by_cases hik : i = k
      · subst hik
        rw [if_neg (by omega), if_pos (by omega), Vector.getElem_setIfInBounds_self]
      · rw [Vector.getElem_setIfInBounds_ne _ (by omega)]
        split_ifs <;> first | rfl | (exfalso; omega)

/-- All that the fill can do on a legal palette window: palette RAM holds the window's entries, `pal_n` their count, the
sequencer stays (spec/45_palette.md R294). -/
theorem paletteFill_ok {fmt : PalFmt} {s : State} (hf : Fits s.d.pal) :
    ∃ scr, paletteFill fmt s = .ok scr ∧ scr.bx = s.scr.bx ∧ scr.by_ = s.scr.by_ ∧ scr.cur = s.scr.cur ∧
      scr.palN = palCount s.d ∧ ∀ k, (hk : k < Config.palRamEntries) → k < palCount s.d →
        scr.pal[k] = palFmtPixel fmt (u16be (byteAt s.mem s.d.pal (2 * k)) (byteAt s.mem s.d.pal (2 * k + 1))) := by
  obtain ⟨pal', e, he⟩ := fillFrom_ok (fmt := fmt) (m := s.mem) hf (palCount s.d) 0 s.scr.pal (by
    have : palCount s.d ≤ s.d.palEntries := Nat.min_le_left ..
    unfold Desc.palEntries at this
    omega)
  refine ⟨{ s.scr with pal := pal', palN := palCount s.d }, by simp [paletteFill, e, Except.map], rfl, rfl, rfl, rfl,
    fun k hk hn => ?_⟩
  show pal'[k] = _
  rw [he k hk, if_pos (by omega)]

/-! ## From the first stage of the walk -/

variable {c : Command} {d : Desc} {texels : Nat} {owner : Nat → Nat} {image : State → Nat → Option Byte}

/-- With the sequencer at its start the walk, empty or not, runs to DONE with the whole image in memory. -/
theorem runGrid_done (h : UnitsOk c d texels owner image) {s : State} (hd : s.d = d) (hb : s.busy = true)
    (hp : s.phase = walkPhase c d) (hm : s.mem.wf = true) (hx : s.scr.bx = 0) (hy : s.scr.by_ = 0)
    (hc : s.scr.cur = 0) :
    ∃ m, runSteps c (c.rows d * c.cols d + 1) s = .next (finished s m (c.outLen d)) ∧ m.wf = true ∧
      (∀ a, ¬ (s.d.dstBase.toNat ≤ a ∧ a < s.d.dstBase.toNat + c.outLen s.d) → m.read a = s.mem.read a) ∧
      (s.touched = false → ∀ a, m.read a = imageFrom c owner image 0 s a) := by
  subst hd
  by_cases hz : c.cols s.d = 0 ∨ c.rows s.d = 0
  · have hprod : c.rows s.d * c.cols s.d = 0 := by rcases hz with h | h <;> simp [h]
    have hlen : c.outLen s.d = 0 := by
      by_contra hne
      have := h.owned 0 (by omega)
      omega
    have hp' : s.phase = .finish := by rw [hp]; exact if_pos hz
    obtain ⟨m, e, hw, hsame, hframe⟩ := completeCommand_spec (n := c.outLen s.d) hm h.fits
    have hfin : engineStep c s = .next (finished s m (c.outLen s.d)) := by
      rw [engineStep_finish hp', stepFinish, e]
    refine ⟨m, by rw [hprod, runSteps_succ hb hfin, runSteps_zero], hw, fun a ha => hframe a ha, fun ht a => ?_⟩
    rw [hsame ht, imageFrom, if_neg (by omega)]
  · have hp' : s.phase = .walk := by rw [hp]; exact if_neg hz
    have hnum : unitNumber c s = 0 := by simp [unitNumber, hx, hy]
    have hu : AtUnit c texels s := ⟨by omega, by omega, by simp [hx, hy, hc]⟩
    obtain ⟨m, e, hw, hframe, himg⟩ := runWalk_done h rfl hb hp' hm hu
    rw [hnum, Nat.sub_zero] at e
    rw [hnum] at himg
    exact ⟨m, e, hw, hframe, himg⟩

theorem stepBound_enough (c : Command) (d : Desc) : c.rows d * c.cols d + 4 ≤ stepBound c d := by
  have : c.rows d * c.cols d ≤ c.rows d * (c.cols d + 1) := Nat.mul_le_mul_left _ (by omega)
  unfold stepBound; omega

/-- A failed check ends the command in its first engine step (spec/46_dispatch.md R302, R313). -/
theorem runSteps_rejected {s : State} {e : ErrCode} {info : Word} {n : Nat} (hb : s.busy = true)
    (hp : s.phase = .check) (hv : validate c s.d = .error (e, info)) :
    runSteps c (n + 1) s = .next (raiseError e info s) := by
  have he : engineStep c s = .next (raiseError e info s) := by rw [engineStep_check hp, stepCheck, hv]
  rw [runSteps_succ hb he, runSteps_idle rfl]

/-- An accepted command without a palette fill runs to DONE with its image in memory (spec/46_dispatch.md R315). -/
theorem runFresh_direct (h : UnitsOk c d texels owner image) (hfill : c.fill = none) {s : State} (hd : s.d = d)
    (hs : Fresh s) (hv : validate c d = .ok ()) :
    ∃ m, runSteps c (stepBound c d) s = .next (finished s m (c.outLen d)) ∧ m.wf = true ∧
      ∀ a, m.read a = imageFrom c owner image 0 s a := by
  subst hd
  have he : engineStep c s = .next { s with phase := walkPhase c s.d } := by
    rw [engineStep_check hs.phase, stepCheck, hv]; simp [firstPhase, hfill]
  obtain ⟨m, e, hw, -, himg⟩ := runGrid_done (s := { s with phase := walkPhase c s.d }) h rfl hs.busy rfl hs.mem hs.bx
    hs.by_ hs.cur
  refine ⟨m, ?_, hw, fun a => ?_⟩
  · refine runSteps_enough (a := c.rows s.d * c.cols s.d + 1 + 1) ?_ rfl
      (Nat.le_trans (by omega) (stepBound_enough c s.d))
    rw [runSteps_succ hs.busy he, e]; rfl
  · rw [himg hs.touched a]
    have := h.stable { s with phase := walkPhase c s.d } s rfl rfl rfl rfl rfl (fun _ _ => rfl)
    unfold imageFrom
    by_cases hin : s.d.dstBase.toNat ≤ a ∧ a < s.d.dstBase.toNat + c.outLen s.d
    · have hi := this (a - s.d.dstBase.toNat) (by omega)
      simp only [hi]
    · rw [if_neg fun hc => hin ⟨hc.1, hc.2.1⟩, if_neg fun hc => hin ⟨hc.1, hc.2.1⟩]

/-- An accepted command with a palette fill runs to DONE; its image is that of a state whose palette RAM holds the palette
window's entries (spec/44_gx_tiled.md R259, spec/45_palette.md R294). -/
theorem runFresh_paletted (h : UnitsOk c d texels owner image) {fmt : PalFmt} (hfill : c.fill = some fmt) {s : State}
    (hd : s.d = d) (hs : Fresh s) (hv : validate c d = .ok ()) (hf : Fits d.pal) :
    ∃ m t, runSteps c (stepBound c d) s = .next (finished s m (c.outLen d)) ∧ m.wf = true ∧
      t.d = s.d ∧ t.mem = s.mem ∧ t.draws = s.draws ∧ t.scr.palN = palCount d ∧
      (∀ k, (hk : k < Config.palRamEntries) → k < palCount d →
        t.scr.pal[k] = palFmtPixel fmt (u16be (byteAt s.mem d.pal (2 * k)) (byteAt s.mem d.pal (2 * k + 1)))) ∧
      ∀ a, m.read a = imageFrom c owner image 0 t a := by
  subst hd
  have he : engineStep c s = .next { s with phase := .fill } := by
    rw [engineStep_check hs.phase, stepCheck, hv]; simp [firstPhase, hfill]
  obtain ⟨scr, ef, hx, hy, hc, hn, hk⟩ := paletteFill_ok (fmt := fmt) (s := { s with phase := .fill }) hf
  have he2 : engineStep c { s with phase := .fill } = .next { s with scr := scr, phase := walkPhase c s.d } := by
    rw [engineStep_fill rfl]; simp only [stepFill, hfill, ef]
  obtain ⟨m, e, hw, -, himg⟩ := runGrid_done (s := { s with scr := scr, phase := walkPhase c s.d }) h rfl hs.busy rfl
    hs.mem (hx.trans hs.bx) (hy.trans hs.by_) (hc.trans hs.cur)
  refine ⟨m, { s with scr := scr, phase := walkPhase c s.d }, ?_, hw, rfl, rfl, rfl, hn, hk, fun a => himg hs.touched a⟩
  refine runSteps_enough (a := c.rows s.d * c.cols s.d + 1 + 1 + 1) ?_ rfl
    (Nat.le_trans (by omega) (stepBound_enough c s.d))
  rw [runSteps_succ hs.busy he, runSteps_succ (s := { s with phase := .fill }) hs.busy he2, e]; rfl

end Sys2Proof.Machine
end

