-- ==== Sys2Proof/Laws/Checks.lean ====
section
/-! SUPPORT. The machine's commands against the spec's tables: sizes, grids, and each of the five START checks
(spec/46_dispatch.md R303 to R307, R310). -/

namespace Sys2Proof.Machine

@[simp] theorem commandOf_cols (i : Instr) (d : Desc) : (commandOf i).cols d = unitCols i d := by cases i <;> rfl

@[simp] theorem commandOf_rows (i : Instr) (d : Desc) : (commandOf i).rows d = unitRows i d := by cases i <;> rfl

@[simp] theorem commandOf_outLen (i : Instr) (d : Desc) : (commandOf i).outLen d = outputLength i d := by
  cases i <;> first | rfl | exact Nat.mul_comm ..

@[simp] theorem commandOf_need (i : Instr) (d : Desc) : (commandOf i).need d = requiredSource i d := by cases i <;> rfl

@[simp] theorem commandOf_usesSrc (i : Instr) : (commandOf i).usesSrc = usesSource i := by cases i <;> rfl

@[simp] theorem commandOf_usesPal (i : Instr) : (commandOf i).usesPal = usesPalette i := by cases i <;> rfl

/-- An instruction's meaning is the run of its command. -/
theorem exec_eq (i : Instr) (s : State) : exec i s = runCommand (commandOf i) s := by cases i <;> rfl

/-! ## Check 1 -/

theorem field_eq_extract (w : Word) (lo n : Nat) : (w.extractLsb' lo n).toNat = field w lo n := by
  simp [field, BitVec.extractLsb'_toNat, Nat.shiftRight_eq_div_pow]

theorem blkdimLegal_iff (d : Desc) : d.blkdimLegal = true ↔ BlkdimLegal d.blkdim := by
  have h : (d.blkdim.extractLsb' 13 19 == 0) = true ↔ field d.blkdim 13 19 = 0 := by
    rw [← field_eq_extract, beq_iff_eq, ← BitVec.toNat_inj]; rfl
  simp only [Desc.blkdimLegal, BlkdimLegal, Bool.and_eq_true, List.contains_iff_mem, Desc.bw, Desc.bh, Desc.bpb,
    field_eq_extract, h, and_assoc]

theorem unsup_iff (i : Instr) (d : Desc) : (commandOf i).unsup d = false ↔ Supported i d := by
  have hb := blkdimLegal_iff d
  cases i <;>
    simp [commandOf, deswzCommand, bc1Command, bc2Command, bc3Command, bc4uCommand, bc4sCommand, bc5uCommand,
      bc5sCommand, bcnCommand, gxI4Command, gxI8Command, gxIa4Command, gxIa8Command, gxRgb565Command, gxRgb5a3Command,
      gxRgba8Command, gxC4Command, gxC8Command, gxC14x2Command, gxCmprCommand, gxCommand, gxCommandOf, palCommand,
      Supported, Instr.wellFormed, groupOf, hb]

/-! ## Check 2 -/

theorem dimLegal_iff (v : Word) : dimLegal v = true ↔ DimInRange v := by
  simp only [dimLegal, Bool.and_eq_true, decide_eq_true_eq]
  exact Iff.rfl

theorem dimsBad_iff (i : Instr) (d : Desc) : dimsBad (commandOf i) d = false ↔ DimsLegal i d := by
  have h := dimLegal_iff
  cases i <;>
    simp [commandOf, deswzCommand, bc1Command, bc2Command, bc3Command, bc4uCommand, bc4sCommand, bc5uCommand,
      bc5sCommand, bcnCommand, gxI4Command, gxI8Command, gxIa4Command, gxIa8Command, gxRgb565Command, gxRgb5a3Command,
      gxRgba8Command, gxC4Command, gxC8Command, gxC14x2Command, gxCmprCommand, gxCommand, gxCommandOf, palCommand,
      dimsBad, DimsLegal, groupOf, h]

/-! ## Check 3 -/

theorem legal_iff (w : Window) : w.legal = true ↔ Fits w := by
  simp only [Window.legal, decide_eq_true_eq]
  exact Iff.rfl

/-- The test of spec/20_memory.md R66 says that no address lies in both windows. -/
theorem shares_iff (v w : Window) : v.shares w = false ↔ Apart v w := by
  unfold Window.shares Apart Covers
  constructor
  · intro h a ha
    simp only [Bool.and_eq_false_iff, decide_eq_false_iff_not] at h
    omega
  · intro h
    by_contra hne
    simp only [Bool.not_eq_false, Bool.and_eq_true, decide_eq_true_eq] at hne
    exact h (max v.base w.base) ⟨⟨by omega, by omega⟩, by omega, by omega⟩

theorem windowsBad_iff (i : Instr) (d : Desc) : windowsBad (commandOf i) d = false ↔ WindowsLegal i d := by
  have h1 := legal_iff d.dst
  have h2 := legal_iff d.src
  have h3 := legal_iff d.pal
  have h4 := shares_iff d.dst d.src
  have h5 := shares_iff d.dst d.pal
  unfold windowsBad WindowsLegal
  rw [commandOf_usesSrc, commandOf_usesPal]
  cases usesSource i <;> cases usesPalette i <;> simp [h1, h2, h3, h4, h5, and_assoc]

/-! ## Check 4 -/

theorem sizeBad_eq_false (c : Command) (d : Desc) :
    sizeBad c d = false ↔ if c.exact then d.srcLen.toNat = c.need d else c.need d ≤ d.srcLen.toNat := by
  unfold sizeBad
  cases c.exact <;> simp

theorem sizeBad_iff (i : Instr) (d : Desc) : sizeBad (commandOf i) d = false ↔ SourceFits i d := by
  rw [sizeBad_eq_false, commandOf_need]
  cases i <;>
    simp [commandOf, deswzCommand, bc1Command, bc2Command, bc3Command, bc4uCommand, bc4sCommand, bc5uCommand,
      bc5sCommand, bcnCommand, gxI4Command, gxI8Command, gxIa4Command, gxIa8Command, gxRgb565Command, gxRgb5a3Command,
      gxRgba8Command, gxC4Command, gxC8Command, gxC14x2Command, gxCmprCommand, gxCommand, gxCommandOf, palCommand,
      requiredSource, groupOf, SourceFits]

/-! ## The checks together -/

/-- Every outcome of the checks: the first that fails decides (spec/46_dispatch.md R302, spec/60_exceptions.md R333). -/
theorem validate_cases (i : Instr) (d : Desc) :
    (¬ Supported i d ∧ validate (commandOf i) d = .error (.unsup, 0)) ∨
    (Supported i d ∧ ¬ DimsLegal i d ∧ validate (commandOf i) d = .error (.dim, 0)) ∨
    (Supported i d ∧ DimsLegal i d ∧ ¬ WindowsLegal i d ∧ validate (commandOf i) d = .error (.window, 0)) ∨
    (Supported i d ∧ DimsLegal i d ∧ WindowsLegal i d ∧ ¬ SourceFits i d ∧
      validate (commandOf i) d = .error (.size, saturate (requiredSource i d))) ∨
    (Supported i d ∧ DimsLegal i d ∧ WindowsLegal i d ∧ SourceFits i d ∧ ¬ OutputFits i d ∧
      validate (commandOf i) d = .error (.dst, saturate (outputLength i d))) ∨
    (Accepted i d ∧ validate (commandOf i) d = .ok ()) := by
  have h1 := unsup_iff i d
  have h2 := dimsBad_iff i d
  have h3 := windowsBad_iff i d
  have h4 := sizeBad_iff i d
  unfold validate Accepted OutputFits
  rw [commandOf_need, commandOf_outLen]
  cases e1 : (commandOf i).unsup d
  · cases e2 : dimsBad (commandOf i) d
    · cases e3 : windowsBad (commandOf i) d
      · cases e4 : sizeBad (commandOf i) d
        · by_cases e5 : d.dstLen.toNat < outputLength i d
          · simp_all
          · simp_all
        · simp_all
      · simp_all
    · simp_all
  · simp_all

/-- A descriptor passes exactly when the spec's five checks pass. -/
theorem validate_ok_iff (i : Instr) (d : Desc) : validate (commandOf i) d = .ok () ↔ Accepted i d := by
  constructor
  · intro h
    rcases validate_cases i d with ⟨_, e⟩ | ⟨_, _, e⟩ | ⟨_, _, _, e⟩ | ⟨_, _, _, _, e⟩ | ⟨_, _, _, _, _, e⟩ | ⟨h, _⟩
    · rw [e] at h; cases h
    · rw [e] at h; cases h
    · rw [e] at h; cases h
    · rw [e] at h; cases h
    · rw [e] at h; cases h
    · exact h
  · rintro ⟨a1, a2, a3, a4, a5⟩
    rcases validate_cases i d with ⟨h, _⟩ | ⟨_, h, _⟩ | ⟨_, _, h, _⟩ | ⟨_, _, _, h, _⟩ | ⟨_, _, _, _, h, _⟩ | ⟨_, e⟩
    · exact absurd a1 h
    · exact absurd a2 h
    · exact absurd a3 h
    · exact absurd a4 h
    · exact absurd a5 h
    · exact e

end Sys2Proof.Machine
end

