-- ==== Sys2Proof/Laws/Geometry.lean ====
section
/-! SUPPORT. Arithmetic of grids, of raster images and of the block-linear surface (spec/00_scope.md R6,
spec/20_memory.md R68, spec/41_address_translator.md). -/

namespace Sys2Proof.Machine

/-! ## Grids -/

theorem le_ceilDiv_mul {a b : Nat} (hb : 0 < b) : a ≤ ceilDiv a b * b := by
  unfold ceilDiv
  have := Nat.div_add_mod (a + b - 1) b
  have := Nat.mod_lt (a + b - 1) hb
  rw [Nat.mul_comm]; omega

/-- The block that a point of the image lies in is in the grid. -/
theorem div_lt_ceilDiv {a x b : Nat} (hb : 0 < b) (h : x < a) : x / b < ceilDiv a b := by
  rw [Nat.div_lt_iff_lt_mul hb]
  exact Nat.lt_of_lt_of_le h (le_ceilDiv_mul hb)

/-- A grid point's raster number is below the grid's size. -/
theorem raster_lt {x y w h : Nat} (hx : x < w) (hy : y < h) : y * w + x < h * w := by
  have : (y + 1) * w ≤ h * w := Nat.mul_le_mul_right _ hy
  rw [Nat.add_one_mul] at this; omega

theorem raster_mod {x y w : Nat} (hx : x < w) : (y * w + x) % w = x := by
  rw [Nat.add_comm, Nat.add_mul_mod_self_right, Nat.mod_eq_of_lt hx]

theorem raster_div {x y w : Nat} (hx : x < w) : (y * w + x) / w = y := by
  rw [Nat.add_comm, Nat.add_mul_div_right _ _ (by omega), Nat.div_eq_of_lt hx, Nat.zero_add]

/-- Raster numbers name points. -/
theorem raster_inj {x y x' y' w : Nat} (hx : x < w) (hx' : x' < w) (h : y * w + x = y' * w + x') : x = x' ∧ y = y' :=
  ⟨by rw [← raster_mod (y := y) hx, h, raster_mod hx'], by rw [← raster_div (y := y) hx, h, raster_div hx']⟩

/-- An offset below `h * w * n` splits into its row, its column and its rest. -/
theorem offset_split {o w h n : Nat} (hn : 0 < n) (ho : o < h * w * n) :
    o / n % w < w ∧ o / n / w < h ∧ o = (o / n / w * w + o / n % w) * n + o % n ∧ o % n < n := by
  have h1 : o / n < h * w := by rw [Nat.div_lt_iff_lt_mul hn]; exact ho
  have hw : 0 < w := by
    rcases Nat.eq_zero_or_pos w with h0 | h0
    · subst h0; simp at h1
    · exact h0
  refine ⟨Nat.mod_lt _ hw, by rw [Nat.div_lt_iff_lt_mul hw]; exact h1, ?_, Nat.mod_lt _ hn⟩
  rw [Nat.div_add_mod' (o / n) w, Nat.div_add_mod' o n]

/-- The parts of an offset made from a row, a column and a rest. -/
theorem offset_parts {x y c w n : Nat} (hx : x < w) (hc : c < n) :
    ((y * w + x) * n + c) / n % w = x ∧ ((y * w + x) * n + c) / n / w = y ∧ ((y * w + x) * n + c) % n = c := by
  have h : ((y * w + x) * n + c) / n = y * w + x := raster_div hc
  rw [h]
  exact ⟨raster_mod hx, raster_div hx, raster_mod hc⟩

theorem offset_lt {x y c w h n : Nat} (hx : x < w) (hy : y < h) (hc : c < n) : (y * w + x) * n + c < h * w * n :=
  raster_lt hc (raster_lt hx hy)

/-! ## The block-linear surface (R152, R154, R155) -/

/-- The shrunk block height is a positive power of two no larger than the one asked for. -/
theorem resolveBlockHeight_pos (h : Nat) : ∀ l, 0 < resolveBlockHeight h l
  | 0 => Nat.one_pos
  | l + 1 => by
    unfold resolveBlockHeight
    split
    · exact resolveBlockHeight_pos h l
    · exact Nat.two_pow_pos _

/-- A block's bytes lie inside the surface: no read of a block can leave a source window of the required length (R154). -/
theorem blockAddress_add_le {x y wb hb bpb bh : Nat} (hx : x < wb) (hy : y < hb) (hbh : 0 < bh)
    (hbpb : bpb ∈ [1, 4, 8, 16]) : blockAddress x y wb bpb bh 0 + bpb ≤ requiredLength wb hb bpb bh := by
  have hxb : x * bpb < wb * bpb := by
    have : (x + 1) * bpb ≤ wb * bpb := Nat.mul_le_mul_right _ hx
    have : 0 < bpb := by simp only [List.mem_cons, List.not_mem_nil, or_false] at hbpb; omega
    rw [Nat.add_one_mul] at *; omega
  have hg : x * bpb / 64 < ceilDiv (wb * bpb) 64 := div_lt_ceilDiv (by omega) hxb
  have hr : y / (8 * bh) < ceilDiv hb (8 * bh) := div_lt_ceilDiv (by omega) hy
  have hk : y % (8 * bh) / 8 < bh := by
    rw [Nat.div_lt_iff_lt_mul (by omega), Nat.mul_comm bh 8]; exact Nat.mod_lt _ (by omega)
  have hlow : x * bpb % 16 + bpb ≤ 16 := by
    simp only [List.mem_cons, List.not_mem_nil, or_false] at hbpb
    rcases hbpb with rfl | rfl | rfl | rfl <;> omega
  generalize hG : ceilDiv (wb * bpb) 64 = g at *
  generalize hR : ceilDiv hb (8 * bh) = r at *
  have e1 : y / (8 * bh) * 512 * bh * g + x * bpb / 64 * 512 * bh + y % (8 * bh) / 8 * 512 + 512 ≤
      (g * 64) * (r * (8 * bh)) := by
    have a1 : y % (8 * bh) / 8 * 512 + 512 ≤ 512 * bh := by omega
    have a2 : x * bpb / 64 * (512 * bh) + 512 * bh ≤ g * (512 * bh) := by
      rw [← Nat.add_one_mul]; exact Nat.mul_le_mul_right _ hg
    have a3 : y / (8 * bh) * (512 * bh * g) + 512 * bh * g ≤ r * (512 * bh * g) := by
      rw [← Nat.add_one_mul]; exact Nat.mul_le_mul_right _ hr
    have b1 : y / (8 * bh) * 512 * bh * g = y / (8 * bh) * (512 * bh * g) := by ring
    have b2 : x * bpb / 64 * 512 * bh = x * bpb / 64 * (512 * bh) := by ring
    have b3 : (g * 64) * (r * (8 * bh)) = r * (512 * bh * g) := by ring
    have b4 : 512 * bh * g = g * (512 * bh) := by ring
    rw [b1, b2, b3]; omega
  unfold blockAddress requiredLength widthInGobs
  simp only [hG, hR]
  omega

end Sys2Proof.Machine
end

