-- ==== Sys2Proof/Laws/Units.lean ====
section
/-! SUPPORT. What one unit of DESWZ and of the PAL commands does, and what every family's unit lemma is built from
(spec/41_address_translator.md R160, spec/45_palette.md R291). -/

namespace Sys2Proof.Machine

/-! ## From an accepted descriptor -/

theorem Accepted.fits {i : Instr} {d : Desc} (h : Accepted i d) : d.dstBase.toNat + outputLength i d ≤ 2 ^ 32 := by
  have h1 : d.dstBase.toNat + d.dstLen.toNat ≤ 2 ^ 32 := h.2.2.1.1
  have h2 : outputLength i d ≤ d.dstLen.toNat := h.2.2.2.2
  omega

theorem Accepted.src_fits {i : Instr} {d : Desc} (h : Accepted i d) (hu : usesSource i = true) : Fits d.src :=
  (h.2.2.1.2.1 hu).1

theorem Accepted.pal_fits {i : Instr} {d : Desc} (h : Accepted i d) (hu : usesPalette i = true) : Fits d.pal :=
  (h.2.2.1.2.2 hu).1

/-- A source byte is none of the bytes the command writes (spec/20_memory.md R64, R66). -/
theorem Accepted.src_stable {i : Instr} {d : Desc} (h : Accepted i d) (hu : usesSource i = true) {s t : State}
    (hs : s.d = d) (ht : t.d = d)
    (hm : ∀ a, ¬ (d.dstBase.toNat ≤ a ∧ a < d.dstBase.toNat + outputLength i d) → s.mem.read a = t.mem.read a)
    {o : Nat} (ho : o < d.srcLen.toNat) : srcByte s o = srcByte t o := by
  unfold srcByte
  rw [hs, ht]
  refine hm _ fun hc => (h.2.2.1.2.1 hu).2 (d.srcBase.toNat + o) ⟨⟨hc.1, ?_⟩, ?_, ?_⟩
  · have h2 : outputLength i d ≤ d.dstLen.toNat := h.2.2.2.2
    exact Nat.lt_of_lt_of_le hc.2 (Nat.add_le_add_left h2 _)
  · exact Nat.le_add_right ..
  · exact Nat.add_lt_add_left ho _

/-- A palette byte is none of the bytes the command writes (spec/20_memory.md R64, R66). -/
theorem Accepted.pal_stable {i : Instr} {d : Desc} (h : Accepted i d) (hu : usesPalette i = true) {s t : State}
    (hs : s.d = d) (ht : t.d = d)
    (hm : ∀ a, ¬ (d.dstBase.toNat ≤ a ∧ a < d.dstBase.toNat + outputLength i d) → s.mem.read a = t.mem.read a)
    {o : Nat} (ho : o < d.palLen.toNat) : palByte s o = palByte t o := by
  unfold palByte
  rw [hs, ht]
  refine hm _ fun hc => (h.2.2.1.2.2 hu).2 (d.palBase.toNat + o) ⟨⟨hc.1, ?_⟩, ?_, ?_⟩
  · have h2 : outputLength i d ≤ d.dstLen.toNat := h.2.2.2.2
    exact Nat.lt_of_lt_of_le hc.2 (Nat.add_le_add_left h2 _)
  · exact Nat.le_add_right ..
  · exact Nat.add_lt_add_left ho _

/-- `UnitsOk` for an accepted descriptor, in the spec's terms. -/
theorem unitsOk_of {i : Instr} {d : Desc} {owner : Nat → Nat} {image : State → Nat → Option Byte} (ha : Accepted i d)
    (owned : ∀ o < outputLength i d, owner o < unitRows i d * unitCols i d)
    (unit : ∀ s : State, s.d = d → s.scr.bx < unitCols i d → s.scr.by_ < unitRows i d →
      s.scr.cur = (s.scr.by_ * unitCols i d + s.scr.bx) * cursorStep i →
      ∃ u, (commandOf i).decodeUnit s = .ok u ∧ u.scr.bx = s.scr.bx ∧ u.scr.by_ = s.scr.by_ ∧
        u.scr.cur = s.scr.cur + cursorStep i ∧ u.scr.pal = s.scr.pal ∧ u.scr.palN = s.scr.palN ∧
        (∀ w ∈ u.writes, w.1 < outputLength i d ∧ owner w.1 = s.scr.by_ * unitCols i d + s.scr.bx ∧
          image s w.1 = some w.2) ∧
        (∀ o < outputLength i d, owner o = s.scr.by_ * unitCols i d + s.scr.bx →
          ∀ b, image s o = some b → (o, b) ∈ u.writes))
    (stable : ∀ s t : State, s.d = d → t.d = d → s.scr.pal = t.scr.pal → s.scr.palN = t.scr.palN → s.draws = t.draws →
      (usesSource i = true → ∀ o < d.srcLen.toNat, srcByte s o = srcByte t o) →
      (usesPalette i = true → ∀ o < d.palLen.toNat, palByte s o = palByte t o) →
      ∀ o < outputLength i d, image s o = image t o) :
    UnitsOk (commandOf i) d (cursorStep i) owner image where
  fits := by simpa using ha.fits
  inside := by rw [commandOf_outLen]; exact ha.2.2.2.2
  owned := by simpa using owned
  unit := fun s hd hu => by
    obtain ⟨h1, h2, h3⟩ := hu
    simp only [commandOf_cols, commandOf_rows, hd] at h1 h2 h3
    simp only [commandOf_outLen, unitNumber, commandOf_cols, hd]
    exact unit s hd h1 h2 h3
  stable := fun s t hs ht hp hn hdr hm => by
    simp only [commandOf_outLen] at hm ⊢
    exact stable s t hs ht hp hn hdr (fun hu o ho => ha.src_stable hu hs ht hm ho)
      (fun hu o ho => ha.pal_stable hu hs ht hm ho)

/-! ## DESWZ -/

theorem Accepted.deswz_bpb {bhl2 : BitVec 3} {d : Desc} (h : Accepted (.deswz bhl2) d) : d.bpb ∈ [1, 4, 8, 16] := by
  have := (h.1.2 rfl).2.2.1
  rwa [← field_eq_extract] at this

theorem Accepted.deswz_bpb_pos {bhl2 : BitVec 3} {d : Desc} (h : Accepted (.deswz bhl2) d) : 0 < d.bpb := by
  have := h.deswz_bpb
  simp only [List.mem_cons, List.not_mem_nil, or_false] at this
  omega

/-- A DESWZ block lies in the source window (spec/46_dispatch.md R308). -/
theorem Accepted.deswz_block {bhl2 : BitVec 3} {d : Desc} (h : Accepted (.deswz bhl2) d) {x y : Nat}
    (hx : x < deswzCols d) (hy : y < deswzRows d) : deswzBlockOffset bhl2 d x y + d.bpb ≤ d.srcLen.toNat := by
  have e : d.srcLen.toNat = requiredSource (.deswz bhl2) d := h.2.2.2.1
  rw [e]
  exact blockAddress_add_le hx hy (resolveBlockHeight_pos _ _) h.deswz_bpb

theorem deswz_units {bhl2 : BitVec 3} {d : Desc} (ha : Accepted (.deswz bhl2) d) :
    UnitsOk (commandOf (.deswz bhl2)) d 0 (fun o => o / d.bpb) (fun s o => some (deswzByte bhl2 s o)) := by
  have hpos := ha.deswz_bpb_pos
  have hfits := ha.src_fits rfl
  refine unitsOk_of (i := .deswz bhl2) ha ?_ ?_ ?_
  · intro o ho
    rw [Nat.div_lt_iff_lt_mul hpos]
    have e : outputLength (.deswz bhl2) d = unitCols (.deswz bhl2) d * unitRows (.deswz bhl2) d * d.bpb := rfl
    rw [e, Nat.mul_comm (unitCols _ _)] at ho
    exact ho
  · rintro s rfl hx hy hc
    have hx' : s.scr.bx < deswzCols s.d := hx
    have hb := ha.deswz_block hx hy
    refine ⟨_, by
      show deswzUnit bhl2 s = _
      unfold deswzUnit
      rw [readBytes_ok hb hfits]; rfl, rfl, rfl, rfl, rfl, rfl, ?_, ?_⟩
    · rintro ⟨o, b⟩ hw
      obtain ⟨k, hk, rfl, rfl⟩ := mem_writesAt.1 hw
      have hk' : k < s.d.bpb := by simpa using hk
      obtain ⟨p1, p2, p3⟩ := offset_parts (y := s.scr.by_) hx' hk'
      refine ⟨?_, raster_div hk', ?_⟩
      · show _ < unitCols (.deswz bhl2) s.d * unitRows (.deswz bhl2) s.d * s.d.bpb
        rw [Nat.mul_comm (unitCols _ _)]
        exact offset_lt hx' hy hk'
      · simp only [deswzByte, p1, p2, p3, List.getElem_map, List.getElem_range]; rfl
    · intro o ho hown b hb'
      have hwb : o / s.d.bpb = s.scr.by_ * deswzCols s.d + s.scr.bx := hown
      refine mem_writesAt.2 ⟨o % s.d.bpb, by simpa using Nat.mod_lt _ hpos, ?_, ?_⟩
      · rw [← hwb, Nat.mul_comm]; exact (Nat.div_add_mod o s.d.bpb).symm
      · rw [← Option.some.inj hb']
        simp only [deswzByte, hwb, raster_mod hx', raster_div hx', List.getElem_map, List.getElem_range]; rfl
  · intro s t hs ht _ _ _ hsrc _ o ho
    have e : outputLength (.deswz bhl2) d = unitCols (.deswz bhl2) d * unitRows (.deswz bhl2) d * d.bpb := rfl
    rw [e, Nat.mul_comm (unitCols _ _)] at ho
    obtain ⟨hx, hy, -, hk⟩ := offset_split hpos ho
    have hb := ha.deswz_block (x := o / d.bpb % deswzCols d) (y := o / d.bpb / deswzCols d) hx hy
    simp only [deswzByte, hs, ht]
    rw [hsrc rfl _ (by omega)]

/-- The copies of a re-swizzle: each byte of each block, from its linear place to its place in the surface
(spec/41_address_translator.md R161). -/
theorem mem_reswizzleWrites {wb hb bpb bh : Nat} {linear : Nat → Byte} {w : Write} :
    w ∈ reswizzleWrites wb hb bpb bh linear ↔ ∃ y < hb, ∃ x < wb, ∃ k < bpb,
      w = (blockAddress x y wb bpb bh 0 + k, linear ((y * wb + x) * bpb + k)) := by
  obtain ⟨o, b⟩ := w
  simp only [reswizzleWrites, List.mem_flatMap, List.mem_range, mem_writesAt, List.length_map, List.length_range,
    List.getElem_map, List.getElem_range, Prod.mk.injEq]
  exact ⟨fun ⟨y, hy, x, hx, k, hk, e1, e2⟩ => ⟨y, hy, x, hx, k, hk, e1, e2⟩,
    fun ⟨y, hy, x, hx, k, hk, e1, e2⟩ => ⟨y, hy, x, hx, k, hk, e1, e2⟩⟩

/-! ## PAL -/

theorem u16be_low (a b : Byte) : (u16be a b).extractLsb' 0 8 = b := by
  ext j hj
  have : j < 16 := by omega
  simp [u16be, hj, this]

theorem u16be_high (a b : Byte) : (u16be a b).extractLsb' 8 8 = a := by
  ext j hj
  have h2 : 8 + j < 16 := by omega
  simp [u16be, hj, h2]

/-- Byte `k` of a stored pixel (spec/20_memory.md R68). -/
theorem pixelBytes_getElem (p : Pixel) (k : Nat) (hk : k < (pixelBytes p).length) : (pixelBytes p)[k] = channel p k := by
  have : k = 0 ∨ k = 1 ∨ k = 2 ∨ k = 3 := by simp [pixelBytes] at hk; omega
  rcases this with rfl | rfl | rfl | rfl <;> rfl

theorem pal_units {i : Instr} {fmt : PalFmt} {d : Desc} (hi : commandOf i = palCommand fmt) (hg : groupOf i = .pal)
    (ha : Accepted i d) :
    UnitsOk (commandOf i) d (cursorStep i) (fun o => o / 4) (fun s o => some (palettedByte fmt s o)) := by
  have hus : usesPalette i = true := by simp [usesPalette, hg]
  have hfits := ha.pal_fits hus
  have hlen : outputLength i d = d.palLen.toNat / 2 * 4 := by simp [outputLength, hg]
  have hcols : unitCols i d = d.palLen.toNat / 2 := by simp [unitCols, hg]
  have hrows : unitRows i d = 1 := by simp [unitRows, hg]
  have hstep : cursorStep i = 0 := by
    unfold cursorStep
    split
    · rfl
    · rfl
    · rw [hg]
  have hbytes : ∀ (s : State) (k : Nat), palFmtPixel fmt (u16be (palByte s (2 * k)) (palByte s (2 * k + 1))) =
      paletteEntry fmt s k := by
    intro s k
    cases fmt
    · simp only [palFmtPixel, paletteEntry, grey, u16be_low, u16be_high]
    · rfl
    · rfl
  refine unitsOk_of ha ?_ ?_ ?_
  · intro o ho
    rw [hcols, hrows, Nat.one_mul, Nat.div_lt_iff_lt_mul (by omega), ← hlen]
    exact ho
  · rintro s rfl hx hy hc
    have hy0 : s.scr.by_ = 0 := by omega
    rw [hcols] at hx
    refine ⟨_, by
      rw [hi]
      show palUnit fmt s = _
      unfold palUnit
      rw [palEntry_ok (by omega) hfits]; rfl, rfl, rfl, by rw [hstep]; rfl, rfl, rfl, ?_, ?_⟩
    · rintro ⟨o, b⟩ hw
      obtain ⟨k, hk, rfl, rfl⟩ := mem_writesAt.1 hw
      have hk' : k < 4 := by simpa [pixelBytes] using hk
      refine ⟨by rw [hlen]; simp only; omega, by simp only [hy0]; omega, ?_⟩
      have h1 : (4 * s.scr.bx + k) / 4 = s.scr.bx := by omega
      have h2 : (4 * s.scr.bx + k) % 4 = k := by omega
      simp only [palettedByte, pixelBytes_getElem, h1, h2, ← hbytes]; rfl
    · intro o ho hown b hb
      have h1 : o / 4 = s.scr.bx := by simpa [hy0] using hown
      refine mem_writesAt.2 ⟨o % 4, by simp only [pixelBytes, List.length_cons, List.length_nil]; omega, by omega, ?_⟩
      rw [← Option.some.inj hb]
      simp only [palettedByte, pixelBytes_getElem, h1, ← hbytes]; rfl
  · intro s t hs ht _ _ _ _ hpal o ho
    rw [hlen] at ho
    have e1 : palByte s (2 * (o / 4)) = palByte t (2 * (o / 4)) := hpal hus _ (by omega)
    have e2 : palByte s (2 * (o / 4) + 1) = palByte t (2 * (o / 4) + 1) := hpal hus _ (by omega)
    simp only [palettedByte, ← hbytes, e1, e2]

end Sys2Proof.Machine
end

