-- ==== Sys2Proof/Laws/Raster.lean ====
section
/-! SUPPORT. Units that paint a rectangle of a raster image: GX.RGBA8 and GX.CMPR (spec/44_gx_tiled.md R260 to R262). -/

namespace Sys2Proof.Machine

/-! ## Painting a rectangle -/

/-- The number of the `tw` by `th` rectangle that destination offset `o` lies in. -/
def tileOwner (w tw th o : Nat) : Nat := o / 4 / w / th * ceilDiv w tw + o / 4 % w / tw

theorem tileOwner_lt {w h tw th o : Nat} (htw : 0 < tw) (hth : 0 < th) (ho : o < w * h * 4) :
    tileOwner w tw th o < ceilDiv h th * ceilDiv w tw := by
  rw [Nat.mul_comm w h] at ho
  obtain ⟨hx, hy, -, -⟩ := offset_split (by omega) ho
  exact raster_lt (div_lt_ceilDiv htw hx) (div_lt_ceilDiv hth hy)

/-- A unit's writes are the bytes of the visible pixels of rectangle `(bx, by_)`, each as `byte` gives it. -/
def Paints (w h tw th bx by_ : Nat) (byte : Nat → Nat → Nat → Option Byte) (ws : List Write) : Prop :=
  ∀ o b, (o, b) ∈ ws ↔ ∃ x y k, x < w ∧ y < h ∧ k < 4 ∧ x / tw = bx ∧ y / th = by_ ∧ o = (y * w + x) * 4 + k ∧
    byte x y k = some b

/-- A unit that paints its rectangle writes exactly the image bytes it owns. -/
theorem Paints.writes {w h tw th bx by_ : Nat} {byte : Nat → Nat → Nat → Option Byte} {ws : List Write}
    (hp : Paints w h tw th bx by_ byte ws) (htw : 0 < tw) (hbx : bx < ceilDiv w tw) :
    (∀ v ∈ ws, v.1 < w * h * 4 ∧ tileOwner w tw th v.1 = by_ * ceilDiv w tw + bx ∧
      byte (v.1 / 4 % w) (v.1 / 4 / w) (v.1 % 4) = some v.2) ∧
    (∀ o < w * h * 4, tileOwner w tw th o = by_ * ceilDiv w tw + bx →
      ∀ b, byte (o / 4 % w) (o / 4 / w) (o % 4) = some b → (o, b) ∈ ws) := by
  constructor
  · rintro ⟨o, b⟩ hv
    obtain ⟨x, y, k, hx, hy, hk, rfl, rfl, rfl, hb⟩ := (hp o b).1 hv
    obtain ⟨p1, p2, p3⟩ := offset_parts (y := y) hx hk
    refine ⟨by rw [Nat.mul_comm w h]; exact offset_lt hx hy hk, ?_, ?_⟩
    · simp only [tileOwner, p1, p2]
    · simp only [p1, p2, p3]; exact hb
  · intro o ho hown b hb
    rw [Nat.mul_comm w h] at ho
    obtain ⟨hx, hy, he, hk⟩ := offset_split (by omega) ho
    obtain ⟨h1, h2⟩ := raster_inj (div_lt_ceilDiv htw hx) hbx hown
    exact (hp o b).2 ⟨_, _, _, hx, hy, hk, h1, h2, he, hb⟩

/-- The bytes of a 4x4 tile's visible pixels. -/
theorem mem_tileWrites {d : Desc} {x0 y0 o : Nat} {pixel : Nat → Pixel} {b : Byte} :
    (o, b) ∈ tileWrites d x0 y0 pixel ↔ ∃ p < 16, ∃ k < 4, x0 + p % 4 < d.w ∧ y0 + p / 4 < d.h ∧
      o = ((y0 + p / 4) * d.w + (x0 + p % 4)) * 4 + k ∧ b = channel (pixel p) k := by
  unfold tileWrites
  simp only [List.mem_flatMap, List.mem_range]
  constructor
  · rintro ⟨p, hp, h⟩
    split at h
    · rename_i hv
      obtain ⟨k, hk, rfl, rfl⟩ := mem_writesAt.1 h
      exact ⟨p, hp, k, hk, hv.1, hv.2, rfl, pixelBytes_getElem _ _ _⟩
    · cases h
  · rintro ⟨p, hp, k, hk, hx, hy, rfl, rfl⟩
    refine ⟨p, hp, ?_⟩
    rw [if_pos ⟨hx, hy⟩]
    exact mem_writesAt.2 ⟨k, hk, rfl, (pixelBytes_getElem _ _ _).symm⟩

/-! ## The GX commands' common facts -/

/-- The source of an accepted GX command holds all its macroblocks (spec/44_gx_tiled.md R250). -/
theorem Accepted.gx_need {i : Instr} {d : Desc} (h : Accepted i d) (hg : groupOf i = .gxDirect ∨ groupOf i = .gxPaletted) :
    unitCols i d * unitRows i d * tileBytes i ≤ d.srcLen.toNat := by
  have h4 := h.2.2.2.1
  unfold SourceFits requiredSource at h4
  rcases hg with hg | hg <;> simpa [hg] using h4

/-- The bytes of macroblock `(x, y)` lie in the source window. -/
theorem Accepted.gx_tile {i : Instr} {d : Desc} (h : Accepted i d)
    (hg : groupOf i = .gxDirect ∨ groupOf i = .gxPaletted) {x y : Nat} (hx : x < unitCols i d) (hy : y < unitRows i d) :
    (y * unitCols i d + x + 1) * tileBytes i ≤ d.srcLen.toNat := by
  refine Nat.le_trans (Nat.mul_le_mul_right _ ?_) (h.gx_need hg)
  rw [Nat.mul_comm (unitCols i d)]
  exact raster_lt hx hy

/-! ## GX.RGBA8 -/

theorem rgba8_units {d : Desc} (ha : Accepted .gxRgba8 d) :
    UnitsOk (commandOf .gxRgba8) d 0 (tileOwner d.w 4 4) (fun s o => some (rasterByte s.d.w (gxRgba8Pixel s) o)) := by
  have hfits := ha.src_fits rfl
  refine unitsOk_of (i := .gxRgba8) ha ?_ ?_ ?_
  · intro o ho; exact tileOwner_lt (by omega) (by omega) ho
  · rintro s rfl hx hy hc
    have ht := ha.gx_tile (.inl rfl) hx hy
    have hx' : s.scr.bx < ceilDiv s.d.w 4 := hx
    have e : (s.scr.by_ * ceilDiv s.d.w 4 + s.scr.bx + 1) * 64 ≤ s.d.src.len := ht
    rw [Nat.add_one_mul] at e
    have g1 : guardRead s.d.src ((s.scr.by_ * ceilDiv s.d.w 4 + s.scr.bx) * 64) 32 = .ok () :=
      guardRead_ok (by omega) hfits
    have g2 : guardRead s.d.src ((s.scr.by_ * ceilDiv s.d.w 4 + s.scr.bx) * 64 + 32) 32 = .ok () :=
      guardRead_ok (by omega) hfits
    refine ⟨_, by
      show rgba8Unit s = _
      simp only [rgba8Unit, g1, g2]; rfl, rfl, rfl, rfl, rfl, rfl, ?_⟩
    refine Paints.writes (h := s.d.h) (byte := fun x y k => some (channel (gxRgba8Pixel s x y) k)) ?_ (by omega) hx'
    intro o b
    rw [mem_tileWrites]
    constructor
    · rintro ⟨p, hp, k, hk, h1, h2, rfl, rfl⟩
      refine ⟨_, _, k, h1, h2, hk, by omega, by omega, rfl, ?_⟩
      have a1 : (s.scr.by_ * 4 + p / 4) / 4 = s.scr.by_ := by omega
      have a2 : (s.scr.bx * 4 + p % 4) / 4 = s.scr.bx := by omega
      have a3 : (s.scr.by_ * 4 + p / 4) % 4 * 4 + (s.scr.bx * 4 + p % 4) % 4 = p := by omega
      simp only [gxRgba8Pixel, pixelNumber, a1, a2, a3]; rfl
    · rintro ⟨x, y, k, h1, h2, hk, h3, h4, rfl, h5⟩
      have a1 : s.scr.bx * 4 + (y % 4 * 4 + x % 4) % 4 = x := by omega
      have a2 : s.scr.by_ * 4 + (y % 4 * 4 + x % 4) / 4 = y := by omega
      refine ⟨y % 4 * 4 + x % 4, by omega, k, hk, by rw [a1]; exact h1, by rw [a2]; exact h2, by rw [a1, a2], ?_⟩
      rw [← Option.some.inj h5]
      simp only [gxRgba8Pixel, pixelNumber, h3, h4]; rfl
  · intro s t hs ht _ _ _ hsrc _ o ho
    have ho' : o < d.h * d.w * 4 := by rw [Nat.mul_comm d.h]; exact ho
    obtain ⟨hx, hy, -, -⟩ := offset_split (by omega) ho'
    have e := ha.gx_tile (.inl rfl) (x := o / 4 % d.w / 4) (y := o / 4 / d.w / 4) (div_lt_ceilDiv (by omega) hx)
      (div_lt_ceilDiv (by omega) hy)
    have e' : (o / 4 / d.w / 4 * ceilDiv d.w 4 + o / 4 % d.w / 4 + 1) * 64 ≤ d.srcLen.toNat := e
    rw [Nat.add_one_mul] at e'
    simp only [rasterByte, gxRgba8Pixel, pixelNumber, hs, ht]
    generalize (o / 4 / d.w / 4 * ceilDiv d.w 4 + o / 4 % d.w / 4) * 64 = B at *
    rw [hsrc rfl _ (by omega), hsrc rfl _ (by omega), hsrc rfl _ (by omega), hsrc rfl _ (by omega)]

/-! ## GX.CMPR -/

/-- The bytes of sub-block `q` of macroblock `(bx, by_)` at source offset `o`. -/
def cmprWrites (s : State) (o q : Nat) : List Write :=
  tileWrites s.d (s.scr.bx * 8 + q % 2 * 4) (s.scr.by_ * 8 + q / 2 * 4) fun p =>
    colorAt (colorRampCmpr (u16be (srcByte s o) (srcByte s (o + 1))) (u16be (srcByte s (o + 2)) (srcByte s (o + 3))))
      (cmprIndex (srcByte s (o + 4 + p / 4)) (p % 4))

/-- One sub-block decodes without a halt (spec/44_gx_tiled.md R261). -/
theorem cmprSubBlock_ok {s : State} {scr : Scratch} {o q : Nat} (h : o + 8 ≤ s.d.src.len) (hf : Fits s.d.src) :
    ∃ u, cmprSubBlock s scr o (s.scr.bx * 8 + q % 2 * 4) (s.scr.by_ * 8 + q / 2 * 4) = .ok u ∧
      (∃ r, u.scr = { scr with cramp := r }) ∧ ∀ w, w ∈ u.writes ↔ w ∈ cmprWrites s o q := by
  refine ⟨_, by
    unfold cmprSubBlock
    rw [readU16be_ok (by omega) hf, readU16be_ok (by omega) hf, readU8_ok (by omega) hf, readU8_ok (by omega) hf,
      readU8_ok (by omega) hf, readU8_ok (by omega) hf]
    rfl, ⟨_, rfl⟩, ?_⟩
  rintro ⟨a, b⟩
  simp only [cmprWrites, mem_tileWrites]
  have hrow : ∀ p < 16, (if p / 4 = 0 then byteAt s.mem s.d.src (o + 4) else if p / 4 = 1 then
      byteAt s.mem s.d.src (o + 5) else if p / 4 = 2 then byteAt s.mem s.d.src (o + 6) else
      byteAt s.mem s.d.src (o + 7)) = srcByte s (o + 4 + p / 4) := by
    intro p hp
    have : p / 4 = 0 ∨ p / 4 = 1 ∨ p / 4 = 2 ∨ p / 4 = 3 := by omega
    rcases this with h | h | h | h <;> rw [h] <;> rfl
  constructor
  · rintro ⟨p, hp, k, hk, h1, h2, h3, h4⟩
    refine ⟨p, hp, k, hk, h1, h2, h3, ?_⟩
    rw [h4, hrow p hp]; rfl
  · rintro ⟨p, hp, k, hk, h1, h2, h3, h4⟩
    refine ⟨p, hp, k, hk, h1, h2, h3, ?_⟩
    rw [h4, ← hrow p hp]; rfl

/-- The sub-blocks from `k` on decode without a halt and write their bytes (spec/44_gx_tiled.md R262). -/
theorem cmprQuadrants_ok {s : State} {o : Nat} (hf : Fits s.d.src) : ∀ (n k : Nat) (scr : Scratch),
    o + 8 * (k + n) ≤ s.d.src.len → ∃ u, cmprQuadrants s o n k scr = .ok u ∧
      (∃ r, u.scr = { scr with cramp := r }) ∧
      ∀ w, w ∈ u.writes ↔ ∃ q, k ≤ q ∧ q < k + n ∧ w ∈ cmprWrites s (o + 8 * q) q
  | 0, k, scr, _ => ⟨{ scr := scr, writes := [] }, rfl, ⟨scr.cramp, rfl⟩, fun w =>
    ⟨fun h => absurd h List.not_mem_nil, fun ⟨q, h1, h2, _⟩ => by omega⟩⟩
  | n + 1, k, scr, h => by
    obtain ⟨u, e1, ⟨r1, hr1⟩, hw1⟩ := cmprSubBlock_ok (s := s) (scr := scr) (o := o + 8 * k) (q := k) (by omega) hf
    obtain ⟨v, e2, ⟨r2, hr2⟩, hw2⟩ := cmprQuadrants_ok (s := s) (o := o) hf n (k + 1) u.scr (by omega)
    refine ⟨{ scr := v.scr, writes := u.writes ++ v.writes }, ?_, ⟨r2, by rw [hr2, hr1]⟩, fun w => ?_⟩
    · simp only [cmprQuadrants, e1, bind, Except.bind, e2]; rfl
    · rw [List.mem_append, hw1, hw2]
      constructor
      · rintro (h | ⟨q, h1, h2, h3⟩)
        · exact ⟨k, by omega, by omega, h⟩
        · exact ⟨q, by omega, by omega, h3⟩
      · rintro ⟨q, h1, h2, h3⟩
        by_cases hq : q = k
        · subst hq; exact .inl h3
        · exact .inr ⟨q, by omega, by omega, h3⟩

theorem cmpr_units {d : Desc} (ha : Accepted .gxCmpr d) :
    UnitsOk (commandOf .gxCmpr) d 0 (tileOwner d.w 8 8) (fun s o => some (rasterByte s.d.w (gxCmprPixel s) o)) := by
  have hfits := ha.src_fits rfl
  refine unitsOk_of (i := .gxCmpr) ha ?_ ?_ ?_
  · intro o ho; exact tileOwner_lt (by omega) (by omega) ho
  · rintro s rfl hx hy hc
    have ht := ha.gx_tile (.inl rfl) hx hy
    have hx' : s.scr.bx < ceilDiv s.d.w 8 := hx
    have e : (s.scr.by_ * ceilDiv s.d.w 8 + s.scr.bx + 1) * 32 ≤ s.d.src.len := ht
    rw [Nat.add_one_mul] at e
    obtain ⟨u, eu, ⟨r, hr⟩, hw⟩ := cmprQuadrants_ok (s := s)
      (o := (s.scr.by_ * ceilDiv s.d.w 8 + s.scr.bx) * 32) hfits 4 0 s.scr (by omega)
    refine ⟨u, eu, by rw [hr], by rw [hr], by rw [hr]; rfl, by rw [hr], by rw [hr], ?_⟩
    refine Paints.writes (h := s.d.h) (byte := fun x y k => some (channel (gxCmprPixel s x y) k)) ?_ (by omega) hx'
    intro o b
    rw [hw]
    simp only [cmprWrites, mem_tileWrites]
    constructor
    · rintro ⟨q, -, hq, p, hp, k, hk, h1, h2, rfl, rfl⟩
      refine ⟨_, _, k, h1, h2, hk, by omega, by omega, rfl, ?_⟩
      have a1 : (s.scr.by_ * 8 + q / 2 * 4 + p / 4) / 8 = s.scr.by_ := by omega
      have a2 : (s.scr.bx * 8 + q % 2 * 4 + p % 4) / 8 = s.scr.bx := by omega
      have a3 : (s.scr.by_ * 8 + q / 2 * 4 + p / 4) % 8 / 4 * 2 + (s.scr.bx * 8 + q % 2 * 4 + p % 4) % 8 / 4 = q := by
        omega
      have a4 : (s.scr.by_ * 8 + q / 2 * 4 + p / 4) % 4 = p / 4 := by omega
      have a5 : (s.scr.bx * 8 + q % 2 * 4 + p % 4) % 4 = p % 4 := by omega
      simp only [gxCmprPixel, cmprIndex, a1, a2, a3, a4, a5, Nat.mul_comm q 8]
    · rintro ⟨x, y, k, h1, h2, hk, h3, h4, rfl, h5⟩
      have a1 : s.scr.bx * 8 + (y % 8 / 4 * 2 + x % 8 / 4) % 2 * 4 + (y % 4 * 4 + x % 4) % 4 = x := by omega
      have a2 : s.scr.by_ * 8 + (y % 8 / 4 * 2 + x % 8 / 4) / 2 * 4 + (y % 4 * 4 + x % 4) / 4 = y := by omega
      refine ⟨y % 8 / 4 * 2 + x % 8 / 4, by omega, by omega, y % 4 * 4 + x % 4, by omega, k, hk, by rw [a1]; exact h1,
        by rw [a2]; exact h2, by rw [a1, a2], ?_⟩
      rw [← Option.some.inj h5]
      have a3 : (y % 4 * 4 + x % 4) / 4 = y % 4 := by omega
      have a4 : (y % 4 * 4 + x % 4) % 4 = x % 4 := by omega
      simp only [gxCmprPixel, cmprIndex, h3, h4, a3, a4, Nat.mul_comm _ 8]
  · intro s t hs ht _ _ _ hsrc _ o ho
    have ho' : o < d.h * d.w * 4 := by rw [Nat.mul_comm d.h]; exact ho
    obtain ⟨hx, hy, -, -⟩ := offset_split (by omega) ho'
    have e := ha.gx_tile (.inl rfl) (x := o / 4 % d.w / 8) (y := o / 4 / d.w / 8) (div_lt_ceilDiv (by omega) hx)
      (div_lt_ceilDiv (by omega) hy)
    have e' : (o / 4 / d.w / 8 * ceilDiv d.w 8 + o / 4 % d.w / 8 + 1) * 32 ≤ d.srcLen.toNat := e
    rw [Nat.add_one_mul] at e'
    simp only [rasterByte, gxCmprPixel, hs, ht]
    generalize (o / 4 / d.w / 8 * ceilDiv d.w 8 + o / 4 % d.w / 8) * 32 = B at *
    have hq : (o / 4 / d.w) % 8 / 4 * 2 + (o / 4 % d.w) % 8 / 4 < 4 := by omega
    generalize (o / 4 / d.w) % 8 / 4 * 2 + (o / 4 % d.w) % 8 / 4 = Q at *
    have hr : o / 4 / d.w % 4 < 4 := by omega
    rw [hsrc rfl (B + Q * 8) (by omega), hsrc rfl (B + Q * 8 + 1) (by omega), hsrc rfl (B + Q * 8 + 2) (by omega),
      hsrc rfl (B + Q * 8 + 3) (by omega), hsrc rfl (B + Q * 8 + 4 + o / 4 / d.w % 4) (by omega)]

end Sys2Proof.Machine
end

