-- ==== Sys2Proof/Laws/BcnUnits.lean ====
section
/-! SUPPORT. The BCn commands: what each block layout decodes to, and that one block paints its 4x4 rectangle
(spec/43_bcn_decompressor.md R201 to R216). -/

namespace Sys2Proof.Machine

/-! ## Blocks -/

/-- What a block decoder does on a block inside the source: it never halts, leaves the sequencer and the palette RAM
alone, and byte `k` of pixel `p` is `tex`, which depends on the block's own bytes only. -/
structure BlockOk (bpb : Nat) (block : Window → Memory → Scratch → Nat → Except Halt BlockOut)
    (tex : State → Nat → Nat → Nat → Option Byte) : Prop where
  decodes : ∀ (s : State) (scr : Scratch) (o : Nat), o + bpb ≤ s.d.src.len → Fits s.d.src →
    ∃ b, block s.d.src s.mem scr o = .ok b ∧ b.scr.bx = scr.bx ∧ b.scr.by_ = scr.by_ ∧ b.scr.cur = scr.cur ∧
      b.scr.pal = scr.pal ∧ b.scr.palN = scr.palN ∧
      ∀ p k c, (∃ h : k < (b.texel p).length, c = (b.texel p)[k]) ↔ k < 4 ∧ tex s o p k = some c
  stable : ∀ (s t : State) (o p k : Nat), (∀ j < bpb, srcByte s (o + j) = srcByte t (o + j)) → tex s o p k = tex t o p k

theorem readColorBlock_ok {s : State} {o : Nat} (h : o + 8 ≤ s.d.src.len) (hf : Fits s.d.src) :
    readColorBlock s.d.src s.mem o = .ok {
      ramp := colorRampBc (u16le (srcByte s o) (srcByte s (o + 1))) (u16le (srcByte s (o + 2)) (srcByte s (o + 3)))
      idx := u32le (srcByte s (o + 4)) (srcByte s (o + 5)) (srcByte s (o + 6)) (srcByte s (o + 7)) } := by
  unfold readColorBlock
  rw [readU16le_ok (by omega) hf, readU16le_ok (by omega) hf, readU32le_ok (by omega) hf]
  rfl

theorem readScalarBlock_ok {mode : SignMode} {s : State} {o : Nat} (h : o + 8 ≤ s.d.src.len) (hf : Fits s.d.src) :
    readScalarBlock mode s.d.src s.mem o = .ok {
      ramp := scalarRamp mode (srcByte s o) (srcByte s (o + 1))
      plane0 := u24le (srcByte s (o + 2)) (srcByte s (o + 3)) (srcByte s (o + 4))
      plane1 := u24le (srcByte s (o + 5)) (srcByte s (o + 6)) (srcByte s (o + 7)) } := by
  unfold readScalarBlock
  rw [readU8_ok (by omega) hf, readU8_ok (by omega) hf, readU24le_ok (by omega) hf, readU24le_ok (by omega) hf]
  rfl

/-- The four bytes of a pixel as a list read by index. -/
theorem pixelBytes_index (p : Pixel) (k : Nat) (c : Byte) :
    (∃ h : k < (pixelBytes p).length, c = (pixelBytes p)[k]) ↔ k < 4 ∧ some (channel p k) = some c := by
  constructor
  · rintro ⟨h, rfl⟩
    exact ⟨h, by rw [pixelBytes_getElem]⟩
  · rintro ⟨h, e⟩
    exact ⟨h, (Option.some.inj e).symm.trans (pixelBytes_getElem p k h).symm⟩

theorem colourOf_stable {s t : State} {o p : Nat} (h : ∀ j < 8, srcByte s (o + j) = srcByte t (o + j)) :
    colourOf s o p = colourOf t o p := by
  have h0 := h 0 (by omega)
  rw [Nat.add_zero] at h0
  simp only [colourOf, h0, h 1 (by omega), h 2 (by omega), h 3 (by omega), h 4 (by omega), h 5 (by omega),
    h 6 (by omega), h 7 (by omega)]

theorem valueOf_stable {mode : SignMode} {s t : State} {o p : Nat}
    (h : ∀ j < 8, srcByte s (o + j) = srcByte t (o + j)) : valueOf mode s o p = valueOf mode t o p := by
  have h0 := h 0 (by omega)
  rw [Nat.add_zero] at h0
  simp only [valueOf, h0, h 1 (by omega), h 2 (by omega), h 3 (by omega), h 4 (by omega), h 5 (by omega),
    h 6 (by omega), h 7 (by omega)]

theorem nibbleAlphaOf_stable {s t : State} {o p : Nat} (h : ∀ j < 8, srcByte s (o + j) = srcByte t (o + j)) :
    nibbleAlphaOf s o p = nibbleAlphaOf t o p := by
  have h0 := h 0 (by omega)
  rw [Nat.add_zero] at h0
  simp only [nibbleAlphaOf, h0, h 1 (by omega), h 2 (by omega), h 3 (by omega), h 4 (by omega), h 5 (by omega),
    h 6 (by omega), h 7 (by omega)]

theorem bc1Block_ok : BlockOk 8 bc1Block fun s o p k => some (channel (colourOf s o p) k) where
  decodes s scr o h hf := by
    refine ⟨_, by unfold bc1Block; rw [readColorBlock_ok h hf]; rfl, rfl, rfl, rfl, rfl, rfl, fun p k c => ?_⟩
    exact pixelBytes_index _ _ _
  stable s t o p k h := by rw [colourOf_stable h]

theorem bc2Block_ok : BlockOk 16 bc2Block fun s o p k =>
    some (channel { colourOf s (o + 8) p with a := nibbleAlphaOf s o p } k) where
  decodes s scr o h hf := by
    refine ⟨_, by
      unfold bc2Block
      rw [readU32le_ok (by omega) hf, readU32le_ok (by omega) hf, readColorBlock_ok (by omega) hf]
      rfl, rfl, rfl, rfl, rfl, rfl, fun p k c => ?_⟩
    exact pixelBytes_index _ _ _
  stable s t o p k h := by
    have e1 : colourOf s (o + 8) p = colourOf t (o + 8) p :=
      colourOf_stable fun j hj => Nat.add_assoc o 8 j ▸ h (8 + j) (by omega)
    have e2 : nibbleAlphaOf s o p = nibbleAlphaOf t o p := nibbleAlphaOf_stable fun j hj => h j (by omega)
    simp only [e1, e2]

theorem bc3Block_ok : BlockOk 16 bc3Block fun s o p k =>
    some (channel { colourOf s (o + 8) p with a := valueOf .unsigned s o p } k) where
  decodes s scr o h hf := by
    refine ⟨_, by
      unfold bc3Block
      rw [readScalarBlock_ok (by omega) hf, readColorBlock_ok (by omega) hf]
      rfl, rfl, rfl, rfl, rfl, rfl, fun p k c => ?_⟩
    exact pixelBytes_index _ _ _
  stable s t o p k h := by
    have e1 : colourOf s (o + 8) p = colourOf t (o + 8) p :=
      colourOf_stable fun j hj => Nat.add_assoc o 8 j ▸ h (8 + j) (by omega)
    have e2 : valueOf .unsigned s o p = valueOf .unsigned t o p := valueOf_stable fun j hj => h j (by omega)
    simp only [e1, e2]

theorem bc4Block_ok (mode : SignMode) : BlockOk 8 (bc4Block mode) fun s o p k =>
    if k = 0 then some (valueOf mode s o p) else none where
  decodes s scr o h hf := by
    refine ⟨_, by unfold bc4Block; rw [readScalarBlock_ok h hf]; rfl, rfl, rfl, rfl, rfl, rfl, fun p k c => ?_⟩
    constructor
    · rintro ⟨hk, rfl⟩
      obtain rfl : k = 0 := by simpa using hk
      exact ⟨by omega, rfl⟩
    · rintro ⟨hk, e⟩
      split at e
      · rename_i hk0
        subst hk0
        exact ⟨Nat.one_pos, (Option.some.inj e).symm⟩
      · cases e
  stable s t o p k h := by rw [valueOf_stable h]

/-- The value BC5 forces B and A to is MAX (spec/43_bcn_decompressor.md R215, R216). -/
theorem rampByte_rangeMax (mode : SignMode) : rampByte (rangeMax mode) = (match mode with
    | .unsigned => 0xFF
    | .signed => 0x7F) := by cases mode <;> rfl

theorem bc5Block_ok (mode : SignMode) : BlockOk 16 (bc5Block mode) fun s o p k =>
    some (channel ⟨valueOf mode s o p, valueOf mode s (o + 8) p, rampByte (rangeMax mode), rampByte (rangeMax mode)⟩ k)
    where
  decodes s scr o h hf := by
    refine ⟨_, by
      unfold bc5Block
      rw [readScalarBlock_ok (by omega) hf, readScalarBlock_ok (by omega) hf]
      rfl, rfl, rfl, rfl, rfl, rfl, fun p k c => ?_⟩
    exact pixelBytes_index ⟨valueOf mode s o p, valueOf mode s (o + 8) p, _, _⟩ k c
  stable s t o p k h := by
    have e1 : valueOf mode s o p = valueOf mode t o p := valueOf_stable fun j hj => h j (by omega)
    have e2 : valueOf mode s (o + 8) p = valueOf mode t (o + 8) p :=
      valueOf_stable fun j hj => Nat.add_assoc o 8 j ▸ h (8 + j) (by omega)
    simp only [e1, e2]

/-! ## The common procedure -/

theorem mem_clippedWrites {d : Desc} {bx by_ o : Nat} {texel : Nat → List Byte} {b : Byte} :
    (o, b) ∈ clippedWrites d bx by_ texel ↔ ∃ iy ix k, iy < 4 ∧ ix < 4 ∧ by_ * 4 + iy < d.tall ∧ bx * 4 + ix < d.w ∧
      (∃ h : k < (texel (iy * 4 + ix)).length, b = (texel (iy * 4 + ix))[k]) ∧
      o = ((by_ * 4 + iy) * d.w + (bx * 4 + ix)) * 4 + k := by
  unfold clippedWrites
  simp only [List.mem_flatMap, List.mem_range, mem_writesAt]
  constructor
  · rintro ⟨iy, hy, ix, hx, k, hk, rfl, hb⟩
    exact ⟨iy, ix, k, by omega, by omega, by omega, by omega, ⟨hk, hb⟩, by omega⟩
  · rintro ⟨iy, ix, k, h1, h2, h3, h4, ⟨hk, hb⟩, rfl⟩
    exact ⟨iy, by omega, ix, by omega, k, hk, by omega, hb⟩

/-- A block of a BCn command lies in the source window (spec/46_dispatch.md R308). -/
theorem bcn_block_in_source {lin : Bool} {bhl2 : BitVec 3} {bpb : Nat} {d : Desc} (hb : bpb ∈ [1, 4, 8, 16])
    (hneed : d.srcLen.toNat = bcnNeed bpb lin bhl2 d) {x y : Nat} (hx : x < bcnCols d) (hy : y < bcnRows d) :
    bcnBlockOffset bpb lin bhl2 d x y + bpb ≤ d.srcLen.toNat := by
  rw [hneed]
  unfold bcnNeed bcnBlockOffset
  cases lin
  · exact blockAddress_add_le hx hy (resolveBlockHeight_pos _ _) hb
  · simp only [if_true]
    rw [← Nat.add_one_mul, Nat.mul_comm (bcnCols d)]
    exact Nat.mul_le_mul_right _ (raster_lt hx hy)

/-- One block of a BCn command paints its rectangle. -/
theorem bcn_units {i : Instr} {lin : Bool} {bhl2 : BitVec 3} {bpb : Nat} {d : Desc}
    {block : Window → Memory → Scratch → Nat → Except Halt BlockOut} {tex : State → Nat → Nat → Nat → Option Byte}
    (hblock : BlockOk bpb block tex) (hi : commandOf i = bcnCommand bpb lin bhl2 block) (hg : groupOf i = .bcn)
    (hb : bpb ∈ [1, 4, 8, 16]) (hst : cursorStep i = 0) (ha : Accepted i d) :
    UnitsOk (commandOf i) d (cursorStep i) (tileOwner d.w 4 4)
      (fun s o => tex s (pixelBlock bpb lin bhl2 s (o / 4 % s.d.w) (o / 4 / s.d.w))
        (pixelNumber (o / 4 % s.d.w) (o / 4 / s.d.w)) (o % 4)) := by
  have hsu : usesSource i = true := by simp [usesSource, hg]
  have hfits := ha.src_fits hsu
  have hcols : unitCols i d = ceilDiv d.w 4 := by simp [unitCols, hg]
  have hrows : unitRows i d = ceilDiv d.tall 4 := by simp [unitRows, hg]
  have hlen : outputLength i d = d.w * d.tall * 4 := by simp [outputLength, hg]
  have hneed : d.srcLen.toNat = bcnNeed bpb lin bhl2 d := by
    have h := ha.2.2.2.1
    unfold SourceFits at h
    rw [hg] at h
    rw [h, ← commandOf_need, hi]; rfl
  refine unitsOk_of ha ?_ ?_ ?_
  · intro o ho
    rw [hcols, hrows]
    exact tileOwner_lt (by omega) (by omega) (by rwa [← hlen])
  · rintro s rfl hx hy hc
    rw [hcols] at hx
    rw [hrows] at hy
    obtain ⟨b, e, h1, h2, h3, h4, h5, htex⟩ := hblock.decodes s s.scr _ (bcn_block_in_source hb hneed hx hy) hfits
    refine ⟨{ scr := b.scr, writes := clippedWrites s.d s.scr.bx s.scr.by_ b.texel }, by
      rw [hi]
      show bcnUnit bpb lin bhl2 block s = _
      unfold bcnUnit
      rw [e]; rfl, h1, h2, by rw [hst]; exact h3, h4, h5, ?_⟩
    rw [hlen, hcols]
    refine Paints.writes (h := s.d.tall)
      (byte := fun x y k => tex s (pixelBlock bpb lin bhl2 s x y) (pixelNumber x y) k) ?_ (by omega) hx
    intro o c
    rw [mem_clippedWrites]
    constructor
    · rintro ⟨iy, ix, k, a1, a2, a3, a4, a5, rfl⟩
      obtain ⟨hk, a6⟩ := (htex _ _ _).1 a5
      refine ⟨_, _, k, a4, a3, hk, by omega, by omega, rfl, ?_⟩
      have b1 : (s.scr.bx * 4 + ix) / 4 = s.scr.bx := by omega
      have b2 : (s.scr.by_ * 4 + iy) / 4 = s.scr.by_ := by omega
      have b3 : (s.scr.by_ * 4 + iy) % 4 * 4 + (s.scr.bx * 4 + ix) % 4 = iy * 4 + ix := by omega
      simp only [pixelBlock, pixelNumber, b1, b2, b3]
      exact a6
    · rintro ⟨x, y, k, a1, a2, hk, a3, a4, rfl, a5⟩
      refine ⟨y % 4, x % 4, k, by omega, by omega, by omega, by omega, ?_, ?_⟩
      · refine (htex _ _ _).2 ⟨hk, ?_⟩
        simp only [pixelBlock, pixelNumber, a3, a4] at a5
        exact a5
      · have b1 : s.scr.by_ * 4 + y % 4 = y := by omega
        have b2 : s.scr.bx * 4 + x % 4 = x := by omega
        rw [b1, b2]
  · intro s t hs ht _ _ _ hsrc _ o ho
    rw [hlen, Nat.mul_comm d.w] at ho
    obtain ⟨hx, hy, -, -⟩ := offset_split (by omega) ho
    have hin := bcn_block_in_source hb hneed (div_lt_ceilDiv (b := 4) (by omega) hx)
      (div_lt_ceilDiv (b := 4) (by omega) hy)
    have e : pixelBlock bpb lin bhl2 t (o / 4 % t.d.w) (o / 4 / t.d.w) =
        pixelBlock bpb lin bhl2 s (o / 4 % s.d.w) (o / 4 / s.d.w) := by simp only [pixelBlock, hs, ht]
    show tex s _ _ _ = tex t _ _ _
    rw [e, hs, ht]
    refine hblock.stable s t _ _ _ fun j hj => hsrc hsu _ ?_
    simp only [pixelBlock, hs]
    omega

end Sys2Proof.Machine
end

