-- ==== Sys2Proof/Laws/GxUnits.lean ====
section
/-! SUPPORT. The generic GX walk: one macroblock paints its rectangle, the cursor advancing for every texel
(spec/44_gx_tiled.md R241, R242, R250). -/

namespace Sys2Proof.Machine

/-- The texel at a cursor of a source that holds it, zero-extended (spec/44_gx_tiled.md R242). -/
def texelOf (bits : Nat) (s : State) (cur : Nat) : BitVec 16 :=
  if bits = 4 then (nibbleAt (srcByte s (cur / 2)) cur).setWidth 16
  else if bits = 8 then (srcByte s cur).setWidth 16
  else u16be (srcByte s (2 * cur)) (srcByte s (2 * cur + 1))

theorem fetchTexel_ok {bits cur : Nat} {s : State} (hb : bits ∈ [4, 8, 16])
    (h : (cur + 1) * bits ≤ 8 * s.d.src.len) (hf : Fits s.d.src) :
    fetchTexel bits s.d.src s.mem cur = .ok (texelOf bits s cur) := by
  simp only [List.mem_cons, List.not_mem_nil, or_false] at hb
  rcases hb with rfl | rfl | rfl
  · show (readU8 s.d.src s.mem (cur / 2)).map _ = _
    rw [readU8_ok (by omega) hf]; rfl
  · show (readU8 s.d.src s.mem cur).map _ = _
    rw [readU8_ok (by omega) hf]; rfl
  · show readU16be s.d.src s.mem (2 * cur) = _
    rw [readU16be_ok (by omega) hf]; rfl

@[simp] theorem texelOf_four (s : State) (cur : Nat) :
    texelOf 4 s cur = (nibbleAt (srcByte s (cur / 2)) cur).setWidth 16 := rfl

@[simp] theorem texelOf_eight (s : State) (cur : Nat) : texelOf 8 s cur = (srcByte s cur).setWidth 16 := rfl

@[simp] theorem texelOf_sixteen (s : State) (cur : Nat) :
    texelOf 16 s cur = u16be (srcByte s (2 * cur)) (srcByte s (2 * cur + 1)) := rfl

/-- The pixel of a generic format at `(x, y)`. -/
def gxPixelOf (f : GxFormat) (s : State) (x y : Nat) : Pixel :=
  f.pixelOf s ((y * s.d.w + x) * 4) (texelOf f.bits s (gxCursor f.tw f.th s x y))

theorem mem_texelWrites {f : GxFormat} {s : State} {x y o : Nat} {t : BitVec 16} {b : Byte} :
    (o, b) ∈ texelWrites f s x y t ↔ x < s.d.w ∧ y < s.d.h ∧
      ∃ k < 4, o = (y * s.d.w + x) * 4 + k ∧ b = channel (f.pixelOf s ((y * s.d.w + x) * 4) t) k := by
  unfold texelWrites
  split
  · rename_i hv
    rw [mem_writesAt]
    constructor
    · rintro ⟨k, hk, rfl, rfl⟩
      exact ⟨hv.1, hv.2, k, hk, rfl, pixelBytes_getElem _ _ _⟩
    · rintro ⟨_, _, k, hk, rfl, rfl⟩
      exact ⟨k, hk, rfl, (pixelBytes_getElem _ _ _).symm⟩
  · rename_i hv
    exact ⟨fun h => absurd h List.not_mem_nil, fun h => absurd ⟨h.1, h.2.1⟩ hv⟩

/-- A run of texels is fetched without a halt, the cursor ends past it, and the visible ones are written
(spec/44_gx_tiled.md R241). -/
theorem walkTexels_ok {f : GxFormat} {s : State} (hb : f.bits ∈ [4, 8, 16]) (hf : Fits s.d.src) :
    ∀ (n k cur : Nat), (cur + n) * f.bits ≤ 8 * s.d.src.len →
    ∃ ws, walkTexels f s n k cur = .ok (cur + n, ws) ∧ ∀ w, w ∈ ws ↔ ∃ j, j < n ∧
      w ∈ texelWrites f s (s.scr.bx * f.tw + (k + j) % f.tw) (s.scr.by_ * f.th + (k + j) / f.tw)
        (texelOf f.bits s (cur + j))
  | 0, k, cur, _ => ⟨[], rfl, fun w => ⟨fun h => absurd h List.not_mem_nil, fun ⟨j, h, _⟩ => by omega⟩⟩
  | n + 1, k, cur, h => by
    have h1 : (cur + 1) * f.bits ≤ 8 * s.d.src.len :=
      Nat.le_trans (Nat.mul_le_mul_right _ (by omega)) h
    obtain ⟨ws, e, hw⟩ := walkTexels_ok hb hf n (k + 1) (cur + 1) (by rwa [Nat.add_right_comm])
    refine ⟨_, by simp only [walkTexels, fetchTexel_ok hb h1 hf, Except.bind, e, Except.map]; rw [Nat.add_right_comm]; rfl,
      fun w => ?_⟩
    rw [List.mem_append, hw]
    constructor
    · rintro (h | ⟨j, hj, h⟩)
      · exact ⟨0, by omega, h⟩
      · exact ⟨j + 1, by omega, by rwa [Nat.add_comm j 1, ← Nat.add_assoc, ← Nat.add_assoc]⟩
    · rintro ⟨j, hj, h⟩
      cases j with
      | zero => exact .inl h
      | succ j =>
        refine .inr ⟨j, by omega, ?_⟩
        rwa [Nat.add_comm j 1, ← Nat.add_assoc, ← Nat.add_assoc] at h

/-- One macroblock of a generic format paints its rectangle. -/
theorem gx_units {i : Instr} {f : GxFormat} {fill : Option PalFmt} {d : Desc} (hi : commandOf i = gxCommand f fill)
    (hg : groupOf i = .gxDirect ∨ groupOf i = .gxPaletted) (htw : tileWidth i = f.tw) (hth : tileHeight i = f.th)
    (hst : cursorStep i = f.tw * f.th) (htb : tileBytes i = 32) (hb : f.bits ∈ [4, 8, 16])
    (harea : f.tw * f.th * f.bits = 256) (hsrcu : usesSource i = true)
    (hpix : ∀ (s t : State) (o : Nat) (v : BitVec 16), s.scr.pal = t.scr.pal → s.scr.palN = t.scr.palN →
      s.draws = t.draws → f.pixelOf s o v = f.pixelOf t o v)
    (ha : Accepted i d) :
    UnitsOk (commandOf i) d (cursorStep i) (tileOwner d.w f.tw f.th)
      (fun s o => some (rasterByte s.d.w (gxPixelOf f s) o)) := by
  have hfits := ha.src_fits hsrcu
  have hw0 : 0 < f.tw := by
    rcases Nat.eq_zero_or_pos f.tw with h | h
    · rw [h] at harea; simp at harea
    · exact h
  have hh0 : 0 < f.th := by
    rcases Nat.eq_zero_or_pos f.th with h | h
    · rw [h] at harea; simp at harea
    · exact h
  have hcols : unitCols i d = ceilDiv d.w f.tw := by unfold unitCols; rcases hg with h | h <;> simp [h, htw]
  have hrows : unitRows i d = ceilDiv d.h f.th := by unfold unitRows; rcases hg with h | h <;> simp [h, hth]
  have hlen : outputLength i d = d.w * d.h * 4 := by unfold outputLength; rcases hg with h | h <;> simp [h]
  -- the texels of macroblock `(x, y)` are in the source window
  have hroom : ∀ x y, x < unitCols i d → y < unitRows i d → ∀ j ≤ f.tw * f.th,
      ((y * unitCols i d + x) * (f.tw * f.th) + j) * f.bits ≤ 8 * d.srcLen.toNat := by
    intro x y hx hy j hj
    have h1 := ha.gx_tile hg hx hy
    rw [htb, Nat.add_one_mul] at h1
    have h2 : j * f.bits ≤ 256 := by rw [← harea]; exact Nat.mul_le_mul_right _ hj
    rw [Nat.add_mul, Nat.mul_assoc, harea]
    omega
  refine unitsOk_of ha ?_ ?_ ?_
  · intro o ho
    rw [hcols, hrows]
    exact tileOwner_lt hw0 hh0 (by rwa [← hlen])
  · rintro s rfl hx hy hc
    have hr := hroom _ _ hx hy _ (Nat.le_refl _)
    rw [← hst, ← hc, hst] at hr
    obtain ⟨ws, e, hw⟩ := walkTexels_ok (f := f) (s := s) hb hfits (f.tw * f.th) 0 s.scr.cur hr
    refine ⟨{ scr := { s.scr with cur := s.scr.cur + f.tw * f.th }, writes := ws }, by
      rw [hi]
      show gxUnit f s = _
      simp only [gxUnit, e, Except.map], rfl, rfl, by rw [hst], rfl, rfl, ?_⟩
    rw [hlen, hcols]
    refine Paints.writes (h := s.d.h) (byte := fun x y k => some (channel (gxPixelOf f s x y) k)) ?_ hw0
      (by rwa [← hcols])
    intro o b
    rw [hw]
    simp only [mem_texelWrites, Nat.zero_add]
    rw [hst, hcols] at hc
    have hcur : ∀ x y, x / f.tw = s.scr.bx → y / f.th = s.scr.by_ →
        s.scr.cur + (y % f.th * f.tw + x % f.tw) = gxCursor f.tw f.th s x y := by
      intro x y h1 h2
      simp only [gxCursor, h1, h2, hc]; omega
    constructor
    · rintro ⟨j, hj, h1, h2, k, hk, rfl, rfl⟩
      have hm : j % f.tw < f.tw := Nat.mod_lt _ hw0
      have hd : j / f.tw < f.th := by rw [Nat.div_lt_iff_lt_mul hw0, Nat.mul_comm]; exact hj
      refine ⟨_, _, k, h1, h2, hk, raster_div hm, raster_div hd, rfl, ?_⟩
      have e1 := hcur _ _ (raster_div (y := s.scr.bx) hm) (raster_div (y := s.scr.by_) hd)
      rw [raster_mod hm, raster_mod hd, Nat.div_add_mod'] at e1
      simp only [gxPixelOf, ← e1]
    · rintro ⟨x, y, k, h1, h2, hk, h3, h4, rfl, h5⟩
      have hm : x % f.tw < f.tw := Nat.mod_lt _ hw0
      have hd : y % f.th < f.th := Nat.mod_lt _ hh0
      have ex : s.scr.bx * f.tw + (y % f.th * f.tw + x % f.tw) % f.tw = x := by
        rw [raster_mod hm, ← h3]; exact Nat.div_add_mod' x f.tw
      have ey : s.scr.by_ * f.th + (y % f.th * f.tw + x % f.tw) / f.tw = y := by
        rw [raster_div hm, ← h4]; exact Nat.div_add_mod' y f.th
      refine ⟨y % f.th * f.tw + x % f.tw, ?_, ?_⟩
      · rw [Nat.mul_comm f.tw]; exact raster_lt hm hd
      · rw [ex, ey, hcur x y h3 h4]
        exact ⟨h1, h2, k, hk, rfl, (Option.some.inj h5).symm⟩
  · intro s t hs ht hp hn hdr hsrc _ o ho
    rw [hlen, Nat.mul_comm d.w] at ho
    obtain ⟨hx, hy, -, -⟩ := offset_split (by omega) ho
    have hr := hroom (o / 4 % d.w / f.tw) (o / 4 / d.w / f.th) (by rw [hcols]; exact div_lt_ceilDiv hw0 hx)
      (by rw [hrows]; exact div_lt_ceilDiv hh0 hy)
      (o / 4 / d.w % f.th * f.tw + o / 4 % d.w % f.tw + 1)
      (by rw [Nat.mul_comm f.tw]; exact raster_lt (Nat.mod_lt _ hw0) (Nat.mod_lt _ hh0))
    have hcs : gxCursor f.tw f.th s (o / 4 % d.w) (o / 4 / d.w) = gxCursor f.tw f.th t (o / 4 % d.w) (o / 4 / d.w) := by
      simp only [gxCursor, hs, ht]
    have hr' : (gxCursor f.tw f.th s (o / 4 % d.w) (o / 4 / d.w) + 1) * f.bits ≤ 8 * d.srcLen.toNat := by
      refine Nat.le_trans (Nat.le_of_eq ?_) hr
      simp only [gxCursor, hs, hcols]
      congr 1
      omega
    simp only [rasterByte, gxPixelOf, hs, ht]
    rw [← hcs]
    generalize gxCursor f.tw f.th s (o / 4 % d.w) (o / 4 / d.w) = cur at *
    have htex : texelOf f.bits s cur = texelOf f.bits t cur := by
      simp only [List.mem_cons, List.not_mem_nil, or_false] at hb
      rcases hb with hb | hb | hb <;> rw [hb] at hr' ⊢
      · rw [texelOf_four, texelOf_four, hsrc hsrcu _ (by omega)]
      · rw [texelOf_eight, texelOf_eight, hsrc hsrcu _ (by omega)]
      · rw [texelOf_sixteen, texelOf_sixteen, hsrc hsrcu _ (by omega), hsrc hsrcu _ (by omega)]
    rw [htex, hpix s t _ _ hp hn hdr]

end Sys2Proof.Machine
end

