-- ==== Sys2Proof/Laws/Commands.lean ====
section
/-! SUPPORT. Every one of the 22 commands walks over units that decode without a halt and write what they own
(spec/46_dispatch.md R308, R311). -/

namespace Sys2Proof.Machine

/-- Every accepted command has an image, and each unit writes the part of it that it owns. -/
theorem all_units (i : Instr) {d : Desc} (ha : Accepted i d) :
    ∃ owner image, UnitsOk (commandOf i) d (cursorStep i) owner image := by
  cases i with
  | deswz bhl2 => exact ⟨_, _, deswz_units ha⟩
  | bc1 srgb lin bhl2 => exact ⟨_, _, bcn_units bc1Block_ok rfl rfl (by decide) rfl ha⟩
  | bc2 srgb lin bhl2 => exact ⟨_, _, bcn_units bc2Block_ok rfl rfl (by decide) rfl ha⟩
  | bc3 srgb lin bhl2 => exact ⟨_, _, bcn_units bc3Block_ok rfl rfl (by decide) rfl ha⟩
  | bc4u srgb lin bhl2 => exact ⟨_, _, bcn_units (bc4Block_ok .unsigned) rfl rfl (by decide) rfl ha⟩
  | bc4s lin bhl2 => exact ⟨_, _, bcn_units (bc4Block_ok .signed) rfl rfl (by decide) rfl ha⟩
  | bc5u srgb lin bhl2 => exact ⟨_, _, bcn_units (bc5Block_ok .unsigned) rfl rfl (by decide) rfl ha⟩
  | bc5s lin bhl2 => exact ⟨_, _, bcn_units (bc5Block_ok .signed) rfl rfl (by decide) rfl ha⟩
  | gxI4 => exact ⟨_, _, gx_units (f := formatI4) rfl (.inl rfl) rfl rfl rfl rfl (by decide) rfl rfl
      (fun _ _ _ _ _ _ _ => rfl) ha⟩
  | gxI8 => exact ⟨_, _, gx_units (f := formatI8) rfl (.inl rfl) rfl rfl rfl rfl (by decide) rfl rfl
      (fun _ _ _ _ _ _ _ => rfl) ha⟩
  | gxIa4 => exact ⟨_, _, gx_units (f := formatIa4) rfl (.inl rfl) rfl rfl rfl rfl (by decide) rfl rfl
      (fun _ _ _ _ _ _ _ => rfl) ha⟩
  | gxIa8 => exact ⟨_, _, gx_units (f := formatIa8) rfl (.inl rfl) rfl rfl rfl rfl (by decide) rfl rfl
      (fun _ _ _ _ _ _ _ => rfl) ha⟩
  | gxRgb565 => exact ⟨_, _, gx_units (f := formatRgb565) rfl (.inl rfl) rfl rfl rfl rfl (by decide) rfl rfl
      (fun _ _ _ _ _ _ _ => rfl) ha⟩
  | gxRgb5a3 => exact ⟨_, _, gx_units (f := formatRgb5a3) rfl (.inl rfl) rfl rfl rfl rfl (by decide) rfl rfl
      (fun _ _ _ _ _ _ _ => rfl) ha⟩
  | gxRgba8 => exact ⟨_, _, rgba8_units ha⟩
  | gxC4 pal => exact ⟨_, _, gx_units (f := formatC4) rfl (.inr rfl) rfl rfl rfl rfl (by decide) rfl rfl
      (fun _ _ _ _ h1 h2 h3 => by simp only [formatC4, pixelIndexed, paletteLookup, h1, h2, h3]) ha⟩
  | gxC8 pal => exact ⟨_, _, gx_units (f := formatC8) rfl (.inr rfl) rfl rfl rfl rfl (by decide) rfl rfl
      (fun _ _ _ _ h1 h2 h3 => by simp only [formatC8, pixelIndexed, paletteLookup, h1, h2, h3]) ha⟩
  | gxC14x2 pal => exact ⟨_, _, gx_units (f := formatC14x2) rfl (.inr rfl) rfl rfl rfl rfl (by decide) rfl rfl
      (fun _ _ _ _ h1 h2 h3 => by simp only [formatC14x2, pixelC14x2, paletteLookup, h1, h2, h3]) ha⟩
  | gxCmpr => exact ⟨_, _, cmpr_units ha⟩
  | palIa8 => exact ⟨_, _, pal_units (fmt := .ia8) rfl rfl ha⟩
  | palRgb565 => exact ⟨_, _, pal_units (fmt := .rgb565) rfl rfl ha⟩
  | palRgb5a3 => exact ⟨_, _, pal_units (fmt := .rgb5a3) rfl rfl ha⟩

/-- Only the paletted GX commands fill the palette RAM (spec/44_gx_tiled.md R259). -/
theorem commandOf_fill_isSome (i : Instr) : (commandOf i).fill.isSome = true ↔ groupOf i = .gxPaletted := by
  cases i <;> simp [commandOf, deswzCommand, bc1Command, bc2Command, bc3Command, bc4uCommand, bc4sCommand, bc5uCommand,
      bc5sCommand, bcnCommand, gxI4Command, gxI8Command, gxIa4Command, gxIa8Command, gxRgb565Command, gxRgb5a3Command,
      gxRgba8Command, gxC4Command, gxC8Command, gxC14x2Command, gxCmprCommand, gxCommand, gxCommandOf, palCommand,
      groupOf]

end Sys2Proof.Machine
end

