-- ==== Sys2Proof/Laws/Invariant.lean ====
section
/-! SUPPORT. What a sane state's running command does from wherever it stands: every engine step has a next state, the run
ends, and only the output range is written (spec/46_dispatch.md R308, R314, spec/20_memory.md R64). -/

namespace Sys2Proof.Machine

/-- The command of a sane state past its checks is the decoded one. -/
theorem PastChecks.of_decode {s : State} {i : Instr} (h : PastChecks s) (hd : decode s.d.cmd = .ok i) :
    Accepted i s.d ∧ match s.phase with
    | .check => False
    | .fill => s.scr.bx = 0 ∧ s.scr.by_ = 0 ∧ s.scr.cur = 0 ∧ groupOf i = .gxPaletted
    | .walk =>
      s.scr.bx < unitCols i s.d ∧ s.scr.by_ < unitRows i s.d ∧
        s.scr.cur = (s.scr.by_ * unitCols i s.d + s.scr.bx) * cursorStep i ∧
        (groupOf i = .gxPaletted → s.scr.palN = paletteSize s.d)
    | .finish => True := by
  obtain ⟨j, hj, ha, hp⟩ := h
  obtain rfl : j = i := by rw [hd] at hj; cases hj; rfl
  exact ⟨ha, hp⟩

/-- In a sane state the walk stands at a unit of the grid. -/
theorem State.Inv.atUnit {s : State} {i : Instr} (h : s.Inv) (hb : s.busy = true) (hp : s.phase = .walk)
    (hd : decode s.d.cmd = .ok i) : Accepted i s.d ∧ AtUnit (commandOf i) (cursorStep i) s := by
  rcases h.engine hb with ⟨hc, -⟩ | hc
  · rw [hp] at hc; cases hc
  · obtain ⟨ha, hx⟩ := hc.of_decode hd
    rw [hp] at hx
    exact ⟨ha, by simpa using hx.1, by simpa using hx.2.1, by simpa using hx.2.2.1⟩

/-- A descriptor that the checks refuse is still at its checks. -/
theorem State.Inv.check_of_refused {s : State} {i : Instr} (h : s.Inv) (hb : s.busy = true)
    (hd : decode s.d.cmd = .ok i) (hr : ¬ Accepted i s.d) : s.phase = .check := by
  rcases h.engine hb with ⟨hc, -⟩ | hc
  · exact hc
  · exact absurd (hc.of_decode hd).1 hr

/-- A CMD word that selects no command is still at its checks. -/
theorem State.Inv.check_of_undecoded {s : State} {e : DecodeError} (h : s.Inv) (hb : s.busy = true)
    (hd : decode s.d.cmd = .error e) : s.phase = .check := by
  rcases h.engine hb with ⟨hc, -⟩ | ⟨i, hi, -⟩
  · exact hc
  · rw [hd] at hi; cases hi

/-- Where a run of `k` steps ends with DONE: memory is in canonical form and changed in the output range only. -/
def RunsToDone (i : Instr) (k : Nat) (s : State) : Prop :=
  ∃ m, runSteps (commandOf i) k s = .next (finished s m (outputLength i s.d)) ∧ m.wf = true ∧
    ∀ a, ¬ (s.d.dstBase.toNat ≤ a ∧ a < s.d.dstBase.toNat + outputLength i s.d) → m.read a = s.mem.read a

/-- A step that changes only the stage and the scratch state leaves what remains to be run. -/
theorem RunsToDone.step {i : Instr} {k : Nat} {s : State} {scr : Scratch} {p : Phase} (hb : s.busy = true)
    (he : engineStep (commandOf i) s = .next { s with scr := scr, phase := p })
    (h : RunsToDone i k { s with scr := scr, phase := p }) : RunsToDone i (k + 1) s := by
  obtain ⟨m, e, hw, hf⟩ := h
  exact ⟨m, by rw [runSteps_succ hb he, e]; rfl, hw, hf⟩

/-- From the start of the grid. -/
theorem runsToDone_grid {i : Instr} {s : State} (ha : Accepted i s.d) (hb : s.busy = true) (hm : s.mem.wf = true)
    (hp : s.phase = walkPhase (commandOf i) s.d) (hx : s.scr.bx = 0) (hy : s.scr.by_ = 0) (hc : s.scr.cur = 0) :
    RunsToDone i (unitRows i s.d * unitCols i s.d + 1) s := by
  obtain ⟨owner, image, hu⟩ := all_units i ha
  obtain ⟨m, e, hw, hf, -⟩ := runGrid_done hu rfl hb hp hm hx hy hc
  exact ⟨m, by simpa using e, hw, by simpa using hf⟩

/-- From the palette fill. -/
theorem runsToDone_fill {i : Instr} {s : State} (ha : Accepted i s.d) (hg : groupOf i = .gxPaletted) (hb : s.busy = true)
    (hm : s.mem.wf = true) (hp : s.phase = .fill) (hx : s.scr.bx = 0) (hy : s.scr.by_ = 0) (hc : s.scr.cur = 0) :
    RunsToDone i (unitRows i s.d * unitCols i s.d + 2) s := by
  obtain ⟨fmt, hfmt⟩ := Option.isSome_iff_exists.1 ((commandOf_fill_isSome i).2 hg)
  have hf : Fits s.d.pal := ha.pal_fits (by simp [usesPalette, hg])
  obtain ⟨scr, ef, h1, h2, h3, -⟩ := paletteFill_ok (fmt := fmt) hf
  have he : engineStep (commandOf i) s = .next { s with scr := scr, phase := walkPhase (commandOf i) s.d } := by
    rw [engineStep_fill hp]; simp only [stepFill, hfmt, ef]
  exact RunsToDone.step hb he (runsToDone_grid ha hb hm rfl (h1.trans hx) (h2.trans hy) (h3.trans hc))

/-- From the checks. -/
theorem runsToDone_check {i : Instr} {s : State} (ha : Accepted i s.d) (hb : s.busy = true) (hm : s.mem.wf = true)
    (hp : s.phase = .check) (hx : s.scr.bx = 0) (hy : s.scr.by_ = 0) (hc : s.scr.cur = 0) :
    ∃ k ≤ unitRows i s.d * unitCols i s.d + 3, RunsToDone i k s := by
  have hv := (validate_ok_iff i s.d).2 ha
  cases hfmt : (commandOf i).fill with
  | none =>
    have he : engineStep (commandOf i) s = .next { s with scr := s.scr, phase := walkPhase (commandOf i) s.d } := by
      rw [engineStep_check hp, stepCheck, hv]; simp [firstPhase, hfmt]
    exact ⟨unitRows i s.d * unitCols i s.d + 1 + 1, by omega,
      RunsToDone.step hb he (runsToDone_grid ha hb hm rfl hx hy hc)⟩
  | some fmt =>
    have hg : groupOf i = .gxPaletted := (commandOf_fill_isSome i).1 (by simp [hfmt])
    have he : engineStep (commandOf i) s = .next { s with scr := s.scr, phase := .fill } := by
      rw [engineStep_check hp, stepCheck, hv]; simp [firstPhase, hfmt]
    exact ⟨_, Nat.le_refl _, RunsToDone.step hb he (runsToDone_fill ha hg hb hm rfl hx hy hc)⟩

/-- From anywhere in a sane state with an accepted descriptor the command runs to DONE, in no more steps than the bound. -/
theorem State.Inv.runsToDone {s : State} {i : Instr} (h : s.Inv) (hb : s.busy = true) (hd : decode s.d.cmd = .ok i)
    (ha : Accepted i s.d) : ∃ k ≤ unitRows i s.d * unitCols i s.d + 3, RunsToDone i k s := by
  rcases h.engine hb with ⟨hc, hx, hy, hcur⟩ | hpc
  · exact runsToDone_check ha hb h.mem hc hx hy hcur
  · have hx := (hpc.of_decode hd).2
    cases hp : s.phase with
    | check => rw [hp] at hx; exact hx.elim
    | fill =>
      rw [hp] at hx
      exact ⟨_, by omega, runsToDone_fill ha hx.2.2.2 hb h.mem hp hx.1 hx.2.1 hx.2.2.1⟩
    | walk =>
      obtain ⟨owner, image, hu⟩ := all_units i ha
      obtain ⟨m, e, hw, hf, -⟩ := runWalk_done hu rfl hb hp h.mem (h.atUnit hb hp hd).2
      simp only [commandOf_rows, commandOf_cols, commandOf_outLen] at e hf
      exact ⟨_, by omega, m, e, hw, hf⟩
    | finish =>
      obtain ⟨m, e, hw, -, hf⟩ := completeCommand_spec (n := outputLength i s.d) h.mem ha.fits
      have he : engineStep (commandOf i) s = .next (finished s m (outputLength i s.d)) := by
        rw [engineStep_finish hp, stepFinish, commandOf_outLen, e]
      exact ⟨1, by omega, m, by rw [← Nat.zero_add 1, runSteps_succ hb he, runSteps_zero], hw, hf⟩

/-- The whole command of a sane state with an accepted descriptor. -/
theorem State.Inv.run_whole {s : State} {i : Instr} (h : s.Inv) (hb : s.busy = true) (hd : decode s.d.cmd = .ok i)
    (ha : Accepted i s.d) : RunsToDone i (stepBound (commandOf i) s.d) s := by
  obtain ⟨k, hk, m, e, hw, hf⟩ := h.runsToDone hb hd ha
  refine ⟨m, runSteps_enough e rfl (Nat.le_trans ?_ (stepBound_enough (commandOf i) s.d)), hw, hf⟩
  rw [commandOf_rows, commandOf_cols]; omega

/-! ## One engine step keeps the invariant -/

/-- A busy machine is not in reset. -/
theorem State.Inv.not_inReset {s : State} (h : s.Inv) (hb : s.busy = true) : s.inReset = false := by
  cases hr : s.inReset with
  | false => rfl
  | true => rw [(h.asserted hr).1] at hb; cases hb

/-- Error completion with one of the five codes keeps the invariant (spec/60_exceptions.md R331, R334). -/
theorem raiseError_inv {s : State} {c : ErrCode} {info : Word} (h : s.Inv) (hb : s.busy = true)
    (hc : 1 ≤ c.code.toNat ∧ c.code.toNat ≤ 5) : (raiseError c info s).Inv where
  mem := h.mem
  old := h.old
  busy_done := by simp
  busy_err := by simp
  done_err := fun hx => h.busy_done ⟨hb, hx.1⟩
  errcode := hc
  shadow := by simp
  results := by simp
  engine := by simp
  ended := h.ended
  asserted := by simp [h.not_inReset hb]

/-- Successful completion keeps the invariant (spec/46_dispatch.md R312). -/
theorem finished_inv {s : State} {m : Memory} {n : Nat} (h : s.Inv) (hb : s.busy = true) (hw : m.wf = true)
    (hn : s.d.dstBase.toNat + n ≤ 2 ^ 32) : (finished s m n).Inv where
  mem := hw
  old := h.old
  busy_done := by simp
  busy_err := by simp
  done_err := fun hx => h.busy_err ⟨hb, hx.2⟩
  errcode := h.errcode
  shadow := by simp
  results := by simp
  engine := by simp
  ended := fun e he => by
    rcases List.mem_cons.1 he with rfl | he
    · exact ⟨h.old, hn⟩
    · exact h.ended e he
  asserted := by simp [h.not_inReset hb]

/-- What keeps the invariant of a running command: memory, stage and scratch state may change, so long as the command
stays past its checks. -/
theorem State.Inv.running {s : State} {scr : Scratch} {m : Memory} {p : Phase} (h : s.Inv) (hb : s.busy = true)
    (hw : m.wf = true) (hp : PastChecks { s with scr := scr, mem := m, phase := p }) :
    ({ s with scr := scr, mem := m, phase := p } : State).Inv where
  mem := hw
  old := h.old
  busy_done := h.busy_done
  busy_err := h.busy_err
  done_err := h.done_err
  errcode := h.errcode
  shadow := h.shadow
  results := h.results
  engine := fun _ => .inr hp
  ended := h.ended
  asserted := fun hr => absurd hr (by simp [h.not_inReset hb])

theorem validate_codes {i : Instr} {d : Desc} {c : ErrCode} {info : Word}
    (h : validate (commandOf i) d = .error (c, info)) : 1 ≤ c.code.toNat ∧ c.code.toNat ≤ 5 := by
  rcases validate_cases i d with ⟨_, e⟩ | ⟨_, _, e⟩ | ⟨_, _, _, e⟩ | ⟨_, _, _, _, e⟩ | ⟨_, _, _, _, _, e⟩ | ⟨_, e⟩ <;>
    rw [e] at h <;> cases h <;> decide

/-- A command whose sequencer is at its start is past its checks in the first stage of the walk. -/
theorem pastChecks_walkPhase {s : State} {i : Instr} {scr : Scratch} {m : Memory} (hd : decode s.d.cmd = .ok i)
    (ha : Accepted i s.d) (hx : scr.bx = 0) (hy : scr.by_ = 0) (hc : scr.cur = 0)
    (hn : groupOf i = .gxPaletted → scr.palN = paletteSize s.d) :
    PastChecks { s with scr := scr, mem := m, phase := walkPhase (commandOf i) s.d } := by
  refine ⟨i, hd, ha, ?_⟩
  by_cases hz : (commandOf i).cols s.d = 0 ∨ (commandOf i).rows s.d = 0
  · simp only [walkPhase, if_pos hz]
  · simp only [walkPhase, if_neg hz]
    simp only [commandOf_cols, commandOf_rows] at hz
    exact ⟨by omega, by omega, by simp [hx, hy, hc], hn⟩

/-- Every engine step of a sane state has a next state, sane again, on the same descriptor (spec/46_dispatch.md R308). -/
theorem engineStep_inv {s : State} {i : Instr} (h : s.Inv) (hb : s.busy = true) (hd : decode s.d.cmd = .ok i) :
    ∃ t, engineStep (commandOf i) s = .next t ∧ t.Inv ∧ t.d = s.d := by
  rcases h.engine hb with ⟨hc, hx, hy, hcur⟩ | hpc
  · rw [engineStep_check hc, stepCheck]
    rcases hv : validate (commandOf i) s.d with ⟨c, info⟩ | _
    · exact ⟨_, rfl, raiseError_inv h hb (validate_codes hv), rfl⟩
    · have ha := (validate_ok_iff i s.d).1 hv
      refine ⟨_, rfl, h.running (m := s.mem) (scr := s.scr) hb h.mem ?_, rfl⟩
      unfold firstPhase
      cases hf : (commandOf i).fill with
      | some f => exact ⟨i, hd, ha, hx, hy, hcur, (commandOf_fill_isSome i).1 (by simp [hf])⟩
      | none =>
        refine pastChecks_walkPhase hd ha hx hy hcur fun hg => ?_
        have := (commandOf_fill_isSome i).2 hg
        simp [hf] at this
  · obtain ⟨ha, hx⟩ := hpc.of_decode hd
    cases hp : s.phase with
    | check => rw [hp] at hx; exact hx.elim
    | fill =>
      rw [hp] at hx
      obtain ⟨fmt, hfmt⟩ := Option.isSome_iff_exists.1 ((commandOf_fill_isSome i).2 hx.2.2.2)
      obtain ⟨scr, ef, h1, h2, h3, h4, -⟩ := paletteFill_ok (fmt := fmt)
        (ha.pal_fits (by simp [usesPalette, hx.2.2.2]))
      rw [engineStep_fill hp, stepFill, hfmt]
      refine ⟨{ s with scr := scr, phase := walkPhase (commandOf i) s.d }, by simp only [ef],
        h.running (m := s.mem) hb h.mem ?_, rfl⟩
      exact pastChecks_walkPhase hd ha (h1.trans hx.1) (h2.trans hx.2.1) (h3.trans hx.2.2.1) fun _ => h4
    | walk =>
      rw [hp] at hx
      obtain ⟨hx1, hx2, hx3, hx4⟩ := hx
      obtain ⟨owner, image, hu⟩ := all_units i ha
      obtain ⟨scr, m, e, hw, h1, h2, h3, h4, h5, -⟩ := stepUnit_spec hu rfl h.mem (h.atUnit hb hp hd).2
      rw [engineStep_walk hp, e]
      rcases advance_cases (commandOf i) { s with scr := scr, mem := m } with
        ⟨hlt, hadv⟩ | ⟨hge, hlt, hadv⟩ | ⟨hge, hge2, hadv⟩
      · rw [hadv]
        refine ⟨_, rfl, h.running hb hw ⟨i, hd, ha, ?_⟩, rfl⟩
        simp only [commandOf_cols] at hlt
        rw [hp]
        refine ⟨hlt, h2 ▸ hx2, ?_, fun hg => h5.trans (hx4 hg)⟩
        show scr.cur = (scr.by_ * unitCols i s.d + (scr.bx + 1)) * cursorStep i
        rw [h3, hx3, h1, h2, ← Nat.add_one_mul]; rfl
      · rw [hadv]
        refine ⟨_, rfl, h.running hb hw ⟨i, hd, ha, ?_⟩, rfl⟩
        simp only [commandOf_cols, commandOf_rows] at hge hlt
        have hge' : unitCols i s.d ≤ scr.bx + 1 := hge
        rw [h1] at hge'
        rw [hp]
        refine ⟨Nat.lt_of_le_of_lt (Nat.zero_le _) hx1, hlt, ?_, fun hg => h5.trans (hx4 hg)⟩
        show scr.cur = ((scr.by_ + 1) * unitCols i s.d + 0) * cursorStep i
        rw [h3, hx3, h2, ← Nat.add_one_mul, Nat.add_one_mul s.scr.by_]
        congr 1
        omega
      · rw [hadv]
        exact ⟨_, rfl, h.running hb hw ⟨i, hd, ha, trivial⟩, rfl⟩
    | finish =>
      obtain ⟨m, e, hw, -, hf⟩ := completeCommand_spec (n := outputLength i s.d) h.mem ha.fits
      rw [engineStep_finish hp, stepFinish, commandOf_outLen, e]
      exact ⟨_, rfl, finished_inv h hb hw ha.fits, rfl⟩

end Sys2Proof.Machine
end

