-- ==== Sys2Proof/Laws/Host.lean ====
section
/-! SUPPORT. The engine's turn in terms of its steps, and what the host's accesses to memory can do, said once: beside the
running command, and to the commands that have ended without the host having observed it (spec/20_memory.md R72,
spec/70_reset_and_hazards.md R366). -/

namespace Sys2Proof.Machine

/-! ## The engine's turn -/

/-- The schedule, what the host has read, and the free-value counter are no part of a sane state. -/
theorem State.Inv.schedule {s : State} (h : s.Inv) (slice : Option Nat) (script : List HostOp) (regData : Word)
    (memData : Byte) (touched : Bool) (draws : Nat) :
    ({ s with slice := slice, script := script, regData := regData, memData := memData, touched := touched
              draws := draws } : State).Inv where
  mem := h.mem
  old := h.old
  busy_done := h.busy_done
  busy_err := h.busy_err
  done_err := h.done_err
  errcode := h.errcode
  shadow := h.shadow
  results := h.results
  engine := h.engine
  ended := h.ended
  asserted := fun hr => ⟨(h.asserted hr).1, fun r => by have := (h.asserted hr).2 r; cases r <;> exact this⟩

/-- With no limit from the schedule the engine's turn is the whole command (spec/46_dispatch.md R315). -/
theorem engineTurn_whole {s : State} {i : Instr} (hb : s.busy = true) (hs : s.slice = none)
    (hd : decode s.d.cmd = .ok i) : engineTurn s = runSteps (commandOf i) (stepBound (commandOf i) s.d) s := by
  simp only [engineTurn, runningCommand, hd, exec_eq, runCommand, hs]
  rw [if_neg (by simp [hb])]

/-- With a limit it is that many engine steps (spec/46_dispatch.md R300). -/
theorem engineTurn_steps {s : State} {i : Instr} {n : Nat} (hb : s.busy = true) (hs : s.slice = some n) (hn : n ≠ 0)
    (hd : decode s.d.cmd = .ok i) : engineTurn s = runSteps (commandOf i) n s := by
  simp only [engineTurn, runningCommand, hd, exec_eq, runCommand, hs]
  rw [if_neg (by simp [hb, hn])]

/-- A CMD word that selects no command is E_UNSUP (spec/46_dispatch.md R303). -/
theorem engineTurn_undecoded {s : State} {e : DecodeError} (hb : s.busy = true) (hs : s.slice ≠ some 0)
    (hd : decode s.d.cmd = .error e) : engineTurn s = .next (raiseError .unsup 0 s) := by
  simp only [engineTurn, runningCommand, hd]
  rw [if_neg (by simp [hb, hs])]

/-- A descriptor that the checks refuse ends the whole command with the error they give (spec/46_dispatch.md R302). -/
theorem engineTurn_rejected {s : State} {i : Instr} {c : ErrCode} {info : Word} (hb : s.busy = true)
    (hs : s.slice = none) (hp : s.phase = .check) (hd : decode s.d.cmd = .ok i)
    (hv : validate (commandOf i) s.d = .error (c, info)) : engineTurn s = .next (raiseError c info s) := by
  rw [engineTurn_whole hb hs hd]
  have : stepBound (commandOf i) s.d = 3 + (commandOf i).rows s.d * ((commandOf i).cols s.d + 1) + 1 := by
    unfold stepBound; omega
  rw [this, runSteps_rejected hb hp hv]

theorem completed_eq {s t : State} (hb : s.busy = true) (e : engineTurn { s with slice := none } = .next t) :
    completed s = if t.done then some (t.mem, t.outLen.toNat) else none := by
  unfold completed; rw [if_pos hb, e]

/-- The rest of an accepted command, from anywhere in a sane state. -/
theorem completed_accepted {s : State} {i : Instr} (h : s.Inv) (hb : s.busy = true) (hd : decode s.d.cmd = .ok i)
    (ha : Accepted i s.d) :
    ∃ m, engineTurn { s with slice := none } = .next (finished { s with slice := none } m (outputLength i s.d)) ∧
      completed s = some (m, outputLength i s.d) ∧ m.wf = true := by
  have h' : ({ s with slice := none } : State).Inv := h.schedule none s.script s.regData s.memData s.touched s.draws
  obtain ⟨m, e, hw, -⟩ := h'.run_whole hb hd ha
  have e' := (engineTurn_whole (s := { s with slice := none }) hb rfl hd).trans e
  have hlen : outputLength i s.d ≤ s.d.dstLen.toNat := ha.2.2.2.2
  have hn : (BitVec.ofNat 32 (outputLength i s.d)).toNat = outputLength i s.d := by
    rw [BitVec.toNat_ofNat, Nat.mod_eq_of_lt (Nat.lt_of_le_of_lt hlen s.d.dstLen.isLt)]
  exact ⟨m, e', by rw [completed_eq hb e']; exact congrArg (fun n => some (m, n)) hn, hw⟩

/-- A refused command leaves nothing. -/
theorem completed_refused {s : State} {i : Instr} (h : s.Inv) (hb : s.busy = true) (hd : decode s.d.cmd = .ok i)
    (ha : ¬ Accepted i s.d) : completed s = none := by
  have hdone : s.done = false := by
    cases hdn : s.done with
    | false => rfl
    | true => exact absurd ⟨hb, hdn⟩ h.busy_done
  cases hv : validate (commandOf i) s.d with
  | ok u => exact absurd ((validate_ok_iff i s.d).1 hv) ha
  | error e =>
    have e' := engineTurn_rejected (s := { s with slice := none }) hb rfl (h.check_of_refused hb hd ha) hd hv
    rw [completed_eq hb e', raiseError_done, hdone]; rfl

/-- So does one whose CMD word selects no command. -/
theorem completed_undecoded {s : State} {e : DecodeError} (h : s.Inv) (hb : s.busy = true)
    (hd : decode s.d.cmd = .error e) : completed s = none := by
  have hdone : s.done = false := by
    cases hdn : s.done with
    | false => rfl
    | true => exact absurd ⟨hb, hdn⟩ h.busy_done
  rw [completed_eq hb (engineTurn_undecoded (s := { s with slice := none }) hb (by simp) hd), raiseError_done, hdone]; rfl

/-! ## The windows of a descriptor -/

theorem has_iff (w : Window) (a : Nat) : w.has a = true ↔ Covers w a := by simp [Window.has, Covers]

theorem inDst_iff (d : Desc) (a : Nat) : inDst d a = true ↔ ReadBreaks d a := by
  unfold inDst ReadBreaks
  cases decode d.cmd with
  | error e => simp
  | ok i => simp [has_iff]

theorem inInput_iff {d : Desc} {i : Instr} (hd : decode d.cmd = .ok i) (a : Nat) :
    inInput d a = true ↔ InputCovers i d a := by simp [inInput, hd, InputCovers, has_iff]

theorem inWindows_iff (d : Desc) (a : Nat) : (inDst d a || inInput d a) = true ↔ WriteBreaks d a := by
  unfold inDst inInput WriteBreaks InputCovers
  cases decode d.cmd with
  | error e => simp
  | ok i => simp [has_iff]

/-! ## Beside the running command -/

theorem readBesideRunning_outside {s : State} {a : Nat} (h : ¬ (s.busy = true ∧ ReadBreaks s.d a)) :
    readBesideRunning s a = { s with memData := s.mem.read a } := by
  have hn : inRunningDst s a = false := by
    rw [← Bool.not_eq_true]
    simpa [inRunningDst, inDst_iff] using h
  simp [readBesideRunning, hn]

theorem writeBesideRunning_breaks {s : State} {a : Nat} {b : Byte} :
    (writeBesideRunning s a b).touched = true ↔ s.touched = true ∨ (s.busy = true ∧ WriteBreaks s.d a) := by
  simp only [writeBesideRunning, ← inWindows_iff, inRunningDst, inRunningInput, Bool.or_eq_true, Bool.and_eq_true]
  tauto

theorem State.Inv.writeBesideRunning {s : State} (h : s.Inv) {a : Nat} (ha : a < Config.memSize) (b : Byte) :
    (writeBesideRunning s a b).Inv where
  mem := Memory.write_wf h.mem ha b
  old := h.old
  busy_done := h.busy_done
  busy_err := h.busy_err
  done_err := h.done_err
  errcode := h.errcode
  shadow := h.shadow
  results := h.results
  engine := h.engine
  ended := h.ended
  asserted := fun hr => ⟨(h.asserted hr).1, fun r => by have := (h.asserted hr).2 r; cases r <;> exact this⟩

/-! ## Who writes a byte -/

theorem writesOffset_iff (i : Instr) (o : Nat) : writesOffset i o = true ↔ WritesChannel i (o % 4) := by
  cases i <;> simp [writesOffset, WritesChannel]

theorem writesByte_iff (d : Desc) (n x : Nat) :
    writesByte d n x = true ↔ ∃ i, decode d.cmd = .ok i ∧ WritesByte i d n x := by
  unfold writesByte WritesByte
  cases decode d.cmd with
  | error e => simp
  | ok i =>
    simp only [Bool.and_eq_true, decide_eq_true_eq, writesOffset_iff, and_assoc, Except.ok.injEq, exists_eq_left']
    exact Iff.rfl

theorem runningWrites_iff (s : State) (x : Nat) : runningWrites s x = true ↔ RunningWrites s x := by
  unfold runningWrites RunningWrites Runs
  cases hd : decode s.d.cmd with
  | error e => simp
  | ok i =>
    cases hv : validate (commandOf i) s.d with
    | error e =>
      have : ¬ Accepted i s.d := fun ha => by rw [← validate_ok_iff, hv] at ha; cases ha
      simp [hv, this]
    | ok u => simp [writesByte_iff, hd, hv, (validate_ok_iff i s.d).1 hv]

/-! ## The running command taken to its completion -/

/-- All that `walkToEnd` can do: the memory that the command leaves, and the engine at its completion. -/
theorem walkToEnd_spec {s : State} (h : s.Inv) :
    (walkToEnd s).Inv ∧ Walked s (walkToEnd s).mem ∧
      ((∃ i, Runs i s) → walkToEnd s = { s with mem := (walkToEnd s).mem, phase := .finish }) ∧
      ((¬ ∃ i, Runs i s) → walkToEnd s = s) := by
  by_cases hr : ∃ i, Runs i s
  · obtain ⟨i, hb, hd, ha⟩ := hr
    obtain ⟨m, e, hc, hw⟩ := completed_accepted h hb hd ha
    have hs : walkToEnd s = { s with mem := m, phase := .finish } := by unfold walkToEnd; rw [hc]
    rw [hs]
    refine ⟨h.running hb hw ⟨i, hd, ha, trivial⟩, ⟨fun j ⟨_, hj, _⟩ => ?_, fun hn => absurd ⟨i, hb, hd, ha⟩ hn⟩,
      fun _ => rfl, fun hn => absurd ⟨i, hb, hd, ha⟩ hn⟩
    obtain rfl : i = j := by rw [hd] at hj; cases hj; rfl
    exact e
  · have hc : completed s = none := by
      cases hb : s.busy with
      | false => simp [completed, hb]
      | true =>
        cases hd : decode s.d.cmd with
        | ok i => exact completed_refused h hb hd fun ha => hr ⟨i, hb, hd, ha⟩
        | error e => exact completed_undecoded h hb hd
    have hs : walkToEnd s = s := by unfold walkToEnd; rw [hc]
    rw [hs]
    exact ⟨h, ⟨fun i hi => absurd ⟨i, hi⟩ hr, fun _ => rfl⟩, fun hx => absurd hx hr, fun _ => rfl⟩

@[simp] theorem walkToEnd_runningWrites (s : State) : runningWrites (walkToEnd s) = runningWrites s := by
  funext x; simp [runningWrites]

/-- At its completion a command whose duties are kept leaves memory as it is (spec/46_dispatch.md R312). -/
theorem engineTurn_finish {s : State} {i : Instr} (hr : Runs i s) (hs : s.slice = none) (hp : s.phase = .finish)
    (ht : s.touched = false) (hm : s.mem.wf = true) :
    engineTurn s = .next (finished s s.mem (outputLength i s.d)) := by
  obtain ⟨hb, hd, ha⟩ := hr
  obtain ⟨m, e, -, hk, -⟩ := completeCommand_spec (n := outputLength i s.d) hm ha.fits
  obtain rfl : m = s.mem := hk ht
  have he : engineStep (commandOf i) s = .next (finished s s.mem (outputLength i s.d)) := by
    rw [engineStep_finish hp, stepFinish, commandOf_outLen, e]
  have hn : stepBound (commandOf i) s.d = 3 + (commandOf i).rows s.d * ((commandOf i).cols s.d + 1) + 1 := by
    unfold stepBound; omega
  rw [engineTurn_whole hb hs hd, hn, runSteps_succ hb he, runSteps_idle rfl]

/-! ## The bytes that a broken duty frees -/

theorem Ended.wrote_iff (e : Ended) (x : Nat) : e.wrote x = true ↔ e.Wrote x := writesByte_iff e.d e.outLen x

theorem Ended.output_has_iff (e : Ended) (x : Nat) : e.output.has x = true ↔ e.InOutput x := has_iff e.output x

theorem not_frees_nil (hit : Ended → Prop) (x : Nat) : ¬ Frees hit [] x := by rintro ⟨later, e, es, h, -⟩; simp at h

theorem frees_cons {hit : Ended → Prop} {e : Ended} {es : List Ended} {x : Nat} :
    Frees hit (e :: es) x ↔ (hit e ∧ e.InOutput x) ∨ (¬ e.Wrote x ∧ Frees hit es x) := by
  constructor
  · rintro ⟨later, f, earlier, heq, hf, ho, hl⟩
    cases later with
    | nil => cases heq; exact .inl ⟨hf, ho⟩
    | cons g later =>
      cases heq
      exact .inr ⟨hl _ (List.mem_cons_self ..), later, f, earlier, rfl, hf, ho,
        fun e' he' => hl e' (List.mem_cons_of_mem _ he')⟩
  · rintro (⟨hf, ho⟩ | ⟨hw, later, f, earlier, rfl, hf, ho, hl⟩)
    · exact ⟨[], e, es, rfl, hf, ho, by simp⟩
    · exact ⟨e :: later, f, earlier, rfl, hf, ho, List.forall_mem_cons.2 ⟨hw, hl⟩⟩

theorem Frees.inOutput {hit : Ended → Prop} {es : List Ended} {x : Nat} (h : Frees hit es x) :
    ∃ e ∈ es, e.InOutput x := by
  obtain ⟨later, e, earlier, rfl, -, ho, -⟩ := h
  exact ⟨e, by simp, ho⟩

theorem Frees.anyHit {hit : Ended → Prop} {es : List Ended} {x : Nat} (h : Frees hit es x) : ∃ e ∈ es, hit e := by
  obtain ⟨later, e, earlier, rfl, he, -, -⟩ := h
  exact ⟨e, by simp, he⟩

/-- All that `freedByte` can answer: a free value, exactly for the bytes freed. -/
theorem freedByte_spec {hit : Ended → Bool} {Hit : Ended → Prop} (hh : ∀ e, hit e = true ↔ Hit e) (ev x : Nat) :
    ∀ es : List Ended,
      (∃ b, freedByte hit ev x es = some b ∧ Frees Hit es x ∧ FreeFrom ev b) ∨
        (freedByte hit ev x es = none ∧ ¬ Frees Hit es x)
  | [] => .inr ⟨rfl, not_frees_nil Hit x⟩
  | e :: es => by
    have h1 : (hit e && e.output.has x) = true ↔ Hit e ∧ e.InOutput x := by
      rw [Bool.and_eq_true, hh, e.output_has_iff]
    rw [frees_cons, ← h1, ← e.wrote_iff]
    by_cases h1 : (hit e && e.output.has x) = true
    · exact .inl ⟨_, if_pos h1, .inl h1, _, _, Nat.le_add_right .., rfl⟩
    · rw [freedByte, if_neg h1]
      by_cases h2 : e.wrote x = true
      · exact .inr ⟨if_pos h2, by tauto⟩
      · rw [if_neg h2]
        exact (freedByte_spec hh ev x es).imp (fun ⟨b, hb, hf, hv⟩ => ⟨b, hb, .inr ⟨h2, hf⟩, hv⟩)
          fun ⟨hb, hf⟩ => ⟨hb, by tauto⟩

theorem freedByte_isSome {hit : Ended → Bool} {Hit : Ended → Prop} (hh : ∀ e, hit e = true ↔ Hit e) (ev x : Nat)
    (es : List Ended) : (freedByte hit ev x es).isSome = true ↔ Frees Hit es x := by
  rcases freedByte_spec hh ev x es with ⟨b, hb, hf, -⟩ | ⟨hb, hf⟩ <;> simp [hb, hf]

/-- The ranges of `es` written with the bytes of `g`. -/
theorem foldl_putBytes_spec {g : Nat → Byte} : ∀ (es : List Ended) {m : Memory}, m.wf = true →
    (∀ e ∈ es, e.d.dstBase.toNat + e.outLen ≤ 2 ^ 32) →
    let m' := es.foldl (fun m' e => putBytes e.output.base (fun o => g (e.output.base + o)) e.output.len m') m
    m'.wf = true ∧ ∀ x, ((∃ e ∈ es, e.InOutput x) → m'.read x = g x) ∧
      (¬ (∃ e ∈ es, e.InOutput x) → m'.read x = m.read x)
  | [], m, hm, _ => ⟨hm, by simp⟩
  | e :: es, m, hm, hb => by
    rw [List.forall_mem_cons] at hb
    obtain ⟨hw, hr⟩ := putBytes_spec (base := e.output.base) (f := fun o => g (e.output.base + o)) hm
      (n := e.output.len) hb.1
    obtain ⟨hw', hr'⟩ := foldl_putBytes_spec (g := g) es hw hb.2
    refine ⟨hw', fun x => ⟨fun hx => ?_, fun hx => ?_⟩⟩
    · by_cases hx' : ∃ e ∈ es, e.InOutput x
      · exact (hr' x).1 hx'
      · obtain ⟨f, hf, ho⟩ := hx
        rcases List.mem_cons.1 hf with rfl | hf
        · refine ((hr' x).2 hx').trans ((hr x).trans ((if_pos ho).trans ?_))
          exact congrArg g (Nat.add_sub_cancel' ho.1)
        · exact absurd ⟨f, hf, ho⟩ hx'
    · refine ((hr' x).2 fun ⟨f, hf, ho⟩ => hx ⟨f, List.mem_cons_of_mem _ hf, ho⟩).trans ((hr x).trans (if_neg ?_))
      exact fun ho => hx ⟨e, List.mem_cons_self .., ho⟩

/-- Freeing frees the bytes of `Frees` that are not kept, and no other. -/
theorem freeMemory_spec {hit : Ended → Bool} {Hit : Ended → Prop} (hh : ∀ e, hit e = true ↔ Hit e) (ev : Nat)
    (kept : Nat → Bool) {es : List Ended} {m : Memory} (hm : m.wf = true)
    (hb : ∀ e ∈ es, e.d.dstBase.toNat + e.outLen ≤ 2 ^ 32) :
    (freeMemory hit ev kept es m).wf = true ∧
      FreedIn (fun x => Frees Hit es x ∧ ¬ kept x = true) ev m (freeMemory hit ev kept es m) := by
  obtain ⟨hw, hr⟩ := foldl_putBytes_spec
    (g := fun x => if kept x then m.read x else (freedByte hit ev x es).getD (m.read x)) es hm hb
  refine ⟨hw, fun x => ⟨fun ⟨hf, hk⟩ => ?_, fun hn => ?_⟩⟩
  · refine ((hr x).1 hf.inOutput).symm ▸ ?_
    rcases freedByte_spec hh ev x es with ⟨b, hb, -, hv⟩ | ⟨-, h⟩
    · simpa [hk, hb] using hv
    · exact absurd hf h
  · by_cases ho : ∃ e ∈ es, e.InOutput x
    · refine ((hr x).1 ho).trans ?_
      rcases freedByte_spec hh ev x es with ⟨b, -, hf, -⟩ | ⟨h, -⟩
      · have : kept x = true := by by_contra hk; exact hn ⟨hf, hk⟩
        simp [this]
      · simp [h]
    · exact (hr x).2 ho

/-- The records after a broken duty: each as it was, but for the bytes freed in what it found at its START. -/
theorem freeOlds_spec {hit : Ended → Bool} {Hit : Ended → Prop} (hh : ∀ e, hit e = true ↔ Hit e) (ev : Nat) :
    ∀ {es : List Ended}, (∀ e ∈ es, e.old.wf = true ∧ e.d.dstBase.toNat + e.outLen ≤ 2 ^ 32) →
      (∀ e ∈ freeOlds hit ev es, e.old.wf = true ∧ e.d.dstBase.toNat + e.outLen ≤ 2 ^ 32) ∧
        OldsFreed Hit ev es (freeOlds hit ev es)
  | [], _ => ⟨by simp [freeOlds], trivial⟩
  | e :: es, hb => by
    rw [List.forall_mem_cons] at hb
    obtain ⟨hw, hf⟩ := freeMemory_spec hh ev (fun _ => false) hb.1.1 fun e he => (hb.2 e he).2
    obtain ⟨hw', hf'⟩ := freeOlds_spec hh ev hb.2
    refine ⟨List.forall_mem_cons.2 ⟨⟨hw, hb.1.2⟩, hw'⟩, rfl, rfl, ?_, hf'⟩
    simpa using hf

/-! ## To the ended commands -/

/-- All that a broken duty can do, and that the state stays sane. -/
theorem breakDuties_spec {hit : Ended → Bool} {Hit : Ended → Prop} (hh : ∀ e, hit e = true ↔ Hit e) {s : State}
    (h : s.Inv) : (breakDuties hit s).Inv ∧ ((∃ e ∈ s.ended, Hit e) → DutiesBroken Hit s (breakDuties hit s)) := by
  unfold breakDuties
  split
  · obtain ⟨hi, hw, hr, hn⟩ := walkToEnd_spec h
    obtain ⟨w1, f1⟩ := freeMemory_spec hh s.draws (runningWrites s) (es := s.ended) hi.mem fun e he => (h.ended e he).2
    obtain ⟨w2, f2⟩ := freeMemory_spec hh s.draws (fun _ => false) h.old fun e he => (h.ended e he).2
    obtain ⟨w3, f3⟩ := freeOlds_spec hh s.draws h.ended
    refine ⟨?_, fun _ => ?_⟩
    · exact ⟨by simpa using w1, by simpa using w2, hi.busy_done, hi.busy_err, hi.done_err, hi.errcode, hi.shadow,
        hi.results, hi.engine, by simpa using w3, fun hx => ⟨(hi.asserted hx).1, fun r => by
          have := (hi.asserted hx).2 r
          cases r <;> exact this⟩⟩
    · refine ⟨?_, fun hx => by rw [freeEnded_phase, hn hx], ⟨_, hw, ?_⟩, fun i hi' ht => ?_, by simpa using f2,
        by simpa using f3⟩
      · by_cases hx : ∃ i, Runs i s
        · simp only [freeEnded]; rw [hr hx]
        · simp only [freeEnded]; rw [hn hx]
      · simpa only [freeEnded_mem, runningWrites_iff, walkToEnd_draws, walkToEnd_runningWrites, walkToEnd_ended] using f1
      · have e := hr ⟨i, hi'⟩
        have hd : (freeEnded hit (walkToEnd s)).d = s.d := by simp
        rw [← hd]
        refine engineTurn_finish (s := { freeEnded hit (walkToEnd s) with slice := none }) ?_ rfl ?_ ?_ (by simpa using w1)
        · exact ⟨by simpa using hi'.1, by simpa using hi'.2.1, by simpa using hi'.2.2⟩
        · rw [freeEnded_phase, e]
        · rw [freeEnded_touched, e]; exact ht
  · rename_i hx
    refine ⟨h, fun ⟨e, he, hit_e⟩ => absurd (List.any_eq_true.2 ⟨e, he, (hh e).2 hit_e⟩) hx⟩

/-- With no duty broken nothing changes. -/
theorem breakDuties_none {hit : Ended → Bool} {s : State} (h : ∀ e ∈ s.ended, hit e = false) :
    breakDuties hit s = s := by
  unfold breakDuties
  rw [if_neg (by simpa using h)]

/-- What a read returns: the byte found, or the one before an ended command whose destination window it touches. -/
theorem seenByte_spec (a ev : Nat) : ∀ (es : List Ended) (b : Byte),
    seenByte a ev es b = b ∨ ∃ e ∈ es, ReadBreaks e.d a ∧ seenByte a ev es b = e.old.read a
  | [], b => .inl rfl
  | e :: es, b => by
    simp only [seenByte, List.exists_mem_cons_iff]
    split
    · rename_i h
      have hr : ReadBreaks e.d a := (inDst_iff e.d a).1 (by simp only [Bool.and_eq_true] at h; exact h.1)
      exact .inr ((seenByte_spec a ev es (e.old.read a)).imp (fun h => ⟨hr, h⟩) id)
    · exact (seenByte_spec a ev es b).imp id .inr

theorem seenByte_none {a ev : Nat} : ∀ {es : List Ended} {b : Byte}, (∀ e ∈ es, inDst e.d a = false) →
    seenByte a ev es b = b
  | [], _, _ => rfl
  | e :: es, b, h => by
    rw [List.forall_mem_cons] at h
    simp only [seenByte, h.1, Bool.false_and, Bool.false_eq_true, if_false]
    exact seenByte_none h.2

/-- A host read beside the running command changes what the host has read, and no more of a sane state. -/
theorem readBesideRunning_form (s : State) (a : Nat) :
    readBesideRunning s a = { s with
      memData := (readBesideRunning s a).memData
      touched := (readBesideRunning s a).touched
      draws := (readBesideRunning s a).draws } := by
  unfold readBesideRunning; split <;> rfl

/-- All that a host read of memory can do, past what it does beside the running command: the byte it returns is the one
found, or the one before an ended command to which it breaks the duty. -/
theorem hostMemRead_spec {s : State} (h : s.Inv) (a : Nat) :
    (hostMemRead s a).Inv ∧
      ∃ b, (b = (readBesideRunning s a).memData ∨ ∃ e ∈ s.ended, ReadBreaks e.d a ∧ b = e.old.read a) ∧
        ((∃ e ∈ s.ended, ReadBreaks e.d a) →
          DutiesBroken (fun e => ReadBreaks e.d a) { readBesideRunning s a with memData := b } (hostMemRead s a)) := by
  have hi : ({ readBesideRunning s a with
      memData := seenByte a (readBesideRunning s a).draws s.ended (readBesideRunning s a).memData } : State).Inv := by
    rw [readBesideRunning_form]; exact h.schedule s.slice s.script s.regData _ _ _
  have he : (readBesideRunning s a).ended = s.ended := by rw [readBesideRunning_form]
  obtain ⟨h1, h2⟩ := breakDuties_spec (fun e => inDst_iff e.d a) hi
  exact ⟨h1, _, seenByte_spec .., fun hx => h2 (by simpa only [he] using hx)⟩

/-- A host read of memory that breaks no duty to an ended command is the read beside the running one. -/
theorem hostMemRead_none {s : State} {a : Nat} (h : ∀ e ∈ s.ended, ¬ ReadBreaks e.d a) :
    hostMemRead s a = readBesideRunning s a := by
  have hn : ∀ e ∈ s.ended, inDst e.d a = false := fun e he => by
    rw [← Bool.not_eq_true, inDst_iff]; exact h e he
  have he : (readBesideRunning s a).ended = s.ended := by unfold readBesideRunning; split <;> rfl
  simp only [hostMemRead]
  rw [breakDuties_none (by simpa only [he] using hn), seenByte_none hn]

/-- All that a host write of memory can do, past what it does beside the running command. -/
theorem hostMemWrite_spec {s : State} (h : s.Inv) {a : Nat} (ha : a < Config.memSize) (b : Byte) :
    (hostMemWrite s a b).Inv ∧ ((∃ e ∈ s.ended, WriteBreaks e.d a) →
      DutiesBroken (fun e => WriteBreaks e.d a) (writeBesideRunning s a b) (hostMemWrite s a b)) :=
  breakDuties_spec (fun e => inWindows_iff e.d a) (h.writeBesideRunning ha b)

/-- A host write of memory that breaks no duty to an ended command is the write beside the running one. -/
theorem hostMemWrite_none {s : State} {a : Nat} {b : Byte} (h : ∀ e ∈ s.ended, ¬ WriteBreaks e.d a) :
    hostMemWrite s a b = writeBesideRunning s a b :=
  breakDuties_none fun e he => by rw [← Bool.not_eq_true, inWindows_iff]; exact h e he

end Sys2Proof.Machine
end

