-- ==== Sys2Proof/Laws/PerInstr.lean ====
section
/-! SUPPORT. The per-instruction family EncodesInRow: the encoding of every command lies in the row of the opcode table
that names it (spec/30_encoding.md R100), and no reserved bit is set. -/

namespace Sys2Proof.Laws

/-- The command's encoding lies in its row. -/
def EncodesInRow.Statement (i : Instr) : Prop := encode i &&& (tableRow i).2 = (tableRow i).1

theorem EncodesInRow.deswz : ∀ bhl2, EncodesInRow.Statement (.deswz bhl2) := by
  unfold EncodesInRow.Statement
  decide
theorem EncodesInRow.bc1 : ∀ srgb lin bhl2, EncodesInRow.Statement (.bc1 srgb lin bhl2) := by
  unfold EncodesInRow.Statement
  decide
theorem EncodesInRow.bc2 : ∀ srgb lin bhl2, EncodesInRow.Statement (.bc2 srgb lin bhl2) := by
  unfold EncodesInRow.Statement
  decide
theorem EncodesInRow.bc3 : ∀ srgb lin bhl2, EncodesInRow.Statement (.bc3 srgb lin bhl2) := by
  unfold EncodesInRow.Statement
  decide
theorem EncodesInRow.bc4u : ∀ srgb lin bhl2, EncodesInRow.Statement (.bc4u srgb lin bhl2) := by
  unfold EncodesInRow.Statement
  decide
theorem EncodesInRow.bc4s : ∀ lin bhl2, EncodesInRow.Statement (.bc4s lin bhl2) := by
  unfold EncodesInRow.Statement
  decide
theorem EncodesInRow.bc5u : ∀ srgb lin bhl2, EncodesInRow.Statement (.bc5u srgb lin bhl2) := by
  unfold EncodesInRow.Statement
  decide
theorem EncodesInRow.bc5s : ∀ lin bhl2, EncodesInRow.Statement (.bc5s lin bhl2) := by
  unfold EncodesInRow.Statement
  decide
theorem EncodesInRow.gxI4 : EncodesInRow.Statement .gxI4 := by
  unfold EncodesInRow.Statement
  decide
theorem EncodesInRow.gxI8 : EncodesInRow.Statement .gxI8 := by
  unfold EncodesInRow.Statement
  decide
theorem EncodesInRow.gxIa4 : EncodesInRow.Statement .gxIa4 := by
  unfold EncodesInRow.Statement
  decide
theorem EncodesInRow.gxIa8 : EncodesInRow.Statement .gxIa8 := by
  unfold EncodesInRow.Statement
  decide
theorem EncodesInRow.gxRgb565 : EncodesInRow.Statement .gxRgb565 := by
  unfold EncodesInRow.Statement
  decide
theorem EncodesInRow.gxRgb5a3 : EncodesInRow.Statement .gxRgb5a3 := by
  unfold EncodesInRow.Statement
  decide
theorem EncodesInRow.gxRgba8 : EncodesInRow.Statement .gxRgba8 := by
  unfold EncodesInRow.Statement
  decide
theorem EncodesInRow.gxC4 (pal : PalFmt) : EncodesInRow.Statement (.gxC4 pal) := by
  unfold EncodesInRow.Statement
  cases pal <;> decide
theorem EncodesInRow.gxC8 (pal : PalFmt) : EncodesInRow.Statement (.gxC8 pal) := by
  unfold EncodesInRow.Statement
  cases pal <;> decide
theorem EncodesInRow.gxC14x2 (pal : PalFmt) : EncodesInRow.Statement (.gxC14x2 pal) := by
  unfold EncodesInRow.Statement
  cases pal <;> decide
theorem EncodesInRow.gxCmpr : EncodesInRow.Statement .gxCmpr := by
  unfold EncodesInRow.Statement
  decide
theorem EncodesInRow.palIa8 : EncodesInRow.Statement .palIa8 := by
  unfold EncodesInRow.Statement
  decide
theorem EncodesInRow.palRgb565 : EncodesInRow.Statement .palRgb565 := by
  unfold EncodesInRow.Statement
  decide
theorem EncodesInRow.palRgb5a3 : EncodesInRow.Statement .palRgb5a3 := by
  unfold EncodesInRow.Statement
  decide

end Sys2Proof.Laws
end

