-- ==== Sys2Proof/Tests/Slice0.lean ====
section
/-! SUPPORT. The model's own tests: ill-formed terms refused, the decoding of words written out from
spec/30_encoding.md, values taken from spec/95_test_vectors.md, and for every obligation with hypotheses a concrete
state and operands that meet them all (witness_<obligation>). -/

namespace Sys2Proof.Tests

open Sys2Proof.Machine

-- one theorem at a time: the kernel evaluations below would else wait for each other in a thread each
set_option Elab.async false

/-! ## Ill-formed terms, one for each check of WellFormed (R97, R101 items 4 and 6) -/

theorem test_illFormed_deswz : Instr.wellFormed (.deswz 6) = false ∧ Instr.wellFormed (.deswz 7) = false := by decide
theorem test_illFormed_bc1 : Instr.wellFormed (.bc1 false false 6) = false ∧ Instr.wellFormed (.bc1 true true 1) = false := by
  decide
theorem test_illFormed_bc2 : Instr.wellFormed (.bc2 false false 7) = false ∧ Instr.wellFormed (.bc2 false true 5) = false := by
  decide
theorem test_illFormed_bc3 : Instr.wellFormed (.bc3 true false 6) = false ∧ Instr.wellFormed (.bc3 true true 7) = false := by
  decide
theorem test_illFormed_bc4u : Instr.wellFormed (.bc4u false false 6) = false ∧ Instr.wellFormed (.bc4u true true 2) = false := by
  decide
theorem test_illFormed_bc4s : Instr.wellFormed (.bc4s false 7) = false ∧ Instr.wellFormed (.bc4s true 3) = false := by
  decide
theorem test_illFormed_bc5u : Instr.wellFormed (.bc5u true false 7) = false ∧ Instr.wellFormed (.bc5u false true 4) = false := by
  decide
theorem test_illFormed_bc5s : Instr.wellFormed (.bc5s false 6) = false ∧ Instr.wellFormed (.bc5s true 1) = false := by
  decide

/-! ## Decoding: one word for each row, its fields from bit 31 down written out by R91: 14 reserved bits, PALFMT, a
reserved bit, BHL2, a reserved bit, LIN, FLAG, FMT, OP -/

theorem test_decode_deswz : decode 0b00000000000000000101000000000001#32 = .ok (.deswz 5) := by decide
theorem test_decode_bc1 : decode 0b00000000000000000000010100010010#32 = .ok (.bc1 true true 0) := by decide
theorem test_decode_bc2 : decode 0b00000000000000000011000000100010#32 = .ok (.bc2 false false 3) := by decide
theorem test_decode_bc3 : decode 0b00000000000000000100000100110010#32 = .ok (.bc3 true false 4) := by decide
theorem test_decode_bc4u : decode 0b00000000000000000000010001000010#32 = .ok (.bc4u false true 0) := by decide
theorem test_decode_bc4s : decode 0b00000000000000000000011001000010#32 = .ok (.bc4s true 0) := by decide
theorem test_decode_bc5u : decode 0b00000000000000000001000001010010#32 = .ok (.bc5u false false 1) := by decide
theorem test_decode_bc5s : decode 0b00000000000000000010001001010010#32 = .ok (.bc5s false 2) := by decide
theorem test_decode_gxI4 : decode 0b00000000000000000000000000000011#32 = .ok .gxI4 := by decide
theorem test_decode_gxI8 : decode 0b00000000000000000000000000010011#32 = .ok .gxI8 := by decide
theorem test_decode_gxIa4 : decode 0b00000000000000000000000000100011#32 = .ok .gxIa4 := by decide
theorem test_decode_gxIa8 : decode 0b00000000000000000000000000110011#32 = .ok .gxIa8 := by decide
theorem test_decode_gxRgb565 : decode 0b00000000000000000000000001000011#32 = .ok .gxRgb565 := by decide
theorem test_decode_gxRgb5a3 : decode 0b00000000000000000000000001010011#32 = .ok .gxRgb5a3 := by decide
theorem test_decode_gxRgba8 : decode 0b00000000000000000000000001100011#32 = .ok .gxRgba8 := by decide
theorem test_decode_gxC4 : decode 0b00000000000000000000000010000011#32 = .ok (.gxC4 .ia8) := by decide
theorem test_decode_gxC8 : decode 0b00000000000000100000000010010011#32 = .ok (.gxC8 .rgb5a3) := by decide
theorem test_decode_gxC14x2 : decode 0b00000000000000010000000010100011#32 = .ok (.gxC14x2 .rgb565) := by decide
theorem test_decode_gxCmpr : decode 0b00000000000000000000000011100011#32 = .ok .gxCmpr := by decide
theorem test_decode_palIa8 : decode 0b00000000000000000000000000000100#32 = .ok .palIa8 := by decide
theorem test_decode_palRgb565 : decode 0b00000000000000000000000000010100#32 = .ok .palRgb565 := by decide
theorem test_decode_palRgb5a3 : decode 0b00000000000000000000000000100100#32 = .ok .palRgb5a3 := by decide

/-- The refused words of spec/95_test_vectors.md section 2.8, each by the item of R101 that names it. -/
theorem test_decode_refuses :
    decode 0x00000000#32 = .error .reservedOp ∧ decode 0x0000000F#32 = .error .reservedOp ∧
    decode 0x00000812#32 = .error .reservedBits ∧ decode 0x00008012#32 = .error .reservedBits ∧
    decode 0x00040012#32 = .error .reservedBits ∧ decode 0x80000012#32 = .error .reservedBits ∧
    decode 0x00000011#32 = .error .reservedFmt ∧ decode 0x00000062#32 = .error .reservedFmt ∧
    decode 0x00000073#32 = .error .reservedFmt ∧ decode 0x00000034#32 = .error .reservedFmt ∧
    decode 0x00001412#32 = .error .unusedField ∧ decode 0x00000103#32 = .error .unusedField ∧
    decode 0x00010004#32 = .error .unusedField ∧ decode 0x00000212#32 = .error .badFlag ∧
    decode 0x00000342#32 = .error .badFlag ∧ decode 0x00006001#32 = .error .badBlockHeight ∧
    decode 0x00007012#32 = .error .badBlockHeight ∧ decode 0x00030093#32 = .error .badPaletteFormat := by decide

/-! ## Small states -/

/-- Memory with the bytes `bs` at `a` and up. -/
def place (a : Nat) : List Byte → Memory → Memory
  | [], m => m
  | b :: bs, m => (place (a + 1) bs m).write a b

/-- A descriptor whose windows stand at 0x1000 (source), 0x2000 (destination) and 0x800 (palette). -/
def desc (cmd width height srcLen dstLen palLen : Word) : Desc where
  cmd := cmd
  width := width
  height := height
  depth := 1
  blkdim := 0x844
  srcBase := 0x1000
  srcLen := srcLen
  dstBase := 0x2000
  dstLen := dstLen
  palBase := 0x800
  palLen := palLen

/-- Just after START, from reset, with descriptor `d` and memory `m`. -/
def started (d : Desc) (m : Memory) : State := startCommand { State.reset with reg := d, mem := m }

/-- STATUS, OUT_LEN, ERR_INFO and the bytes at the destination offsets `offs` after one step. -/
def seen (s : State) (offs : List Nat) : Option (Word × Word × Word × List Byte) :=
  match step s with
  | .next t => some (statusWord t, t.outLen, t.errInfo, offs.map fun o => t.mem.read (0x2000 + o))
  | _ => none

/-! ## Whole commands on small images, expected values from spec/95_test_vectors.md -/

/-- Program P4: block (2, 0) of a 3x2 grid stands at source offset 32 and comes out third. -/
theorem test_deswz :
    seen (started (desc 0x1 12 8 512 48 0) (place 0x1020 [0x1F] (place 0x1011 [0xFF] .empty))) [15, 16, 24, 25] =
      some (2, 48, 0, [0, 0x1F, 0, 0xFF]) := by decide +kernel

/-- Section 1.7: the document's end-to-end example. -/
theorem test_bc1 :
    seen (started (desc 0x412 4 4 8 64 0) (place 0x1000 [0, 0xF8, 0x1F] .empty)) [0, 1, 2, 3, 60, 61, 62, 63] =
      some (2, 64, 0, [255, 0, 0, 255, 255, 0, 0, 255]) := by decide +kernel

/-- V2.5.1, edge clipping: image row 1 starts at offset 20; the column of the second block is transparent black. -/
theorem test_bc1_clipped :
    seen (started (desc 0x412 5 3 16 60 0)
      (place 0x1000 [0, 0xF8, 0x1F, 0, 0xE4, 0xE4, 0xE4, 0xE4, 0x1F, 0, 0, 0xF8, 0xFF, 0xFF, 0xFF, 0xFF] .empty))
      [16, 17, 18, 19, 28, 29, 30, 31] = some (2, 60, 0, [0, 0, 0, 0, 0x9F, 0, 0x5F, 0xFF]) := by decide +kernel

/-- V2.5.5: punch-through black under the nibble alpha. -/
theorem test_bc2 :
    seen (started (desc 0x422 4 4 16 64 0)
      (place 0x1000 [255, 255, 255, 255, 0, 0, 0, 0, 0x1F, 0, 0, 0xF8, 255, 255, 255, 255] .empty))
      [28, 29, 30, 31, 32, 33, 34, 35] = some (2, 64, 0, [0, 0, 0, 0xFF, 0, 0, 0, 0]) := by decide +kernel

/-- V2.5.4: the last of 17 block rows at source offset 1024, its alpha from a BC3 scalar block. -/
theorem test_bc3_shrink :
    seen (started (desc 0x4032 4 68 2047 1088 0) .empty) [] = some (0x24, 0, 2048, []) ∧
      bcnBlockOffset 16 false 4 (desc 0x4032 4 68 2048 1088 0) 0 16 = 1024 ∧
      bcnBlockOffset 16 false 4 (desc 0x4032 4 68 2048 1088 0) 0 9 = 528 := by decide +kernel

/-- V2.5.6: only the R bytes are written. -/
theorem test_bc4u :
    seen (started (desc 0x442 2 2 8 16 0)
      (place 0x1000 [0x10, 0xF0, 0x53, 0x97, 0x0A] (place 0x2000 [0xEE, 0xEE] .empty))) [0, 1, 4, 8, 12] =
      some (2, 16, 0, [0x69, 0xEE, 0x3C, 0xF0, 0xC3]) := by decide +kernel

/-- V2.5.7. -/
theorem test_bc4s :
    seen (started (desc 0x642 2 2 8 16 0) (place 0x1000 [0x10, 0xF0, 0x53, 0x97, 0x0A] .empty)) [0, 4, 8, 12] =
      some (2, 16, 0, [0x06, 0x0B, 0xF0, 0xFE]) := by decide +kernel

/-- The block of V2.5.8. -/
def bc5Bytes : List Byte := [0, 0xFF, 0x88, 0xC6, 0xFA, 0x88, 0xC6, 0xFA, 0x80, 0x80, 0, 0, 0, 0xFF, 0xFF, 0xFF]

/-- V2.5.8, pixels 2 and 8. -/
theorem test_bc5u :
    seen (started (desc 0x452 4 4 16 64 0) (place 0x1000 bc5Bytes .empty)) [8, 9, 10, 11, 32, 33, 34, 35] =
      some (2, 64, 0, [0x33, 0x80, 0xFF, 0xFF, 0, 0xFF, 0xFF, 0xFF]) := by decide +kernel

/-- V2.5.8, pixels 1 and 9. -/
theorem test_bc5s :
    seen (started (desc 0x652 4 4 16 64 0) (place 0x1000 bc5Bytes .empty)) [4, 5, 6, 7, 36, 37, 38, 39] =
      some (2, 64, 0, [0xFF, 0x80, 0x7F, 0x7F, 0xFF, 0x7F, 0x7F, 0x7F]) := by decide +kernel

/-- V2.6.4: the high nibble first; texel (8, 0) is the first of the second macroblock. -/
theorem test_gxI4 :
    seen (started (desc 0x3 9 1 64 36 0) (place 0x1000 [0x12, 0, 0, 0x78, 0xFF] (place 0x1020 [0xA5] .empty)))
      [0, 4, 24, 31, 32, 35] = some (2, 36, 0, [0x11, 0x22, 0x77, 0x88, 0xAA, 0xAA]) := by decide +kernel

/-- V2.6.5: pixel (8, 4) is source byte 96, pixel (7, 3) byte 31. -/
theorem test_gxI8 :
    seen (started (desc 0x13 9 5 128 180 0) (place 0x1060 [0x5A] (place 0x101F [0xA5] .empty))) [136, 176, 179] =
      some (2, 180, 0, [0xA5, 0x5A, 0x5A]) := by decide +kernel

/-- V2.6.6. -/
theorem test_gxIa4 :
    seen (started (desc 0x23 3 1 32 12 0) (place 0x1000 [0xF0, 0x0F, 0xA5] .empty)) [0, 3, 4, 7, 8, 11] =
      some (2, 12, 0, [0, 0xFF, 0xFF, 0, 0x55, 0xAA]) := by decide +kernel

/-- R246: the alpha byte comes first. -/
theorem test_gxIa8 :
    seen (started (desc 0x33 1 1 32 4 0) (place 0x1000 [0x80, 0x40] .empty)) [0, 1, 2, 3] =
      some (2, 4, 0, [0x40, 0x40, 0x40, 0x80]) := by decide +kernel

/-- R247 and the example 0x1234 of R181, big-endian. -/
theorem test_gxRgb565 :
    seen (started (desc 0x43 1 1 32 4 0) (place 0x1000 [0x12, 0x34] .empty)) [0, 1, 2, 3] =
      some (2, 4, 0, [16, 69, 165, 255]) := by decide +kernel

/-- V2.6.7. -/
theorem test_gxRgb5a3 :
    seen (started (desc 0x53 4 1 32 16 0) (place 0x1000 [0x10, 0xF0, 0x20, 0x0F, 0x4A, 0xBC, 0xC2, 0x10] .empty))
      [1, 3, 8, 9, 10, 11, 12, 15] = some (2, 16, 0, [0xFF, 0x24, 0xAA, 0xBB, 0xCC, 0x92, 0x84, 0xFF]) := by
  decide +kernel

/-- Program P8: the AR plane, then the GB plane. -/
theorem test_gxRgba8 :
    seen (started (desc 0x63 3 2 64 24 0) (place 0x1000 ((List.range 64).map (BitVec.ofNat 8)) .empty))
      [0, 1, 2, 3, 20, 21, 22, 23] = some (2, 24, 0, [1, 0x20, 0x21, 0, 0xD, 0x2C, 0x2D, 0xC]) := by decide +kernel

/-- V2.6.2: the upper left sub-block's row 0, and pixel (4, 4) from the lower right one. -/
theorem test_gxCmpr :
    seen (started (desc 0xE3 5 5 32 100 0)
      (place 0x1000 [0xF8, 0, 0, 0x1F, 0x1B, 0x1B, 0x1B, 0x1B]
        (place 0x1018 [0x12, 0x34, 0x12, 0x34, 0xE4, 0xE4, 0xE4, 0xE4] .empty))) [8, 10, 96, 97, 98, 99] =
      some (2, 100, 0, [0x9F, 0x5F, 0x10, 0x45, 0xA5, 0]) := by decide +kernel

/-- V2.6.9 with a palette of two entries. -/
theorem test_gxC4 :
    seen (started (desc 0x83 2 1 32 8 4) (place 0x1000 [0x01] (place 0x800 [0xFF, 0, 0x80, 0x40] .empty)))
      [0, 3, 4, 7] = some (2, 8, 0, [0, 0xFF, 0x40, 0x80]) := by decide +kernel

/-- Program P5 with a palette of two entries. -/
theorem test_gxC8 :
    seen (started (desc 0x20093 2 1 32 8 4) (place 0x1000 [0x01] (place 0x800 [0xFF, 0, 0x80, 0x40] .empty)))
      [0, 1, 4, 5, 6, 7] = some (2, 8, 0, [0, 0x10, 0xFF, 0xC6, 0, 0xFF]) := by decide +kernel

/-- V2.6.9: the top two bits of the texel are no part of the index. -/
theorem test_gxC14x2 :
    seen (started (desc 0x100A3 1 1 32 4 4) (place 0x1000 [0xC0, 0x01] (place 0x800 [0xFF, 0, 0x80, 0x40] .empty)))
      [0, 1, 2, 3] = some (2, 4, 0, [0x84, 0x08, 0, 0xFF]) := by decide +kernel

/-- V2.6.10: every index out of range of an empty palette, and the command completes all the same. -/
theorem test_gxC8_empty_palette :
    seen (started (desc 0x93 2 1 32 8 0) .empty) [] = some (2, 8, 0, []) := by decide +kernel

/-- Section 2.7: an odd last byte is ignored. -/
theorem test_palIa8 :
    seen (started (desc 0x4 0 0 0 8 5) (place 0x800 [0x80, 0, 0x7F, 0xFF] .empty)) [0, 3, 4, 7] =
      some (2, 8, 0, [0, 0x80, 0xFF, 0x7F]) := by decide +kernel

/-- Section 2.7. -/
theorem test_palRgb565 :
    seen (started (desc 0x14 0 0 0 8 5) (place 0x800 [0x80, 0, 0x7F, 0xFF] .empty)) [0, 1, 4, 7] =
      some (2, 8, 0, [0x84, 0, 0x7B, 0xFF]) := by decide +kernel

/-- Section 2.7. -/
theorem test_palRgb5a3 :
    seen (started (desc 0x24 0 0 0 8 5) (place 0x800 [0x80, 0, 0x7F, 0xFF] .empty)) [0, 3, 4, 7] =
      some (2, 8, 0, [0, 0xFF, 0xFF, 0xFF]) := by decide +kernel

/-! ## Errors, resets, register port: values from spec/95_test_vectors.md sections 2.9 and 3 -/

/-- Rows E1, E2 and E9. -/
theorem test_errors :
    seen (started (desc 0 0 0 0 0 0) .empty) [] = some (0x14, 0, 0, []) ∧
    seen (started (desc 0x412 0 4 3 0 0) .empty) [] = some (0x34, 0, 0, []) ∧
    seen (started (desc 0x12 4 4 8 0 0) .empty) [] = some (0x24, 0, 512, []) := by decide +kernel

/-- Rows E10 to E12. -/
theorem test_destination_errors :
    seen (started (desc 0x12 4 4 512 0 0) .empty) [] = some (0x44, 0, 64, []) ∧
    seen (started (desc 0x12 4 4 512 63 0) .empty) [] = some (0x44, 0, 64, []) ∧
    seen (started (desc 0x12 4 4 512 64 0) .empty) [] = some (2, 64, 0, []) := by decide +kernel

/-- Rows E5 to E7. -/
theorem test_window_errors :
    let d := desc 0x412 4 4 8 64 0
    seen (started { d with srcBase := 0xFFFFFFFC } .empty) [] = some (0x54, 0, 0, []) ∧
    seen (started { d with srcBase := 0x100, dstBase := 0x107 } .empty) [] = some (0x54, 0, 0, []) ∧
    seen (started { d with srcBase := 0x100, dstBase := 0x108 } .empty) [] = some (2, 64, 0, []) := by decide +kernel

/-- Row E14: sizes are exact, ERR_INFO saturates. -/
theorem test_size_saturates :
    seen (started { desc 0x4032 65535 65535 0xFFFFFFFF 0 0 with depth := 65535, srcBase := 0 } .empty) [] =
      some (0x24, 0, 0xFFFFFFFF, []) := by decide +kernel

/-- BLKDIM values of section 2.8, refused and legal. -/
theorem test_blkdim :
    [0x0, 0x842, 0x834, 0x244, 0x2844, 0xCCC].all
        (fun b => !Desc.blkdimLegal { desc 1 4 4 512 64 0 with blkdim := b }) = true ∧
      [0x1044, 0x10CC, 0x844].all (fun b => Desc.blkdimLegal { desc 1 4 4 512 64 0 with blkdim := b }) = true := by
  decide +kernel

/-- Addresses of section 2.3. -/
theorem test_blockAddress :
    blockAddress 7 13 10 16 4 0 = 2992 ∧ blockAddress 15 255 16 16 32 0 = 65520 ∧ blockAddress 63 0 64 1 1 0 = 303 ∧
      blockAddress 2 17 3 4 16 0 = 1048 ∧ blockAddress 16383 0 16384 16 1 0 = 2096928 := by decide +kernel

/-- Program P1: the interrupt line, STATUS written, OUT_LEN kept. -/
theorem test_irq :
    let s := { State.reset with done := true, doneIe := true, outLen := 0x40 }
    s.irq = true ∧ readReg s .status = 2 ∧ readReg (hostTurn (.regWrite 4 4 6) s) .status = 0 ∧
      (hostTurn (.regWrite 4 4 6) s).irq = false ∧ readReg (hostTurn (.regWrite 4 4 6) s) .outLen = 0x40 := by decide

/-- Program P7: writes to WIDTH and CTRL while BUSY are dropped. -/
theorem test_dropped_writes :
    let s := started (desc 0x442 2 2 8 16 0) .empty
    readReg (hostTurn (.regWrite 0 4 1) (hostTurn (.regWrite 0x10 4 4) s)) .width = 2 ∧
      (hostTurn (.regWrite 0 4 1) s).d.width = 2 := by decide +kernel

/-- A word placed for the next step runs in it: E_DIM from the reset descriptor, done at once for PAL (R345, E22). -/
theorem test_withFetchWord :
    seen (State.reset.withFetchWord 32 0x53) [] = some (0x34, 0, 0, []) ∧
      seen (State.reset.withFetchWord 32 0x14) [] = some (2, 0, 0, []) := by decide +kernel

/-- Program P4 re-swizzled into empty memory: both bytes back at their source offsets, the padding left alone (R161). -/
theorem test_reswizzle :
    (match step (started (desc 0x1 12 8 512 48 0) (place 0x1020 [0x1F] (place 0x1011 [0xFF] .empty))) with
    | .next t =>
      match reswizzle 0 t.d t.mem 0 (place 0x1FF [7] .empty) with
      | .ok m => [0x20, 0x11, 0x10, 0x1FF].map m.read
      | .error _ => []
    | _ => []) = [0x1F, 0xFF, 0, 7] := by decide +kernel

/-- While reset is asserted a write of WIDTH and a START are dropped; after the release both act (R360). -/
theorem test_reset_level :
    let s := hostTurn (.reset true) State.reset
    let u := hostTurn (.reset false) (hostTurn (opWr .ctrl 1) (hostTurn (opWr .width 4) s))
    readReg (hostTurn (opWr .width 4) s) .width = 0 ∧ u.busy = false ∧
      readReg (hostTurn (opWr .width 4) u) .width = 4 ∧ (hostTurn (opWr .ctrl 1) u).busy = true := by decide +kernel

/-- A command that ended stays on record until the host reads STATUS, or finds `irq` up (R71, R366). -/
theorem test_observation :
    let s := { State.reset with done := true, ended := [⟨Desc.zero, 0, .empty⟩] }
    (hostTurn (opRd .outLen) s).ended.length = 1 ∧ (hostTurn .irqRead s).ended.length = 1 ∧
      (hostTurn (opRd .status) s).ended = [] ∧ (hostTurn .irqRead { s with doneIe := true }).ended = [] := by decide

/-! ## Witnesses: states -/

/-- DESWZ and the BCn commands, with the operand fields at the ends of their ranges. -/
def blockSamples : List Instr :=
  [.deswz 0, .deswz 5, .bc1 false false 0, .bc1 true false 5, .bc1 false true 0, .bc2 false false 5, .bc2 true true 0,
    .bc3 false false 0, .bc3 true true 0, .bc4u false false 5, .bc4u true true 0, .bc4s false 5, .bc4s true 0,
    .bc5u false false 0, .bc5u true true 0, .bc5s false 5, .bc5s true 0]

/-- The GX and PAL commands. -/
def texelSamples : List Instr :=
  [.gxI4, .gxI8, .gxIa4, .gxIa8, .gxRgb565, .gxRgb5a3, .gxRgba8, .gxC4 .ia8, .gxC4 .rgb5a3, .gxC8 .ia8, .gxC8 .rgb5a3,
    .gxC14x2 .ia8, .gxC14x2 .rgb565, .gxCmpr, .palIa8, .palRgb565, .palRgb5a3]

/-- Every constructor. -/
def samples : List Instr := blockSamples ++ texelSamples

/-- A legal source length for a 4 x 4 image. -/
def sourceBytes (i : Instr) : Word :=
  match groupOf i with
  | .bcn => if linearSource i then BitVec.ofNat 32 (blockBytes i) else 512
  | .deswz => 512
  | _ => 64

/-- A descriptor of `i` on one 4 x 4 image that the checks accept. -/
def small (i : Instr) : Desc :=
  { desc (encode i) 4 4 (sourceBytes i) 64 4 with dstLen := if i = .deswz 0 ∨ i = .deswz 5 then 8 else 64 }

/-- A few bytes in the source window and in the palette window. -/
def bytes : Memory := place 0x1000 [0x10, 0xF0, 0x53, 0x97, 0x0A, 0, 0, 1] (place 0x800 [0xFF, 0, 0x80, 0x40] .empty)

theorem bytes_wf : bytes.wf = true := by decide +kernel

/-- The command `i` on `small i`, just after START. -/
def fresh (i : Instr) : State := started (small i) bytes

theorem started_fresh (d : Desc) {m : Memory} (h : m.wf = true) : Fresh (started d m) :=
  ⟨rfl, rfl, rfl, rfl, rfl, rfl, rfl, h⟩

theorem started_inv (d : Desc) {m : Memory} (h : m.wf = true) : (started d m).Inv where
  mem := h
  old := h
  busy_done := by simp [started, startCommand]
  busy_err := by simp [started, startCommand]
  done_err := by simp [started, startCommand]
  errcode := rfl
  shadow := fun _ => rfl
  results := fun _ => ⟨rfl, rfl⟩
  engine := fun _ => .inl ⟨rfl, rfl, rfl, rfl⟩
  ended := by simp [started, startCommand, State.reset]
  asserted := by simp [started, startCommand, State.reset]

theorem samples_validate : ∀ i ∈ samples, validate (commandOf i) (small i) = .ok () := by decide +kernel

theorem samples_decode : ∀ i ∈ samples, i.wellFormed = true ∧ decode (encode i) = .ok i := by decide +kernel

/-- Every sample is accepted. -/
theorem small_accepted {i : Instr} (h : i ∈ samples) : Accepted i (small i) :=
  (validate_ok_iff i _).1 (samples_validate i h)

theorem small_cmd (i : Instr) : (small i).cmd = encode i := rfl

/-- The command `i` at the first unit of `small i`. -/
def walking (i : Instr) : State :=
  { fresh i with phase := .walk, scr := { (fresh i).scr with palN := 2 } }

theorem samples_units : ∀ i ∈ samples, 0 < unitCols i (small i) ∧ 0 < unitRows i (small i) := by decide +kernel

theorem walking_inv {i : Instr} (h : i ∈ samples) : (walking i).Inv :=
  { started_inv (small i) bytes_wf with
    engine := fun _ => .inr ⟨i, (samples_decode i h).2, small_accepted h,
      (samples_units i h).1, (samples_units i h).2, by
        show 0 = (0 * unitCols i (small i) + 0) * cursorStep i
        rw [Nat.zero_mul, Nat.zero_mul], fun _ => by
        show 2 = min ((4#32).toNat / 2) 16384
        decide⟩ }

/-- A paletted command before its palette fill. -/
def filling (i : Instr) : State := { fresh i with phase := .fill }

theorem filling_inv {i : Instr} (h : i ∈ samples) (hg : groupOf i = .gxPaletted) : (filling i).Inv :=
  { started_inv (small i) bytes_wf with
    engine := fun _ => .inr ⟨i, (samples_decode i h).2, small_accepted h, rfl, rfl, rfl, hg⟩ }

/-- An outcome is a next state with the given property. -/
def nextHas (o : Host.Outcome State Fault Refusal) (p : State → Bool) : Bool :=
  match o with
  | .next t => p t
  | _ => false

theorem nextHas_elim {o : Host.Outcome State Fault Refusal} {p : State → Bool} (h : nextHas o p = true) :
    ∃ t, o = .next t ∧ p t = true := by
  cases o with
  | next t => exact ⟨t, rfl, h⟩
  | fault _ => cases h
  | refused _ => cases h

/-! ## Witnesses: encodings, readers, ramps, geometry -/

theorem witness_EncodeThenDecode : ∀ i ∈ samples, i.wellFormed = true := fun i h => (samples_decode i h).1

theorem witness_DecodeThenEncode : ∀ i ∈ samples, decode (encode i) = .ok i := fun i h => (samples_decode i h).2

theorem witness_DecodeFollowsTheTable :
    decode 0x00004132#32 = .ok (.bc3 true false 4) ∧
      0x00004132#32 &&& (tableRow (.bc3 true false 4)).2 = (tableRow (.bc3 true false 4)).1 ∧
      0x00004132#32 &&& (tableRow (.bc3 false false 0)).2 = (tableRow (.bc3 false false 0)).1 := by decide

/-- A command of each item (1) to (8) of R101 that is refused, and two at the edge that are not. -/
theorem witness_RefusedDescriptorsAreR101 :
    (∀ d m, (started d m).busy = true ∧ (started d m).phase = .check ∧ (started d m).slice ≠ some 0) ∧
    (∀ d, (started d bytes).Inv) ∧
    RefusedDescriptor (desc 0x0 4 4 8 64 0) ∧ RefusedDescriptor (desc 0x5 4 4 8 64 0) ∧
    RefusedDescriptor (desc 0x812 4 4 8 64 0) ∧ RefusedDescriptor (desc 0x40012 4 4 8 64 0) ∧
    RefusedDescriptor (desc 0x62 4 4 8 64 0) ∧ RefusedDescriptor (desc 0x73 4 4 8 64 0) ∧
    RefusedDescriptor (desc 0x1412 4 4 8 64 0) ∧ RefusedDescriptor (desc 0x212 4 4 8 64 0) ∧
    RefusedDescriptor (desc 0x6001 4 4 8 64 0) ∧ RefusedDescriptor (desc 0x30093 4 4 8 64 0) ∧
    RefusedDescriptor { desc 1 4 4 8 64 0 with blkdim := 0x2844 } ∧
    ¬ RefusedDescriptor (desc 0x5001 4 4 8 64 0) ∧ ¬ RefusedDescriptor (desc 0x512 4 4 8 64 0) ∧
    ¬ RefusedDescriptor (desc 0x20093 4 4 8 64 0) ∧ ¬ RefusedDescriptor (desc 0x24 4 4 8 64 0) := by
  refine ⟨fun _ _ => ⟨rfl, rfl, by simp [started, startCommand, State.reset]⟩,
    fun d => started_inv d bytes_wf, ?_, ?_, ?_, ?_, ?_, ?_, ?_, ?_, ?_, ?_, ?_,
    ?_, ?_, ?_, ?_⟩ <;> simp [RefusedDescriptor, RefusedWord, BlkdimLegal, field, desc]

/-- A window that ends at the top of memory, each read length at the window's last offset and one beyond. -/
theorem witness_ReadersAssembleBytes :
    Fits ⟨2 ^ 32 - 4, 4⟩ ∧ 3 + 1 ≤ 4 ∧ 2 + 2 ≤ 4 ∧ 1 + 3 ≤ 4 ∧ 0 + 4 ≤ 4 ∧ 4 < 4 + 1 ∧ 4 < 3 + 2 ∧ 4 < 2 + 3 ∧ 4 < 1 + 4 := by
  unfold Fits; decide

theorem witness_ExpandBitsReplicates :
    (4 ≤ 4 ∧ 4 ≤ 8 ∧ 15 < 2 ^ 4) ∧ (4 ≤ 8 ∧ 8 ≤ 8 ∧ 255 < 2 ^ 8) ∧ 7 < 8 ∧ 3 ≤ 3 ∧ 3 ≤ 8 ∧ 8 ≤ 8 := by decide

theorem witness_Rgb5a3DecodeFields : 2 ^ 15 ≤ (0x8000#16).toNat ∧ (0x7FFF#16).toNat < 2 ^ 15 := by decide

theorem witness_ColourRampShape :
    (colorRampBc 1 0 = colorRampBc 1 0 ∧ (0#16).toNat < (1#16).toNat) ∧
      colorRampCmpr 0x1234 0x1234 = colorRampCmpr 0x1234 0x1234 ∧ (0x1234#16).toNat ≤ (0x1234#16).toNat := by decide

theorem witness_UnsignedScalarRamp : (127#8).toNat < (128#8).toNat ∧ (5#8).toNat ≤ (5#8).toNat ∧ 5 < 6 ∧ 3 < 4 := by decide

theorem witness_SignedScalarRamp : (0x80#8).toInt < (0x7F#8).toInt ∧ (0x80#8).toInt ≤ (0x80#8).toInt ∧ 5 < 6 ∧ 3 < 4 := by
  decide

theorem witness_ScalarRampMonotone :
    endpointValue .signed 0x80 < endpointValue .signed 0x7F ∧ endpointValue .unsigned 255 ≤ endpointValue .unsigned 255 ∧
      4 < 5 ∧ 2 < 3 := by decide

theorem witness_PixelIndexFields : 15 < 16 ∧ 7 < 8 ∧ 3 < 4 := by decide

theorem witness_BlockHeightClosedForm : 1 ≤ 1 := by decide

theorem witness_NextPow2IsLeast : 1 ≤ 1 ∧ 1 ≤ 2 ^ 0 := by decide

/-- One block, and the two opposite corners of a 5 x 9 surface of the largest blocks, first and last byte. -/
theorem witness_SurfaceHoldsBlocksApart :
    (1 ≤ 1 ∧ 1 ∈ [1, 4, 8, 16] ∧ 0 < 1) ∧ 1 ≤ 5 ∧ 1 ≤ 9 ∧ 16 ∈ [1, 4, 8, 16] ∧ 1 ≤ 2 ∧ 4 < 5 ∧ 8 < 9 ∧ 0 < 5 ∧ 0 < 9 ∧
      ((4, 8) : Nat × Nat) ≠ (0, 0) ∧ 0 < 1 ∧ 0 < 16 ∧ 15 < 16 := by decide

/-! ## Witnesses: the register port, reset, host accesses -/

theorem witness_AccessesOutsideTheMap :
    0x40 ≤ 0x40 ∧ (2 ≠ 4 ∧ 8 ≠ 4) ∧ 0x3E % 4 ≠ 0 := by decide

/-- A command that ended with an error, and its invariant. -/
theorem failed_inv : ({ State.reset with err := true, errcode := 5 } : State).Inv where
  mem := rfl
  old := rfl
  busy_done := by simp [State.reset]
  busy_err := by simp [State.reset]
  done_err := by simp [State.reset]
  errcode := by decide
  shadow := by simp [State.reset]
  results := by simp [State.reset]
  engine := by simp [State.reset]
  ended := by simp [State.reset]
  asserted := by simp [State.reset]

theorem reset_inv : State.reset.Inv where
  mem := rfl
  old := rfl
  busy_done := by simp [State.reset]
  busy_err := by simp [State.reset]
  done_err := by simp [State.reset]
  errcode := by simp [State.reset]
  shadow := by simp [State.reset]
  results := by simp [State.reset]
  engine := by simp [State.reset]
  ended := by simp [State.reset]
  asserted := by simp [State.reset]

/-- Reset asserted right after reset. -/
def held : State := hostTurn (.reset true) State.reset

theorem held_inv : held.Inv where
  mem := rfl
  old := rfl
  busy_done := by simp [held, hostTurn, resetInput]
  busy_err := by simp [held, hostTurn, resetInput]
  done_err := by simp [held, hostTurn, resetInput]
  errcode := rfl
  shadow := by simp [held, hostTurn, resetInput]
  results := by simp [held, hostTurn, resetInput]
  engine := by simp [held, hostTurn, resetInput]
  ended := by simp [held, hostTurn, resetInput, State.reset]
  asserted := fun _ => ⟨rfl, fun r => by cases r <;> rfl⟩

/-- A command `i` on `small i` that has ended with DONE, the host not having looked since. -/
def unobserved (i : Instr) : State :=
  { State.reset with done := true, mem := bytes, ended := [⟨small i, 64, bytes⟩] }

theorem unobserved_inv (i : Instr) : (unobserved i).Inv :=
  { reset_inv with
    mem := bytes_wf
    busy_done := by simp [unobserved, State.reset]
    done_err := by simp [unobserved, State.reset]
    shadow := by simp [unobserved, State.reset]
    engine := by simp [unobserved, State.reset]
    ended := by
      simp only [unobserved, List.mem_singleton, forall_eq]
      exact ⟨bytes_wf, show 0x2000 + 64 ≤ 2 ^ 32 by decide⟩
    asserted := by simp [unobserved, State.reset] }

theorem witness_StatusRegister : State.reset.Inv ∧ State.reset.err = false ∧ (fresh .gxI8).Inv ∧ (fresh .gxI8).busy = true ∧
    ({ State.reset with err := true, errcode := 5 } : State).Inv ∧ held.Inv ∧ held.inReset = true :=
  ⟨reset_inv, rfl, started_inv _ bytes_wf, rfl, failed_inv, held_inv, rfl⟩

theorem witness_IrqEnRegister : (fresh .gxI8).busy = true ∧ (fresh .gxI8).inReset = false ∧ held.inReset = true :=
  ⟨rfl, rfl, rfl⟩

theorem witness_StartIsOneStep :
    (1#32).getLsbD 0 = true ∧ State.reset.busy = false ∧ State.reset.inReset = false ∧ (fresh .gxI8).busy = true ∧
      held.inReset = true ∧ (0xFFFFFFFE#32).getLsbD 0 = false :=
  ⟨rfl, rfl, rfl, rfl, rfl, by decide⟩

theorem witness_InterruptLineFollowsFlags :
    State.reset.Inv ∧ State.reset.err = false ∧ State.reset.done = false ∧ State.reset.busy = false ∧
      ((unobserved .gxI8).Inv ∧ (unobserved .gxI8).done = true) ∧
      ({ State.reset with err := true, errcode := 5 } : State).Inv ∧
      ({ State.reset with err := true, errcode := 5 } : State).err = true :=
  ⟨reset_inv, rfl, rfl, rfl, ⟨unobserved_inv _, rfl⟩, failed_inv, rfl⟩

theorem witness_ResetClearsRegisters :
    State.reset.busy = false ∧ State.reset.Inv ∧ held.Inv ∧ held.inReset = true ∧ HostOp.reset true ≠ .reset false :=
  ⟨rfl, reset_inv, held_inv, rfl, by decide⟩

/-- DST_LEN one byte short of the output of a 4 x 4 image. -/
def shortDesc : Desc := { small .gxI8 with dstLen := 63 }

theorem short_refused : ¬ Accepted .gxI8 shortDesc := fun h => by
  have := (validate_ok_iff .gxI8 shortDesc).2 h
  rw [show validate (commandOf .gxI8) shortDesc = .error (.dst, 64) from by decide +kernel] at this
  cases this

/-- Accepted commands at their start and in their walk, one whose destination is a byte short, and a CMD word that is no
command. -/
theorem witness_ResetDuringCommand :
    (∀ i ∈ samples, (fresh i).Inv ∧ (fresh i).busy = true ∧ decode (fresh i).d.cmd = .ok i ∧ Accepted i (fresh i).d ∧
      (walking i).Inv ∧ (walking i).busy = true ∧ Accepted i (walking i).d) ∧
    ((started shortDesc bytes).Inv ∧ (started shortDesc bytes).busy = true ∧
      decode (started shortDesc bytes).d.cmd = .ok .gxI8 ∧ ¬ Accepted .gxI8 (started shortDesc bytes).d) ∧
    (started Desc.zero bytes).Inv ∧ (started Desc.zero bytes).busy = true ∧
      ∀ i, decode (started Desc.zero bytes).d.cmd ≠ .ok i :=
  ⟨fun i h => ⟨started_inv _ bytes_wf, rfl, (samples_decode i h).2, small_accepted h, walking_inv h, rfl, small_accepted h⟩,
    ⟨started_inv _ bytes_wf, rfl, rfl, short_refused⟩, started_inv _ bytes_wf, rfl,
    fun i => by rw [show decode (started Desc.zero bytes).d.cmd = .error .reservedOp from rfl]; exact nofun⟩

/-- The windows of `small` for a paletted command: first and last bytes, and the bytes just beside. -/
theorem small_windows :
    (∀ a ∈ [0x2000, 0x203F], ReadBreaks (small (.gxC8 .ia8)) a ∧ WriteBreaks (small (.gxC8 .ia8)) a) ∧
    (∀ a ∈ [0x1000, 0x103F, 0x800, 0x803],
      ¬ ReadBreaks (small (.gxC8 .ia8)) a ∧ WriteBreaks (small (.gxC8 .ia8)) a) ∧
    ∀ a ∈ [0x1FFF, 0x2040, 0xFFF, 0x1040, 0x7FF, 0x804],
      ¬ ReadBreaks (small (.gxC8 .ia8)) a ∧ ¬ WriteBreaks (small (.gxC8 .ia8)) a := by
  simp only [← inDst_iff, ← inWindows_iff]
  decide +kernel

/-- A running command, an idle machine, a running command that the checks refuse, and a command whose end the host has not
observed; the first and the last byte of each window, and the bytes just beside (small_windows). -/
theorem witness_HostMemoryAccesses :
    ((walking (.gxC8 .ia8)).Inv ∧ (walking (.gxC8 .ia8)).ended = [] ∧ (walking (.gxC8 .ia8)).busy = true ∧
      decode (walking (.gxC8 .ia8)).d.cmd = .ok (.gxC8 .ia8) ∧ Accepted (.gxC8 .ia8) (walking (.gxC8 .ia8)).d ∧
      ReadBreaks (walking (.gxC8 .ia8)).d 0x203F) ∧
    (State.reset.Inv ∧ State.reset.ended = [] ∧ State.reset.busy = false) ∧
    ((started shortDesc bytes).Inv ∧ (started shortDesc bytes).ended = [] ∧ (started shortDesc bytes).busy = true ∧
      decode (started shortDesc bytes).d.cmd = .ok .gxI8 ∧ ReadBreaks (started shortDesc bytes).d 0x203E ∧
      ¬ Accepted .gxI8 (started shortDesc bytes).d) ∧
    (unobserved (.gxC8 .ia8)).Inv ∧ ∀ e ∈ (unobserved (.gxC8 .ia8)).ended, ¬ WriteBreaks e.d 0x2040 ∧ ¬ ReadBreaks e.d 0x1000 :=
  ⟨⟨walking_inv (by decide), rfl, rfl, rfl, small_accepted (by decide), (small_windows.1 _ (by decide)).1⟩,
    ⟨reset_inv, rfl, rfl⟩,
    ⟨started_inv _ bytes_wf, rfl, rfl, rfl, (inDst_iff _ _).1 (by decide +kernel), short_refused⟩,
    unobserved_inv _, by
      simp only [unobserved, List.mem_singleton, forall_eq]
      exact ⟨(small_windows.2.2 _ (by decide)).2, (small_windows.2.1 _ (by decide)).1⟩⟩

/-- Three commands: GX.C8 ended first and wrote 0x1FD0 to 0x200F, GX.I8 then wrote 0x1F98 to 0x1FD7, both unobserved, and
GX.I8 now writes 0x2000 to 0x203F. -/
def overlapping : State :=
  { walking .gxI8 with
    ended := [⟨{ small .gxI8 with dstBase := 0x1F98 }, 64, bytes⟩, ⟨{ small (.gxC8 .ia8) with dstBase := 0x1FD0 }, 64, bytes⟩] }

theorem overlapping_inv : overlapping.Inv :=
  { walking_inv (i := .gxI8) (by decide) with
    engine := fun hb => ((walking_inv (i := .gxI8) (by decide)).engine hb).imp id fun ⟨j, h1, h2, h3⟩ => ⟨j, h1, h2, h3⟩
    ended := by
      simp only [overlapping, List.mem_cons, List.not_mem_nil, or_false, forall_eq_or_imp, forall_eq]
      exact ⟨⟨bytes_wf, by decide⟩, bytes_wf, by decide⟩
    asserted := nofun }

/-- A host access at 0x1FE0 breaks the duty to the first command only: it frees what neither of the later two writes. -/
theorem overlapping_frees :
    (∀ x ∈ [0x1FD8, 0x1FFF], Frees (fun e => ReadBreaks e.d 0x1FE0) overlapping.ended x ∧ ¬ RunningWrites overlapping x) ∧
    (∀ x ∈ [0x2000, 0x200F], Frees (fun e => ReadBreaks e.d 0x1FE0) overlapping.ended x ∧ RunningWrites overlapping x) ∧
    ∀ x ∈ [0x1FCF, 0x1FD0, 0x1FD7, 0x2010], ¬ Frees (fun e => ReadBreaks e.d 0x1FE0) overlapping.ended x := by
  simp only [← freedByte_isSome (fun e => inDst_iff e.d 0x1FE0) 0, ← runningWrites_iff]
  decide +kernel

/-- The access does not touch the running command, and finds its first pixels written (spec/20_memory.md R70,
spec/46_dispatch.md R315, spec/44_gx_tiled.md R244); that no byte of them is freed, overlapping_frees says. -/
theorem test_brokenDuty_keepsRunningOutput :
    (hostTurn (.memRead 0x1FE0) overlapping).touched = false ∧
      (hostTurn (.memRead 0x1FE0) overlapping).phase = .finish ∧
      [0x2003, 0x2004, 0x2008, 0x200C].map (walkToEnd overlapping).mem.read = [0x10, 0xF0, 0x53, 0x97] := by
  decide +kernel

/-- Running commands whose duties are broken; and accesses that break the duty to an unobserved command: with no command
running, at the last byte of its destination and of its palette window; and beside a running one (overlapping_frees), in
whose destination window the access lies too, or not. -/
theorem witness_BrokenDutyLeavesFreeBytes :
    (∀ i ∈ samples,
      let s : State := { walking i with touched := true }
      s.Inv ∧ s.busy = true ∧ s.touched = true ∧ s.slice = none ∧ decode s.d.cmd = .ok i ∧ Accepted i s.d) ∧
    ((unobserved (.gxC8 .ia8)).Inv ∧
      ∃ e ∈ (unobserved (.gxC8 .ia8)).ended, ReadBreaks e.d 0x203F ∧ WriteBreaks e.d 0x203F ∧ WriteBreaks e.d 0x803) ∧
    overlapping.Inv ∧ Runs .gxI8 overlapping ∧ overlapping.touched = false ∧
    (∃ e ∈ overlapping.ended, ReadBreaks e.d 0x1FE0 ∧ WriteBreaks e.d 0x1FE0) ∧ ¬ ReadBreaks overlapping.d 0x1FE0 ∧
    (∃ e ∈ overlapping.ended, ReadBreaks e.d 0x2000) ∧ ReadBreaks overlapping.d 0x2000 := by
  refine ⟨fun i h => ⟨{ walking_inv h with
      engine := fun hb => ((walking_inv h).engine hb).imp id fun ⟨j, h1, h2, h3⟩ => ⟨j, h1, h2, h3⟩
      asserted := nofun },
    rfl, rfl, rfl, (samples_decode i h).2, small_accepted h⟩,
    ⟨unobserved_inv _, _, List.mem_singleton.2 rfl, (small_windows.1 _ (by decide)).1,
      (small_windows.1 _ (by decide)).2, (small_windows.2.1 _ (by decide)).2⟩,
    overlapping_inv, ⟨rfl, rfl, small_accepted (by decide)⟩, rfl, ?_⟩
  simp only [← inDst_iff, ← inWindows_iff]
  decide +kernel

/-! ## Witnesses: checks and errors -/

/-- One descriptor for each check that fails first. -/
theorem witness_FirstFailingCheckDecides :
    (∀ d m, (started d m).busy = true ∧ (started d m).phase = .check ∧ (started d m).slice = none) ∧
    (∀ i, decode 0#32 ≠ .ok i) ∧
    decode (small .gxI8).cmd = .ok .gxI8 ∧
    decode (small (.deswz 0)).cmd = .ok (.deswz 0) ∧
    (let d := { small (.deswz 0) with blkdim := 0x842 }; ¬ Supported (.deswz 0) d) ∧
    (let d := { small .gxI8 with width := 0 }; Supported .gxI8 d ∧ ¬ DimsLegal .gxI8 d) ∧
    (let d := { small .gxI8 with dstBase := 0xFC1 };
      Supported .gxI8 d ∧ DimsLegal .gxI8 d ∧ ¬ WindowsLegal .gxI8 d) ∧
    (let d := { small .gxI8 with srcLen := 31 };
      Supported .gxI8 d ∧ DimsLegal .gxI8 d ∧ WindowsLegal .gxI8 d ∧ ¬ SourceFits .gxI8 d) ∧
    (let d := shortDesc;
      Supported .gxI8 d ∧ DimsLegal .gxI8 d ∧ WindowsLegal .gxI8 d ∧ SourceFits .gxI8 d ∧ ¬ OutputFits .gxI8 d) := by
  refine ⟨fun _ _ => ⟨rfl, rfl, rfl⟩, nofun, rfl, rfl, ?_, ?_, ?_, ?_, ?_⟩ <;>
    simp only [← unsup_iff, ← dimsBad_iff, ← windowsBad_iff, ← sizeBad_iff, OutputFits] <;> decide +kernel

theorem witness_ErrorUpdatesOnlyStatus :
    (started shortDesc bytes).Inv ∧ (started shortDesc bytes).busy = true ∧ (started shortDesc bytes).slice = none ∧
      ∃ t, engineTurn (started shortDesc bytes) = .next t ∧ t.err = true :=
  ⟨started_inv _ bytes_wf, rfl, rfl, nextHas_elim (p := State.err) (by decide +kernel)⟩

/-- Two idle machines with one descriptor and different memories. -/
theorem witness_SameDescriptorSameError :
    let s : State := { State.reset with reg := shortDesc }
    let u : State := { State.reset with reg := shortDesc, mem := bytes }
    s.Inv ∧ u.Inv ∧ s.busy = false ∧ u.busy = false ∧ s.slice = none ∧ u.slice = none ∧ u.reg = s.reg ∧
      ∃ t, engineTurn (startCommand s) = .next t ∧ t.err = true :=
  ⟨{ reset_inv with
      shadow := by simp [State.reset], engine := by simp [State.reset], asserted := by simp [State.reset] },
    { reset_inv with
      mem := bytes_wf, shadow := by simp [State.reset], engine := by simp [State.reset]
      asserted := by simp [State.reset] },
    rfl, rfl, rfl, rfl, rfl, nextHas_elim (p := State.err) (by decide +kernel)⟩

/-! ## Witnesses: runs -/

theorem witness_EveryCommandEnds :
    (∀ i ∈ samples, (walking i).Inv ∧ (walking i).busy = true ∧ (walking i).slice = none) ∧
      (started shortDesc bytes).Inv ∧ (started shortDesc bytes).busy = true ∧ (started shortDesc bytes).slice = none :=
  ⟨fun _ h => ⟨walking_inv h, rfl, rfl⟩, started_inv _ bytes_wf, rfl, rfl⟩

theorem witness_SmallStepsMakeTheBigStep : ∀ i ∈ samples, (walking i).Inv ∧ (walking i).busy = true :=
  fun _ h => ⟨walking_inv h, rfl⟩

/-- A command, and a CMD word that is none. -/
theorem witness_EngineStaysInItsWindow :
    ((fresh .gxI8).Inv ∧ (fresh .gxI8).busy = true ∧ decode (fresh .gxI8).d.cmd = .ok .gxI8 ∧
      ∃ t, engineTurn (fresh .gxI8) = .next t ∧ t.done = true) ∧
    let s := started (desc 0 4 4 64 64 0) bytes
    s.Inv ∧ s.busy = true ∧ (∀ i, decode s.d.cmd ≠ .ok i) ∧ ∃ t, engineTurn s = .next t ∧ t.err = true := by
  refine ⟨⟨started_inv _ bytes_wf, rfl, rfl, nextHas_elim (p := State.done) (by decide +kernel)⟩,
    started_inv _ bytes_wf, rfl, fun i => ?_, nextHas_elim (p := State.err) (by decide +kernel)⟩
  rw [show decode (started (desc 0 4 4 64 64 0) bytes).d.cmd = .error .reservedOp from rfl]
  exact nofun

/-- The last unit of a 1 x 1 grid, and the first of a 2 x 1 grid (a PAL command with two entries). -/
theorem witness_SequencerIsRasterOrder :
    (let s := walking .gxI8;
      s.Inv ∧ s.busy = true ∧ s.phase = .walk ∧ decode s.d.cmd = .ok .gxI8 ∧
        s.scr.by_ * unitCols .gxI8 s.d + s.scr.bx + 1 = unitRows .gxI8 s.d * unitCols .gxI8 s.d) ∧
    (let s := walking .palIa8;
      s.Inv ∧ s.busy = true ∧ s.phase = .walk ∧ decode s.d.cmd = .ok .palIa8 ∧
        s.scr.by_ * unitCols .palIa8 s.d + s.scr.bx + 1 < unitRows .palIa8 s.d * unitCols .palIa8 s.d) :=
  ⟨⟨walking_inv (by decide), rfl, rfl, rfl, by decide⟩, walking_inv (by decide), rfl, rfl, rfl, by decide⟩

theorem witness_EachByteHasOneWriter :
    ∀ i ∈ samples, Accepted i (small i) ∧ (walking i).d = small i ∧ (walking i).scr.bx < unitCols i (small i) ∧
      (walking i).scr.by_ < unitRows i (small i) ∧
      (walking i).scr.cur = ((walking i).scr.by_ * unitCols i (small i) + (walking i).scr.bx) * cursorStep i :=
  fun i h => ⟨small_accepted h, rfl, (samples_units i h).1, (samples_units i h).2,
    ((congrArg (· * cursorStep i) (by simp [walking, fresh, started, startCommand])).trans (Nat.zero_mul _)).symm⟩

theorem witness_UnitsBuildTheirRamps :
    ∀ i ∈ samples, groupOf i = .bcn ∨ i = .gxCmpr → (walking i).Inv ∧ (walking i).busy = true ∧ (walking i).phase = .walk ∧
      decode (walking i).d.cmd = .ok i :=
  fun i h _ => ⟨walking_inv h, rfl, rfl, (samples_decode i h).2⟩

theorem samples_ramps : (samples.filter fun i => groupOf i = .bcn).length = 15 ∧ .gxCmpr ∈ samples := by decide

theorem witness_PaletteFillLoadsTheWindow :
    ∀ i ∈ [Instr.gxC4 .ia8, .gxC8 .rgb5a3, .gxC14x2 .rgb565], (filling i).Inv ∧ (filling i).busy = true ∧
      (filling i).phase = .fill ∧ decode (filling i).d.cmd = .ok i := by
  have h : ∀ i ∈ [Instr.gxC4 .ia8, .gxC8 .rgb5a3, .gxC14x2 .rgb565], i ∈ samples ∧ groupOf i = .gxPaletted := by decide
  exact fun i hi => ⟨filling_inv (h i hi).1 (h i hi).2, rfl, rfl, (samples_decode i (h i hi).1).2⟩

theorem witness_ScratchDoesNotCarryOver :
    ∀ i ∈ samples, Fresh (fresh i) ∧ (walking i).scr.bx = 0 ∧ (walking i).scr.by_ = 0 ∧ (walking i).scr.cur = 0 :=
  fun _ _ => ⟨started_fresh _ bytes_wf, rfl, rfl, rfl⟩

/-- Two memories that differ outside the windows of the command. -/
theorem witness_OutputDependsOnWindowsOnly :
    ∀ i ∈ samples,
      let t := started (small i) (bytes.write 0x5000 1)
      Fresh (fresh i) ∧ Fresh t ∧ (fresh i).Inv ∧ t.Inv ∧ Accepted i (fresh i).d ∧ t.d = (fresh i).d ∧ t.draws = (fresh i).draws ∧
        ∀ a, (usesSource i = true ∧ Covers (fresh i).d.src a) ∨ (usesPalette i = true ∧ Covers (fresh i).d.pal a) →
          t.mem.read a = (fresh i).mem.read a := by
  intro i h
  have hl : ∀ j ∈ samples, (small j).srcLen.toNat ≤ 512 := by decide +kernel
  have hw : (bytes.write 0x5000 1).wf = true := Memory.write_wf bytes_wf (by decide) 1
  refine ⟨started_fresh _ bytes_wf, started_fresh _ hw, started_inv _ bytes_wf, started_inv _ hw, small_accepted h, rfl, rfl,
    fun a ha => ?_⟩
  have hs := hl i h
  have : a ≠ 0x5000 := by
    rcases ha with ⟨-, h1, h2⟩ | ⟨-, h1, h2⟩
    · simp only [Desc.src] at h1 h2
      have : (fresh i).d.srcBase.toNat = 0x1000 := rfl
      have : (fresh i).d.srcLen.toNat = (small i).srcLen.toNat := rfl
      omega
    · simp only [Desc.pal] at h1 h2
      have : (fresh i).d.palBase.toNat = 0x800 := rfl
      have : (fresh i).d.palLen.toNat = 4 := rfl
      omega
  exact (Memory.read_write bytes_wf 0x5000 a 1).trans (if_neg this)

/-! ## Witnesses: results -/

/-- The commands whose results are stated, each accepted just after START. -/
theorem fresh_accepted {i : Instr} (h : i ∈ samples) : Fresh (fresh i) ∧ Accepted i (fresh i).d :=
  ⟨started_fresh _ bytes_wf, small_accepted h⟩

/-- Both ends of BHL2; a buffer that ends at the top of memory, the first and last byte of its one block, a padding byte. -/
theorem witness_DeswzResult :
    ∀ b ∈ [(0 : BitVec 3), 5], (Fresh (fresh (.deswz b)) ∧ Accepted (.deswz b) (fresh (.deswz b)).d) ∧
      Memory.empty.wf = true ∧ 2 ^ 32 - 512 + (fresh (.deswz b)).d.srcLen.toNat ≤ 2 ^ 32 ∧
      0 < unitCols (.deswz b) (fresh (.deswz b)).d ∧ 0 < unitRows (.deswz b) (fresh (.deswz b)).d ∧
      (0 < (fresh (.deswz b)).d.bpb ∧ 7 < (fresh (.deswz b)).d.bpb) ∧
      ∀ bx < unitCols (.deswz b) (fresh (.deswz b)).d, ∀ by_ < unitRows (.deswz b) (fresh (.deswz b)).d,
        ∀ k < (fresh (.deswz b)).d.bpb,
          2 ^ 32 - 1 ≠ 2 ^ 32 - 512 + deswzBlockOffset b (fresh (.deswz b)).d bx by_ + k := by
  intro b h
  have hs : Instr.deswz b ∈ samples := by revert b; decide
  have : b = 0 ∨ b = 5 := by simpa using h
  rcases this with rfl | rfl <;>
    exact ⟨fresh_accepted hs, rfl, by decide +kernel, by decide +kernel, by decide +kernel, by decide +kernel,
      by decide +kernel⟩

theorem witness_Bc1Result :
    (Fresh (fresh (.bc1 true false 5)) ∧ Accepted (.bc1 true false 5) (fresh (.bc1 true false 5)).d) ∧
      Fresh (fresh (.bc1 false true 0)) ∧ Accepted (.bc1 false true 0) (fresh (.bc1 false true 0)).d :=
  ⟨fresh_accepted (by decide), fresh_accepted (by decide)⟩

theorem witness_Bc2Bc3Result :
    (Fresh (fresh (.bc2 false false 5)) ∧ Accepted (.bc2 false false 5) (fresh (.bc2 false false 5)).d) ∧
      Fresh (fresh (.bc3 true true 0)) ∧ Accepted (.bc3 true true 0) (fresh (.bc3 true true 0)).d :=
  ⟨fresh_accepted (by decide), fresh_accepted (by decide)⟩

theorem witness_Bc4Result :
    (Fresh (fresh (.bc4u false false 5)) ∧ Accepted (.bc4u false false 5) (fresh (.bc4u false false 5)).d) ∧
      Fresh (fresh (.bc4s true 0)) ∧ Accepted (.bc4s true 0) (fresh (.bc4s true 0)).d :=
  ⟨fresh_accepted (by decide), fresh_accepted (by decide)⟩

theorem witness_Bc5Result :
    (Fresh (fresh (.bc5u true true 0)) ∧ Accepted (.bc5u true true 0) (fresh (.bc5u true true 0)).d) ∧
      Fresh (fresh (.bc5s false 5)) ∧ Accepted (.bc5s false 5) (fresh (.bc5s false 5)).d :=
  ⟨fresh_accepted (by decide), fresh_accepted (by decide)⟩

theorem witness_GxIntensityResult :
    ∀ i ∈ [Instr.gxI4, .gxI8, .gxIa4, .gxIa8], Fresh (fresh i) ∧ Accepted i (fresh i).d :=
  fun i h => fresh_accepted (by revert i; decide)

theorem witness_GxDirectColourResult :
    ∀ i ∈ [Instr.gxRgb565, .gxRgb5a3], Fresh (fresh i) ∧ Accepted i (fresh i).d :=
  fun i h => fresh_accepted (by revert i; decide)

theorem witness_GxRgba8Result : Fresh (fresh .gxRgba8) ∧ Accepted .gxRgba8 (fresh .gxRgba8).d := fresh_accepted (by decide)

theorem witness_GxCmprResult : Fresh (fresh .gxCmpr) ∧ Accepted .gxCmpr (fresh .gxCmpr).d := fresh_accepted (by decide)

theorem witness_GxPalettedResult :
    ∀ i ∈ [Instr.gxC4 .ia8, .gxC8 .rgb5a3, .gxC14x2 .rgb565], Fresh (fresh i) ∧ Accepted i (fresh i).d :=
  fun i h => fresh_accepted (by revert i; decide)

theorem witness_PalResult : ∀ i ∈ [Instr.palIa8, .palRgb565, .palRgb5a3], Fresh (fresh i) ∧ Accepted i (fresh i).d :=
  fun i h => fresh_accepted (by revert i; decide)

/-- BC1 on a block-linear surface of one block, DESWZ on it, and BC1 LIN on what DESWZ leaves. -/
theorem witness_LinearAfterDeswz :
    let i := Instr.bc1 false false 0
    let s0 := fresh (.deswz 0)
    let s1 := fresh (.bc1 false true 0)
    let s2 := fresh i
    groupOf i = .bcn ∧ linearSource i = false ∧ blockHeightLog2 i = (0 : BitVec 3).toNat ∧
    Fresh s0 ∧ Accepted (.deswz 0) s0.d ∧ s0.d.bw = 4 ∧ s0.d.bh = 4 ∧ s0.d.bpb = blockBytes i ∧
    Fresh s1 ∧ Accepted (withLinear i) s1.d ∧ Fresh s2 ∧ Accepted i s2.d ∧
    s1.d.w = s0.d.w ∧ s1.d.tall = s0.d.tall ∧ s2.d.w = s0.d.w ∧ s2.d.tall = s0.d.tall ∧
    (∀ o < s2.d.srcLen.toNat, srcByte s2 o = srcByte s0 o) ∧
    ∃ t0, exec (.deswz 0) s0 = .next t0 ∧
      ∀ o < s1.d.srcLen.toNat, srcByte s1 o = t0.mem.read (s0.d.dstBase.toNat + o) := by
  refine ⟨rfl, rfl, rfl, started_fresh _ bytes_wf, small_accepted (by decide), rfl, rfl, rfl, started_fresh _ bytes_wf,
    small_accepted (i := .bc1 false true 0) (by decide), started_fresh _ bytes_wf, small_accepted (by decide), rfl, rfl, rfl,
    rfl, fun _ _ => rfl, ?_⟩
  obtain ⟨t0, e, h⟩ := nextHas_elim (o := exec (.deswz 0) (fresh (.deswz 0)))
    (p := fun t => decide (∀ o : Fin 8, srcByte (fresh (.bc1 false true 0)) o = t.mem.read (0x2000 + o))) (by decide +kernel)
  exact ⟨t0, e, fun o ho => of_decide_eq_true h ⟨o, ho⟩⟩

/-! ## Witnesses: the machine -/

theorem witness_StepKeepsInvariant :
    (State.reset.Inv ∧ ∃ t, step State.reset = .next t) ∧ (fresh .gxI8).Inv ∧ ∃ t, step (fresh .gxI8) = .next t ∧ t.done = true :=
  ⟨⟨reset_inv, _, rfl⟩, started_inv _ bytes_wf, nextHas_elim (p := State.done) (by decide +kernel)⟩

theorem witness_StepNeverStops : ∀ i ∈ samples, (fresh i).Inv ∧ (walking i).Inv :=
  fun _ h => ⟨started_inv _ bytes_wf, walking_inv h⟩

/-- A state for each clause: the engine alone, an engine turn, an idle engine, a host transaction, a placed word. -/
theorem witness_StepRunsDecodedCommand :
    ((fresh .gxI8).script = [] ∧ (fresh .gxI8).busy = true ∧ decode (fresh .gxI8).d.cmd = .ok .gxI8) ∧
    (let s : State := { fresh .gxI8 with script := [.engine (some 1), .reset true] };
      s.script = .engine (some 1) :: [.reset true] ∧ (some 1 : Option Nat) ≠ some 0 ∧ s.busy = true ∧
        decode s.d.cmd = .ok .gxI8) ∧
    (State.reset.script = [] ∧ State.reset.busy = false) ∧
    (∀ n, HostOp.reset true ≠ .engine n) ∧
    0x13 < 2 ^ 32 ∧ decode (BitVec.ofNat 32 0x13) = .ok .gxI8 :=
  ⟨⟨rfl, rfl, rfl⟩, ⟨rfl, by decide, rfl, rfl⟩, ⟨rfl, rfl⟩, nofun, by decide, rfl⟩

end Sys2Proof.Tests
end

namespace Sys2Proof.Proofs

open Sys2Proof.Machine

/-! ## `next_pow2` (spec/00_scope.md R6)

The powers of two not below `n` are those whose exponent is at least `Nat.clog 2 n` (Mathlib's `Nat.clog_le_iff_le_pow`).
So the doubling loop has the closed form `2 ^ Nat.clog 2 n`, and what R6 says of it is read off there. -/

/-- The loop stops at a bound it has reached, with any fuel. -/
theorem doubleUpTo_of_le {n p : Nat} (h : n ≤ p) (fuel : Nat) : doubleUpTo n fuel p = p := by
  cases fuel with
  | zero => rfl
  | succ fuel => exact if_pos h

theorem doubleUpTo_succ_of_lt {n p : Nat} (h : p < n) (fuel : Nat) :
    doubleUpTo n (fuel + 1) p = doubleUpTo n fuel (2 * p) :=
  if_neg (Nat.not_le.mpr h)

theorem doubleUpTo_two_pow_of_le {n j : Nat} (hj : j ≤ Nat.clog 2 n) (h : n ≤ 2 ^ j) (fuel : Nat) :
    doubleUpTo n fuel (2 ^ j) = 2 ^ Nat.clog 2 n := by
  rw [doubleUpTo_of_le h, hj.antisymm (Nat.clog_le_of_le_pow h)]

/-- Started at a power of two not past the least one, with fuel enough to reach `n`, the loop ends at the least one. -/
theorem doubleUpTo_two_pow {n fuel j : Nat} (hj : j ≤ Nat.clog 2 n) (hfuel : n ≤ 2 ^ (j + fuel)) :
    doubleUpTo n fuel (2 ^ j) = 2 ^ Nat.clog 2 n := by
  induction fuel generalizing j with
  | zero => exact doubleUpTo_two_pow_of_le hj hfuel 0
  | succ fuel ih =>
    obtain h | h := Nat.lt_or_ge (2 ^ j) n
    · have hj' : j + 1 ≤ Nat.clog 2 n := (Nat.lt_clog_iff_pow_lt one_lt_two).mpr h
      rw [doubleUpTo_succ_of_lt h, ← Nat.pow_succ']
      exact ih hj' (by rwa [Nat.succ_add_eq_add_succ])
    · exact doubleUpTo_two_pow_of_le hj h (fuel + 1)

/-- The closed form; the fuel `n` that `nextPow2` gives its loop suffices because `n < 2 ^ n`. -/
theorem nextPow2_eq_two_pow_clog (n : Nat) : nextPow2 n = 2 ^ Nat.clog 2 n :=
  doubleUpTo_two_pow (Nat.zero_le _) (by simpa using Nat.lt_two_pow_self.le)

theorem le_nextPow2 (n : Nat) : n ≤ nextPow2 n := by
  rw [nextPow2_eq_two_pow_clog]
  exact Nat.le_pow_clog one_lt_two n

theorem nextPow2_le_two_pow {n k : Nat} (h : n ≤ 2 ^ k) : nextPow2 n ≤ 2 ^ k := by
  rw [nextPow2_eq_two_pow_clog]
  exact Nat.pow_le_pow_right Nat.two_pos (Nat.clog_le_of_le_pow h)

/-- Settles O18: the three parts are the closed form and the two bounds it gives. -/
theorem nextPow2IsLeast : Obligations.NextPow2IsLeast :=
  fun n _ => ⟨⟨Nat.clog 2 n, nextPow2_eq_two_pow_clog n⟩, le_nextPow2 n, fun _ => nextPow2_le_two_pow⟩

end Sys2Proof.Proofs

namespace Sys2Proof.Proofs

open Sys2Proof.Machine

/-! ## What an engine turn can do (spec/46_dispatch.md R300, R310 to R315)

A turn from a running sane state that moves at all ends in one of three ways: the command is still running, it has ended
with one of the five errors of the checks, or it has ended with DONE. `EngineOutcome` says what each of them leaves
unchanged. It is proved of one engine step, carried over a run of steps by induction on their number, and read off by the
statements about the engine's frame, about errors and about the invariant. -/

/-- Memory `m'` is `m` outside the output range of the command `i` with descriptor `d`. -/
def SameOutside (i : Instr) (d : Desc) (m m' : Memory) : Prop :=
  ∀ a, ¬ (d.dstBase.toNat ≤ a ∧ a < d.dstBase.toNat + outputLength i d) → m'.read a = m.read a

theorem SameOutside.refl (i : Instr) (d : Desc) (m : Memory) : SameOutside i d m m := fun _ _ => rfl

theorem SameOutside.trans {i : Instr} {d : Desc} {m₁ m₂ m₃ : Memory} (h : SameOutside i d m₁ m₂)
    (h' : SameOutside i d m₂ m₃) : SameOutside i d m₁ m₃ := fun a ha => (h' a ha).trans (h a ha)

/-- The three ways in which the engine, moving from `s`, leaves the machine. -/
inductive EngineOutcome (s : State) : State → Prop
  /-- The command goes on: only scratch state, stage and the output range have changed. -/
  | running {i : Instr} (hr : Runs i s) (scr : Scratch) {m : Memory} (p : Phase) (hm : SameOutside i s.d s.mem m) :
    EngineOutcome s { s with scr := scr, mem := m, phase := p }
  /-- The checks refused the command, or its CMD word selects none. -/
  | failed {c : ErrCode} (info : Word) (hr : ¬ ∃ i, Runs i s) (hc : 1 ≤ c.code.toNat ∧ c.code.toNat ≤ 5) :
    EngineOutcome s (raiseError c info s)
  /-- The command has ended with DONE. -/
  | done {i : Instr} (hr : Runs i s) {m : Memory} (hm : SameOutside i s.d s.mem m) :
    EngineOutcome s (finished s m (outputLength i s.d))

/-- A CMD word selects at most one command, so at most one command runs. -/
theorem runs_unique {s : State} {i j : Instr} (hi : Runs i s) (hj : Runs j s) : i = j := by
  obtain ⟨-, hdi, -⟩ := hi
  obtain ⟨-, hdj, -⟩ := hj
  exact Except.ok.inj (hdi.symm.trans hdj)

/-- What happens after the command has gone on for a while is one of the three outcomes for the whole. A command whose
checks have passed cannot fail any more. -/
theorem EngineOutcome.trans_running {s t : State} {i : Instr} {scr : Scratch} {m : Memory} {p : Phase} (hr : Runs i s)
    (hm : SameOutside i s.d s.mem m) (h : EngineOutcome { s with scr := scr, mem := m, phase := p } t) :
    EngineOutcome s t := by
  cases h with
  | running hr' scr' p' hm' =>
    obtain rfl := runs_unique hr hr'
    exact .running hr scr' p' (hm.trans hm')
  | failed info hr' hc => exact absurd ⟨i, hr⟩ hr'
  | done hr' hm' =>
    obtain rfl := runs_unique hr hr'
    exact .done hr (hm.trans hm')

/-! ### One engine step -/

theorem outcome_running_same_mem {s : State} {i : Instr} (hr : Runs i s) (scr : Scratch) (p : Phase) :
    EngineOutcome s { s with scr := scr, phase := p } :=
  .running hr scr p (.refl i s.d s.mem)

/-- The sequencer's move touches scratch state and stage only. -/
theorem advance_form (c : Command) (s : State) : ∃ scr p, advance c s = { s with scr := scr, phase := p } := by
  rcases advance_cases c s with ⟨-, h⟩ | ⟨-, -, h⟩ | ⟨-, -, h⟩ <;> exact ⟨_, _, h⟩

theorem stepCheck_outcome {s : State} {i : Instr} (hb : s.busy = true) (hd : decode s.d.cmd = .ok i) :
    ∃ t, stepCheck (commandOf i) s = .next t ∧ EngineOutcome s t := by
  unfold stepCheck
  cases hv : validate (commandOf i) s.d with
  | error e =>
    refine ⟨_, rfl, .failed _ (fun ⟨j, _, hj, ha⟩ => ?_) (validate_codes hv)⟩
    obtain rfl : i = j := Except.ok.inj (hd.symm.trans hj)
    rw [(validate_ok_iff i s.d).2 ha] at hv
    cases hv
  | ok u => exact ⟨_, rfl, outcome_running_same_mem ⟨hb, hd, (validate_ok_iff i s.d).1 hv⟩ s.scr _⟩

theorem stepFill_outcome {s : State} {i : Instr} (hr : Runs i s) (hg : groupOf i = .gxPaletted) :
    ∃ t, stepFill (commandOf i) s = .next t ∧ EngineOutcome s t := by
  obtain ⟨fmt, hfmt⟩ := Option.isSome_iff_exists.1 ((commandOf_fill_isSome i).2 hg)
  have hf : Fits s.d.pal := hr.2.2.pal_fits (by simp [usesPalette, hg])
  obtain ⟨scr, ef, -⟩ := paletteFill_ok (fmt := fmt) hf
  refine ⟨_, ?_, outcome_running_same_mem hr scr (walkPhase (commandOf i) s.d)⟩
  simp only [stepFill, hfmt, ef]

theorem stepUnit_outcome {s : State} {i : Instr} (hr : Runs i s) (hm : s.mem.wf = true)
    (hu : AtUnit (commandOf i) (cursorStep i) s) :
    ∃ t, stepUnit (commandOf i) s = .next t ∧ EngineOutcome s t := by
  obtain ⟨owner, image, hunits⟩ := all_units i hr.2.2
  obtain ⟨scr, m, e, -, -, -, -, -, -, hread⟩ := stepUnit_spec hunits rfl hm hu
  obtain ⟨scr', p, hadv⟩ := advance_form (commandOf i) { s with scr := scr, mem := m }
  refine ⟨_, e, ?_⟩
  rw [hadv]
  refine .running hr scr' p fun a ha => ?_
  rw [hread a, commandOf_outLen, if_neg fun hc => ha ⟨hc.1, hc.2.1⟩]

theorem stepFinish_outcome {s : State} {i : Instr} (hr : Runs i s) (hm : s.mem.wf = true) :
    ∃ t, stepFinish (commandOf i) s = .next t ∧ EngineOutcome s t := by
  obtain ⟨m, e, -, -, hframe⟩ := completeCommand_spec (n := outputLength i s.d) hm hr.2.2.fits
  exact ⟨_, by rw [stepFinish, commandOf_outLen, e], .done hr hframe⟩

/-- One engine step of a sane running state has one of the three outcomes. -/
theorem engineStep_outcome {s : State} {i : Instr} (h : s.Inv) (hb : s.busy = true) (hd : decode s.d.cmd = .ok i) :
    ∃ t, engineStep (commandOf i) s = .next t ∧ EngineOutcome s t := by
  rcases h.engine hb with ⟨hp, -⟩ | hpc
  · rw [engineStep_check hp]
    exact stepCheck_outcome hb hd
  · obtain ⟨ha, hstage⟩ := hpc.of_decode hd
    have hr : Runs i s := ⟨hb, hd, ha⟩
    cases hp : s.phase with
    | check => rw [hp] at hstage; exact hstage.elim
    | fill =>
      rw [hp] at hstage
      obtain ⟨-, -, -, hg⟩ := hstage
      rw [engineStep_fill hp]
      exact stepFill_outcome hr hg
    | walk =>
      rw [engineStep_walk hp]
      exact stepUnit_outcome hr h.mem (h.atUnit hb hp hd).2
    | finish =>
      rw [engineStep_finish hp]
      exact stepFinish_outcome hr h.mem

/-! ### A run of engine steps, and the engine's turn -/

/-- A run of engine steps from a sane running state has a next state, sane again, in one of the three outcomes unless no
step was taken. -/
theorem runSteps_outcome {i : Instr} : ∀ (n : Nat) {s : State}, s.Inv → s.busy = true → decode s.d.cmd = .ok i →
    ∃ t, runSteps (commandOf i) n s = .next t ∧ t.Inv ∧ (t = s ∨ EngineOutcome s t) := by
  intro n
  induction n with
  | zero => exact fun h _ _ => ⟨_, rfl, h, .inl rfl⟩
  | succ n ih =>
    intro s h hb hd
    obtain ⟨u, e, hu, -⟩ := engineStep_inv h hb hd
    obtain ⟨u', e', ho⟩ := engineStep_outcome h hb hd
    obtain rfl : u = u' := by rw [e] at e'; exact Host.Outcome.next.inj e'
    rw [runSteps_succ hb e]
    cases ho with
    | running hr scr p hm =>
      obtain ⟨t, et, ht, rfl | hot⟩ := ih hu hb hd
      · exact ⟨_, et, ht, .inr (.running hr scr p hm)⟩
      · obtain rfl : i = _ := Except.ok.inj (hd.symm.trans hr.2.1)
        exact ⟨t, et, ht, .inr (hot.trans_running hr hm)⟩
    | failed info hr hc => exact ⟨_, runSteps_idle rfl, hu, .inr (.failed info hr hc)⟩
    | done hr hm => exact ⟨_, runSteps_idle rfl, hu, .inr (.done hr hm)⟩

/-- However many steps the schedule grants, the engine's turn on a decoded command is a run of engine steps. -/
theorem engineTurn_eq_runSteps {s : State} {i : Instr} (hb : s.busy = true) (hs : s.slice ≠ some 0)
    (hd : decode s.d.cmd = .ok i) : ∃ n, engineTurn s = runSteps (commandOf i) n s := by
  cases hsl : s.slice with
  | none => exact ⟨_, engineTurn_whole hb hsl hd⟩
  | some n => exact ⟨n, engineTurn_steps hb hsl (fun hn => hs (by rw [hsl, hn])) hd⟩

/-- The engine does nothing when it is idle or granted no step (spec/60_exceptions.md R345). -/
theorem engineTurn_still {s : State} (h : s.busy = false ∨ s.slice = some 0) : engineTurn s = .next s := if_pos h

/-- Every engine turn of a sane state has a next state, sane again; unless nothing moved it is one of the three outcomes. -/
theorem engineTurn_outcome {s : State} (h : s.Inv) :
    ∃ t, engineTurn s = .next t ∧ t.Inv ∧ (t = s ∨ EngineOutcome s t) := by
  by_cases hstill : s.busy = false ∨ s.slice = some 0
  · exact ⟨s, engineTurn_still hstill, h, .inl rfl⟩
  · rw [not_or, Bool.not_eq_false] at hstill
    obtain ⟨hb, hs⟩ := hstill
    cases hd : decode s.d.cmd with
    | error e =>
      have hc : 1 ≤ ErrCode.unsup.code.toNat ∧ ErrCode.unsup.code.toNat ≤ 5 := by decide
      refine ⟨_, engineTurn_undecoded hb hs hd, raiseError_inv h hb hc, .inr (.failed 0 (fun ⟨i, _, hi, _⟩ => ?_) hc)⟩
      rw [hd] at hi
      cases hi
    | ok i =>
      obtain ⟨n, e⟩ := engineTurn_eq_runSteps hb hs hd
      rw [e]
      exact runSteps_outcome n h hb hd

/-- The state that a given turn of the engine has led to. -/
theorem engineTurn_next {s t : State} (h : s.Inv) (e : engineTurn s = .next t) :
    t.Inv ∧ (t = s ∨ EngineOutcome s t) := by
  obtain ⟨t', e', ht⟩ := engineTurn_outcome h
  obtain rfl : t' = t := Host.Outcome.next.inj (e'.symm.trans e)
  exact ht

/-! ### The engine's frame and its errors -/

theorem done_eq_false_of_busy {s : State} (h : s.Inv) (hb : s.busy = true) : s.done = false :=
  Bool.eq_false_iff.2 fun hdone => h.busy_done ⟨hb, hdone⟩

theorem err_eq_false_of_busy {s : State} (h : s.Inv) (hb : s.busy = true) : s.err = false :=
  Bool.eq_false_iff.2 fun herr => h.busy_err ⟨hb, herr⟩

/-- OUT_LEN holds the whole output length of an accepted command: it is at most DST_LEN (spec/46_dispatch.md R307). -/
theorem outLen_toNat_of_accepted {i : Instr} {d : Desc} (ha : Accepted i d) :
    (BitVec.ofNat 32 (outputLength i d)).toNat = outputLength i d := by
  obtain ⟨-, -, -, -, hlen⟩ := ha
  rw [BitVec.toNat_ofNat, Nat.mod_eq_of_lt (Nat.lt_of_le_of_lt hlen d.dstLen.isLt)]

/-- Settles O37: each of the three outcomes has the frame. -/
theorem engineStaysInItsWindow : Obligations.EngineStaysInItsWindow := by
  intro s t h hb e
  have hdone := done_eq_false_of_busy h hb
  rcases (engineTurn_next h e).2 with rfl | ho
  · simp [hdone]
  cases ho with
  | running hr scr p hm =>
    refine ⟨rfl, rfl, rfl, rfl, rfl, rfl, rfl, rfl, rfl, rfl, by simp [hdone], fun hn => absurd hr.2.1 (hn _),
      fun i hi => ?_⟩
    obtain rfl := Except.ok.inj (hr.2.1.symm.trans hi)
    exact hm
  | failed info hr hc => simp [hdone]
  | done hr hm =>
    refine ⟨rfl, rfl, rfl, rfl, rfl, rfl, rfl, rfl, rfl, rfl, ?_, fun hn => absurd hr.2.1 (hn _), fun i hi => ?_⟩
    · simp [outLen_toNat_of_accepted hr.2.2]
    · obtain rfl := Except.ok.inj (hr.2.1.symm.trans hi)
      exact hm

/-- Settles O33: only the failed outcome sets ERR, and it is an error completion. -/
theorem errorUpdatesOnlyStatus : Obligations.ErrorUpdatesOnlyStatus := by
  intro s t h hb _ e herr
  have hs := err_eq_false_of_busy h hb
  have hdone := done_eq_false_of_busy h hb
  rcases (engineTurn_next h e).2 with rfl | ho
  · rw [hs] at herr
    cases herr
  cases ho with
  | running hr scr p hm => rw [hs] at herr; cases herr
  | failed info hr hc => exact ⟨rfl, hc.1, hc.2, (h.results hb).1, hdone⟩
  | done hr hm => rw [finished_err, hs] at herr; cases herr

end Sys2Proof.Proofs

namespace Sys2Proof.Proofs

open Sys2Proof.Machine

/-! ## The register port (spec/10_state.md R24 to R36)

What a register access does, once for every register; the statements about the single registers name the offset. -/

/-- Only aligned 32-bit accesses below 0x40 name a register (spec/10_state.md R35). -/
theorem regAt_eq_none {offset bytes : Nat} (h : 0x40 ≤ offset ∨ bytes ≠ 4 ∨ offset % 4 ≠ 0) :
    regAt offset bytes = none := by
  unfold regAt
  split
  · rename_i hc
    have hlen : regTable.length ≤ offset / 4 := by
      show 16 ≤ offset / 4
      omega
    exact List.getElem?_eq_none hlen
  · rfl

/-- A read of a register other than STATUS returns it and is no observation. -/
theorem hostTurn_regRead {offset : Nat} {r : Reg} (hr : regAt offset 4 = some r) (hs : r ≠ .status) (s : State) :
    hostTurn (.regRead offset 4) s = { s with regData := readReg s r } := by
  simp [hostTurn, hostRegRead, hr, hs, observeIdle]

/-- A write to a register is dropped while reset is asserted (spec/70_reset_and_hazards.md R360). -/
theorem hostTurn_regWrite {offset : Nat} {r : Reg} (hr : regAt offset 4 = some r) (s : State) (v : Word) :
    hostTurn (.regWrite offset 4 v) s = if s.inReset then s else writeReg s r v := by
  simp [hostTurn, hostRegWrite, hr]

theorem hostTurn_regWrite_inReset {s : State} (h : s.inReset = true) (offset bytes : Nat) (v : Word) :
    hostTurn (.regWrite offset bytes v) s = s := by
  simp only [hostTurn, hostRegWrite, h, if_true]
  split <;> rfl

/-- An observation only ends the host's duties. -/
theorem observeIdle_eq (seen : Bool) (s : State) :
    observeIdle seen s = { s with ended := if seen then [] else s.ended } := by cases seen <;> rfl

/-- Settles O20: fourteen plain reads, and the two that can be an observation. -/
theorem registerMapReads : Obligations.RegisterMapReads := by
  intro s
  have plain (offset : Nat) (r : Reg) (hr : regAt offset 4 = some r) (hs : r ≠ .status) :
      hostTurn (.regRead offset 4) s = { s with regData := readReg s r } := hostTurn_regRead hr hs s
  have hstatus : hostTurn (.regRead 0x04 4) s =
      { s with regData := statusWord s, ended := if s.busy then s.ended else [] } := by
    show observeIdle (!s.busy) { s with regData := statusWord s } = _
    rw [observeIdle_eq]
    cases s.busy <;> rfl
  have hirq : hostTurn .irqRead s =
      { s with regData := if s.irq then 1 else 0, ended := if s.irq then [] else s.ended } := by
    show observeIdle s.irq { s with regData := (bitOf s.irq).setWidth 32 } = _
    rw [observeIdle_eq]
    cases s.irq <;> rfl
  exact ⟨plain 0x00 .ctrl rfl nofun, hstatus, hirq, plain 0x08 .irqEn rfl nofun, plain 0x0C .cmd rfl nofun,
    plain 0x10 .width rfl nofun, plain 0x14 .height rfl nofun, plain 0x18 .depth rfl nofun,
    plain 0x1C .blkdim rfl nofun, plain 0x20 .srcBase rfl nofun, plain 0x24 .srcLen rfl nofun,
    plain 0x28 .dstBase rfl nofun, plain 0x2C .dstLen rfl nofun, plain 0x30 .palBase rfl nofun,
    plain 0x34 .palLen rfl nofun, plain 0x38 .outLen rfl nofun, plain 0x3C .errInfo rfl nofun⟩

/-- Settles O21: such an access names no register. -/
theorem accessesOutsideTheMap : Obligations.AccessesOutsideTheMap := by
  intro s offset bytes v h
  have hnone := regAt_eq_none h
  exact ⟨by simp only [hostTurn, hostRegRead, hnone], by simp only [hostTurn, hostRegWrite, hnone]⟩

/-- Settles O22: each of the eleven writes is `writeDesc`, dropped while BUSY. -/
theorem descriptorRegisterWrites : Obligations.DescriptorRegisterWrites := by
  intro s v
  have stores (offset : Nat) (r : Reg) (reg : Desc) (hr : regAt offset 4 = some r)
      (hw : writeReg s r v = writeDesc s reg) :
      hostTurn (.regWrite offset 4 v) s = if s.busy ∨ s.inReset then s else { s with reg := reg } := by
    rw [hostTurn_regWrite hr, hw, writeDesc]
    cases s.busy <;> cases s.inReset <;> rfl
  have readOnly (offset : Nat) (r : Reg) (hr : regAt offset 4 = some r) (hw : writeReg s r v = s) :
      hostTurn (.regWrite offset 4 v) s = s := by
    rw [hostTurn_regWrite hr, hw, ite_self]
  exact ⟨stores 0x0C .cmd _ rfl rfl, stores 0x10 .width _ rfl rfl, stores 0x14 .height _ rfl rfl,
    stores 0x18 .depth _ rfl rfl, stores 0x1C .blkdim _ rfl rfl, stores 0x20 .srcBase _ rfl rfl,
    stores 0x24 .srcLen _ rfl rfl, stores 0x28 .dstBase _ rfl rfl, stores 0x2C .dstLen _ rfl rfl,
    stores 0x30 .palBase _ rfl rfl, stores 0x34 .palLen _ rfl rfl, readOnly 0x38 .outLen rfl rfl,
    readOnly 0x3C .errInfo rfl rfl⟩

/-! ### STATUS (spec/10_state.md R26) -/

/-- STATUS as a number: BUSY, DONE, ERR in bits 0 to 2, ERRCODE in bits 7:4. -/
theorem statusWord_toNat (s : State) :
    (statusWord s).toNat = s.busy.toNat + 2 * s.done.toNat + 4 * s.err.toNat + 16 * s.errcode.toNat := by
  unfold statusWord
  generalize s.errcode = code
  cases s.busy <;> cases s.done <;> cases s.err <;> revert code <;> decide

theorem errcode_eq_zero {s : State} (h : s.Inv) (he : s.err = false) : s.errcode = 0 := by
  have := h.errcode
  rwa [he] at this

/-- With no flag to clear, a write to STATUS changes nothing. -/
theorem writeStatus_of_clear {s : State} (hdone : s.done = false) (herr : s.err = false) (hcode : s.errcode = 0)
    (v : Word) : writeStatus v s = s := by
  cases s
  simp_all [writeStatus]

/-- While reset is asserted STATUS reads 0, so no flag is set. -/
theorem flags_clear_inReset {s : State} (h : s.Inv) (hr : s.inReset = true) : s.done = false ∧ s.err = false := by
  have hz : (statusWord s).toNat = 0 := congrArg BitVec.toNat ((h.asserted hr).2 .status)
  rw [statusWord_toNat] at hz
  constructor
  · cases hd : s.done
    · rfl
    · rw [hd, Bool.toNat_true] at hz; omega
  · cases he : s.err
    · rfl
    · rw [he, Bool.toNat_true] at hz; omega

/-- Settles O23: while BUSY or in reset there is no flag that a write could clear. -/
theorem statusRegister : Obligations.StatusRegister := by
  intro s v h
  have hclear : s.busy = true ∨ s.inReset = true → writeStatus v s = s := by
    intro hx
    have hflags : s.done = false ∧ s.err = false :=
      hx.elim (fun hb => ⟨done_eq_false_of_busy h hb, err_eq_false_of_busy h hb⟩) (flags_clear_inReset h)
    exact writeStatus_of_clear hflags.1 hflags.2 (errcode_eq_zero h hflags.2) v
  have hwrite : hostTurn (.regWrite 0x04 4 v) s = writeStatus v s := by
    rw [hostTurn_regWrite (r := .status) rfl]
    cases hr : s.inReset
    · rfl
    · exact (hclear (.inr hr)).symm
  exact ⟨statusWord_toNat s, errcode_eq_zero h, hwrite, fun hx => hwrite.trans (hclear hx)⟩

/-! ### IRQ_EN and the interrupt line (spec/10_state.md R28) -/

theorem irqEnWord_toNat (s : State) : (irqEnWord s).toNat = s.doneIe.toNat + 2 * s.errIe.toNat := by
  unfold irqEnWord
  cases s.doneIe <;> cases s.errIe <;> rfl

/-- A write stores bits 1:0, and these are what reads back. -/
theorem irqEnWord_writeIrqEn (v : Word) (s : State) : irqEnWord (writeIrqEn v s) = v &&& 3 := by
  apply BitVec.eq_of_toNat_eq
  have hmask : (v &&& 3).toNat = v.toNat % 2 ^ 2 := Nat.and_two_pow_sub_one_eq_mod v.toNat 2
  have h0 : (v.getLsbD 0).toNat = v.toNat / 2 ^ 0 % 2 := Nat.toNat_testBit v.toNat 0
  have h1 : (v.getLsbD 1).toNat = v.toNat / 2 ^ 1 % 2 := Nat.toNat_testBit v.toNat 1
  rw [irqEnWord_toNat, writeIrqEn_doneIe, writeIrqEn_errIe, hmask, h0, h1]
  omega

/-- Settles O24: with reset released the write is `writeIrqEn`. -/
theorem irqEnRegister : Obligations.IrqEnRegister := by
  intro s v
  refine ⟨fun hr => ?_, fun hr => hostTurn_regWrite_inReset hr _ _ _, irqEnWord_toNat s, rfl, rfl⟩
  have hwrite : hostTurn (.regWrite 0x08 4 v) s = writeIrqEn v s := by
    rw [hostTurn_regWrite (r := .irqEn) rfl, hr]
    rfl
  exact ⟨hwrite, by rw [hwrite, irqEnWord_writeIrqEn]⟩

/-! ### START (spec/10_state.md R25) -/

/-- A write to CTRL is START or nothing. -/
theorem hostTurn_ctrl (s : State) (v : Word) : hostTurn (.regWrite 0x00 4 v) s =
    if s.inReset = false ∧ v.getLsbD 0 = true ∧ s.busy = false then startCommand s else s := by
  rw [hostTurn_regWrite (r := .ctrl) rfl]
  cases s.inReset <;> simp [writeReg]

/-- Settles O25: the write is `startCommand` or nothing. -/
theorem startIsOneStep : Obligations.StartIsOneStep := by
  intro s v
  refine ⟨fun hv hb hr => ?_, fun hx => ?_, fun hv => ?_⟩
  · rw [hostTurn_ctrl, if_pos ⟨hr, hv, hb⟩]
    rfl
  · rw [hostTurn_ctrl, if_neg]
    rintro ⟨hr, -, hb⟩
    rw [hr, hb] at hx
    simp at hx
  · rw [hostTurn_ctrl, if_neg]
    rintro ⟨-, hv', -⟩
    rw [hv] at hv'
    cases hv'

end Sys2Proof.Proofs

namespace Sys2Proof.Proofs

open Sys2Proof.Machine

/-! ## The invariant of a sane state (spec/10_state.md R22 to R27, spec/70_reset_and_hazards.md R360)

The engine's turn keeps it by `engineTurn_outcome`. Here it is the host's transactions, one lemma for each effect that a
transaction can have, and then the step. -/

/-- Settles O58: nothing runs, no flag is set and memory is empty. -/
theorem resetHasInvariant : Obligations.ResetHasInvariant where
  mem := reset_mem_wf
  old := Memory.empty_wf
  busy_done := nofun
  busy_err := nofun
  done_err := nofun
  errcode := rfl
  shadow := nofun
  results := nofun
  engine := nofun
  ended := nofun
  asserted := nofun

/-! ### Register writes -/

theorem startCommand_inv {s : State} (h : s.Inv) (hr : s.inReset = false) : (startCommand s).Inv where
  mem := h.mem
  old := h.mem
  busy_done := by simp
  busy_err := by simp
  done_err := by simp
  errcode := rfl
  shadow := fun _ => rfl
  results := fun _ => ⟨rfl, rfl⟩
  engine := fun _ => .inl ⟨rfl, rfl, rfl, rfl⟩
  ended := h.ended
  asserted := by simp [hr]

/-- A flag that a write clears was the only one set, and ERRCODE goes with ERR. -/
theorem writeStatus_inv {s : State} (h : s.Inv) (hr : s.inReset = false) (v : Word) : (writeStatus v s).Inv where
  mem := h.mem
  old := h.old
  busy_done := fun ⟨hb, hd⟩ => h.busy_done ⟨hb, (Bool.and_eq_true_iff.1 hd).1⟩
  busy_err := fun ⟨hb, he⟩ => h.busy_err ⟨hb, (Bool.and_eq_true_iff.1 he).1⟩
  done_err := fun ⟨hd, he⟩ => h.done_err ⟨(Bool.and_eq_true_iff.1 hd).1, (Bool.and_eq_true_iff.1 he).1⟩
  errcode := by
    have hcode := h.errcode
    rw [writeStatus_err, writeStatus_errcode]
    cases v.getLsbD 2 with
    | true => simp
    | false => simpa using hcode
  shadow := h.shadow
  results := h.results
  engine := h.engine
  ended := h.ended
  asserted := by simp [hr]

theorem writeIrqEn_inv {s : State} (h : s.Inv) (hr : s.inReset = false) (v : Word) : (writeIrqEn v s).Inv where
  mem := h.mem
  old := h.old
  busy_done := h.busy_done
  busy_err := h.busy_err
  done_err := h.done_err
  errcode := h.errcode
  shadow := h.shadow
  results := h.results
  engine := h.engine
  ended := h.ended
  asserted := by simp [hr]

/-- A descriptor register is written only while idle, when it need not equal the shadow descriptor. -/
theorem writeDesc_inv {s : State} (h : s.Inv) (hr : s.inReset = false) (reg : Desc) : (writeDesc s reg).Inv := by
  cases hb : s.busy with
  | true => rwa [writeDesc, if_pos hb]
  | false =>
    rw [writeDesc, if_neg (by simp [hb])]
    exact { h with
      shadow := fun hx => absurd hx (by simp [hb])
      asserted := fun hx => absurd hx (by simp [hr]) }

theorem writeReg_inv {s : State} (h : s.Inv) (hr : s.inReset = false) (r : Reg) (v : Word) : (writeReg s r v).Inv := by
  cases r with
  | ctrl =>
    show (if v.getLsbD 0 ∧ s.busy = false then startCommand s else s).Inv
    split
    · exact startCommand_inv h hr
    · exact h
  | status => exact writeStatus_inv h hr v
  | irqEn => exact writeIrqEn_inv h hr v
  | outLen => exact h
  | errInfo => exact h
  | cmd | width | height | depth | blkdim | srcBase | srcLen | dstBase | dstLen | palBase | palLen =>
    exact writeDesc_inv h hr _

theorem hostRegWrite_inv {s : State} (h : s.Inv) (offset bytes : Nat) (v : Word) :
    (hostRegWrite s offset bytes v).Inv := by
  unfold hostRegWrite
  split
  · split
    · exact h
    · rename_i hr
      exact writeReg_inv h (Bool.eq_false_iff.2 hr) _ v
  · exact h

/-! ### Reads -/

theorem observeIdle_inv {s : State} (h : s.Inv) (seen : Bool) : (observeIdle seen s).Inv := by
  cases seen with
  | false => exact h
  | true =>
    exact { h with
      ended := nofun
      asserted := fun hr => ⟨(h.asserted hr).1, fun r => by
        have hz := (h.asserted hr).2 r
        cases r <;> exact hz⟩ }

theorem regData_inv {s : State} (h : s.Inv) (v : Word) : ({ s with regData := v } : State).Inv :=
  h.schedule s.slice s.script v s.memData s.touched s.draws

theorem hostRegRead_inv {s : State} (h : s.Inv) (offset bytes : Nat) : (hostRegRead s offset bytes).Inv := by
  unfold hostRegRead
  split
  · exact observeIdle_inv (regData_inv h _) _
  · exact regData_inv h _

/-! ### Reset -/

/-- The rest of the running command, for any sane state: nothing where no accepted command runs. -/
theorem completed_cases {s : State} (h : s.Inv) :
    completed s = none ∨
      ∃ i m, Runs i s ∧ completed s = some (m, outputLength i s.d) ∧ m.wf = true := by
  cases hb : s.busy with
  | false => exact .inl (by simp [completed, hb])
  | true =>
    cases hd : decode s.d.cmd with
    | error e => exact .inl (completed_undecoded h hb hd)
    | ok i =>
      by_cases ha : Accepted i s.d
      · obtain ⟨m, -, hc, hw⟩ := completed_accepted h hb hd ha
        exact .inr ⟨i, m, ⟨hb, hd, ha⟩, hc, hw⟩
      · exact .inl (completed_refused h hb hd ha)

theorem memAfterReset_wf {s : State} (h : s.Inv) : (memAfterReset s).wf = true := by
  unfold memAfterReset
  rcases completed_cases h with hc | ⟨i, m, hr, hc, -⟩
  · rw [hc]
    exact h.mem
  · rw [hc]
    exact (putBytes_spec h.mem hr.2.2.fits).1

/-- With no command running reset leaves memory alone (spec/70_reset_and_hazards.md R360). -/
theorem memAfterReset_idle {s : State} (hb : s.busy = false) : memAfterReset s = s.mem := by
  simp [memAfterReset, completed, hb]

/-- While reset is asserted every register reads 0. -/
theorem readReg_resetMachine (s : State) (r : Reg) : readReg (resetMachine s) r = 0 := by
  cases r with
  | status => exact (rfl : statusWord State.reset = 0)
  | irqEn => exact (rfl : irqEnWord State.reset = 0)
  | _ => rfl

theorem resetMachine_inv {s : State} (h : s.Inv) : (resetMachine s).Inv where
  mem := memAfterReset_wf h
  old := Memory.empty_wf
  busy_done := by simp
  busy_err := by simp
  done_err := by simp
  errcode := rfl
  shadow := by simp
  results := by simp
  engine := by simp
  ended := h.ended
  asserted := fun _ => ⟨rfl, readReg_resetMachine s⟩

theorem resetInput_inv {s : State} (h : s.Inv) (asserted : Bool) : (resetInput asserted s).Inv := by
  cases asserted with
  | true => exact resetMachine_inv h
  | false => exact { h with asserted := nofun }

/-! ### The step -/

/-- Every transaction of the host keeps the invariant. -/
theorem hostTurn_inv {s : State} (h : s.Inv) (op : HostOp) : (hostTurn op s).Inv := by
  cases op with
  | regWrite offset bytes v => exact hostRegWrite_inv h offset bytes v
  | regRead offset bytes => exact hostRegRead_inv h offset bytes
  | memWrite a b => exact (hostMemWrite_spec h (show a.toNat < Config.memSize from a.isLt) b).1
  | memRead a => exact (hostMemRead_spec h a.toNat).1
  | irqRead => exact observeIdle_inv (regData_inv h _) _
  | reset asserted => exact resetInput_inv h asserted
  | engine n => exact h

theorem engineTurn_inv {s t : State} (h : s.Inv) (e : engineTurn s = .next t) : t.Inv := (engineTurn_next h e).1

/-- The schedule is no part of a sane state. -/
theorem turn_inv {s : State} (h : s.Inv) (slice : Option Nat) (script : List HostOp) :
    ({ s with slice := slice, script := script } : State).Inv :=
  h.schedule slice script s.regData s.memData s.touched s.draws

/-- Settles O57: the next turn of the schedule is the engine's or the host's. -/
theorem stepKeepsInvariant : Obligations.StepKeepsInvariant := by
  intro s t h e
  unfold step at e
  split at e
  · exact engineTurn_inv (turn_inv h none s.script) e
  · rename_i n rest _
    exact engineTurn_inv (turn_inv h n rest) e
  · rename_i op rest _ _
    obtain rfl := Host.Outcome.next.inj e
    exact hostTurn_inv (turn_inv h s.slice rest) op

/-! ## The reset state and the reset input (spec/10_state.md R43, spec/70_reset_and_hazards.md R360, R362) -/

/-- Settles O27. The START has CMD 0, which selects no command. -/
theorem resetStateIsIdle : Obligations.ResetStateIsIdle := by
  refine ⟨fun r => by cases r <;> rfl, rfl, rfl, ?_⟩
  have hstart : hostTurn (opWr .ctrl 1) State.reset = startCommand State.reset := rfl
  have hstep : step (startCommand State.reset) =
      .next (raiseError .unsup 0 { startCommand State.reset with slice := none }) :=
    engineTurn_undecoded (s := { startCommand State.reset with slice := none }) (e := .reservedOp) rfl nofun rfl
  rw [hstart, hstep]
  exact ⟨_, rfl, rfl, rfl, rfl, rfl⟩

/-- No host transaction but the release changes the reset input once it is asserted. -/
theorem hostTurn_inReset {s : State} (hr : s.inReset = true) {op : HostOp} (hop : op ≠ .reset false) :
    (hostTurn op s).inReset = true := by
  cases op with
  | regWrite offset bytes v => rwa [hostTurn_regWrite_inReset hr]
  | regRead offset bytes =>
    simp only [hostTurn, hostRegRead]
    split
    · rwa [observeIdle_inReset]
    · exact hr
  | memWrite a b => simpa [hostTurn, hostMemWrite] using hr
  | memRead a =>
    simp only [hostTurn, hostMemRead, breakDuties_inReset]
    rw [readBesideRunning_form]
    exact hr
  | irqRead => rwa [hostTurn, hostIrqRead, observeIdle_inReset]
  | reset asserted =>
    cases asserted with
    | true => rfl
    | false => exact absurd rfl hop
  | engine n => exact hr

/-- Settles O28: asserting is `resetMachine`, and a sane state in reset has nothing running and no flag set. -/
theorem resetClearsRegisters : Obligations.ResetClearsRegisters := by
  refine ⟨fun s => ?_, fun s h hr => ?_, fun s => rfl⟩
  · exact ⟨readReg_resetMachine s, rfl, rfl, rfl, rfl, memAfterReset_idle, resetMachine_inv⟩
  · obtain ⟨hb, hz⟩ := h.asserted hr
    obtain ⟨hdone, herr⟩ := flags_clear_inReset h hr
    exact ⟨hz, by simp [State.irq, hdone, herr], engineTurn_still (.inl hb), hostTurn_regWrite_inReset hr,
      fun op => hostTurn_inReset hr⟩

end Sys2Proof.Proofs

namespace Sys2Proof.Proofs

open Sys2Proof.Machine

/-! ## One unit of the walk (spec/46_dispatch.md R310) -/

/-- Granted one step, the engine on a running command takes one engine step. -/
theorem engineTurn_one {s : State} {i : Instr} (hb : s.busy = true) (hd : decode s.d.cmd = .ok i) {t : State}
    (e : engineStep (commandOf i) { s with slice := some 1 } = .next t) :
    engineTurn { s with slice := some 1 } = .next t := by
  rw [engineTurn_steps (s := { s with slice := some 1 }) hb rfl Nat.one_ne_zero hd, ← Nat.zero_add 1,
    runSteps_succ (s := { s with slice := some 1 }) hb e, runSteps_zero]

/-! ### The sequencer (spec/10_state.md R22) -/

/-- In a grid of `cols` by `rows`, `t` stands one unit further on than position `(bx, by_)`, or past the walk where that is
the last unit. -/
def NextInRaster (cols rows bx by_ : Nat) (t : State) : Prop :=
  (by_ * cols + bx + 1 < rows * cols →
    t.phase = .walk ∧ t.scr.bx < cols ∧ t.scr.by_ < rows ∧ t.scr.by_ * cols + t.scr.bx = by_ * cols + bx + 1) ∧
  (by_ * cols + bx + 1 = rows * cols → t.phase = .finish)

/-- The sequencer goes to the next unit in raster order. -/
theorem advance_nextInRaster {c : Command} {s : State} (hp : s.phase = .walk) (hx : s.scr.bx < c.cols s.d)
    (hy : s.scr.by_ < c.rows s.d) : NextInRaster (c.cols s.d) (c.rows s.d) s.scr.bx s.scr.by_ (advance c s) := by
  have hrow : (s.scr.by_ + 1) * c.cols s.d = s.scr.by_ * c.cols s.d + c.cols s.d := Nat.add_one_mul ..
  rcases advance_cases c s with ⟨hlt, e⟩ | ⟨hge, hlt, e⟩ | ⟨hge, hge', e⟩
  · have hnot_last : (s.scr.by_ + 1) * c.cols s.d ≤ c.rows s.d * c.cols s.d := Nat.mul_le_mul_right _ hy
    rw [e]
    exact ⟨fun _ => ⟨hp, hlt, hy, rfl⟩, fun _ => by omega⟩
  · have hnot_last : (s.scr.by_ + 1 + 1) * c.cols s.d ≤ c.rows s.d * c.cols s.d := Nat.mul_le_mul_right _ hlt
    rw [Nat.add_one_mul (s.scr.by_ + 1)] at hnot_last
    rw [e]
    refine ⟨fun _ => ⟨hp, Nat.lt_of_le_of_lt (Nat.zero_le _) hx, hlt, ?_⟩, fun _ => by omega⟩
    show (s.scr.by_ + 1) * c.cols s.d + 0 = _
    omega
  · have hlast : c.rows s.d = s.scr.by_ + 1 := by omega
    rw [e]
    exact ⟨fun _ => by rw [hlast] at *; omega, fun _ => rfl⟩

theorem advance_cur (c : Command) (s : State) : (advance c s).scr.cur = s.scr.cur := by
  rcases advance_cases c s with ⟨-, h⟩ | ⟨-, -, h⟩ | ⟨-, -, h⟩ <;> rw [h]

/-- Settles O38: the unit moves the cursor, `advance` the position. -/
theorem sequencerIsRasterOrder : Obligations.SequencerIsRasterOrder := by
  intro s i h hb hp hd
  obtain ⟨ha, hu⟩ := h.atUnit hb hp hd
  obtain ⟨owner, image, hunits⟩ := all_units i ha
  obtain ⟨scr, m, e, -, hbx, hby, hcur, -⟩ :=
    stepUnit_spec (s := { s with slice := some 1 }) hunits rfl h.mem ⟨hu.bx, hu.by_, hu.cur⟩
  have hstep := (engineStep_walk (c := commandOf i) (s := { s with slice := some 1 }) hp).trans e
  refine ⟨_, engineTurn_one hb hd hstep, by rw [advance_busy]; exact hb, by rw [advance_cur]; exact hcur, ?_⟩
  have hnext := advance_nextInRaster (c := commandOf i)
    (s := { s with slice := some 1, scr := scr, mem := m }) hp (hbx ▸ hu.bx) (hby ▸ hu.by_)
  simp only [commandOf_cols, commandOf_rows, hbx, hby] at hnext
  exact hnext

/-! ### The ramp tables (spec/10_state.md R37) -/

/-- The three ramp tables: the colour ramp and the two scalar ramps. -/
def rampTables (scr : Scratch) : Vector Pixel 4 × Vector Byte 8 × Vector Byte 8 := (scr.cramp, scr.sramp0, scr.sramp1)

theorem advance_rampTables (c : Command) (s : State) : rampTables (advance c s).scr = rampTables s.scr := by
  rcases advance_cases c s with ⟨-, h⟩ | ⟨-, -, h⟩ | ⟨-, -, h⟩ <;> rw [h] <;> rfl

/-- The scratch state after a unit is the decoder's, but for the sequencer. -/
theorem stepUnit_eq_advance {c : Command} {s t : State} {u : UnitOut} (hu : c.decodeUnit s = .ok u)
    (e : stepUnit c s = .next t) : ∃ m, t = advance c { s with scr := u.scr, mem := m } := by
  simp only [stepUnit, hu] at e
  split at e
  · cases e
  · exact ⟨_, (Host.Outcome.next.inj e).symm⟩

/-- One engine step of the walk leaves the ramp tables that the unit's decoder built. -/
theorem unitStep_rampTables {s : State} {i : Instr} (h : s.Inv) (hb : s.busy = true) (hp : s.phase = .walk)
    (hd : decode s.d.cmd = .ok i) {u : UnitOut} (hu : (commandOf i).decodeUnit { s with slice := some 1 } = .ok u) :
    ∃ t, engineTurn { s with slice := some 1 } = .next t ∧ rampTables t.scr = rampTables u.scr := by
  have hstep := engineStep_walk (c := commandOf i) (s := { s with slice := some 1 }) hp
  obtain ⟨t, e, -⟩ := engineStep_outcome (turn_inv h (some 1) s.script) hb hd
  obtain ⟨m, rfl⟩ := stepUnit_eq_advance hu (hstep.symm.trans e)
  exact ⟨_, engineTurn_one hb hd e, advance_rampTables _ _⟩

/-! #### Blocks -/

/-- `color_ramp_bc` of the colour block at source offset `o`. -/
def colourRampAt (s : State) (o : Nat) : Vector Pixel 4 :=
  colorRampBc (u16le (srcByte s o) (srcByte s (o + 1))) (u16le (srcByte s (o + 2)) (srcByte s (o + 3)))

/-- The scalar ramp of the scalar block at source offset `o`. -/
def scalarRampAt (mode : SignMode) (s : State) (o : Nat) : Vector Byte 8 :=
  scalarRamp mode (srcByte s o) (srcByte s (o + 1))

/-- A block decoder loads the ramp tables `tables` with a block inside the source window. -/
def LoadsRamps (bpb : Nat) (block : Window → Memory → Scratch → Nat → Except Halt BlockOut)
    (tables : State → Nat → Vector Pixel 4 × Vector Byte 8 × Vector Byte 8) : Prop :=
  ∀ (s : State) (o : Nat), o + bpb ≤ s.d.src.len → Fits s.d.src →
    ∃ b, block s.d.src s.mem s.scr o = .ok b ∧ rampTables b.scr = tables s o

theorem bc1Block_loadsRamps :
    LoadsRamps 8 bc1Block fun s o => (colourRampAt s o, s.scr.sramp0, s.scr.sramp1) := fun s o h hf =>
  ⟨_, by unfold bc1Block; rw [readColorBlock_ok h hf]; rfl, rfl⟩

theorem bc2Block_loadsRamps :
    LoadsRamps 16 bc2Block fun s o => (colourRampAt s (o + 8), s.scr.sramp0, s.scr.sramp1) := fun s o h hf =>
  ⟨_, by
    unfold bc2Block
    rw [readU32le_ok (by omega) hf, readU32le_ok (by omega) hf, readColorBlock_ok (by omega) hf]
    rfl, rfl⟩

theorem bc3Block_loadsRamps :
    LoadsRamps 16 bc3Block fun s o => (colourRampAt s (o + 8), scalarRampAt .unsigned s o, s.scr.sramp1) :=
  fun s o h hf =>
  ⟨_, by
    unfold bc3Block
    rw [readScalarBlock_ok (by omega) hf, readColorBlock_ok (by omega) hf]
    rfl, rfl⟩

theorem bc4Block_loadsRamps (mode : SignMode) :
    LoadsRamps 8 (bc4Block mode) fun s o => (s.scr.cramp, scalarRampAt mode s o, s.scr.sramp1) := fun s o h hf =>
  ⟨_, by unfold bc4Block; rw [readScalarBlock_ok h hf]; rfl, rfl⟩

theorem bc5Block_loadsRamps (mode : SignMode) :
    LoadsRamps 16 (bc5Block mode) fun s o => (s.scr.cramp, scalarRampAt mode s o, scalarRampAt mode s (o + 8)) :=
  fun s o h hf =>
  ⟨_, by
    unfold bc5Block
    rw [readScalarBlock_ok (by omega) hf, readScalarBlock_ok (by omega) hf]
    rfl, rfl⟩

theorem blockBytes_mem (i : Instr) : blockBytes i ∈ [1, 4, 8, 16] := by
  unfold blockBytes
  split <;> decide

/-- The source of an accepted BCn command has the length its grid needs (spec/46_dispatch.md R306). -/
theorem srcLen_of_accepted_bcn {i : Instr} {d : Desc} {bpb : Nat} {lin : Bool} {bhl2 : BitVec 3}
    {block : Window → Memory → Scratch → Nat → Except Halt BlockOut} (hi : commandOf i = bcnCommand bpb lin bhl2 block)
    (hg : groupOf i = .bcn) (ha : Accepted i d) : d.srcLen.toNat = bcnNeed bpb lin bhl2 d := by
  obtain ⟨-, -, -, hsrc, -⟩ := ha
  unfold SourceFits at hsrc
  rw [hg] at hsrc
  rw [hsrc, ← commandOf_need, hi]
  rfl

/-- One engine step of a BCn command loads the ramp tables with the block at the sequencer position. -/
theorem bcnStep_rampTables {s : State} {i : Instr} (h : s.Inv) (hb : s.busy = true) (hp : s.phase = .walk)
    (hd : decode s.d.cmd = .ok i) (hg : groupOf i = .bcn)
    {block : Window → Memory → Scratch → Nat → Except Halt BlockOut}
    {tables : State → Nat → Vector Pixel 4 × Vector Byte 8 × Vector Byte 8}
    (hi : commandOf i = bcnCommand (blockBytes i) (linearSource i) (BitVec.ofNat 3 (blockHeightLog2 i)) block)
    (hblock : LoadsRamps (blockBytes i) block tables) :
    ∃ t, engineTurn { s with slice := some 1 } = .next t ∧
      rampTables t.scr = tables { s with slice := some 1 } (bcnBlockOffset (blockBytes i) (linearSource i)
        (BitVec.ofNat 3 (blockHeightLog2 i)) s.d s.scr.bx s.scr.by_) := by
  obtain ⟨ha, hat⟩ := h.atUnit hb hp hd
  rw [hi] at hat
  have hin := bcn_block_in_source (blockBytes_mem i) (srcLen_of_accepted_bcn hi hg ha) hat.bx hat.by_
  obtain ⟨b, e, hramps⟩ := hblock { s with slice := some 1 } _ hin (ha.src_fits (by simp [usesSource, hg]))
  rw [← hramps]
  refine unitStep_rampTables h hb hp hd (u := ⟨b.scr, clippedWrites s.d s.scr.bx s.scr.by_ b.texel⟩) ?_
  rw [hi]
  show bcnUnit _ _ _ block { s with slice := some 1 } = _
  unfold bcnUnit
  rw [e]
  rfl

/-! #### GX.CMPR (spec/44_gx_tiled.md R261, R262) -/

/-- `color_ramp_cmpr` of the sub-block at source offset `o`. -/
def cmprRampAt (s : State) (o : Nat) : Vector Pixel 4 :=
  colorRampCmpr (u16be (srcByte s o) (srcByte s (o + 1))) (u16be (srcByte s (o + 2)) (srcByte s (o + 3)))

theorem cmprSubBlock_ramp {s : State} (scr : Scratch) {o : Nat} (x0 y0 : Nat) (h : o + 8 ≤ s.d.src.len)
    (hf : Fits s.d.src) :
    ∃ u, cmprSubBlock s scr o x0 y0 = .ok u ∧ u.scr = { scr with cramp := cmprRampAt s o } :=
  ⟨_, by
    unfold cmprSubBlock
    rw [readU16be_ok (by omega) hf, readU16be_ok (by omega) hf, readU8_ok (by omega) hf, readU8_ok (by omega) hf,
      readU8_ok (by omega) hf, readU8_ok (by omega) hf]
    rfl, rfl⟩

/-- Of the sub-blocks `k` to `k + n` the last leaves its ramp. -/
theorem cmprQuadrants_ramp {s : State} {o : Nat} (hf : Fits s.d.src) : ∀ (n k : Nat) (scr : Scratch),
    o + 8 * (k + n) + 8 ≤ s.d.src.len →
    ∃ u, cmprQuadrants s o (n + 1) k scr = .ok u ∧ u.scr = { scr with cramp := cmprRampAt s (o + 8 * (k + n)) } := by
  intro n
  induction n with
  | zero =>
    intro k scr h
    obtain ⟨u, e, hu⟩ := cmprSubBlock_ramp (o := o + 8 * k) scr (s.scr.bx * 8 + k % 2 * 4) (s.scr.by_ * 8 + k / 2 * 4)
      h hf
    exact ⟨⟨u.scr, u.writes ++ []⟩, by simp only [cmprQuadrants, e, bind, Except.bind]; rfl, hu⟩
  | succ n ih =>
    intro k scr h
    obtain ⟨u, e, hu⟩ := cmprSubBlock_ramp (o := o + 8 * k) scr (s.scr.bx * 8 + k % 2 * 4) (s.scr.by_ * 8 + k / 2 * 4)
      (by omega) hf
    obtain ⟨v, e', hv⟩ := ih (k + 1) u.scr (by omega)
    refine ⟨⟨v.scr, u.writes ++ v.writes⟩, ?_, ?_⟩
    · rw [cmprQuadrants]
      simp only [e, e', bind, Except.bind]
      rfl
    · rw [hv, hu, Nat.add_right_comm k 1 n]
      rfl

/-- One engine step of GX.CMPR leaves the colour ramp of the lower right sub-block. -/
theorem cmprStep_cramp {s : State} (h : s.Inv) (hb : s.busy = true) (hp : s.phase = .walk)
    (hd : decode s.d.cmd = .ok .gxCmpr) :
    ∃ t, engineTurn { s with slice := some 1 } = .next t ∧
      t.scr.cramp = cmprRampAt s ((s.scr.by_ * unitCols .gxCmpr s.d + s.scr.bx) * 32 + 24) := by
  obtain ⟨ha, hat⟩ := h.atUnit hb hp hd
  have htile : (s.scr.by_ * unitCols .gxCmpr s.d + s.scr.bx + 1) * 32 ≤ s.d.src.len :=
    ha.gx_tile (.inl rfl) hat.bx hat.by_
  obtain ⟨u, e, hu⟩ := cmprQuadrants_ramp (s := { s with slice := some 1 })
    (o := (s.scr.by_ * unitCols .gxCmpr s.d + s.scr.bx) * 32) (ha.src_fits rfl) 3 0 s.scr (by
      show _ ≤ s.d.src.len
      omega)
  obtain ⟨t, et, ht⟩ := unitStep_rampTables h hb hp hd (u := u) e
  exact ⟨t, et, (congrArg Prod.fst ht).trans (congrArg Scratch.cramp hu)⟩

/-! #### The statement -/

theorem bcnCommand_ofNat_toNat (bpb : Nat) (lin : Bool) (bhl2 : BitVec 3)
    (block : Window → Memory → Scratch → Nat → Except Halt BlockOut) :
    bcnCommand bpb lin bhl2 block = bcnCommand bpb lin (BitVec.ofNat 3 bhl2.toNat) block := by
  rw [BitVec.ofNat_toNat, BitVec.setWidth_eq]

/-- Settles O40: the block decoder of each command loads the tables the statement names. -/
theorem unitsBuildTheirRamps : Obligations.UnitsBuildTheirRamps := by
  intro s i h hb hp hd hi
  cases i with
  | bc1 srgb lin bhl2 =>
    obtain ⟨t, e, ht⟩ := bcnStep_rampTables h hb hp hd rfl (bcnCommand_ofNat_toNat ..) bc1Block_loadsRamps
    exact ⟨t, e, congrArg Prod.fst ht⟩
  | bc2 srgb lin bhl2 =>
    obtain ⟨t, e, ht⟩ := bcnStep_rampTables h hb hp hd rfl (bcnCommand_ofNat_toNat ..) bc2Block_loadsRamps
    exact ⟨t, e, congrArg Prod.fst ht⟩
  | bc3 srgb lin bhl2 =>
    obtain ⟨t, e, ht⟩ := bcnStep_rampTables h hb hp hd rfl (bcnCommand_ofNat_toNat ..) bc3Block_loadsRamps
    exact ⟨t, e, congrArg Prod.fst ht, congrArg (·.2.1) ht⟩
  | bc4u srgb lin bhl2 =>
    obtain ⟨t, e, ht⟩ := bcnStep_rampTables h hb hp hd rfl (bcnCommand_ofNat_toNat ..) (bc4Block_loadsRamps .unsigned)
    exact ⟨t, e, congrArg (·.2.1) ht⟩
  | bc4s lin bhl2 =>
    obtain ⟨t, e, ht⟩ := bcnStep_rampTables h hb hp hd rfl (bcnCommand_ofNat_toNat ..) (bc4Block_loadsRamps .signed)
    exact ⟨t, e, congrArg (·.2.1) ht⟩
  | bc5u srgb lin bhl2 =>
    obtain ⟨t, e, ht⟩ := bcnStep_rampTables h hb hp hd rfl (bcnCommand_ofNat_toNat ..) (bc5Block_loadsRamps .unsigned)
    exact ⟨t, e, congrArg (·.2.1) ht, congrArg (·.2.2) ht⟩
  | bc5s lin bhl2 =>
    obtain ⟨t, e, ht⟩ := bcnStep_rampTables h hb hp hd rfl (bcnCommand_ofNat_toNat ..) (bc5Block_loadsRamps .signed)
    exact ⟨t, e, congrArg (·.2.1) ht, congrArg (·.2.2) ht⟩
  | gxCmpr => exact cmprStep_cramp h hb hp hd
  | deswz | gxI4 | gxI8 | gxIa4 | gxIa8 | gxRgb565 | gxRgb5a3 | gxRgba8 | gxC4 | gxC8 | gxC14x2 | palIa8 | palRgb565
  | palRgb5a3 => simp [groupOf] at hi

end Sys2Proof.Proofs

namespace Sys2Proof.Proofs

open Sys2Proof.Machine

/-! ## No state of one command reaches the next (spec/10_state.md R20, spec/46_dispatch.md R316)

From a fresh START a command is either refused by its checks, which look at the descriptor alone, or leaves its image in
memory. The image reads no scratch state but, under the paletted commands, the palette entries below the count; these the
fill has loaded from memory by then. So two runs that differ in scratch state only leave the same memory, and every other
field of the state they end in is a function of the common part of the two. -/

/-- The palette RAM holds the palette window's entries, as the fill leaves it (spec/45_palette.md R294). -/
def LoadedPalette (fmt : PalFmt) (s : State) (scr : Scratch) : Prop :=
  scr.palN = palCount s.d ∧ ∀ k, (hk : k < Config.palRamEntries) → k < palCount s.d →
    scr.pal[k] = palFmtPixel fmt (u16be (byteAt s.mem s.d.pal (2 * k)) (byteAt s.mem s.d.pal (2 * k + 1)))

/-- The two scratch states have the same palette entries, as many as the count says. -/
def SamePalette (scr scr' : Scratch) : Prop :=
  scr'.palN = scr.palN ∧ ∀ k, (hk : k < Config.palRamEntries) → k < scr.palN → scr'.pal[k] = scr.pal[k]

theorem LoadedPalette.same {fmt : PalFmt} {s : State} {scr scr' : Scratch} (h : LoadedPalette fmt s scr)
    (h' : LoadedPalette fmt s scr') : SamePalette scr scr' :=
  ⟨h'.1.trans h.1.symm, fun k hk hn => by
    rw [h.1] at hn
    rw [h.2 k hk hn, h'.2 k hk hn]⟩

/-! ### What an image reads of the scratch state -/

/-- The image of the command `i` depends on the scratch state through the palette of a paletted command only. -/
def ReadsPaletteOnly (i : Instr) (image : State → Nat → Option Byte) : Prop :=
  ∀ (s : State) (scr : Scratch), (groupOf i = .gxPaletted → SamePalette s.scr scr) → image { s with scr := scr } = image s

theorem paletteLookup_samePalette {s : State} {scr : Scratch} (h : SamePalette s.scr scr) (o n : Nat) :
    paletteLookup { s with scr := scr } o n = paletteLookup s o n := by
  obtain ⟨hn, hpal⟩ := h
  unfold paletteLookup
  simp only [hn]
  split
  · rename_i hlt
    by_cases hk : n < Config.palRamEntries
    · simp [Vector.getD, hk, hpal n hk hlt]
    · simp [Vector.getD, hk]
  · rfl

/-- The image of a format of the generic GX walk reads what its pixels read. -/
theorem gxImage_readsPaletteOnly {i : Instr} {f : GxFormat}
    (h : ∀ (s : State) (scr : Scratch) (o : Nat) (v : BitVec 16), SamePalette s.scr scr →
      f.pixelOf { s with scr := scr } o v = f.pixelOf s o v) (hg : groupOf i = .gxPaletted) :
    ReadsPaletteOnly i fun s o => some (rasterByte s.d.w (gxPixelOf f s) o) := by
  intro s scr hsame
  have hpix : gxPixelOf f { s with scr := scr } = gxPixelOf f s := by
    funext x y
    exact h s scr _ _ (hsame hg)
  simp only [hpix]

/-- Every accepted command has an image as `all_units` says, and it reads no more of the scratch state than that. -/
theorem all_units_readsPaletteOnly (i : Instr) {d : Desc} (ha : Accepted i d) :
    ∃ owner image, UnitsOk (commandOf i) d (cursorStep i) owner image ∧ ReadsPaletteOnly i image := by
  cases i with
  | deswz bhl2 => exact ⟨_, _, deswz_units ha, fun _ _ _ => rfl⟩
  | bc1 srgb lin bhl2 => exact ⟨_, _, bcn_units bc1Block_ok rfl rfl (by decide) rfl ha, fun _ _ _ => rfl⟩
  | bc2 srgb lin bhl2 => exact ⟨_, _, bcn_units bc2Block_ok rfl rfl (by decide) rfl ha, fun _ _ _ => rfl⟩
  | bc3 srgb lin bhl2 => exact ⟨_, _, bcn_units bc3Block_ok rfl rfl (by decide) rfl ha, fun _ _ _ => rfl⟩
  | bc4u srgb lin bhl2 => exact ⟨_, _, bcn_units (bc4Block_ok .unsigned) rfl rfl (by decide) rfl ha, fun _ _ _ => rfl⟩
  | bc4s lin bhl2 => exact ⟨_, _, bcn_units (bc4Block_ok .signed) rfl rfl (by decide) rfl ha, fun _ _ _ => rfl⟩
  | bc5u srgb lin bhl2 => exact ⟨_, _, bcn_units (bc5Block_ok .unsigned) rfl rfl (by decide) rfl ha, fun _ _ _ => rfl⟩
  | bc5s lin bhl2 => exact ⟨_, _, bcn_units (bc5Block_ok .signed) rfl rfl (by decide) rfl ha, fun _ _ _ => rfl⟩
  | gxI4 => exact ⟨_, _, gx_units (f := formatI4) rfl (.inl rfl) rfl rfl rfl rfl (by decide) rfl rfl
      (fun _ _ _ _ _ _ _ => rfl) ha, fun _ _ _ => rfl⟩
  | gxI8 => exact ⟨_, _, gx_units (f := formatI8) rfl (.inl rfl) rfl rfl rfl rfl (by decide) rfl rfl
      (fun _ _ _ _ _ _ _ => rfl) ha, fun _ _ _ => rfl⟩
  | gxIa4 => exact ⟨_, _, gx_units (f := formatIa4) rfl (.inl rfl) rfl rfl rfl rfl (by decide) rfl rfl
      (fun _ _ _ _ _ _ _ => rfl) ha, fun _ _ _ => rfl⟩
  | gxIa8 => exact ⟨_, _, gx_units (f := formatIa8) rfl (.inl rfl) rfl rfl rfl rfl (by decide) rfl rfl
      (fun _ _ _ _ _ _ _ => rfl) ha, fun _ _ _ => rfl⟩
  | gxRgb565 => exact ⟨_, _, gx_units (f := formatRgb565) rfl (.inl rfl) rfl rfl rfl rfl (by decide) rfl rfl
      (fun _ _ _ _ _ _ _ => rfl) ha, fun _ _ _ => rfl⟩
  | gxRgb5a3 => exact ⟨_, _, gx_units (f := formatRgb5a3) rfl (.inl rfl) rfl rfl rfl rfl (by decide) rfl rfl
      (fun _ _ _ _ _ _ _ => rfl) ha, fun _ _ _ => rfl⟩
  | gxRgba8 => exact ⟨_, _, rgba8_units ha, fun _ _ _ => rfl⟩
  | gxC4 pal => exact ⟨_, _, gx_units (f := formatC4) rfl (.inr rfl) rfl rfl rfl rfl (by decide) rfl rfl
      (fun _ _ _ _ h1 h2 h3 => by simp only [formatC4, pixelIndexed, paletteLookup, h1, h2, h3]) ha,
      gxImage_readsPaletteOnly (fun _ _ o v h => paletteLookup_samePalette h o v.toNat) rfl⟩
  | gxC8 pal => exact ⟨_, _, gx_units (f := formatC8) rfl (.inr rfl) rfl rfl rfl rfl (by decide) rfl rfl
      (fun _ _ _ _ h1 h2 h3 => by simp only [formatC8, pixelIndexed, paletteLookup, h1, h2, h3]) ha,
      gxImage_readsPaletteOnly (fun _ _ o v h => paletteLookup_samePalette h o v.toNat) rfl⟩
  | gxC14x2 pal => exact ⟨_, _, gx_units (f := formatC14x2) rfl (.inr rfl) rfl rfl rfl rfl (by decide) rfl rfl
      (fun _ _ _ _ h1 h2 h3 => by simp only [formatC14x2, pixelC14x2, paletteLookup, h1, h2, h3]) ha,
      gxImage_readsPaletteOnly (fun _ _ o v h => paletteLookup_samePalette h o (v.extractLsb' 0 14).toNat) rfl⟩
  | gxCmpr => exact ⟨_, _, cmpr_units ha, fun _ _ _ => rfl⟩
  | palIa8 => exact ⟨_, _, pal_units (fmt := .ia8) rfl rfl ha, fun _ _ _ => rfl⟩
  | palRgb565 => exact ⟨_, _, pal_units (fmt := .rgb565) rfl rfl ha, fun _ _ _ => rfl⟩
  | palRgb5a3 => exact ⟨_, _, pal_units (fmt := .rgb5a3) rfl rfl ha, fun _ _ _ => rfl⟩

/-! ### A command from a fresh START -/

/-- The whole command is a run of enough engine steps. -/
theorem exec_eq_runSteps {s : State} (i : Instr) (hs : s.slice = none) :
    exec i s = runSteps (commandOf i) (stepBound (commandOf i) s.d) s := by
  rw [exec_eq, runCommand, hs]

/-- A refused command ends with the error of its checks. -/
theorem exec_refused {s : State} {i : Instr} (hs : Fresh s) {c : ErrCode} {info : Word}
    (hv : validate (commandOf i) s.d = .error (c, info)) : exec i s = .next (raiseError c info s) := by
  have hbound : stepBound (commandOf i) s.d =
      3 + (commandOf i).rows s.d * ((commandOf i).cols s.d + 1) + 1 := by unfold stepBound; omega
  rw [exec_eq_runSteps i hs.slice, hbound, runSteps_rejected hs.busy hs.phase hv]

/-- The image written by a run is the same for two states that agree on all that an image can read. -/
theorem imageFrom_congr {c : Command} {texels : Nat} {owner : Nat → Nat} {image : State → Nat → Option Byte}
    {s t : State} (h : UnitsOk c s.d texels owner image) (hd : t.d = s.d) (hm : t.mem = s.mem)
    (hpal : t.scr.pal = s.scr.pal) (hn : t.scr.palN = s.scr.palN) (hdr : t.draws = s.draws) (k a : Nat) :
    imageFrom c owner image k t a = imageFrom c owner image k s a := by
  unfold imageFrom
  rw [hd, hm]
  split
  · rename_i hin
    rw [h.stable t s hd rfl hpal hn hdr (fun _ _ => by rw [hm]) _ (by omega)]
  · rfl

/-- An accepted command leaves its image in memory, read off the START state with the palette loaded. -/
theorem exec_accepted {s : State} {i : Instr} (hs : Fresh s) (ha : Accepted i s.d) {owner : Nat → Nat}
    {image : State → Nat → Option Byte} (hu : UnitsOk (commandOf i) s.d (cursorStep i) owner image) :
    ∃ m scr, exec i s = .next (finished s m (outputLength i s.d)) ∧ m.wf = true ∧
      (∀ fmt, (commandOf i).fill = some fmt → LoadedPalette fmt s scr) ∧
      ∀ a, m.read a = imageFrom (commandOf i) owner image 0 { s with scr := scr } a := by
  have hv := (validate_ok_iff i s.d).2 ha
  rw [exec_eq_runSteps i hs.slice, ← commandOf_outLen]
  cases hfill : (commandOf i).fill with
  | none =>
    obtain ⟨m, e, hw, hread⟩ := runFresh_direct hu hfill rfl hs hv
    exact ⟨m, s.scr, e, hw, nofun, hread⟩
  | some fmt =>
    have hg : groupOf i = .gxPaletted := (commandOf_fill_isSome i).1 (by rw [hfill]; rfl)
    obtain ⟨m, t, e, hw, hd, hm, hdr, hn, hk, hread⟩ :=
      runFresh_paletted hu hfill rfl hs hv (ha.pal_fits (by simp [usesPalette, hg]))
    refine ⟨m, t.scr, e, hw, fun fmt' hf => ?_, fun a => ?_⟩
    · obtain rfl := Option.some.inj hf
      exact ⟨hn, hk⟩
    · rw [hread a]
      exact imageFrom_congr (s := { s with scr := t.scr }) hu hd hm rfl rfl hdr 0 a

/-- Settles O42: both runs are refused alike, or both leave the same image. -/
theorem scratchDoesNotCarryOver : Obligations.ScratchDoesNotCarryOver := by
  intro i s scr hs hx hy hc
  have hs' : Fresh { s with scr := scr } :=
    ⟨hs.busy, hs.phase, hx, hy, hc, hs.touched, hs.slice, hs.mem⟩
  cases hv : validate (commandOf i) s.d with
  | error e => rw [exec_refused hs hv, exec_refused hs' hv]; rfl
  | ok u =>
    have ha := (validate_ok_iff i s.d).1 hv
    obtain ⟨owner, image, hu, hreads⟩ := all_units_readsPaletteOnly i ha
    obtain ⟨m, scr₁, e, hw, hpal, himg⟩ := exec_accepted hs ha hu
    obtain ⟨m', scr₂, e', hw', hpal', himg'⟩ := exec_accepted hs' ha hu
    have hsame : image { s with scr := scr₂ } = image { s with scr := scr₁ } :=
      hreads { s with scr := scr₁ } scr₂ fun hg => by
        obtain ⟨fmt, hfmt⟩ := Option.isSome_iff_exists.1 ((commandOf_fill_isSome i).2 hg)
        exact (hpal fmt hfmt).same (hpal' fmt hfmt)
    obtain rfl : m' = m := Memory.ext_read hw' hw fun a => by
      rw [himg a, himg' a]
      simp only [imageFrom, hsame]
    rw [e, e']
    rfl

end Sys2Proof.Proofs

namespace Sys2Proof.Proofs

open Sys2Proof.Machine

/-! ## The schedule (spec/46_dispatch.md R300, spec/20_memory.md R74) -/

/-- Granted a step, the engine on a running command takes that command's meaning. -/
theorem engineTurn_eq_exec {s : State} {i : Instr} (hb : s.busy = true) (hs : s.slice ≠ some 0)
    (hd : decode s.d.cmd = .ok i) : engineTurn s = exec i s := by
  simp only [engineTurn, runningCommand, hd]
  rw [if_neg (by simp [hb, hs])]

theorem step_of_script_nil {s : State} (h : s.script = []) : step s = engineTurn { s with slice := none } := by
  rw [step, h]

theorem step_of_engine_turn {s : State} {n : Option Nat} {rest : List HostOp} (h : s.script = .engine n :: rest) :
    step s = engineTurn { s with script := rest, slice := n } := by
  rw [step, h]

theorem step_of_host_turn {s : State} {op : HostOp} {rest : List HostOp} (h : s.script = op :: rest)
    (hop : ∀ n, op ≠ .engine n) : step s = .next (hostTurn op { s with script := rest }) := by
  cases op with
  | engine n => exact absurd rfl (hop n)
  | regWrite | regRead | memWrite | memRead | irqRead | reset => simp only [step, h]

/-- With no turn to come a step is the whole running command. -/
theorem step_runs_command {s : State} {i : Instr} (h : s.script = []) (hb : s.busy = true)
    (hd : decode s.d.cmd = .ok i) : step s = exec i { s with slice := none } :=
  (step_of_script_nil h).trans (engineTurn_eq_exec (s := { s with slice := none }) hb nofun hd)

/-- The word placed is CMD of the shadow descriptor. -/
theorem withFetchWord_cmd (s : State) {w : Nat} (hw : w < 2 ^ 32) :
    (s.withFetchWord 32 w).d.cmd = BitVec.ofNat 32 w := by
  show BitVec.ofNat 32 (w % 2 ^ 32) = BitVec.ofNat 32 w
  rw [Nat.mod_eq_of_lt hw]

/-- Settles O60: `step` on each form of the schedule, then the engine's turn. -/
theorem stepRunsDecodedCommand : Obligations.StepRunsDecodedCommand := by
  intro s i rest
  refine ⟨step_runs_command, fun n h hn hb hd => ?_, fun h hb => ?_, fun op => step_of_host_turn, fun w hw hd => ?_⟩
  · rw [step_of_engine_turn h]
    exact engineTurn_eq_exec (s := { s with script := rest, slice := n }) hb hn hd
  · rw [step_of_script_nil h]
    exact engineTurn_still (.inl hb)
  · have hcmd := withFetchWord_cmd s hw
    exact ⟨step_runs_command rfl rfl (by rw [hcmd, hd]), hcmd⟩

/-! ## Host accesses beside the running command (spec/20_memory.md R72, spec/70_reset_and_hazards.md R366) -/

theorem inRunningDst_of_readBreaks {s : State} {a : Nat} (hb : s.busy = true) (h : ReadBreaks s.d a) :
    inRunningDst s a = true := by
  rw [inRunningDst, hb, (inDst_iff s.d a).2 h]
  rfl

/-- A read inside the destination window of a running command is recorded and takes one event. -/
theorem readBesideRunning_inside {s : State} {a : Nat} (hb : s.busy = true) (h : ReadBreaks s.d a) :
    readBesideRunning s a =
      { s with memData := (readBesideRunning s a).memData, touched := true, draws := s.draws + 1 } := by
  rw [readBesideRunning, if_pos (inRunningDst_of_readBreaks hb h)]

/-- The old or the new value, where the checks accept the command. -/
theorem readBesideRunning_accepted {s : State} {a : Nat} {i : Instr} (h : s.Inv) (hr : Runs i s)
    (hin : ReadBreaks s.d a) :
    ∃ u, engineTurn { s with slice := none } = .next u ∧ u.done = true ∧
      (readBesideRunning s a).memData =
        if Config.takesNew s.draws (a - s.d.dstBase.toNat) then u.mem.read a else s.old.read a := by
  obtain ⟨hb, hd, ha⟩ := hr
  obtain ⟨m, e, hc, -⟩ := completed_accepted h hb hd ha
  exact ⟨_, e, rfl, by rw [readBesideRunning, if_pos (inRunningDst_of_readBreaks hb hin), hc]; rfl⟩

/-- The byte in memory, where the checks refuse the command. -/
theorem readBesideRunning_refused {s : State} {a : Nat} {i : Instr} (h : s.Inv) (hb : s.busy = true)
    (hd : decode s.d.cmd = .ok i) (ha : ¬ Accepted i s.d) (hin : ReadBreaks s.d a) :
    (readBesideRunning s a).memData = s.mem.read a := by
  rw [readBesideRunning, if_pos (inRunningDst_of_readBreaks hb hin), completed_refused h hb hd ha]

/-- Settles O30: with no duty to an ended command broken, the access is the one beside the running command. -/
theorem hostMemoryAccesses : Obligations.HostMemoryAccesses := by
  intro s a b h
  refine ⟨fun hn => ?_, fun hn => ?_⟩
  · have hw : hostTurn (.memWrite a b) s = writeBesideRunning s a.toNat b := hostMemWrite_none hn
    rw [hw]
    exact ⟨rfl, fun x => Memory.read_write h.mem _ x b, writeBesideRunning_breaks⟩
  · have hr : hostTurn (.memRead a) s = readBesideRunning s a.toNat := hostMemRead_none hn
    rw [hr]
    refine ⟨readBesideRunning_outside, fun hb hin => ⟨by rw [readBesideRunning_inside hb hin], fun i hd => ⟨?_, ?_⟩⟩⟩
    · exact fun ha => readBesideRunning_accepted h ⟨hb, hd, ha⟩ hin
    · exact fun ha => readBesideRunning_refused h hb hd ha hin

end Sys2Proof.Proofs

namespace Sys2Proof.Proofs

open Sys2Proof.Machine

/-! ## Broken duties (spec/20_memory.md R72, spec/70_reset_and_hazards.md R366)

A command that was touched while it ran runs like any other up to its completion, which then frees its whole output range.
An access to a command that has ended is `hostMemWrite` or `hostMemRead`; what they can do is said in their spec lemmas,
and the read beside the running command adds the byte that the host finds. -/

/-! ### Touched while it runs -/

/-- The completion of a touched command puts a free value at every byte of its output range. -/
theorem completeCommand_touched {n : Nat} {s : State} (hm : s.mem.wf = true) (hn : s.d.dstBase.toNat + n ≤ 2 ^ 32)
    (ht : s.touched = true) :
    ∃ m, completeCommand n s = .ok (finished s m n) ∧
      ∀ o < n, m.read (s.d.dstBase.toNat + o) = Config.hazardByte s.draws o := by
  have hfits : ∀ w ∈ hazardWrites s.draws n, s.d.dstBase.toNat + w.1 < Config.memSize := fun w hw => by
    have := (mem_hazardWrites.1 hw).1
    simp only [Config.memSize]
    omega
  obtain ⟨m, e, -⟩ := applyWrites_spec hm hfits
  refine ⟨m, by rw [completeCommand_eq, if_pos ht, e]; rfl, fun o ho => ?_⟩
  exact applyWrites_image (f := Config.hazardByte s.draws) hm hfits (fun w hw => (mem_hazardWrites.1 hw).2) e
    (mem_hazardWrites.2 ⟨ho, rfl⟩)

theorem engineStep_touched {i : Instr} {s : State} (hp : s.phase = .finish) (hm : s.mem.wf = true)
    (ha : Accepted i s.d) (ht : s.touched = true) :
    ∃ m, engineStep (commandOf i) s = .next (finished s m (outputLength i s.d)) ∧
      ∀ o < outputLength i s.d, m.read (s.d.dstBase.toNat + o) = Config.hazardByte s.draws o := by
  obtain ⟨m, e, hread⟩ := completeCommand_touched hm ha.fits ht
  exact ⟨m, by rw [engineStep_finish hp, stepFinish, commandOf_outLen, e], hread⟩

theorem haltWith_done {x : Halt} {s t : State} (e : haltWith x s = .next t) : t.done = s.done := by
  cases x with
  | error c => rw [← Host.Outcome.next.inj e, raiseError_done]
  | fault f => cases e

/-- Only the completion sets DONE. -/
theorem engineStep_done {c : Command} {s t : State} (hp : s.phase ≠ .finish) (e : engineStep c s = .next t) :
    t.done = s.done := by
  cases hph : s.phase with
  | check =>
    rw [engineStep_check hph, stepCheck] at e
    split at e
    · rw [← Host.Outcome.next.inj e, raiseError_done]
    · rw [← Host.Outcome.next.inj e]
  | fill =>
    rw [engineStep_fill hph, stepFill] at e
    split at e
    · rw [← Host.Outcome.next.inj e]
    · split at e
      · exact haltWith_done e
      · rw [← Host.Outcome.next.inj e]
  | walk =>
    rw [engineStep_walk hph, stepUnit] at e
    split at e
    · exact haltWith_done e
    · split at e
      · cases e
      · rw [← Host.Outcome.next.inj e, advance_done]
  | finish => exact absurd hph hp

/-- A run of a touched command that comes to DONE leaves free values in the whole output range. -/
theorem runSteps_touched {i : Instr} : ∀ (n : Nat) {s t : State}, s.Inv → Runs i s → s.touched = true →
    runSteps (commandOf i) n s = .next t → t.done = true → ∀ o < outputLength i s.d,
    t.mem.read (s.d.dstBase.toNat + o) = Config.hazardByte s.draws o := by
  intro n
  induction n with
  | zero =>
    intro s t h hr _ e hdone
    obtain rfl := Host.Outcome.next.inj e
    exact absurd ⟨hr.1, hdone⟩ h.busy_done
  | succ n ih =>
    intro s t h hr ht e hdone
    obtain ⟨hb, hd, ha⟩ := hr
    by_cases hp : s.phase = .finish
    · obtain ⟨m, hu, hread⟩ := engineStep_touched hp h.mem ha ht
      rw [runSteps_succ hb hu, runSteps_idle rfl] at e
      obtain rfl := Host.Outcome.next.inj e
      exact hread
    · obtain ⟨u, hu, hinv, -⟩ := engineStep_inv h hb hd
      obtain ⟨u', hu', ho⟩ := engineStep_outcome h hb hd
      obtain rfl : u = u' := Host.Outcome.next.inj (hu.symm.trans hu')
      rw [runSteps_succ hb hu] at e
      cases ho with
      | running _ scr p _ =>
        exact ih (s := { s with scr := scr, mem := _, phase := p }) hinv ⟨hb, hd, ha⟩ ht e hdone
      | failed _ hr' _ => exact absurd ⟨i, hb, hd, ha⟩ hr'
      | done _ _ => exact absurd ⟨hb, (engineStep_done hp hu).symm⟩ h.busy_done

/-- The whole of a touched command: DONE, its output range free, every other byte as before. -/
theorem engineTurn_touched {s : State} {i : Instr} (h : s.Inv) (hr : Runs i s) (ht : s.touched = true)
    (hs : s.slice = none) :
    ∃ m, engineTurn s = .next (finished s m (outputLength i s.d)) ∧ SameOutside i s.d s.mem m ∧
      ∀ o < outputLength i s.d, m.read (s.d.dstBase.toNat + o) = Config.hazardByte s.draws o := by
  obtain ⟨m, e, -, hframe⟩ := h.run_whole hr.1 hr.2.1 hr.2.2
  exact ⟨m, (engineTurn_whole hr.1 hs hr.2.1).trans e, hframe, runSteps_touched _ h hr ht e rfl⟩

/-! ### Touched after its end -/

theorem hostMemWrite_touched (s : State) (a : Nat) (b : Byte) :
    (hostMemWrite s a b).touched = (writeBesideRunning s a b).touched := breakDuties_touched ..

/-- The state in which a host write breaks its duties, in the statement's terms: the byte stored, the touch recorded. -/
theorem hostMemWrite_broken {s : State} (h : s.Inv) {a : Nat} (ha : a < Config.memSize) (b : Byte)
    (hx : ∃ e ∈ s.ended, WriteBreaks e.d a) :
    DutiesBroken (fun e => WriteBreaks e.d a)
      { s with mem := s.mem.write a b, touched := (hostMemWrite s a b).touched } (hostMemWrite s a b) := by
  have hd := (hostMemWrite_spec h ha b).2 hx
  rwa [hostMemWrite_touched]

/-- The byte that a host read finds, before the ended commands are looked at. -/
theorem readBesideRunning_memData {s : State} (h : s.Inv) (a : Nat) :
    ((readBesideRunning s a).memData = s.mem.read a ∧ ¬ ((∃ i, Runs i s) ∧ Covers s.d.dst a)) ∨
      ((∃ i, Runs i s) ∧ Covers s.d.dst a ∧ ∃ u, engineTurn { s with slice := none } = .next u ∧ u.done = true ∧
        ((readBesideRunning s a).memData = s.old.read a ∨ (readBesideRunning s a).memData = u.mem.read a)) := by
  by_cases hin : s.busy = true ∧ ReadBreaks s.d a
  · obtain ⟨hb, hrd⟩ := hin
    have ⟨i, hd, hcov⟩ := hrd
    by_cases ha : Accepted i s.d
    · obtain ⟨u, e, hdone, hbyte⟩ := readBesideRunning_accepted h ⟨hb, hd, ha⟩ hrd
      refine .inr ⟨⟨i, hb, hd, ha⟩, hcov, u, e, hdone, ?_⟩
      rw [hbyte]
      split
      · exact .inr rfl
      · exact .inl rfl
    · refine .inl ⟨readBesideRunning_refused h hb hd ha hrd, fun ⟨⟨j, _, hj, ha'⟩, _⟩ => ?_⟩
      obtain rfl : i = j := Except.ok.inj (hd.symm.trans hj)
      exact ha ha'
  · exact .inl ⟨by rw [readBesideRunning_outside hin], fun ⟨⟨i, hb, hd, _⟩, hcov⟩ => hin ⟨hb, i, hd, hcov⟩⟩

/-- What a host read beside the running command records: the touch, and with it one event. -/
theorem readBesideRunning_breaks {s : State} {a : Nat} :
    ((readBesideRunning s a).touched = true ↔ s.touched = true ∨ (s.busy = true ∧ ReadBreaks s.d a)) ∧
      ((readBesideRunning s a).draws = s.draws ∨
        (s.busy = true ∧ ReadBreaks s.d a ∧ (readBesideRunning s a).draws = s.draws + 1)) := by
  by_cases hin : s.busy = true ∧ ReadBreaks s.d a
  · rw [readBesideRunning_inside hin.1 hin.2]
    exact ⟨by simp [hin], .inr ⟨hin.1, hin.2, rfl⟩⟩
  · rw [readBesideRunning_outside hin]
    exact ⟨by simp [hin], .inl rfl⟩

theorem hostMemRead_touched (s : State) (a : Nat) :
    (hostMemRead s a).touched = (readBesideRunning s a).touched := breakDuties_touched ..

/-- The state in which a host read breaks its duties, in the statement's terms: the touch recorded, the event it draws at,
the byte returned. -/
theorem hostMemRead_broken {s : State} (h : s.Inv) {a : Nat} (hx : ∃ e ∈ s.ended, ReadBreaks e.d a) :
    DutiesBroken (fun e => ReadBreaks e.d a)
        { s with
          touched := (hostMemRead s a).touched
          draws := (readBesideRunning s a).draws
          memData := (hostMemRead s a).memData } (hostMemRead s a) ∧
      ((hostMemRead s a).memData = (readBesideRunning s a).memData ∨
        ∃ e ∈ s.ended, ReadBreaks e.d a ∧ (hostMemRead s a).memData = e.old.read a) := by
  obtain ⟨-, b, hb, hbroken⟩ := hostMemRead_spec h a
  have hd := hbroken hx
  obtain rfl : (hostMemRead s a).memData = b := by rw [hd.frame]
  refine ⟨?_, hb⟩
  rwa [readBesideRunning_form, ← hostMemRead_touched] at hd

/-- Settles O31: the touched command runs to its free output, and each access is its spec lemma. -/
theorem brokenDutyLeavesFreeBytes : Obligations.BrokenDutyLeavesFreeBytes := by
  refine ⟨fun s i h hb ht hs hd ha => ?_, fun s a b h => ⟨fun hx => ?_, fun hx => ?_⟩⟩
  · obtain ⟨m, e, hframe, hfree⟩ := engineTurn_touched h ⟨hb, hd, ha⟩ ht hs
    refine ⟨m, e, fun x => ?_⟩
    split
    · rename_i hin
      have := hfree (x - s.d.dstBase.toNat) (by omega)
      rwa [Nat.add_sub_cancel' hin.1] at this
    · exact hframe x ‹_›
  · have ha : a.toNat < Config.memSize := a.isLt
    refine ⟨?_, s.mem.write a.toNat b, Memory.write_wf h.mem ha b, fun x => Memory.read_write h.mem _ x b,
      hostMemWrite_broken h ha b hx⟩
    show (hostMemWrite s a.toNat b).touched = true ↔ _
    rw [hostMemWrite_touched]
    exact writeBesideRunning_breaks
  · obtain ⟨hbroken, hbyte⟩ := hostMemRead_broken h hx
    obtain ⟨htouched, hdraws⟩ := readBesideRunning_breaks (s := s) (a := a.toNat)
    refine ⟨by rwa [← hostMemRead_touched] at htouched, ⟨_, hdraws, hbroken⟩, ?_⟩
    rcases hbyte with hbyte | hended
    · have hfound := readBesideRunning_memData h a.toNat
      rw [← hbyte] at hfound
      exact hfound.imp_right .inl
    · exact .inr (.inr hended)

end Sys2Proof.Proofs

namespace Sys2Proof.Proofs

open Sys2Proof.Machine

/-! ## The output depends on the input windows only (spec/20_memory.md R64, R70)

A bounded reader answers the same for two memories that agree on its window, a halt or a value. So each unit's decoder
does, and with it the image of the command, whose byte at an offset is what the unit that owns the offset writes there.
The palette RAM holds the same entries in both runs, because the fill reads the palette window. -/

/-- The two memories hold the same bytes in the window. -/
def SameIn (w : Window) (m m' : Memory) : Prop := ∀ a, Covers w a → m'.read a = m.read a

/-- The two memories hold the same bytes in the input windows that the command `i` uses. -/
def SameInputs (i : Instr) (d : Desc) (m m' : Memory) : Prop := ∀ a, InputCovers i d a → m'.read a = m.read a

theorem SameInputs.src {i : Instr} {d : Desc} {m m' : Memory} (h : SameInputs i d m m') (hu : usesSource i = true) :
    SameIn d.src m m' := fun a ha => h a (.inl ⟨hu, ha⟩)

theorem SameInputs.pal {i : Instr} {d : Desc} {m m' : Memory} (h : SameInputs i d m m') (hu : usesPalette i = true) :
    SameIn d.pal m m' := fun a ha => h a (.inr ⟨hu, ha⟩)

/-! ### Readers (spec/40_primitives.md R130 to R137) -/

section Readers

variable {w : Window} {m m' : Memory}

theorem SameIn.byteAt (h : SameIn w m m') {o : Nat} (ho : o < w.len) : byteAt m' w o = byteAt m w o :=
  h _ ⟨Nat.le_add_right .., Nat.add_lt_add_left ho _⟩

/-- Only a read inside its window passes the bound. -/
theorem le_of_guardRead_ok {off n : Nat} {u : Unit} (h : guardRead w off n = .ok u) : off + n ≤ w.len := by
  by_contra hlt
  rw [guardRead_bounds (by omega)] at h
  cases h

/-- What is made of a read that has passed the bound matters inside the window only. -/
theorem guardRead_map_congr {α : Type} {off n : Nat} {f g : Unit → α} (h : off + n ≤ w.len → f () = g ()) :
    (guardRead w off n).map f = (guardRead w off n).map g := by
  cases hg : guardRead w off n with
  | error e => rfl
  | ok u => exact congrArg Except.ok (h (le_of_guardRead_ok hg))

theorem SameIn.readU8 (h : SameIn w m m') : readU8 w m' = readU8 w m :=
  funext fun _ => guardRead_map_congr fun _ => h.byteAt (by omega)

theorem SameIn.readU16le (h : SameIn w m m') : readU16le w m' = readU16le w m :=
  funext fun _ => guardRead_map_congr fun _ => by rw [h.byteAt (by omega), h.byteAt (by omega)]

theorem SameIn.readU16be (h : SameIn w m m') : readU16be w m' = readU16be w m :=
  funext fun _ => guardRead_map_congr fun _ => by rw [h.byteAt (by omega), h.byteAt (by omega)]

theorem SameIn.readU24le (h : SameIn w m m') : readU24le w m' = readU24le w m :=
  funext fun _ => guardRead_map_congr fun _ => by
    rw [h.byteAt (by omega), h.byteAt (by omega), h.byteAt (by omega)]

theorem SameIn.readU32le (h : SameIn w m m') : readU32le w m' = readU32le w m :=
  funext fun _ => guardRead_map_congr fun _ => by
    rw [h.byteAt (by omega), h.byteAt (by omega), h.byteAt (by omega), h.byteAt (by omega)]

theorem SameIn.readBytes (h : SameIn w m m') : readBytes w m' = readBytes w m :=
  funext fun _ => funext fun _ => guardRead_map_congr fun _ => List.map_congr_left fun k hk => by
    have := List.mem_range.1 hk
    exact h.byteAt (by omega)

/-! ### Blocks, texels and palette entries -/

theorem SameIn.readColorBlock (h : SameIn w m m') : readColorBlock w m' = readColorBlock w m := by
  funext o
  simp only [Machine.readColorBlock, h.readU16le, h.readU32le]

theorem SameIn.readScalarBlock (h : SameIn w m m') (mode : SignMode) :
    readScalarBlock mode w m' = readScalarBlock mode w m := by
  funext o
  simp only [Machine.readScalarBlock, h.readU8, h.readU24le]

theorem SameIn.bc1Block (h : SameIn w m m') : bc1Block w m' = bc1Block w m := by
  funext scr o
  simp only [Machine.bc1Block, h.readColorBlock]

theorem SameIn.bc2Block (h : SameIn w m m') : bc2Block w m' = bc2Block w m := by
  funext scr o
  simp only [Machine.bc2Block, h.readU32le, h.readColorBlock]

theorem SameIn.bc3Block (h : SameIn w m m') : bc3Block w m' = bc3Block w m := by
  funext scr o
  simp only [Machine.bc3Block, h.readScalarBlock, h.readColorBlock]

theorem SameIn.bc4Block (h : SameIn w m m') (mode : SignMode) : bc4Block mode w m' = bc4Block mode w m := by
  funext scr o
  simp only [Machine.bc4Block, h.readScalarBlock]

theorem SameIn.bc5Block (h : SameIn w m m') (mode : SignMode) : bc5Block mode w m' = bc5Block mode w m := by
  funext scr o
  simp only [Machine.bc5Block, h.readScalarBlock]

theorem SameIn.fetchTexel (h : SameIn w m m') (bits : Nat) : fetchTexel bits w m' = fetchTexel bits w m := by
  funext cur
  simp only [Machine.fetchTexel, h.readU8, h.readU16be]

theorem SameIn.palEntry {d : Desc} (h : SameIn d.pal m m') (fmt : PalFmt) : palEntry fmt d m' = palEntry fmt d m := by
  funext k
  simp only [Machine.palEntry, h.readU16be]

end Readers

/-! ### Units -/

section Units

variable {s : State} {m' : Memory}

theorem SameIn.deswzUnit (h : SameIn s.d.src s.mem m') (bhl2 : BitVec 3) :
    deswzUnit bhl2 { s with mem := m' } = deswzUnit bhl2 s := by
  simp only [Machine.deswzUnit, h.readBytes]

theorem bcnUnit_congr {block : Window → Memory → Scratch → Nat → Except Halt BlockOut}
    (h : block s.d.src m' = block s.d.src s.mem) (bpb : Nat) (lin : Bool) (bhl2 : BitVec 3) :
    bcnUnit bpb lin bhl2 block { s with mem := m' } = bcnUnit bpb lin bhl2 block s := by
  simp only [bcnUnit, h]

theorem SameIn.walkTexels (h : SameIn s.d.src s.mem m') {f : GxFormat}
    (hpix : f.pixelOf { s with mem := m' } = f.pixelOf s) : ∀ n k cur : Nat,
    walkTexels f { s with mem := m' } n k cur = walkTexels f s n k cur
  | 0, _, _ => rfl
  | n + 1, k, cur => by
    simp only [Machine.walkTexels, texelWrites, hpix, h.fetchTexel, h.walkTexels hpix n]

theorem SameIn.gxUnit (h : SameIn s.d.src s.mem m') {f : GxFormat}
    (hpix : f.pixelOf { s with mem := m' } = f.pixelOf s) : gxUnit f { s with mem := m' } = gxUnit f s := by
  simp only [Machine.gxUnit, h.walkTexels hpix]

theorem tileWrites_congr {d : Desc} {pixel pixel' : Nat → Pixel} (x0 y0 : Nat)
    (h : ∀ p < 16, pixel' p = pixel p) : tileWrites d x0 y0 pixel' = tileWrites d x0 y0 pixel :=
  List.flatMap_congr fun p hp => by rw [h p (List.mem_range.1 hp)]

theorem SameIn.rgba8Pixel {w : Window} {m : Memory} (h : SameIn w m m') {o p : Nat} (ho : o + 64 ≤ w.len)
    (hp : p < 16) : rgba8Pixel m' w o p = rgba8Pixel m w o p := by
  simp only [Machine.rgba8Pixel]
  rw [h.byteAt (by omega), h.byteAt (by omega), h.byteAt (by omega), h.byteAt (by omega)]

theorem SameIn.rgba8Unit (h : SameIn s.d.src s.mem m') : rgba8Unit { s with mem := m' } = rgba8Unit s := by
  simp only [Machine.rgba8Unit]
  cases guardRead s.d.src ((s.scr.by_ * ceilDiv s.d.w 4 + s.scr.bx) * 64) 32 with
  | error e => rfl
  | ok u =>
    cases hg : guardRead s.d.src ((s.scr.by_ * ceilDiv s.d.w 4 + s.scr.bx) * 64 + 32) 32 with
    | error e => rfl
    | ok u =>
      have := le_of_guardRead_ok hg
      simp only [tileWrites_congr _ _ fun p hp => h.rgba8Pixel (by omega) hp]

theorem SameIn.cmprSubBlock (h : SameIn s.d.src s.mem m') (scr : Scratch) (o x0 y0 : Nat) :
    cmprSubBlock { s with mem := m' } scr o x0 y0 = cmprSubBlock s scr o x0 y0 := by
  simp only [Machine.cmprSubBlock, h.readU16be, h.readU8]

theorem SameIn.cmprQuadrants (h : SameIn s.d.src s.mem m') (o : Nat) : ∀ (n k : Nat) (scr : Scratch),
    cmprQuadrants { s with mem := m' } o n k scr = cmprQuadrants s o n k scr
  | 0, _, _ => rfl
  | n + 1, k, scr => by simp only [Machine.cmprQuadrants, h.cmprSubBlock, h.cmprQuadrants o n]

theorem SameIn.palUnit (h : SameIn s.d.pal s.mem m') (fmt : PalFmt) :
    palUnit fmt { s with mem := m' } = palUnit fmt s := by
  simp only [Machine.palUnit, h.palEntry]

end Units

/-- A unit reads memory in the input windows in use only (spec/20_memory.md R64). -/
theorem decodeUnit_sameInputs (i : Instr) {s : State} {m' : Memory} (h : SameInputs i s.d s.mem m') :
    (commandOf i).decodeUnit { s with mem := m' } = (commandOf i).decodeUnit s := by
  cases i with
  | deswz bhl2 => exact (h.src rfl).deswzUnit bhl2
  | bc1 _ lin bhl2 => exact bcnUnit_congr (h.src rfl).bc1Block 8 lin bhl2
  | bc2 _ lin bhl2 => exact bcnUnit_congr (h.src rfl).bc2Block 16 lin bhl2
  | bc3 _ lin bhl2 => exact bcnUnit_congr (h.src rfl).bc3Block 16 lin bhl2
  | bc4u _ lin bhl2 => exact bcnUnit_congr ((h.src rfl).bc4Block .unsigned) 8 lin bhl2
  | bc4s lin bhl2 => exact bcnUnit_congr ((h.src rfl).bc4Block .signed) 8 lin bhl2
  | bc5u _ lin bhl2 => exact bcnUnit_congr ((h.src rfl).bc5Block .unsigned) 16 lin bhl2
  | bc5s lin bhl2 => exact bcnUnit_congr ((h.src rfl).bc5Block .signed) 16 lin bhl2
  | gxI4 | gxI8 | gxIa4 | gxIa8 | gxRgb565 | gxRgb5a3 | gxC4 | gxC8 | gxC14x2 => exact (h.src rfl).gxUnit rfl
  | gxRgba8 => exact (h.src rfl).rgba8Unit
  | gxCmpr => exact (h.src rfl).cmprQuadrants _ 4 0 s.scr
  | palIa8 | palRgb565 | palRgb5a3 => exact (h.pal rfl).palUnit _

/-! ### Images -/

/-- The state with the sequencer at the unit of raster number `n`. -/
def atUnitNumber (c : Command) (texels n : Nat) (s : State) : State :=
  { s with scr := { s.scr with bx := n % c.cols s.d, by_ := n / c.cols s.d, cur := n * texels } }

theorem atUnitNumber_atUnit {c : Command} {texels n : Nat} {s : State} (h : n < c.rows s.d * c.cols s.d) :
    AtUnit c texels (atUnitNumber c texels n s) where
  bx := Nat.mod_lt _ (Nat.pos_of_mul_pos_left (Nat.zero_lt_of_lt h))
  by_ := Nat.div_lt_of_lt_mul (by rwa [Nat.mul_comm])
  cur := congrArg (· * texels) (Nat.div_add_mod' n (c.cols s.d)).symm

theorem unitNumber_atUnitNumber (c : Command) (texels n : Nat) (s : State) :
    unitNumber c (atUnitNumber c texels n s) = n := Nat.div_add_mod' n (c.cols s.d)

/-- The image at an offset is what the unit that owns the offset writes there. -/
theorem image_eq_some_iff {c : Command} {texels : Nat} {owner : Nat → Nat}
    {image : State → Nat → Option Byte} {s : State} (h : UnitsOk c s.d texels owner image) {o : Nat}
    (ho : o < c.outLen s.d) :
    ∃ u, c.decodeUnit (atUnitNumber c texels (owner o) s) = .ok u ∧ ∀ b, image s o = some b ↔ (o, b) ∈ u.writes := by
  obtain ⟨u, e, -, -, -, -, -, sound, complete⟩ :=
    h.unit (atUnitNumber c texels (owner o) s) rfl (atUnitNumber_atUnit (h.owned o ho))
  have himg : image s o = image (atUnitNumber c texels (owner o) s) o :=
    h.stable s (atUnitNumber c texels (owner o) s) rfl rfl rfl rfl rfl (fun _ _ => rfl) o ho
  refine ⟨u, e, fun b => ?_⟩
  rw [himg]
  exact ⟨complete o ho (unitNumber_atUnitNumber c texels (owner o) s).symm b, fun hw => (sound _ hw).2.2⟩

/-- The image depends on memory through the input windows in use only. -/
theorem image_sameInputs {i : Instr} {owner : Nat → Nat} {image : State → Nat → Option Byte} {s : State}
    {m' : Memory} (h : UnitsOk (commandOf i) s.d (cursorStep i) owner image) (hm : SameInputs i s.d s.mem m') {o : Nat}
    (ho : o < outputLength i s.d) : image { s with mem := m' } o = image s o := by
  rw [← commandOf_outLen] at ho
  obtain ⟨u, e, hu⟩ := image_eq_some_iff h ho
  obtain ⟨u', e', hu'⟩ := image_eq_some_iff (s := { s with mem := m' }) h ho
  have hsame := decodeUnit_sameInputs i (s := atUnitNumber (commandOf i) (cursorStep i) (owner o) s) hm
  obtain rfl : u' = u := Except.ok.inj (e'.symm.trans (hsame.trans e))
  exact Option.ext fun b => (hu' b).trans (hu b).symm

/-- Every accepted command has an image as `all_units_readsPaletteOnly` says, with a byte at every offset that the command
writes. -/
theorem all_units_written (i : Instr) {d : Desc} (ha : Accepted i d) :
    ∃ owner image, UnitsOk (commandOf i) d (cursorStep i) owner image ∧ ReadsPaletteOnly i image ∧
      ∀ s o, WritesChannel i (o % 4) → (image s o).isSome = true := by
  cases i with
  | deswz => exact ⟨_, _, deswz_units ha, fun _ _ _ => rfl, fun _ _ _ => rfl⟩
  | bc1 => exact ⟨_, _, bcn_units bc1Block_ok rfl rfl (by decide) rfl ha, fun _ _ _ => rfl, fun _ _ _ => rfl⟩
  | bc2 => exact ⟨_, _, bcn_units bc2Block_ok rfl rfl (by decide) rfl ha, fun _ _ _ => rfl, fun _ _ _ => rfl⟩
  | bc3 => exact ⟨_, _, bcn_units bc3Block_ok rfl rfl (by decide) rfl ha, fun _ _ _ => rfl, fun _ _ _ => rfl⟩
  | bc4u | bc4s =>
    exact ⟨_, _, bcn_units (bc4Block_ok _) rfl rfl (by decide) rfl ha, fun _ _ _ => rfl,
      fun _ _ hk => congrArg Option.isSome (if_pos hk)⟩
  | bc5u | bc5s =>
    exact ⟨_, _, bcn_units (bc5Block_ok _) rfl rfl (by decide) rfl ha, fun _ _ _ => rfl, fun _ _ _ => rfl⟩
  | gxI4 | gxI8 | gxIa4 | gxIa8 | gxRgb565 | gxRgb5a3 =>
    exact ⟨_, _, gx_units rfl (.inl rfl) rfl rfl rfl rfl (by decide) rfl rfl (fun _ _ _ _ _ _ _ => rfl) ha,
      fun _ _ _ => rfl, fun _ _ _ => rfl⟩
  | gxC4 | gxC8 | gxC14x2 =>
    exact ⟨_, _, gx_units rfl (.inr rfl) rfl rfl rfl rfl (by decide) rfl rfl
      (fun _ _ _ _ h1 h2 h3 => by
        simp only [formatC4, formatC8, formatC14x2, pixelIndexed, pixelC14x2, paletteLookup, h1, h2, h3]) ha,
      gxImage_readsPaletteOnly (fun _ _ o _ h => paletteLookup_samePalette h o _) rfl, fun _ _ _ => rfl⟩
  | gxRgba8 => exact ⟨_, _, rgba8_units ha, fun _ _ _ => rfl, fun _ _ _ => rfl⟩
  | gxCmpr => exact ⟨_, _, cmpr_units ha, fun _ _ _ => rfl, fun _ _ _ => rfl⟩
  | palIa8 | palRgb565 | palRgb5a3 => exact ⟨_, _, pal_units rfl rfl ha, fun _ _ _ => rfl, fun _ _ _ => rfl⟩

/-! ### Two runs -/

/-- The fill loads the same entries from both memories (spec/45_palette.md R294). -/
theorem LoadedPalette.of_sameIn {fmt : PalFmt} {s t : State} {scr : Scratch} (h : LoadedPalette fmt t scr)
    (hd : t.d = s.d) (hm : SameIn s.d.pal s.mem t.mem) : LoadedPalette fmt s scr := by
  obtain ⟨hn, hpal⟩ := h
  rw [hd] at hn hpal
  refine ⟨hn, fun k hk hlt => ?_⟩
  have hroom : 2 * k + 1 < s.d.pal.len := by
    have : palCount s.d ≤ s.d.pal.len / 2 := Nat.min_le_left ..
    omega
  rw [hpal k hk hlt, hm.byteAt (by omega), hm.byteAt hroom]

/-- After the fill the images of two fresh runs agree. -/
theorem image_eq_of_sameInputs {i : Instr} {owner : Nat → Nat} {image : State → Nat → Option Byte} {s t : State}
    (hu : UnitsOk (commandOf i) s.d (cursorStep i) owner image) (hreads : ReadsPaletteOnly i image) (hd : t.d = s.d)
    (hdr : t.draws = s.draws) (hm : SameInputs i s.d s.mem t.mem) {scr scr' : Scratch}
    (hpal : ∀ fmt, (commandOf i).fill = some fmt → LoadedPalette fmt s scr)
    (hpal' : ∀ fmt, (commandOf i).fill = some fmt → LoadedPalette fmt t scr') {o : Nat} (ho : o < outputLength i s.d) :
    image { t with scr := scr' } o = image { s with scr := scr } o := by
  have hsame : groupOf i = .gxPaletted → SamePalette scr scr' := fun hg => by
    obtain ⟨fmt, hfmt⟩ := Option.isSome_iff_exists.1 ((commandOf_fill_isSome i).2 hg)
    exact (hpal fmt hfmt).same ((hpal' fmt hfmt).of_sameIn hd (hm.pal (by simp [usesPalette, hg])))
  calc image { t with scr := scr' } o
      = image { t with scr := scr } o := congrFun (hreads { t with scr := scr } scr' hsame) o
    _ = image { s with scr := scr, mem := t.mem } o :=
        hu.stable { t with scr := scr } { s with scr := scr, mem := t.mem } hd rfl rfl rfl hdr (fun _ _ => rfl) o
          (by rwa [commandOf_outLen])
    _ = image { s with scr := scr } o := image_sameInputs (s := { s with scr := scr }) hu hm ho

/-- Inside the output range memory holds the image's bytes. -/
theorem imageFrom_of_some {c : Command} {owner : Nat → Nat} {image : State → Nat → Option Byte} {s : State} {o : Nat}
    {b : Byte} (ho : o < c.outLen s.d) (hb : image s o = some b) :
    imageFrom c owner image 0 s (s.d.dstBase.toNat + o) = b := by
  rw [imageFrom, Nat.add_sub_cancel_left, if_pos ⟨by omega, by omega, Nat.zero_le _⟩, hb]
  rfl

/-- Completion from a sane running state leaves DONE alone in STATUS, and ERR_INFO 0. -/
theorem finished_status {s : State} (h : s.Inv) (hb : s.busy = true) (m : Memory) (n : Nat) :
    statusWord (finished s m n) = 2 ∧ (finished s m n).err = false ∧ (finished s m n).errcode = 0 ∧
      (finished s m n).errInfo = 0 := by
  have herr := err_eq_false_of_busy h hb
  have hcode := errcode_eq_zero h herr
  refine ⟨?_, herr, hcode, (h.results hb).2⟩
  apply BitVec.eq_of_toNat_eq
  rw [statusWord_toNat, finished_busy, finished_done, finished_err, finished_errcode, herr, hcode]
  rfl

/-- Settles O43: both runs leave their image, and the two images agree. -/
theorem outputDependsOnWindowsOnly : Obligations.OutputDependsOnWindowsOnly := by
  intro i s t hs ht ha hd hdr hm
  obtain ⟨owner, image, hu, hreads, hwritten⟩ := all_units_written i ha
  obtain ⟨m, scr, e, -, hpal, hread⟩ := exec_accepted hs ha hu
  obtain ⟨m', scr', e', -, hpal', hread'⟩ := exec_accepted ht (hd ▸ ha) (hd ▸ hu)
  refine ⟨_, _, e, e', by rw [hd]; rfl, rfl, rfl, rfl, rfl, fun hsi hti => ?_, fun o ho hk => ?_⟩
  · obtain ⟨hst, herr, hcode, hinfo⟩ := finished_status hsi hs.busy m (outputLength i s.d)
    obtain ⟨hst', herr', hcode', hinfo'⟩ := finished_status hti ht.busy m' (outputLength i t.d)
    exact ⟨hst, hst', herr.trans herr'.symm, hcode.trans hcode'.symm, hinfo, hinfo'⟩
  · have ho' : o < (commandOf i).outLen s.d := by rwa [commandOf_outLen]
    obtain ⟨b, hb⟩ := Option.isSome_iff_exists.1 (hwritten { s with scr := scr } o hk)
    have hb' : image { t with scr := scr' } o = some b :=
      (image_eq_of_sameInputs hu hreads hd hdr hm hpal hpal' ho).trans hb
    show m.read (s.d.dstBase.toNat + o) = m'.read (s.d.dstBase.toNat + o)
    have hbyte : m.read (s.d.dstBase.toNat + o) = b := (hread _).trans (imageFrom_of_some ho' hb)
    have hbyte' : m'.read (t.d.dstBase.toNat + o) = b :=
      (hread' _).trans (imageFrom_of_some (s := { t with scr := scr' }) (by rw [hd]; exact ho') hb')
    rw [hbyte, ← hd, hbyte']

end Sys2Proof.Proofs

namespace Sys2Proof.Proofs

open Sys2Proof.Machine

/-! ## The fields of a CMD word (spec/30_encoding.md R91)

`cmdWord` and the six field readers are inverse to each other: every field of a word that `cmdWord` puts together is the
one put in, and a word whose reserved bits are 0 is put together from its fields. -/

section CmdWord

variable (op fmt : BitVec 4) (flag : BitVec 2) (lin : Bool) (bhl2 : BitVec 3) (palfmt : BitVec 2)

/-- A slice of a CMD word, at the width that the concatenation of its nine parts has by its type: the library's rules for
a slice of a concatenation match a sum of widths, so the proofs below keep it a sum (`-Nat.reduceAdd`). -/
theorem extract_cmdWord (lo n : Nat) :
    (cmdWord op fmt flag lin bhl2 palfmt).extractLsb' lo n =
      BitVec.extractLsb' (n := 14 + 2 + 1 + 3 + 1 + 1 + 2 + 4 + 4) lo n
        (0#14 ++ palfmt ++ 0#1 ++ bhl2 ++ 0#1 ++ BitVec.ofBool lin ++ flag ++ fmt ++ op) := rfl

@[simp] theorem cmdOp_cmdWord : cmdOp (cmdWord op fmt flag lin bhl2 palfmt) = op := by
  simp [-Nat.reduceAdd, cmdOp, extract_cmdWord, BitVec.extractLsb'_append_eq_of_add_le]

@[simp] theorem cmdFmt_cmdWord : cmdFmt (cmdWord op fmt flag lin bhl2 palfmt) = fmt := by
  simp [-Nat.reduceAdd, cmdFmt, extract_cmdWord, BitVec.extractLsb'_append_eq_of_add_le,
    BitVec.extractLsb'_append_eq_of_le]

@[simp] theorem cmdFlag_cmdWord : cmdFlag (cmdWord op fmt flag lin bhl2 palfmt) = flag := by
  simp [-Nat.reduceAdd, cmdFlag, extract_cmdWord, BitVec.extractLsb'_append_eq_of_add_le,
    BitVec.extractLsb'_append_eq_of_le]

@[simp] theorem cmdLin_cmdWord : cmdLin (cmdWord op fmt flag lin bhl2 palfmt) = BitVec.ofBool lin := by
  simp [-Nat.reduceAdd, cmdLin, extract_cmdWord, BitVec.extractLsb'_append_eq_of_add_le,
    BitVec.extractLsb'_append_eq_of_le]

@[simp] theorem cmdBhl2_cmdWord : cmdBhl2 (cmdWord op fmt flag lin bhl2 palfmt) = bhl2 := by
  simp [-Nat.reduceAdd, cmdBhl2, extract_cmdWord, BitVec.extractLsb'_append_eq_of_add_le,
    BitVec.extractLsb'_append_eq_of_le]

@[simp] theorem cmdPalfmt_cmdWord : cmdPalfmt (cmdWord op fmt flag lin bhl2 palfmt) = palfmt := by
  simp [-Nat.reduceAdd, cmdPalfmt, extract_cmdWord, BitVec.extractLsb'_append_eq_of_add_le,
    BitVec.extractLsb'_append_eq_of_le]

end CmdWord

/-- The reserved bits are bit 11, bit 15 and bits 31:18 (spec/30_encoding.md R99). -/
theorem cmdReservedZero_iff (w : Word) :
    cmdReservedZero w = true ↔ w.extractLsb' 11 1 = 0 ∧ w.extractLsb' 15 1 = 0 ∧ w.extractLsb' 18 14 = 0 := by
  simp only [cmdReservedZero, Bool.and_eq_true, beq_iff_eq, and_assoc]

@[simp] theorem cmdReservedZero_cmdWord (op fmt : BitVec 4) (flag : BitVec 2) (lin : Bool) (bhl2 : BitVec 3)
    (palfmt : BitVec 2) : cmdReservedZero (cmdWord op fmt flag lin bhl2 palfmt) = true := by
  simp [-Nat.reduceAdd, cmdReservedZero_iff, extract_cmdWord, BitVec.extractLsb'_append_eq_of_add_le,
    BitVec.extractLsb'_append_eq_of_le]

theorem ofBool_of_bit (b : BitVec 1) : BitVec.ofBool (b == 1) = b := by
  revert b; decide

theorem ofBool_beq_one (b : Bool) : (BitVec.ofBool b == 1) = b := by
  cases b <;> rfl

/-- The slices of R91, from bit 31 down, make up the word. -/
theorem concat_slices (w : Word) :
    w.extractLsb' 18 14 ++ w.extractLsb' 16 2 ++ w.extractLsb' 15 1 ++ w.extractLsb' 12 3 ++ w.extractLsb' 11 1 ++
        w.extractLsb' 10 1 ++ w.extractLsb' 8 2 ++ w.extractLsb' 4 4 ++ w.extractLsb' 0 4 =
      w.extractLsb' 0 (14 + 2 + 1 + 3 + 1 + 1 + 2 + 4 + 4) := by
  simp only [BitVec.extractLsb'_append_extractLsb'_eq_extractLsb']

theorem cmdWord_fields {w : Word} (h : cmdReservedZero w = true) :
    cmdWord (cmdOp w) (cmdFmt w) (cmdFlag w) (cmdLin w == 1) (cmdBhl2 w) (cmdPalfmt w) = w := by
  obtain ⟨h11, h15, h18⟩ := (cmdReservedZero_iff w).1 h
  have hw := concat_slices w
  rw [h11, h15, h18] at hw
  rw [cmdWord, ofBool_of_bit]
  exact hw.trans BitVec.extractLsb'_eq_self

/-! ## The BCn rows

The seven BCn commands are the values of `bcnInstr` at the legal pairs of FMT and FLAG, so one argument serves them all. -/

/-- FMT and FLAG are those of a BCn row (spec/30_encoding.md R94, R95). -/
abbrev BcnRow (fmt : BitVec 4) (flag : BitVec 2) : Prop :=
  ¬ (fmt = 0 ∨ 5 < fmt.toNat) ∧ ¬ (flag = 3 ∨ (flag = 2 ∧ fmt.toNat ≤ 3))

theorem bcnRow_unsigned {fmt : BitVec 4} (h : ¬ (fmt = 0 ∨ 5 < fmt.toNat)) (srgb : Bool) :
    BcnRow fmt (unsignedFlag srgb) := by
  cases srgb <;> exact ⟨h, by simp [unsignedFlag]⟩

theorem unsignedFlag_beq_one {flag : BitVec 2} (h2 : flag ≠ 2) (h3 : flag ≠ 3) : unsignedFlag (flag == 1) = flag := by
  revert flag; decide

/-- Every BCn command is a row of `bcnInstr`. -/
theorem exists_bcnRow {i : Instr} (hg : groupOf i = .bcn) :
    ∃ fmt flag lin bhl2, BcnRow fmt flag ∧ i = bcnInstr fmt flag lin bhl2 := by
  cases i with
  | bc1 srgb lin bhl2 =>
    exact ⟨1, unsignedFlag srgb, lin, bhl2, bcnRow_unsigned (by decide) srgb, by cases srgb <;> rfl⟩
  | bc2 srgb lin bhl2 =>
    exact ⟨2, unsignedFlag srgb, lin, bhl2, bcnRow_unsigned (by decide) srgb, by cases srgb <;> rfl⟩
  | bc3 srgb lin bhl2 =>
    exact ⟨3, unsignedFlag srgb, lin, bhl2, bcnRow_unsigned (by decide) srgb, by cases srgb <;> rfl⟩
  | bc4u srgb lin bhl2 =>
    exact ⟨4, unsignedFlag srgb, lin, bhl2, bcnRow_unsigned (by decide) srgb, by cases srgb <;> rfl⟩
  | bc4s lin bhl2 => exact ⟨4, 2, lin, bhl2, by decide, rfl⟩
  | bc5u srgb lin bhl2 =>
    exact ⟨5, unsignedFlag srgb, lin, bhl2, bcnRow_unsigned (by decide) srgb, by cases srgb <;> rfl⟩
  | bc5s lin bhl2 => exact ⟨5, 2, lin, bhl2, by decide, rfl⟩
  | _ => cases hg

theorem encode_bcnInstr {fmt : BitVec 4} {flag : BitVec 2} (h : BcnRow fmt flag) (lin : Bool) (bhl2 : BitVec 3) :
    encode (bcnInstr fmt flag lin bhl2) = cmdWord 2 fmt flag lin bhl2 0 := by
  obtain ⟨hfmt, hflag⟩ := h
  rw [not_or] at hfmt hflag
  obtain ⟨h0, h5⟩ := hfmt
  obtain ⟨hne3, hsnorm⟩ := hflag
  have hunsigned (hle : fmt.toNat ≤ 3 ∨ flag ≠ 2) : unsignedFlag (flag == 1) = flag :=
    unsignedFlag_beq_one (fun h2 => hle.elim (fun hle => hsnorm ⟨h2, hle⟩) fun hne => hne h2) hne3
  simp only [bcnInstr]
  split_ifs with h1 h2 h3 h4 hs hs
  · rw [encode, hunsigned (.inl (by simp [h1])), h1]
  · rw [encode, hunsigned (.inl (by simp [h2])), h2]
  · rw [encode, hunsigned (.inl (by simp [h3])), h3]
  · rw [encode, hs, h4]
  · rw [encode, hunsigned (.inr hs), h4]
  all_goals
    have hfmt5 : fmt = 5 := by bv_omega
  · rw [encode, hs, hfmt5]
  · rw [encode, hunsigned (.inr hs), hfmt5]

theorem wellFormed_bcnInstr (fmt : BitVec 4) (flag : BitVec 2) (lin : Bool) (bhl2 : BitVec 3) :
    (bcnInstr fmt flag lin bhl2).wellFormed = srcModeLegal lin bhl2 := by
  simp only [bcnInstr]
  split_ifs <;> rfl

theorem bhl2Legal_iff (bhl2 : BitVec 3) : bhl2Legal bhl2 = true ↔ ¬ 5 < bhl2.toNat := by
  rw [bhl2Legal, decide_eq_true_eq, Config.bhl2Max, Nat.not_lt]

/-- The source mode as the decoder checks it, on the LIN bit. -/
theorem srcModeLegal_iff (lin : BitVec 1) (bhl2 : BitVec 3) :
    srcModeLegal (lin == 1) bhl2 = true ↔ ¬ (lin = 1 ∧ bhl2 ≠ 0) ∧ ¬ (lin = 0 ∧ 5 < bhl2.toNat) := by
  have hlin : lin = 0 ∨ lin = 1 := by revert lin; decide
  obtain rfl | rfl := hlin
  · simp [srcModeLegal, bhl2Legal_iff]
  · simp [srcModeLegal]

/-! ## The decoders: what each decodes, and its operands -/

/-- With the reserved bits 0, OP alone selects the group's decoder (spec/30_encoding.md R93). -/
theorem decode_of_reservedZero {w : Word} (h : cmdReservedZero w = true) :
    decode w =
      if cmdOp w = 0 ∨ 4 < (cmdOp w).toNat then .error .reservedOp
      else if cmdOp w = 1 then decodeDeswz w
      else if cmdOp w = 2 then decodeBcn w
      else if cmdOp w = 3 then decodeGx w
      else decodePal w := by
  simp [decode, h]

/-- A word that decodes has its reserved bits 0 and is read by the decoder of its OP. -/
theorem decode_eq_ok {w : Word} {i : Instr} (h : decode w = .ok i) :
    cmdReservedZero w = true ∧
      ((cmdOp w = 1 ∧ decodeDeswz w = .ok i) ∨ (cmdOp w = 2 ∧ decodeBcn w = .ok i) ∨
        (cmdOp w = 3 ∧ decodeGx w = .ok i) ∨ (cmdOp w = 4 ∧ decodePal w = .ok i)) := by
  simp only [decode] at h
  split_ifs at h with hop hz h1 h2 h3
  all_goals refine ⟨by simpa using hz, ?_⟩
  · exact .inl ⟨h1, h⟩
  · exact .inr (.inl ⟨h2, h⟩)
  · exact .inr (.inr (.inl ⟨h3, h⟩))
  · exact .inr (.inr (.inr ⟨by bv_omega, h⟩))

theorem decodeDeswz_eq_ok_iff {w : Word} {i : Instr} :
    decodeDeswz w = .ok i ↔
      (cmdFmt w = 0 ∧ cmdFlag w = 0 ∧ cmdLin w = 0 ∧ cmdPalfmt w = 0 ∧ bhl2Legal (cmdBhl2 w) = true) ∧
        .deswz (cmdBhl2 w) = i := by
  rw [bhl2Legal_iff, decodeDeswz]
  split_ifs with hfmt hunused hblock <;> grind

theorem decodeBcn_eq_ok_iff {w : Word} {i : Instr} :
    decodeBcn w = .ok i ↔
      (BcnRow (cmdFmt w) (cmdFlag w) ∧ cmdPalfmt w = 0 ∧ srcModeLegal (cmdLin w == 1) (cmdBhl2 w) = true) ∧
        bcnInstr (cmdFmt w) (cmdFlag w) (cmdLin w == 1) (cmdBhl2 w) = i := by
  rw [srcModeLegal_iff, BcnRow]
  simp only [decodeBcn]
  split_ifs with hfmt hunused hflag hblock <;> grind

theorem bcnFieldsZero_iff (w : Word) :
    bcnFieldsZero w = true ↔ cmdFlag w = 0 ∧ cmdLin w = 0 ∧ cmdBhl2 w = 0 := by
  simp only [bcnFieldsZero, Bool.and_eq_true, beq_iff_eq, and_assoc]

theorem withoutPalFmt_eq_ok_iff {w : Word} {i j : Instr} :
    withoutPalFmt w i = .ok j ↔ cmdPalfmt w = 0 ∧ i = j := by
  unfold withoutPalFmt
  split_ifs with h
  · exact iff_of_false nofun fun hj => h hj.1
  · exact ⟨fun hj => ⟨not_not.1 h, Except.ok.inj hj⟩, fun hj => congrArg _ hj.2⟩

theorem palFmtOf_eq_some_iff {v : BitVec 2} {p : PalFmt} : palFmtOf v = some p ↔ v = palFmtCode p := by
  revert v; cases p <;> decide

theorem withPalFmt_eq_ok_iff {w : Word} {mk : PalFmt → Instr} {j : Instr} :
    withPalFmt w mk = .ok j ↔ ∃ p, cmdPalfmt w = palFmtCode p ∧ mk p = j := by
  simp only [← palFmtOf_eq_some_iff]
  unfold withPalFmt
  cases palFmtOf (cmdPalfmt w) <;> simp

theorem decodeGx_eq_ok_iff {w : Word} {i : Instr} :
    decodeGx w = .ok i ↔ bcnFieldsZero w = true ∧ gxRow w = .ok i := by
  unfold decodeGx
  cases gxRow w with
  | error e => cases e <;> cases bcnFieldsZero w <;> simp
  | ok j => cases bcnFieldsZero w <;> simp

theorem decodePal_eq_ok {w : Word} {i : Instr} (h : decodePal w = .ok i) :
    (bcnFieldsZero w = true ∧ cmdPalfmt w = 0) ∧
      ((cmdFmt w = 0 ∧ .palIa8 = i) ∨ (cmdFmt w = 1 ∧ .palRgb565 = i) ∨ (cmdFmt w = 2 ∧ .palRgb5a3 = i)) := by
  simp only [decodePal] at h
  split_ifs at h with hfmt hzero h0 h1
  all_goals
    obtain ⟨hpal, hi⟩ := withoutPalFmt_eq_ok_iff.1 h
    refine ⟨⟨by simpa using hzero, hpal⟩, ?_⟩
  · exact .inl ⟨h0, hi⟩
  · exact .inr (.inl ⟨h1, hi⟩)
  · exact .inr (.inr ⟨by bv_omega, hi⟩)

/-! ## Decoding what is encoded -/

theorem decode_encode_deswz {bhl2 : BitVec 3} (h : bhl2Legal bhl2 = true) :
    decode (encode (.deswz bhl2)) = .ok (.deswz bhl2) := by
  have hd : decodeDeswz (encode (.deswz bhl2)) = .ok (.deswz bhl2) :=
    decodeDeswz_eq_ok_iff.2 (by simp [encode, h])
  rw [← hd, encode, decode_of_reservedZero (by simp)]
  simp

/-- Every operand of a BCn row is read back. -/
theorem decodeBcn_cmdWord {fmt : BitVec 4} {flag : BitVec 2} {lin : Bool} {bhl2 : BitVec 3} (hrow : BcnRow fmt flag)
    (h : srcModeLegal lin bhl2 = true) :
    decodeBcn (cmdWord 2 fmt flag lin bhl2 0) = .ok (bcnInstr fmt flag lin bhl2) := by
  rw [decodeBcn_eq_ok_iff, cmdFmt_cmdWord, cmdFlag_cmdWord, cmdLin_cmdWord, cmdBhl2_cmdWord, cmdPalfmt_cmdWord,
    ofBool_beq_one]
  exact ⟨⟨hrow, rfl, h⟩, rfl⟩

theorem decode_encode_bcn {i : Instr} (hg : groupOf i = .bcn) (h : i.wellFormed = true) :
    decode (encode i) = .ok i := by
  obtain ⟨fmt, flag, lin, bhl2, hrow, rfl⟩ := exists_bcnRow hg
  rw [wellFormed_bcnInstr] at h
  rw [encode_bcnInstr hrow, ← decodeBcn_cmdWord hrow h, decode_of_reservedZero (by simp)]
  simp

/-- Settles O1: DESWZ and the BCn commands by their field layout; the GX and PAL commands are finitely many words. -/
theorem encodeThenDecode : Obligations.EncodeThenDecode := by
  intro i h
  cases i with
  | deswz bhl2 => exact decode_encode_deswz h
  | bc1 | bc2 | bc3 | bc4u | bc4s | bc5u | bc5s => exact decode_encode_bcn rfl h
  | gxC4 pal | gxC8 pal | gxC14x2 pal => cases pal <;> rfl
  | gxI4 | gxI8 | gxIa4 | gxIa8 | gxRgb565 | gxRgb5a3 | gxRgba8 | gxCmpr => rfl
  | palIa8 | palRgb565 | palRgb5a3 => rfl

/-! ## Encoding what is decoded -/

/-- A word with reserved bits 0 is the CMD word of whatever its fields are. -/
theorem cmdWord_eq_of_fields {w : Word} (hz : cmdReservedZero w = true) {op fmt : BitVec 4} {flag : BitVec 2}
    {lin : Bool} {bhl2 : BitVec 3} {palfmt : BitVec 2} (hop : cmdOp w = op) (hfmt : cmdFmt w = fmt)
    (hflag : cmdFlag w = flag) (hlin : (cmdLin w == 1) = lin) (hbhl2 : cmdBhl2 w = bhl2) (hpal : cmdPalfmt w = palfmt) :
    cmdWord op fmt flag lin bhl2 palfmt = w := by
  subst hop hfmt hflag hlin hbhl2 hpal
  exact cmdWord_fields hz

theorem encode_of_decodeDeswz {w : Word} {i : Instr} (hz : cmdReservedZero w = true) (hop : cmdOp w = 1)
    (h : decodeDeswz w = .ok i) : i.wellFormed = true ∧ encode i = w := by
  obtain ⟨⟨hfmt, hflag, hlin, hpal, hblock⟩, rfl⟩ := decodeDeswz_eq_ok_iff.1 h
  exact ⟨hblock, cmdWord_eq_of_fields hz hop hfmt hflag (by simp [hlin]) rfl hpal⟩

theorem encode_of_decodeBcn {w : Word} {i : Instr} (hz : cmdReservedZero w = true) (hop : cmdOp w = 2)
    (h : decodeBcn w = .ok i) : i.wellFormed = true ∧ encode i = w := by
  obtain ⟨⟨hrow, hpal, hmode⟩, rfl⟩ := decodeBcn_eq_ok_iff.1 h
  rw [wellFormed_bcnInstr, encode_bcnInstr hrow]
  exact ⟨hmode, cmdWord_eq_of_fields hz hop rfl rfl rfl rfl hpal⟩

/-- A GX or PAL command's encoding has FLAG, LIN and BHL2 0 (spec/30_encoding.md R95 to R97). -/
theorem cmdWord_eq_of_bcnFieldsZero {w : Word} (hz : cmdReservedZero w = true) (hzero : bcnFieldsZero w = true)
    {op fmt : BitVec 4} {palfmt : BitVec 2} (hop : cmdOp w = op) (hfmt : cmdFmt w = fmt) (hpal : cmdPalfmt w = palfmt) :
    cmdWord op fmt 0 false 0 palfmt = w := by
  obtain ⟨hflag, hlin, hbhl2⟩ := (bcnFieldsZero_iff w).1 hzero
  exact cmdWord_eq_of_fields hz hop hfmt hflag (by simp [hlin]) hbhl2 hpal

/-- A GX row has the word's FMT and PALFMT. -/
theorem encode_of_gxRow {w : Word} {i : Instr} (h : gxRow w = .ok i) :
    i.wellFormed = true ∧ encode i = cmdWord 3 (cmdFmt w) 0 false 0 (cmdPalfmt w) := by
  simp only [gxRow, ite_eq_iff, withoutPalFmt_eq_ok_iff, withPalFmt_eq_ok_iff] at h
  obtain ⟨hfmt, hpal, rfl⟩ | ⟨-, ⟨hfmt, hpal, rfl⟩ | ⟨-, ⟨hfmt, hpal, rfl⟩ | ⟨-, ⟨hfmt, hpal, rfl⟩ | ⟨-,
    ⟨hfmt, hpal, rfl⟩ | ⟨-, ⟨hfmt, hpal, rfl⟩ | ⟨-, ⟨hfmt, hpal, rfl⟩ | ⟨-, ⟨hfmt, p, hpal, rfl⟩ | ⟨-,
    ⟨hfmt, p, hpal, rfl⟩ | ⟨-, ⟨hfmt, p, hpal, rfl⟩ | ⟨-, ⟨hfmt, hpal, rfl⟩ | ⟨-, ⟨⟩⟩⟩⟩⟩⟩⟩⟩⟩⟩⟩⟩ := h
  all_goals
    rw [hfmt, hpal]
    exact ⟨rfl, rfl⟩

theorem encode_of_decodeGx {w : Word} {i : Instr} (hz : cmdReservedZero w = true) (hop : cmdOp w = 3)
    (h : decodeGx w = .ok i) : i.wellFormed = true ∧ encode i = w := by
  obtain ⟨hzero, hrow⟩ := decodeGx_eq_ok_iff.1 h
  obtain ⟨hwf, henc⟩ := encode_of_gxRow hrow
  exact ⟨hwf, henc.trans (cmdWord_eq_of_bcnFieldsZero hz hzero hop rfl rfl)⟩

theorem encode_of_decodePal {w : Word} {i : Instr} (hz : cmdReservedZero w = true) (hop : cmdOp w = 4)
    (h : decodePal w = .ok i) : i.wellFormed = true ∧ encode i = w := by
  obtain ⟨⟨hzero, hpal⟩, ⟨hfmt, rfl⟩ | ⟨hfmt, rfl⟩ | ⟨hfmt, rfl⟩⟩ := decodePal_eq_ok h
  all_goals exact ⟨rfl, cmdWord_eq_of_bcnFieldsZero hz hzero hop hfmt hpal⟩

/-- Settles O2: each group's decoder keeps every field it reads and requires the others to be 0. -/
theorem decodeThenEncode : Obligations.DecodeThenEncode := by
  intro w i h
  obtain ⟨hz, ⟨hop, h⟩ | ⟨hop, h⟩ | ⟨hop, h⟩ | ⟨hop, h⟩⟩ := decode_eq_ok h
  · exact encode_of_decodeDeswz hz hop h
  · exact encode_of_decodeBcn hz hop h
  · exact encode_of_decodeGx hz hop h
  · exact encode_of_decodePal hz hop h

/-! ## The opcode table (spec/30_encoding.md R100) -/

theorem encode_in_row (i : Instr) : encode i &&& (tableRow i).2 = (tableRow i).1 := by
  cases i with
  | deswz => exact Laws.EncodesInRow.deswz _
  | bc1 => exact Laws.EncodesInRow.bc1 _ _ _
  | bc2 => exact Laws.EncodesInRow.bc2 _ _ _
  | bc3 => exact Laws.EncodesInRow.bc3 _ _ _
  | bc4u => exact Laws.EncodesInRow.bc4u _ _ _
  | bc4s => exact Laws.EncodesInRow.bc4s _ _
  | bc5u => exact Laws.EncodesInRow.bc5u _ _ _
  | bc5s => exact Laws.EncodesInRow.bc5s _ _
  | gxC4 => exact Laws.EncodesInRow.gxC4 _
  | gxC8 => exact Laws.EncodesInRow.gxC8 _
  | gxC14x2 => exact Laws.EncodesInRow.gxC14x2 _
  | gxI4 => exact Laws.EncodesInRow.gxI4
  | gxI8 => exact Laws.EncodesInRow.gxI8
  | gxIa4 => exact Laws.EncodesInRow.gxIa4
  | gxIa8 => exact Laws.EncodesInRow.gxIa8
  | gxRgb565 => exact Laws.EncodesInRow.gxRgb565
  | gxRgb5a3 => exact Laws.EncodesInRow.gxRgb5a3
  | gxRgba8 => exact Laws.EncodesInRow.gxRgba8
  | gxCmpr => exact Laws.EncodesInRow.gxCmpr
  | palIa8 => exact Laws.EncodesInRow.palIa8
  | palRgb565 => exact Laws.EncodesInRow.palRgb565
  | palRgb5a3 => exact Laws.EncodesInRow.palRgb5a3

/-- The bits that tell one row from another: OP, FMT and bit 9, which is FLAG's SNorm. Every mask has them. -/
def rowSelector : Word := 0x2FF

/-- The 22 rows. -/
def tableRows : List (Word × Word) :=
  [.deswz 0, .bc1 false false 0, .bc2 false false 0, .bc3 false false 0, .bc4u false false 0, .bc4s false 0,
    .bc5u false false 0, .bc5s false 0, .gxI4, .gxI8, .gxIa4, .gxIa8, .gxRgb565, .gxRgb5a3, .gxRgba8, .gxC4 .ia8,
    .gxC8 .ia8, .gxC14x2 .ia8, .gxCmpr, .palIa8, .palRgb565, .palRgb5a3].map tableRow

theorem tableRow_mem_tableRows (i : Instr) : tableRow i ∈ tableRows := by
  cases i <;> simp [tableRows, tableRow]

theorem rowSelector_in_mask : ∀ row ∈ tableRows, row.2 &&& rowSelector = rowSelector := by
  simp [tableRows, tableRow, rowSelector]

/-- No two rows have the same selector bits. -/
theorem tableRows_selectors_nodup : (tableRows.map (·.1 &&& rowSelector)).Nodup := by
  simp [tableRows, tableRow, rowSelector]

/-- A word in a row has the selector bits of the row's match. -/
theorem selector_of_in_row {w : Word} {i : Instr} (h : w &&& (tableRow i).2 = (tableRow i).1) :
    (tableRow i).1 &&& rowSelector = w &&& rowSelector := by
  rw [← h, BitVec.and_assoc, rowSelector_in_mask _ (tableRow_mem_tableRows i)]

/-- Settles O3: a word that decodes is its command's encoding, and a word's selector bits name its row. -/
theorem decodeFollowsTheTable : Obligations.DecodeFollowsTheTable := by
  refine ⟨fun w i h => ?_, fun w i j hi hj => ?_⟩
  · obtain ⟨-, rfl⟩ := decodeThenEncode w i h
    exact encode_in_row i
  · exact List.inj_on_of_nodup_map tableRows_selectors_nodup (tableRow_mem_tableRows i) (tableRow_mem_tableRows j)
      ((selector_of_in_row hi).trans (selector_of_in_row hj).symm)

/-- Settles O4: each word is the encoding of its command. -/
theorem sampleWordsDecode : Obligations.SampleWordsDecode :=
  ⟨encodeThenDecode (.bc5s false 2) rfl, encodeThenDecode (.gxC8 .rgb5a3) rfl, encodeThenDecode (.deswz 5) rfl,
    encodeThenDecode (.bc1 true true 0) rfl, encodeThenDecode .gxCmpr rfl, encodeThenDecode .palRgb565 rfl⟩

/-! ## FLAG = sRGB (spec/30_encoding.md R95) -/

/-- Settles O49: what the engine runs for a BCn command does not take FLAG's sRGB. -/
theorem srgbMakesNoDifference : Obligations.SrgbMakesNoDifference := by
  intro lin bhl2 s
  simp only [exec_eq]
  exact ⟨rfl, rfl, rfl, rfl, rfl⟩

end Sys2Proof.Proofs

namespace Sys2Proof.Proofs

open Sys2Proof.Machine

/-! ## Refused words (spec/30_encoding.md R101)

The items (1) to (7) of R101, each in the decoder's own fields. The name under which the decoder refuses a word is an item
that holds of it, and no item holds of a well-formed command's encoding; so R101's list is exactly what does not decode. -/

/-- The item of R101 that the name stands for holds of the word. -/
def RefusedFor (w : Word) : DecodeError → Prop
  | .reservedOp => cmdOp w = 0 ∨ 4 < (cmdOp w).toNat
  | .reservedBits => cmdReservedZero w = false
  | .reservedFmt =>
    (cmdOp w = 1 ∧ cmdFmt w ≠ 0) ∨ (cmdOp w = 2 ∧ (cmdFmt w = 0 ∨ 5 < (cmdFmt w).toNat)) ∨
      (cmdOp w = 3 ∧ cmdFmt w ∈ [7, 11, 12, 13, 15]) ∨ (cmdOp w = 4 ∧ 2 < (cmdFmt w).toNat)
  | .unusedField =>
    (cmdOp w = 1 ∧ (cmdFlag w ≠ 0 ∨ cmdLin w ≠ 0 ∨ cmdPalfmt w ≠ 0)) ∨
      (cmdOp w = 2 ∧ (cmdPalfmt w ≠ 0 ∨ (cmdLin w = 1 ∧ cmdBhl2 w ≠ 0))) ∨
      (cmdOp w = 3 ∧ (bcnFieldsZero w = false ∨ (cmdPalfmt w ≠ 0 ∧ cmdFmt w ∉ [8, 9, 10]))) ∨
      (cmdOp w = 4 ∧ (bcnFieldsZero w = false ∨ cmdPalfmt w ≠ 0))
  | .badFlag => cmdOp w = 2 ∧ (cmdFlag w = 3 ∨ (cmdFlag w = 2 ∧ cmdFmt w ∈ [1, 2, 3]))
  | .badBlockHeight => (cmdOp w = 1 ∨ (cmdOp w = 2 ∧ cmdLin w = 0)) ∧ 5 < (cmdBhl2 w).toNat
  | .badPaletteFormat => cmdOp w = 3 ∧ cmdFmt w ∈ [8, 9, 10] ∧ cmdPalfmt w = 3

theorem exists_decodeError {p : DecodeError → Prop} :
    (∃ e, p e) ↔ p .reservedOp ∨ p .reservedBits ∨ p .reservedFmt ∨ p .unusedField ∨ p .badFlag ∨ p .badBlockHeight ∨
      p .badPaletteFormat := by
  constructor
  · rintro ⟨e, he⟩
    cases e <;> simp [he]
  · rintro (h | h | h | h | h | h | h)
    all_goals exact ⟨_, h⟩

/-- R101 in the words of the decoder. -/
theorem refusedWord_iff (w : Word) : RefusedWord w ↔ ∃ e, RefusedFor w e := by
  have hop : field w 0 4 = (cmdOp w).toNat := (field_eq_extract w 0 4).symm
  have hfmt : field w 4 4 = (cmdFmt w).toNat := (field_eq_extract w 4 4).symm
  have hflag : field w 8 2 = (cmdFlag w).toNat := (field_eq_extract w 8 2).symm
  have hlin : field w 10 1 = (cmdLin w).toNat := (field_eq_extract w 10 1).symm
  have hbhl2 : field w 12 3 = (cmdBhl2 w).toNat := (field_eq_extract w 12 3).symm
  have hpal : field w 16 2 = (cmdPalfmt w).toNat := (field_eq_extract w 16 2).symm
  have hzero := bcnFieldsZero_iff w
  have hres := cmdReservedZero_iff w
  rw [exists_decodeError]
  simp only [RefusedWord, hop, hfmt, hflag, hlin, hbhl2, hpal, ← field_eq_extract]
  refine or_congr ?_ (or_congr ?_ (or_congr ?_ (or_congr ?_ (or_congr ?_ (or_congr ?_ ?_)))))
  · show _ ↔ cmdOp w = 0 ∨ 4 < (cmdOp w).toNat
    bv_omega
  · simp only [RefusedFor, Bool.eq_false_iff, ne_eq, hres]
    bv_omega
  · simp only [RefusedFor, List.mem_cons, List.not_mem_nil, or_false]
    bv_omega
  · simp only [RefusedFor, List.mem_cons, List.not_mem_nil, or_false, Bool.eq_false_iff, ne_eq, hzero]
    bv_omega
  · simp only [RefusedFor, List.mem_cons, List.not_mem_nil, or_false]
    bv_omega
  · rw [RefusedFor]
    bv_omega
  · simp only [RefusedFor, List.mem_cons, List.not_mem_nil, or_false]
    bv_omega

theorem decodeDeswz_refusedFor {w : Word} {e : DecodeError} (hop : cmdOp w = 1) (h : decodeDeswz w = .error e) :
    RefusedFor w e := by
  unfold decodeDeswz at h
  split_ifs at h with hfmt hunused hblock
  all_goals cases h
  · exact .inl ⟨hop, hfmt⟩
  · exact .inl ⟨hop, hunused⟩
  · exact ⟨.inl hop, hblock⟩

theorem decodeBcn_refusedFor {w : Word} {e : DecodeError} (hop : cmdOp w = 2) (h : decodeBcn w = .error e) :
    RefusedFor w e := by
  simp only [decodeBcn] at h
  split_ifs at h with hfmt hunused hflag hblock
  all_goals cases h
  · exact .inr (.inl ⟨hop, hfmt⟩)
  · exact .inr (.inl ⟨hop, hunused⟩)
  · refine ⟨hop, hflag.imp_right fun ⟨hsnorm, hle⟩ => ⟨hsnorm, ?_⟩⟩
    simp only [List.mem_cons, List.not_mem_nil, or_false]
    bv_omega
  · exact ⟨.inr ⟨hop, hblock.1⟩, hblock.2⟩

theorem withoutPalFmt_eq_error_iff {w : Word} {i : Instr} {e : DecodeError} :
    withoutPalFmt w i = .error e ↔ cmdPalfmt w ≠ 0 ∧ .unusedField = e := by
  unfold withoutPalFmt
  split_ifs with h
  · exact ⟨fun he => ⟨h, Except.error.inj he⟩, fun he => congrArg _ he.2⟩
  · exact iff_of_false nofun fun he => h he.1

theorem palFmtOf_eq_none_iff {v : BitVec 2} : palFmtOf v = none ↔ v = 3 := by
  revert v; decide

theorem withPalFmt_eq_error_iff {w : Word} {mk : PalFmt → Instr} {e : DecodeError} :
    withPalFmt w mk = .error e ↔ cmdPalfmt w = 3 ∧ .badPaletteFormat = e := by
  simp only [← palFmtOf_eq_none_iff]
  unfold withPalFmt
  cases palFmtOf (cmdPalfmt w) <;> simp

/-- Why FMT and PALFMT select no GX row. -/
theorem gxRow_eq_error {w : Word} {e : DecodeError} (h : gxRow w = .error e) :
    (.reservedFmt = e ∧ cmdFmt w ∈ [7, 11, 12, 13, 15]) ∨ (.unusedField = e ∧ cmdPalfmt w ≠ 0 ∧ cmdFmt w ∉ [8, 9, 10]) ∨
      (.badPaletteFormat = e ∧ cmdFmt w ∈ [8, 9, 10] ∧ cmdPalfmt w = 3) := by
  simp only [gxRow, ite_eq_iff, withoutPalFmt_eq_error_iff, withPalFmt_eq_error_iff, Except.error.injEq] at h
  simp only [List.mem_cons, List.not_mem_nil, or_false]
  cases e <;> simp only [reduceCtorEq, and_false, and_true, or_false, false_or, false_and, true_and] at h ⊢
  all_goals bv_omega

theorem decodeGx_eq_error {w : Word} {e : DecodeError} (h : decodeGx w = .error e) :
    gxRow w = .error e ∨ (bcnFieldsZero w = false ∧ .unusedField = e) := by
  unfold decodeGx at h
  split at h
  · next hrow => exact .inl (hrow.trans h)
  · split_ifs at h with hzero
    · exact .inl h
    · exact .inr ⟨by simpa using hzero, Except.error.inj h⟩

theorem decodeGx_refusedFor {w : Word} {e : DecodeError} (hop : cmdOp w = 3) (h : decodeGx w = .error e) :
    RefusedFor w e := by
  obtain hrow | ⟨hzero, rfl⟩ := decodeGx_eq_error h
  · obtain ⟨rfl, hfmt⟩ | ⟨rfl, hunused⟩ | ⟨rfl, hpal⟩ := gxRow_eq_error hrow
    · exact .inr (.inr (.inl ⟨hop, hfmt⟩))
    · exact .inr (.inr (.inl ⟨hop, .inr hunused⟩))
    · exact ⟨hop, hpal⟩
  · exact .inr (.inr (.inl ⟨hop, .inl hzero⟩))

theorem decodePal_refusedFor {w : Word} {e : DecodeError} (hop : cmdOp w = 4) (h : decodePal w = .error e) :
    RefusedFor w e := by
  simp only [decodePal] at h
  split_ifs at h with hfmt hzero h0 h1
  · cases h
    exact .inr (.inr (.inr ⟨hop, hfmt⟩))
  · cases h
    exact .inr (.inr (.inr ⟨hop, .inl (by simpa using hzero)⟩))
  all_goals
    obtain ⟨hpal, rfl⟩ := withoutPalFmt_eq_error_iff.1 h
    exact .inr (.inr (.inr ⟨hop, .inr hpal⟩))

/-- The decoder's reason for refusing a word is true of it. -/
theorem decode_refusedFor {w : Word} {e : DecodeError} (h : decode w = .error e) : RefusedFor w e := by
  simp only [decode] at h
  split_ifs at h with hop hz h1 h2 h3
  · cases h
    exact hop
  · cases h
    exact show cmdReservedZero w = false by simpa using hz
  · exact decodeDeswz_refusedFor h1 h
  · exact decodeBcn_refusedFor h2 h
  · exact decodeGx_refusedFor h3 h
  · exact decodePal_refusedFor (by bv_omega) h

theorem not_refusedFor_cmdWord_bcn {fmt : BitVec 4} {flag : BitVec 2} {lin : Bool} {bhl2 : BitVec 3}
    (hrow : BcnRow fmt flag) (hmode : srcModeLegal lin bhl2 = true) (e : DecodeError) :
    ¬ RefusedFor (cmdWord 2 fmt flag lin bhl2 0) e := by
  obtain ⟨hfmt, hflag⟩ := hrow
  obtain ⟨hlin, hblock⟩ := (srcModeLegal_iff (BitVec.ofBool lin) bhl2).1 (by rwa [ofBool_beq_one])
  cases e with
  | reservedOp | reservedBits | badPaletteFormat => simp [RefusedFor]
  | reservedFmt => simpa [RefusedFor] using hfmt
  | unusedField => simpa [RefusedFor] using hlin
  | badFlag =>
    simp only [RefusedFor, cmdOp_cmdWord, cmdFlag_cmdWord, cmdFmt_cmdWord, List.mem_cons, List.not_mem_nil, or_false]
    bv_omega
  | badBlockHeight => simpa [RefusedFor] using hblock

theorem not_refusedFor_encode_bcn {i : Instr} (hg : groupOf i = .bcn) (h : i.wellFormed = true) (e : DecodeError) :
    ¬ RefusedFor (encode i) e := by
  obtain ⟨fmt, flag, lin, bhl2, hrow, rfl⟩ := exists_bcnRow hg
  rw [wellFormed_bcnInstr] at h
  rw [encode_bcnInstr hrow]
  exact not_refusedFor_cmdWord_bcn hrow h e

theorem not_refusedFor_encode {i : Instr} (h : i.wellFormed = true) (e : DecodeError) : ¬ RefusedFor (encode i) e := by
  cases i with
  | deswz bhl2 =>
    have hblock : ¬ 5 < bhl2.toNat := (bhl2Legal_iff bhl2).1 h
    cases e <;> simp [RefusedFor, encode, hblock]
  | bc1 | bc2 | bc3 | bc4u | bc4s | bc5u | bc5s => exact not_refusedFor_encode_bcn rfl h e
  | gxC4 pal | gxC8 pal | gxC14x2 pal =>
    cases pal <;> cases e <;> simp [RefusedFor, encode, palFmtCode, bcnFieldsZero]
  | gxI4 | gxI8 | gxIa4 | gxIa8 | gxRgb565 | gxRgb5a3 | gxRgba8 | gxCmpr =>
    cases e <;> simp [RefusedFor, encode, bcnFieldsZero]
  | palIa8 | palRgb565 | palRgb5a3 => cases e <;> simp [RefusedFor, encode, bcnFieldsZero]

/-- R101's items (1) to (7) are the whole list of words that select no command. -/
theorem refusedWord_iff_not_decoded (w : Word) : RefusedWord w ↔ ¬ ∃ i, decode w = .ok i := by
  rw [refusedWord_iff]
  constructor
  · rintro ⟨e, he⟩ ⟨i, hi⟩
    obtain ⟨hwf, rfl⟩ := decodeThenEncode w i hi
    exact not_refusedFor_encode hwf e he
  · intro h
    cases hd : decode w with
    | error e => exact ⟨e, decode_refusedFor hd⟩
    | ok i => exact absurd ⟨i, hd⟩ h

/-! ## Refused descriptors -/

theorem field_op_encode_eq_one_iff (i : Instr) : field (encode i) 0 4 = 1 ↔ groupOf i = .deswz := by
  have hop : field (encode i) 0 4 = (cmdOp (encode i)).toNat := (field_eq_extract _ 0 4).symm
  rw [hop]
  cases i <;> simp [encode, groupOf]

/-- A descriptor is on the list of R101 unless its CMD word selects a command that check 1 accepts. -/
theorem refusedDescriptor_iff (d : Desc) : RefusedDescriptor d ↔ ¬ ∃ i, decode d.cmd = .ok i ∧ Supported i d := by
  cases hd : decode d.cmd with
  | error e =>
    have hw : RefusedWord d.cmd := (refusedWord_iff_not_decoded d.cmd).2 (by simp [hd])
    simp [RefusedDescriptor, hw]
  | ok i =>
    have hw : ¬ RefusedWord d.cmd := fun hw => (refusedWord_iff_not_decoded d.cmd).1 hw ⟨i, hd⟩
    obtain ⟨hwf, henc⟩ := decodeThenEncode d.cmd i hd
    have hop : field d.cmd 0 4 = 1 ↔ groupOf i = .deswz := henc ▸ field_op_encode_eq_one_iff i
    simp [RefusedDescriptor, Supported, hw, hop, hwf]

/-- A failed check ends the command in the engine's turn, however many steps it is granted (spec/46_dispatch.md R302). -/
theorem engineTurn_of_validate_error {s : State} {i : Instr} {c : ErrCode} {info : Word} (hb : s.busy = true)
    (hp : s.phase = .check) (hs : s.slice ≠ some 0) (hd : decode s.d.cmd = .ok i)
    (hv : validate (commandOf i) s.d = .error (c, info)) : engineTurn s = .next (raiseError c info s) := by
  cases hsl : s.slice with
  | none => exact engineTurn_rejected hb hsl hp hd hv
  | some n =>
    obtain ⟨k, rfl⟩ : ∃ k, n = k + 1 := Nat.exists_eq_succ_of_ne_zero fun hn => hs (hn ▸ hsl)
    rw [engineTurn_steps hb hsl k.succ_ne_zero hd, runSteps_rejected hb hp hv]

theorem validate_eq_unsup {i : Instr} {d : Desc} (h : ¬ Supported i d) :
    validate (commandOf i) d = .error (.unsup, 0) := by
  obtain ⟨-, hv⟩ | ⟨hs, -⟩ | ⟨hs, -⟩ | ⟨hs, -⟩ | ⟨hs, -⟩ | ⟨⟨hs, -⟩, -⟩ := validate_cases i d
  · exact hv
  all_goals exact absurd hs h

/-- Checks 2 to 5 have codes of their own (spec/60_exceptions.md R331). -/
theorem code_ne_one_of_supported {i : Instr} {d : Desc} {c : ErrCode} {info : Word} (h : Supported i d)
    (hv : validate (commandOf i) d = .error (c, info)) : c.code ≠ 1 := by
  obtain ⟨hs, -⟩ | ⟨-, -, e⟩ | ⟨-, -, -, e⟩ | ⟨-, -, -, -, e⟩ | ⟨-, -, -, -, -, e⟩ | ⟨-, e⟩ := validate_cases i d
  · exact absurd h hs
  all_goals cases e.symm.trans hv
  all_goals decide

theorem engineTurn_of_refused {s : State} (hb : s.busy = true) (hp : s.phase = .check) (hs : s.slice ≠ some 0)
    (h : RefusedDescriptor s.d) : engineTurn s = .next (raiseError .unsup 0 s) := by
  rw [refusedDescriptor_iff] at h
  cases hd : decode s.d.cmd with
  | error e => exact engineTurn_undecoded hb hs hd
  | ok i => exact engineTurn_of_validate_error hb hp hs hd (validate_eq_unsup fun hi => h ⟨i, hd, hi⟩)

/-- An accepted command raises no error code (spec/46_dispatch.md R308). -/
theorem EngineOutcome.errcode_of_runs {s t : State} {i : Instr} (h : EngineOutcome s t) (hr : Runs i s) :
    t.errcode = s.errcode := by
  cases h with
  | running => rfl
  | failed info hn => exact absurd ⟨i, hr⟩ hn
  | done => rfl

theorem engineTurn_of_supported {s : State} {i : Instr} (h : s.Inv) (hb : s.busy = true) (hp : s.phase = .check)
    (hs : s.slice ≠ some 0) (hd : decode s.d.cmd = .ok i) (hi : Supported i s.d) :
    ∃ t, engineTurn s = .next t ∧ t.errcode ≠ 1 := by
  cases hv : validate (commandOf i) s.d with
  | error e => exact ⟨_, engineTurn_of_validate_error hb hp hs hd hv, code_ne_one_of_supported hi hv⟩
  | ok u =>
    have hr : Runs i s := ⟨hb, hd, (validate_ok_iff i s.d).1 hv⟩
    obtain ⟨t, e, -, ht⟩ := engineTurn_outcome h
    have hcode : t.errcode = s.errcode := ht.elim (congrArg State.errcode) fun ho => ho.errcode_of_runs hr
    exact ⟨t, e, by rw [hcode, errcode_eq_zero h (err_eq_false_of_busy h hb)]; decide⟩

/-- Settles O5: R101's list is what does not decode to a supported command, and only check 1 has code 1. -/
theorem refusedDescriptorsAreR101 : Obligations.RefusedDescriptorsAreR101 := by
  intro s hb hp hs
  refine ⟨fun h => ⟨_, engineTurn_of_refused hb hp hs h, rfl, rfl, rfl, rfl⟩, fun h => ?_⟩
  obtain ⟨i, hd, hi⟩ := not_not.1 (mt (refusedDescriptor_iff s.d).2 h)
  exact ⟨⟨i, hd, hi⟩, fun hinv => engineTurn_of_supported hinv hb hp hs hd hi⟩

end Sys2Proof.Proofs

namespace Sys2Proof.Proofs

open Sys2Proof.Machine

/-! ## The bounded readers (spec/40_primitives.md R130 to R137)

A big-endian word is built by Horner's rule, one byte at a time; a little-endian word is the big-endian one of the bytes
in reverse. -/

/-! ### Words from bytes -/

/-- One step of Horner's rule: a byte below a number is a shift and an OR. -/
theorem ofNat_mul_add_byte (n x : Nat) (b : Byte) :
    BitVec.ofNat n (2 ^ 8 * x + b.toNat) = BitVec.ofNat n x <<< 8 ||| b.setWidth n := by
  have hshift : BitVec.ofNat n (2 ^ 8 * x) = BitVec.ofNat n x <<< 8 :=
    BitVec.eq_of_toNat_eq (by simp [Nat.shiftLeft_eq, Nat.mul_comm])
  rw [Nat.two_pow_add_eq_or_of_lt b.isLt, BitVec.ofNat_or, hshift, BitVec.ofNat_toNat]

theorem u16be_eq_ofNat (b0 b1 : Byte) : u16be b0 b1 = BitVec.ofNat 16 (2 ^ 8 * b0.toNat + b1.toNat) := by
  rw [ofNat_mul_add_byte, BitVec.ofNat_toNat, u16be]

theorem u24be_eq_ofNat (b0 b1 b2 : Byte) :
    u24be b0 b1 b2 = BitVec.ofNat 24 (2 ^ 16 * b0.toNat + 2 ^ 8 * b1.toNat + b2.toNat) := by
  have horner : 2 ^ 16 * b0.toNat + 2 ^ 8 * b1.toNat + b2.toNat =
      2 ^ 8 * (2 ^ 8 * b0.toNat + b1.toNat) + b2.toNat := by omega
  rw [horner, ofNat_mul_add_byte, ofNat_mul_add_byte, BitVec.ofNat_toNat, u24be, BitVec.shiftLeft_or_distrib,
    ← BitVec.shiftLeft_add]

theorem u32be_eq_ofNat (b0 b1 b2 b3 : Byte) :
    u32be b0 b1 b2 b3 =
      BitVec.ofNat 32 (2 ^ 24 * b0.toNat + 2 ^ 16 * b1.toNat + 2 ^ 8 * b2.toNat + b3.toNat) := by
  have horner : 2 ^ 24 * b0.toNat + 2 ^ 16 * b1.toNat + 2 ^ 8 * b2.toNat + b3.toNat =
      2 ^ 8 * (2 ^ 8 * (2 ^ 8 * b0.toNat + b1.toNat) + b2.toNat) + b3.toNat := by omega
  rw [horner, ofNat_mul_add_byte, ofNat_mul_add_byte, ofNat_mul_add_byte, BitVec.ofNat_toNat, u32be]
  simp only [BitVec.shiftLeft_or_distrib, ← BitVec.shiftLeft_add]

theorem u16le_eq_u16be (b0 b1 : Byte) : u16le b0 b1 = u16be b1 b0 := BitVec.or_comm ..

theorem u24le_eq_u24be (b0 b1 b2 : Byte) : u24le b0 b1 b2 = u24be b2 b1 b0 := by
  simp only [u24le, u24be, BitVec.or_comm, BitVec.or_assoc]

theorem u32le_eq_u32be (b0 b1 b2 b3 : Byte) : u32le b0 b1 b2 b3 = u32be b3 b2 b1 b0 := by
  simp only [u32le, u32be, BitVec.or_comm, BitVec.or_assoc]

theorem u16le_eq_ofNat (b0 b1 : Byte) : u16le b0 b1 = BitVec.ofNat 16 (b0.toNat + 2 ^ 8 * b1.toNat) := by
  rw [u16le_eq_u16be, u16be_eq_ofNat, Nat.add_comm]

theorem u24le_eq_ofNat (b0 b1 b2 : Byte) :
    u24le b0 b1 b2 = BitVec.ofNat 24 (b0.toNat + 2 ^ 8 * b1.toNat + 2 ^ 16 * b2.toNat) := by
  rw [u24le_eq_u24be, u24be_eq_ofNat]; congr 1; omega

theorem u32le_eq_ofNat (b0 b1 b2 b3 : Byte) :
    u32le b0 b1 b2 b3 =
      BitVec.ofNat 32 (b0.toNat + 2 ^ 8 * b1.toNat + 2 ^ 16 * b2.toNat + 2 ^ 24 * b3.toNat) := by
  rw [u32le_eq_u32be, u32be_eq_ofNat]; congr 1; omega

/-! ### The readers -/

theorem readU24be_ok {w : Window} {m : Memory} {off : Nat} (h : off + 3 ≤ w.len) (hw : Fits w) :
    readU24be w m off = .ok (u24be (byteAt m w off) (byteAt m w (off + 1)) (byteAt m w (off + 2))) := by
  rw [readU24be, guardRead_ok h hw, Except.map]

theorem readU32be_ok {w : Window} {m : Memory} {off : Nat} (h : off + 4 ≤ w.len) (hw : Fits w) :
    readU32be w m off =
      .ok (u32be (byteAt m w off) (byteAt m w (off + 1)) (byteAt m w (off + 2)) (byteAt m w (off + 3))) := by
  rw [readU32be, guardRead_ok h hw, Except.map]

/-- Whatever a reader makes of its bytes, beyond the window it is E_BOUNDS (spec/40_primitives.md R131). -/
theorem guardRead_map_bounds {α : Type} {w : Window} {off n : Nat} (f : Unit → α) (h : w.len < off + n) :
    (guardRead w off n).map f = .error (.error .bounds) := by
  rw [guardRead_bounds h, Except.map]

/-- Settles O6: inside the window each reader is its word's sum; beyond it the bound check answers. -/
theorem readersAssembleBytes : Obligations.ReadersAssembleBytes := by
  intro w m off hw
  refine ⟨fun h => readU8_ok h hw, fun h => ⟨?le16, ?be16⟩, fun h => ⟨?le24, ?be24⟩, fun h => ⟨?le32, ?be32⟩,
    guardRead_map_bounds _, fun h => ⟨guardRead_map_bounds _ h, guardRead_map_bounds _ h⟩,
    fun h => ⟨guardRead_map_bounds _ h, guardRead_map_bounds _ h⟩,
    fun h => ⟨guardRead_map_bounds _ h, guardRead_map_bounds _ h⟩⟩
  case le16 => rw [readU16le_ok h hw, u16le_eq_ofNat]; rfl
  case be16 => rw [readU16be_ok h hw, u16be_eq_ofNat]; rfl
  case le24 => rw [readU24le_ok h hw, u24le_eq_ofNat]; rfl
  case be24 => rw [readU24be_ok h hw, u24be_eq_ofNat]; rfl
  case le32 => rw [readU32le_ok h hw, u32le_eq_ofNat]; rfl
  case be32 => rw [readU32be_ok h hw, u32be_eq_ofNat]; rfl

/-! ## `expand_bits` (spec/40_primitives.md R138) -/

/-- The copy of `v` that fills the low bits fits below the copy on top: `w + (8 - w) = 8` and `2w - 8` bits of `v` are
dropped. -/
theorem div_two_pow_lt_of_lt_two_pow {w v : Nat} (hw4 : 4 ≤ w) (hw8 : w ≤ 8) (hv : v < 2 ^ w) :
    v / 2 ^ (2 * w - 8) < 2 ^ (8 - w) := by
  apply Nat.div_lt_of_lt_mul
  rwa [← Nat.pow_add, show 2 * w - 8 + (8 - w) = w by omega]

/-- Two parts that share no bit, in one byte. -/
theorem two_pow_mul_add_lt_byte {w v r : Nat} (hw8 : w ≤ 8) (hv : v < 2 ^ w) (hr : r < 2 ^ (8 - w)) :
    2 ^ (8 - w) * v + r < 256 :=
  calc 2 ^ (8 - w) * v + r < 2 ^ (8 - w) * (v + 1) := by rw [Nat.mul_succ]; omega
    _ ≤ 2 ^ (8 - w) * 2 ^ w := Nat.mul_le_mul_left _ hv
    _ = 256 := by rw [← Nat.pow_add, Nat.sub_add_cancel hw8]

/-- From width 4 on the OR is a sum, and the mask drops nothing. -/
theorem expandBits_eq_add {w v : Nat} (hw4 : 4 ≤ w) (hw8 : w ≤ 8) (hv : v < 2 ^ w) :
    expandBits w v = 2 ^ (8 - w) * v + v / 2 ^ (2 * w - 8) := by
  have hlow := div_two_pow_lt_of_lt_two_pow hw4 hw8 hv
  rw [expandBits, if_neg (by omega), Nat.shiftRight_eq_div_pow, Nat.shiftLeft_eq, Nat.mul_comm,
    ← Nat.two_pow_add_eq_or_of_lt hlow]
  exact (Nat.and_two_pow_sub_one_eq_mod _ 8).trans (Nat.mod_eq_of_lt (two_pow_mul_add_lt_byte hw8 hv hlow))

theorem expandBits_three {v : Nat} (hv : v < 8) : expandBits 3 v = 32 * v + 4 * v + v / 2 := by
  interval_cases v <;> rfl

/-- The two ends of the range, one width at a time. -/
theorem expandBits_zero_and_max {w : Nat} (hw3 : 3 ≤ w) (hw8 : w ≤ 8) :
    expandBits w 0 = 0 ∧ expandBits w (2 ^ w - 1) = 255 := by
  interval_cases w <;> decide

/-- Settles O7: quotient and remainder of the sum, then width 3 and the ends of the range. -/
theorem expandBitsReplicates : Obligations.ExpandBitsReplicates := by
  refine ⟨fun w v hw4 hw8 hv => ?_, fun v => expandBits_three, fun w => expandBits_zero_and_max⟩
  have hlow := div_two_pow_lt_of_lt_two_pow hw4 hw8 hv
  rw [expandBits_eq_add hw4 hw8 hv]
  refine ⟨two_pow_mul_add_lt_byte hw8 hv hlow, ?_, ?_⟩
  · rw [Nat.mul_add_div (Nat.two_pow_pos _), Nat.div_eq_of_lt hlow, Nat.add_zero]
  · rw [Nat.mul_add_mod, Nat.mod_eq_of_lt hlow]

/-! ## The blends (spec/40_primitives.md R139, R140)

Each is a mean of two bytes, so narrowing it to a byte drops nothing. -/

theorem s3tcBlend_toNat (a b : Byte) : (s3tcBlend a b).toNat = (3 * a.toNat + 5 * b.toNat) / 8 := by
  rw [s3tcBlend, BitVec.toNat_ofNat, Nat.shiftRight_eq_div_pow]
  exact Nat.mod_eq_of_lt (by omega)

theorem s3tcBlend_self (a : Byte) : s3tcBlend a a = a :=
  BitVec.eq_of_toNat_eq (by rw [s3tcBlend_toNat]; omega)

/-- Settles O8: the formula, and the bounds it gives. -/
theorem s3tcBlendFormula : Obligations.S3tcBlendFormula := by
  intro a b
  have hval := s3tcBlend_toNat a b
  exact ⟨hval, s3tcBlend_self a, by omega, by omega⟩

theorem halfBlend_toNat (a b : Byte) : (halfBlend a b).toNat = (a.toNat + b.toNat) / 2 := by
  rw [halfBlend, BitVec.toNat_ofNat, Nat.shiftRight_eq_div_pow]
  exact Nat.mod_eq_of_lt (by omega)

theorem halfBlend_comm (a b : Byte) : halfBlend a b = halfBlend b a := by
  rw [halfBlend, Nat.add_comm, halfBlend]

/-- Settles O9: the formula, its symmetry, and the rule's three examples. -/
theorem halfBlendIsFlooredMean : Obligations.HalfBlendIsFlooredMean :=
  ⟨fun a b => ⟨halfBlend_toNat a b, halfBlend_comm a b⟩, by decide, by decide, by decide⟩

end Sys2Proof.Proofs

namespace Sys2Proof.Proofs

open Sys2Proof.Machine

/-! ## The block height (spec/41_address_translator.md R155) -/

theorem resolveBlockHeight_succ (h l : Nat) : resolveBlockHeight h (l + 1) =
    if nextPow2 h < 8 * 2 ^ (l + 1) then resolveBlockHeight h l else 2 ^ (l + 1) := rfl

theorem resolveBlockHeight_eq_two_pow (h : Nat) : ∀ l, ∃ k, resolveBlockHeight h l = 2 ^ k
  | 0 => ⟨0, rfl⟩
  | l + 1 => by
    rw [resolveBlockHeight_succ]
    split
    · exact resolveBlockHeight_eq_two_pow h l
    · exact ⟨l + 1, rfl⟩

/-- A power of two below `8 * 2 ^ (l + 1)` is at most half of it. -/
theorem nextPow2_le_of_lt_two_pow_succ {h l : Nat} (hlt : nextPow2 h < 8 * 2 ^ (l + 1)) : nextPow2 h ≤ 8 * 2 ^ l := by
  have hexp : ∀ n, 8 * 2 ^ n = 2 ^ (n + 3) := fun n => by rw [Nat.pow_add, Nat.mul_comm]
  rw [nextPow2_eq_two_pow_clog, hexp] at hlt ⊢
  have : Nat.clog 2 h < l + 1 + 3 := (Nat.pow_lt_pow_iff_right Nat.one_lt_two).1 hlt
  exact Nat.pow_le_pow_right Nat.two_pos (by omega)

/-- The closed form of R155: a step that shrinks leaves the minimum alone, one that does not has it at `2 ^ (l + 1)`. -/
theorem resolveBlockHeight_eq_max_min (h : Nat) :
    ∀ l, resolveBlockHeight h l = max 1 (min (2 ^ l) (nextPow2 h / 8))
  | 0 => (Nat.max_eq_left (Nat.min_le_left ..)).symm
  | l + 1 => by
    have hpow : 2 ^ (l + 1) = 2 * 2 ^ l := Nat.pow_succ'
    have hpos : 0 < 2 ^ l := Nat.two_pow_pos l
    rw [resolveBlockHeight_succ]
    split
    · next hlt =>
      have := nextPow2_le_of_lt_two_pow_succ hlt
      rw [resolveBlockHeight_eq_max_min h l]
      omega
    · omega

/-- The shrink never exceeds the height asked for (R155). -/
theorem resolveBlockHeight_le (h l : Nat) : resolveBlockHeight h l ≤ 2 ^ l := by
  rw [resolveBlockHeight_eq_max_min]
  exact Nat.max_le.2 ⟨Nat.one_le_two_pow, Nat.min_le_left ..⟩

/-- Settles O17: the closed form, the bound it gives, and the rule's examples evaluated. -/
theorem blockHeightClosedForm : Obligations.BlockHeightClosedForm :=
  ⟨fun l h _ => ⟨resolveBlockHeight_eq_max_min h l, resolveBlockHeight_le h l, resolveBlockHeight_eq_two_pow h l⟩,
    by decide⟩

end Sys2Proof.Proofs

namespace Sys2Proof.Proofs

open Sys2Proof.Machine

/-! ## The block-linear layout (spec/41_address_translator.md R152 to R156)

Byte `k` of block `(x, y)` stands at the address of byte column `x * bpb + k` in block row `y`: a GOB number, and nine
offset bits inside the GOB. Both can be read back from the address, so distinct bytes of blocks have distinct addresses,
and two blocks that overlapped would share a byte. -/

/-- The offset inside its GOB of byte column `c` in block row `y`, digit by digit: `c` bit 5, `y` bits 2 and 1, `c` bit 4,
`y` bit 0, `c` bits 3:0 (R153). -/
def gobOffset (c y : Nat) : Nat :=
  ((((c / 2 ^ 5 % 2 * 2 + y / 2 ^ 2 % 2) * 2 + y / 2 % 2) * 2 + c / 2 ^ 4 % 2) * 2 + y % 2) * 2 ^ 4 + c % 2 ^ 4

/-- The number of the GOB of byte column `c` in block row `y`, of a surface `g` GOBs wide (R153). -/
def gobNumber (c y g bh : Nat) : Nat := (y / (8 * bh) * g + c / 64) * bh + y % (8 * bh) / 8

/-- A block lies within 16 aligned bytes. -/
theorem block_within_sixteen {x bpb : Nat} (hbpb : bpb ∈ [1, 4, 8, 16]) : x * bpb % 16 + bpb ≤ 16 := by
  simp only [List.mem_cons, List.not_mem_nil, or_false] at hbpb
  rcases hbpb with rfl | rfl | rfl | rfl <;> omega

/-- The offset bits as the address function of R152 adds them up. -/
theorem gobOffset_eq_sum (c y : Nat) :
    gobOffset c y = c % 64 / 32 * 256 + y % 8 / 2 * 64 + c % 32 / 16 * 32 + y % 2 * 16 + c % 16 := by
  have hc5 : c % 64 / 32 = c / 2 ^ 5 % 2 := Nat.mod_mul_right_div_self c 32 2
  have hc4 : c % 32 / 16 = c / 2 ^ 4 % 2 := Nat.mod_mul_right_div_self c 16 2
  have hy : y % 8 / 2 = y / 2 ^ 2 % 2 * 2 + y / 2 % 2 := by omega
  rw [hc5, hc4, hy]
  unfold gobOffset
  omega

/-- Where byte `k` of a block stands: contiguity (R156). -/
theorem blockAddress_add_eq {x y wb bpb bh k : Nat} (hbpb : bpb ∈ [1, 4, 8, 16]) (hk : k < bpb) :
    blockAddress x y wb bpb bh 0 + k =
      gobNumber (x * bpb + k) y (widthInGobs wb bpb) bh * 512 + gobOffset (x * bpb + k) y := by
  have hlow := block_within_sixteen (x := x) hbpb
  have hgob : (x * bpb + k) / 64 = x * bpb / 64 := by omega
  have hc5 : (x * bpb + k) % 64 / 32 = x * bpb % 64 / 32 := by omega
  have hc4 : (x * bpb + k) % 32 / 16 = x * bpb % 32 / 16 := by omega
  have hc0 : (x * bpb + k) % 16 = x * bpb % 16 + k := by omega
  rw [gobOffset_eq_sum, gobNumber, hgob, hc5, hc4, hc0]
  unfold blockAddress
  ring

/-- The nine offset bits, low to high (R153). -/
theorem gobOffset_bits (c y : Nat) :
    gobOffset c y < 512 ∧ gobOffset c y % 2 ^ 4 = c % 2 ^ 4 ∧ gobOffset c y / 2 ^ 4 % 2 = y % 2 ∧
      gobOffset c y / 2 ^ 5 % 2 = c / 2 ^ 4 % 2 ∧ gobOffset c y / 2 ^ 6 % 2 = y / 2 % 2 ∧
      gobOffset c y / 2 ^ 7 % 2 = y / 2 ^ 2 % 2 ∧ gobOffset c y / 2 ^ 8 % 2 = c / 2 ^ 5 % 2 := by
  have bit (n : Nat) : n % 2 < 2 := Nat.mod_lt n Nat.two_pos
  have hc5 := bit (c / 2 ^ 5)
  have hy2 := bit (y / 2 ^ 2)
  have hy1 := bit (y / 2)
  have hc4 := bit (c / 2 ^ 4)
  have hy0 := bit y
  have hc0 : c % 2 ^ 4 < 2 ^ 4 := Nat.mod_lt c (Nat.two_pow_pos 4)
  unfold gobOffset
  generalize c / 2 ^ 5 % 2 = c5, y / 2 ^ 2 % 2 = y2, y / 2 % 2 = y1, c / 2 ^ 4 % 2 = c4, y % 2 = y0,
    c % 2 ^ 4 = c0 at *
  omega

/-- The offset bits name a byte column modulo 64 and a block row modulo 8. -/
theorem gobOffset_inj {c y c' y' : Nat} (h : gobOffset c y = gobOffset c' y') : c % 64 = c' % 64 ∧ y % 8 = y' % 8 := by
  have bit (n : Nat) : n % 2 < 2 := Nat.mod_lt n Nat.two_pos
  have nibble (n : Nat) : n % 2 ^ 4 < 2 ^ 4 := Nat.mod_lt n (Nat.two_pow_pos 4)
  obtain ⟨hc0, h⟩ := raster_inj (nibble _) (nibble _) h
  obtain ⟨hy0, h⟩ := raster_inj (bit _) (bit _) h
  obtain ⟨hc4, h⟩ := raster_inj (bit _) (bit _) h
  obtain ⟨hy1, h⟩ := raster_inj (bit _) (bit _) h
  obtain ⟨hy2, hc5⟩ := raster_inj (bit _) (bit _) h
  have column (n : Nat) : n % 64 = (n / 2 ^ 5 % 2 * 2 + n / 2 ^ 4 % 2) * 2 ^ 4 + n % 2 ^ 4 := by omega
  have row (n : Nat) : n % 8 = (n / 2 ^ 2 % 2 * 2 + n / 2 % 2) * 2 + n % 2 := by omega
  exact ⟨by rw [column c, column c', hc5, hc4, hc0], by rw [row y, row y', hy2, hy1, hy0]⟩

/-- The GOB number names a GOB column and, eight block rows to a GOB, a GOB row. -/
theorem gobNumber_inj {c y c' y' g bh : Nat} (hbh : 0 < bh) (hc : c / 64 < g) (hc' : c' / 64 < g)
    (h : gobNumber c y g bh = gobNumber c' y' g bh) : c / 64 = c' / 64 ∧ y / 8 = y' / 8 := by
  simp only [gobNumber, Nat.mod_mul_right_div_self, ← Nat.div_div_eq_div_mul] at h
  obtain ⟨hrow, hblock⟩ := raster_inj (Nat.mod_lt _ hbh) (Nat.mod_lt _ hbh) h
  obtain ⟨hcol, hband⟩ := raster_inj hc hc' hblock
  refine ⟨hcol, ?_⟩
  rw [← Nat.div_add_mod (y / 8) bh, hrow, hband, Nat.div_add_mod]

/-- A block's bytes are in the GOB columns of the surface. -/
theorem byteColumn_lt {x wb bpb k : Nat} (hx : x < wb) (hk : k < bpb) : (x * bpb + k) / 64 < widthInGobs wb bpb :=
  div_lt_ceilDiv (by decide) (raster_lt hk hx)

/-- An address is that of at most one byte of one block (R154). -/
theorem blockByte_inj {x y k x' y' k' wb bpb bh : Nat} (hbpb : bpb ∈ [1, 4, 8, 16]) (hbh : 0 < bh) (hx : x < wb)
    (hx' : x' < wb) (hk : k < bpb) (hk' : k' < bpb)
    (h : blockAddress x y wb bpb bh 0 + k = blockAddress x' y' wb bpb bh 0 + k') : x = x' ∧ y = y' := by
  rw [blockAddress_add_eq hbpb hk, blockAddress_add_eq hbpb hk'] at h
  obtain ⟨hoffset, hnumber⟩ := raster_inj (gobOffset_bits _ _).1 (gobOffset_bits _ _).1 h
  obtain ⟨hcolumn, hrow⟩ := gobOffset_inj hoffset
  obtain ⟨hgobColumn, hgobRow⟩ := gobNumber_inj hbh (byteColumn_lt hx hk) (byteColumn_lt hx' hk') hnumber
  have hbyte : x * bpb + k = x' * bpb + k' := by omega
  exact ⟨(raster_inj hk hk' hbyte).2, by omega⟩

/-- Distinct blocks share no byte (R154). -/
theorem blocks_apart {x y x' y' wb bpb bh : Nat} (hbpb : bpb ∈ [1, 4, 8, 16]) (hbh : 0 < bh) (hx : x < wb)
    (hx' : x' < wb) (hne : (x, y) ≠ (x', y')) :
    blockAddress x y wb bpb bh 0 + bpb ≤ blockAddress x' y' wb bpb bh 0 ∨
      blockAddress x' y' wb bpb bh 0 + bpb ≤ blockAddress x y wb bpb bh 0 := by
  have hshared : ∀ k < bpb, ∀ k' < bpb, blockAddress x y wb bpb bh 0 + k ≠ blockAddress x' y' wb bpb bh 0 + k' :=
    fun k hk k' hk' h => hne (Prod.ext_iff.2 (blockByte_inj hbpb hbh hx hx' hk hk' h))
  by_contra hoverlap
  rcases Nat.le_total (blockAddress x y wb bpb bh 0) (blockAddress x' y' wb bpb bh 0) with hle | hle
  · exact hshared (blockAddress x' y' wb bpb bh 0 - blockAddress x y wb bpb bh 0) (by omega) 0 (by omega) (by omega)
  · exact hshared 0 (by omega) (blockAddress x y wb bpb bh 0 - blockAddress x' y' wb bpb bh 0) (by omega) (by omega)

/-- Whole GOBs do not touch the low bits of an address. -/
theorem gobs_add_bits (n o : Nat) :
    (n * 512 + o) % 2 ^ 4 = o % 2 ^ 4 ∧ ∀ j < 9, (n * 512 + o) / 2 ^ j % 2 = o / 2 ^ j % 2 := by
  refine ⟨by omega, fun j hj => ?_⟩
  interval_cases j <;> omega

/-- The layout of R153, bit by bit, at byte `k` of a block. -/
theorem blockByte_layout {x y wb bpb bh k : Nat} (hbpb : bpb ∈ [1, 4, 8, 16]) (hk : k < bpb) :
    let a := blockAddress x y wb bpb bh 0 + k
    let xb := x * bpb + k
    a % 2 ^ 4 = xb % 2 ^ 4 ∧ a / 2 ^ 4 % 2 = y % 2 ∧ a / 2 ^ 5 % 2 = xb / 2 ^ 4 % 2 ∧ a / 2 ^ 6 % 2 = y / 2 % 2 ∧
      a / 2 ^ 7 % 2 = y / 2 ^ 2 % 2 ∧ a / 2 ^ 8 % 2 = xb / 2 ^ 5 % 2 ∧
      a / 2 ^ 9 = gobNumber xb y (widthInGobs wb bpb) bh := by
  obtain ⟨hlt, hc0, hy0, hc4, hy1, hy2, hc5⟩ := gobOffset_bits (x * bpb + k) y
  obtain ⟨hlow, hbit⟩ := gobs_add_bits (gobNumber (x * bpb + k) y (widthInGobs wb bpb) bh) (gobOffset (x * bpb + k) y)
  rw [blockAddress_add_eq hbpb hk]
  exact ⟨hlow.trans hc0, (hbit 4 (by decide)).trans hy0, (hbit 5 (by decide)).trans hc4, (hbit 6 (by decide)).trans hy1,
    (hbit 7 (by decide)).trans hy2, (hbit 8 (by decide)).trans hc5, raster_div hlt⟩

/-- R154: the length is a whole number of GOBs. -/
theorem requiredLength_eq_mul (wb hb bpb bh : Nat) :
    requiredLength wb hb bpb bh = 512 * (ceilDiv (wb * bpb) 64 * (ceilDiv hb (8 * bh) * bh)) := by
  unfold requiredLength
  ring

theorem requiredLength_pos {wb hb bpb bh : Nat} (hwb : 0 < wb) (hhb : 0 < hb) (hbpb : 0 < bpb) (hbh : 0 < bh) :
    0 < requiredLength wb hb bpb bh := by
  have hwidth : 0 < ceilDiv (wb * bpb) 64 := Nat.zero_lt_of_lt (div_lt_ceilDiv (by decide) (Nat.mul_pos hwb hbpb))
  have hheight : 0 < ceilDiv hb (8 * bh) := Nat.zero_lt_of_lt (div_lt_ceilDiv (Nat.mul_pos (by decide) hbh) hhb)
  unfold requiredLength
  positivity

/-- Settles O19: each part is its lemma, and the examples are evaluated. -/
theorem surfaceHoldsBlocksApart : Obligations.SurfaceHoldsBlocksApart := by
  refine ⟨fun wb hb bpb bh hwb hhb hbpb hbh => ⟨?_, ?_, fun x y x' y' hx hy hx' _ => ⟨?_, ?_, ?_⟩⟩, by decide⟩
  · have hpos : 0 < bpb := Nat.pos_of_ne_zero fun h => absurd hbpb (h ▸ by decide)
    exact requiredLength_pos hwb hhb hpos hbh
  · rw [requiredLength_eq_mul, Nat.mul_mod_right]
  · exact blockAddress_add_le hx hy hbh hbpb
  · exact blocks_apart hbpb hbh hx hx'
  · exact fun k hk => blockByte_layout hbpb hk

end Sys2Proof.Proofs

namespace Sys2Proof.Proofs

open Sys2Proof.Machine

/-! ## DESWZ and its inverse mapping (spec/41_address_translator.md R160, R161)

Each copy of the re-swizzle puts at source offset `a` the byte that the source has at `a`, so the copies agree wherever
they meet, and only the bytes of blocks are named. -/

/-- An accepted command without a palette fill completes with the image of its units (spec/46_dispatch.md R315). -/
theorem completes_of_unitsOk {i : Instr} {s : State} {owner : Nat → Nat} {image : State → Nat → Option Byte}
    (hs : Fresh s) (ha : Accepted i s.d) (hu : UnitsOk (commandOf i) s.d (cursorStep i) owner image)
    (hfill : (commandOf i).fill = none) : Completes i s (image s) := by
  obtain ⟨m, e, hw, hread⟩ := runFresh_direct hu hfill rfl hs ((validate_ok_iff i s.d).2 ha)
  refine ⟨m, by rw [exec_eq_runSteps i hs.slice, e, commandOf_outLen], hw, fun a => ?_⟩
  rw [hread a, imageFrom, commandOf_outLen]
  simp only [Nat.zero_le, and_true]

/-- A command that completes leaves the bytes of its image in its output range. -/
theorem exec_of_completes {i : Instr} {s : State} {image : Nat → Option Byte} (h : Completes i s image) :
    ∃ m, exec i s = .next (finished s m (outputLength i s.d)) ∧
      ∀ o < outputLength i s.d, ∀ b, image o = some b → byteAt m s.d.dst o = b := by
  obtain ⟨m, e, -, hread⟩ := h
  refine ⟨m, e, fun o ho b hb => (hread (s.d.dstBase.toNat + o)).trans ?_⟩
  rw [if_pos ⟨by omega, by omega⟩, Nat.add_sub_cancel_left, hb]
  rfl

/-- Byte `k` of block `(bx, by_)` in the output comes from its place in the source (R160). -/
theorem deswzByte_of_block (bhl2 : BitVec 3) (s : State) {bx by_ k : Nat} (hx : bx < deswzCols s.d) (hk : k < s.d.bpb) :
    deswzByte bhl2 s ((by_ * deswzCols s.d + bx) * s.d.bpb + k) =
      srcByte s (deswzBlockOffset bhl2 s.d bx by_ + k) := by
  obtain ⟨hcol, hrow, hrest⟩ := offset_parts (y := by_) hx hk
  simp only [deswzByte, hcol, hrow, hrest]

/-- The bytes of block `(bx, by_)` are in the output range. -/
theorem deswz_offset_lt {bhl2 : BitVec 3} {d : Desc} {bx by_ k : Nat} (hx : bx < deswzCols d) (hy : by_ < deswzRows d)
    (hk : k < d.bpb) : (by_ * deswzCols d + bx) * d.bpb + k < outputLength (.deswz bhl2) d := by
  have hlen : outputLength (.deswz bhl2) d = deswzRows d * deswzCols d * d.bpb :=
    congrArg (· * d.bpb) (Nat.mul_comm (deswzCols d) (deswzRows d))
  rw [hlen]
  exact offset_lt hx hy hk

/-- A memory that holds the output of DESWZ on `s`. -/
def HoldsOutput (bhl2 : BitVec 3) (s : State) (m : Memory) : Prop :=
  ∀ o < outputLength (.deswz bhl2) s.d, byteAt m s.d.dst o = deswzByte bhl2 s o

/-- The copies of the re-swizzle of `s.d`'s output, as it stands in `out`. -/
def outputCopies (bhl2 : BitVec 3) (s : State) (out : Memory) : List Write :=
  reswizzleWrites (deswzCols s.d) (deswzRows s.d) s.d.bpb (deswzBlockHeight bhl2 s.d) fun o => byteAt out s.d.dst o

theorem mem_outputCopies_fst {bhl2 : BitVec 3} {s : State} {out : Memory} {w : Write}
    (hw : w ∈ outputCopies bhl2 s out) : ∃ bx < deswzCols s.d, ∃ by_ < deswzRows s.d, ∃ k < s.d.bpb,
      w.1 = deswzBlockOffset bhl2 s.d bx by_ + k := by
  obtain ⟨by_, hy, bx, hx, k, hk, rfl⟩ := mem_reswizzleWrites.1 hw
  exact ⟨bx, hx, by_, hy, k, hk, rfl⟩

/-- Every copy puts back the source byte of the offset it names. -/
theorem outputCopies_sound {bhl2 : BitVec 3} {s : State} {out : Memory} (hout : HoldsOutput bhl2 s out) {w : Write}
    (hw : w ∈ outputCopies bhl2 s out) : w.2 = srcByte s w.1 := by
  obtain ⟨by_, hy, bx, hx, k, hk, rfl⟩ := mem_reswizzleWrites.1 hw
  exact (hout _ (deswz_offset_lt hx hy hk)).trans (deswzByte_of_block bhl2 s hx hk)

/-- Every byte of every block is copied. -/
theorem exists_outputCopy {bhl2 : BitVec 3} (s : State) (out : Memory) {bx by_ k : Nat} (hx : bx < deswzCols s.d)
    (hy : by_ < deswzRows s.d) (hk : k < s.d.bpb) :
    ∃ w ∈ outputCopies bhl2 s out, w.1 = deswzBlockOffset bhl2 s.d bx by_ + k :=
  ⟨_, mem_reswizzleWrites.2 ⟨by_, hy, bx, hx, k, hk, rfl⟩, rfl⟩

/-- Re-swizzling the output of DESWZ succeeds, gives back every byte of every block and leaves the padding (R161). -/
theorem reswizzle_output {bhl2 : BitVec 3} {s : State} (ha : Accepted (.deswz bhl2) s.d) {out : Memory}
    (hout : HoldsOutput bhl2 s out) {base : Nat} {start : Memory} (hstart : start.wf = true)
    (hbase : base + s.d.srcLen.toNat ≤ 2 ^ 32) :
    ∃ m, reswizzle bhl2 s.d out base start = .ok m ∧ m.wf = true ∧
      (∀ bx < deswzCols s.d, ∀ by_ < deswzRows s.d, ∀ k < s.d.bpb,
        m.read (base + deswzBlockOffset bhl2 s.d bx by_ + k) = srcByte s (deswzBlockOffset bhl2 s.d bx by_ + k)) ∧
      ∀ a, (∀ bx < deswzCols s.d, ∀ by_ < deswzRows s.d, ∀ k < s.d.bpb,
        a ≠ base + deswzBlockOffset bhl2 s.d bx by_ + k) → m.read a = start.read a := by
  have hinside : ∀ w ∈ outputCopies bhl2 s out, base + w.1 < Config.memSize := fun w hw => by
    obtain ⟨bx, hx, by_, hy, k, hk, hoff⟩ := mem_outputCopies_fst hw
    have := ha.deswz_block hx hy
    simp only [Config.memSize]
    omega
  obtain ⟨m, e, hwf, frame, -⟩ := applyWrites_spec hstart hinside
  refine ⟨m, e, hwf, fun bx hx by_ hy k hk => ?_, fun a hpad => frame a fun w hw => ?_⟩
  · obtain ⟨w, hw, hoff⟩ := exists_outputCopy (bhl2 := bhl2) s out hx hy hk
    rw [Nat.add_assoc, ← hoff]
    exact applyWrites_image hstart hinside (fun _ => outputCopies_sound hout) e hw
  · obtain ⟨bx, hx, by_, hy, k, hk, hoff⟩ := mem_outputCopies_fst hw
    rw [hoff, ← Nat.add_assoc]
    exact hpad bx hx by_ hy k hk

/-- Settles O44: the units' image is the output, and the re-swizzle puts it back. -/
theorem deswzResult : Obligations.DeswzResult := by
  intro bhl2 s hs ha
  have hcompletes := completes_of_unitsOk (i := .deswz bhl2) hs ha (deswz_units ha) rfl
  refine ⟨hcompletes, ?_⟩
  obtain ⟨m, e, hout⟩ := exec_of_completes hcompletes
  exact ⟨_, e, fun base start => reswizzle_output ha fun o ho => hout o ho _ rfl⟩

end Sys2Proof.Proofs

namespace Sys2Proof.Proofs

open Sys2Proof.Machine

/-! ## `rgb565_decode` (spec/42_ramp_builder.md R181) -/

/-- The mask keeps every expanded value to a byte. -/
theorem expandBits_lt (w v : Nat) : expandBits w v < 256 := by
  unfold expandBits
  split
  · exact Nat.and_lt_two_pow (n := 8) _ (by decide)
  · exact Nat.and_lt_two_pow (n := 8) _ (by decide)

theorem expandField_toNat {w : Nat} (v : BitVec w) : (expandField v).toNat = expandBits w v.toNat := by
  rw [expandField, BitVec.toNat_ofNat]
  exact Nat.mod_eq_of_lt (expandBits_lt w v.toNat)

/-- A field of a 16-bit colour, as arithmetic. -/
theorem toNat_field (c : BitVec 16) (start len : Nat) :
    (c.extractLsb' start len).toNat = c.toNat / 2 ^ start % 2 ^ len := by
  rw [BitVec.extractLsb'_toNat, Nat.shiftRight_eq_div_pow]

/-- The width of the field that becomes channel `k`. -/
def fieldWidth565 (k : Nat) : Nat := if k = 1 then 6 else 5

/-- The field that becomes channel `k`: bits 15:11, 10:5, 4:0. -/
def field565 (c : BitVec 16) (k : Nat) : Nat :=
  if k = 0 then c.toNat / 2 ^ 11 else if k = 1 then c.toNat / 2 ^ 5 % 2 ^ 6 else c.toNat % 2 ^ 5

theorem fieldWidth565_bounds (k : Nat) : 4 ≤ fieldWidth565 k ∧ fieldWidth565 k ≤ 6 := by
  unfold fieldWidth565
  split <;> decide

theorem field565_lt (c : BitVec 16) {k : Nat} (hk : k < 3) : field565 c k < 2 ^ fieldWidth565 k := by
  have hc := c.isLt
  interval_cases k
  · exact Nat.div_lt_of_lt_mul hc
  · exact Nat.mod_lt _ (Nat.two_pow_pos 6)
  · exact Nat.mod_lt _ (Nat.two_pow_pos 5)

/-- The three fields are the whole word. -/
theorem eq_of_field565_eq {c c' : BitVec 16} (h : ∀ k < 3, field565 c k = field565 c' k) : c = c' := by
  have hr : c.toNat / 2 ^ 11 = c'.toNat / 2 ^ 11 := h 0 (by decide)
  have hg : c.toNat / 2 ^ 5 % 2 ^ 6 = c'.toNat / 2 ^ 5 % 2 ^ 6 := h 1 (by decide)
  have hb : c.toNat % 2 ^ 5 = c'.toNat % 2 ^ 5 := h 2 (by decide)
  exact BitVec.eq_of_toNat_eq (by omega)

/-- Each colour channel is its field, expanded. -/
theorem channel_rgb565Decode_toNat (c : BitVec 16) (alpha : Byte) {k : Nat} (hk : k < 3) :
    (channel (rgb565Decode c alpha) k).toNat = expandBits (fieldWidth565 k) (field565 c k) := by
  have hc := c.isLt
  interval_cases k
  · have htop : c.toNat / 2 ^ 11 % 2 ^ 5 = c.toNat / 2 ^ 11 := Nat.mod_eq_of_lt (by omega)
    exact (expandField_toNat _).trans (by rw [toNat_field, htop]; rfl)
  · exact (expandField_toNat _).trans (by rw [toNat_field]; rfl)
  · exact (expandField_toNat _).trans (by rw [toNat_field, Nat.pow_zero, Nat.div_one]; rfl)

/-- Settles O10: a channel is its expanded field, and the rule's examples are evaluated. -/
theorem rgb565DecodeFields : Obligations.Rgb565DecodeFields :=
  ⟨fun c alpha => ⟨channel_rgb565Decode_toNat c alpha (k := 0) (by decide),
    channel_rgb565Decode_toNat c alpha (k := 1) (by decide),
    channel_rgb565Decode_toNat c alpha (k := 2) (by decide), rfl⟩,
    by decide⟩

/-! ## The colour ramp (spec/42_ramp_builder.md R182, R187, R188)

Two different values of a field expand at least 4 apart, and two different colours differ in some field; at that
distance the two blends are strictly between their operands and different from each other, so the four entries already
differ in one channel. -/

/-- Expanded values are at least one step of the top copy apart. -/
theorem expandBits_step {w u v : Nat} (hw4 : 4 ≤ w) (hw8 : w ≤ 8) (hv : v < 2 ^ w) (huv : u < v) :
    expandBits w u + 2 ^ (8 - w) ≤ expandBits w v := by
  rw [expandBits_eq_add hw4 hw8 (huv.trans hv), expandBits_eq_add hw4 hw8 hv]
  have hlow : u / 2 ^ (2 * w - 8) ≤ v / 2 ^ (2 * w - 8) := Nat.div_le_div_right huv.le
  have hhigh : 2 ^ (8 - w) * (u + 1) ≤ 2 ^ (8 - w) * v := Nat.mul_le_mul_left _ huv
  rw [Nat.mul_succ] at hhigh
  omega

/-- A distance at which blending two bytes gives two new ones. -/
def Apart (a b : Byte) : Prop := a.toNat + 4 ≤ b.toNat ∨ b.toNat + 4 ≤ a.toNat

theorem Apart.symm {a b : Byte} (h : Apart a b) : Apart b a := Or.symm h

/-- Different fields give channels that stand apart. -/
theorem apart_of_field565_lt {c c' : BitVec 16} {k : Nat} (hk : k < 3) (h : field565 c k < field565 c' k)
    (alpha : Byte) : Apart (channel (rgb565Decode c alpha) k) (channel (rgb565Decode c' alpha) k) := by
  obtain ⟨hw4, hw6⟩ := fieldWidth565_bounds k
  have hstep := expandBits_step hw4 (hw6.trans (by decide)) (field565_lt c' hk) h
  have hfour : 2 ^ 2 ≤ 2 ^ (8 - fieldWidth565 k) := Nat.pow_le_pow_right Nat.two_pos (by omega)
  rw [← channel_rgb565Decode_toNat c alpha hk, ← channel_rgb565Decode_toNat c' alpha hk] at hstep
  exact .inl (by omega)

theorem apart_of_field565_ne {c c' : BitVec 16} {k : Nat} (hk : k < 3) (h : field565 c k ≠ field565 c' k)
    (alpha : Byte) : Apart (channel (rgb565Decode c alpha) k) (channel (rgb565Decode c' alpha) k) :=
  h.lt_or_gt.elim (apart_of_field565_lt hk · alpha) fun hgt => (apart_of_field565_lt hk hgt alpha).symm

/-- In each channel two decoded colours agree or stand apart. -/
theorem apart_of_channel_ne {c c' : BitVec 16} {alpha : Byte} {k : Nat} (hk : k < 3)
    (h : channel (rgb565Decode c alpha) k ≠ channel (rgb565Decode c' alpha) k) :
    Apart (channel (rgb565Decode c alpha) k) (channel (rgb565Decode c' alpha) k) :=
  apart_of_field565_ne hk (fun hf => h (BitVec.eq_of_toNat_eq (by
    rw [channel_rgb565Decode_toNat c alpha hk, channel_rgb565Decode_toNat c' alpha hk, hf]))) alpha

/-- Different colours stand apart in some channel. -/
theorem exists_channel_apart {c c' : BitVec 16} (h : c ≠ c') (alpha : Byte) :
    ∃ k < 3, Apart (channel (rgb565Decode c alpha) k) (channel (rgb565Decode c' alpha) k) := by
  by_contra hnone
  push Not at hnone
  exact h (eq_of_field565_eq fun k hk => by_contra fun hne => hnone k hk (apart_of_field565_ne hk hne alpha))

theorem channel_blendPixel (p q : Pixel) {k : Nat} (hk : k < 3) :
    channel (blendPixel p q) k = s3tcBlend (channel p k) (channel q k) := by
  interval_cases k <;> rfl

theorem channel_blendPixel_toNat (p q : Pixel) {k : Nat} (hk : k < 3) :
    (channel (blendPixel p q) k).toNat = (3 * (channel p k).toNat + 5 * (channel q k).toNat) / 8 := by
  rw [channel_blendPixel p q hk, s3tcBlend_toNat]

theorem channel_averagePixel_toNat (p q : Pixel) {k : Nat} (hk : k < 3) :
    (channel (averagePixel p q) k).toNat = ((channel p k).toNat + (channel q k).toNat) / 2 := by
  interval_cases k <;> exact halfBlend_toNat _ _

/-- A blend of bytes that stand apart is strictly between them. -/
theorem s3tcBlend_strictly_between {a b : Byte} (h : Apart a b) :
    min a.toNat b.toNat < (s3tcBlend a b).toNat ∧ (s3tcBlend a b).toNat < max a.toNat b.toNat := by
  rw [s3tcBlend_toNat]
  rcases h with h | h <;> omega

theorem s3tcBlend_ne_swap {a b : Byte} (h : Apart a b) : s3tcBlend a b ≠ s3tcBlend b a := by
  intro heq
  have hval := congrArg BitVec.toNat heq
  rw [s3tcBlend_toNat, s3tcBlend_toNat] at hval
  rcases h with h | h <;> omega

theorem s3tcBlend_ne_operands {a b : Byte} (h : Apart a b) : a ≠ s3tcBlend a b ∧ b ≠ s3tcBlend a b := by
  obtain ⟨hlo, hhi⟩ := s3tcBlend_strictly_between h
  refine ⟨fun heq => ?_, fun heq => ?_⟩ <;>
  · rw [← heq] at hlo hhi
    omega

theorem Apart.ne {a b : Byte} (h : Apart a b) : a ≠ b := by
  rintro rfl
  rcases h with h | h <;> omega

/-- One channel in which two pixels stand apart tells them and their two blends from each other. -/
theorem blendPixel_distinct {p q : Pixel} {k : Nat} (hk : k < 3) (h : Apart (channel p k) (channel q k)) :
    p ≠ q ∧ p ≠ blendPixel q p ∧ p ≠ blendPixel p q ∧ q ≠ blendPixel q p ∧ q ≠ blendPixel p q ∧
      blendPixel q p ≠ blendPixel p q := by
  have differ {x y : Pixel} (hne : channel x k ≠ channel y k) : x ≠ y := fun hxy => hne (hxy ▸ rfl)
  obtain ⟨hp, hq⟩ := s3tcBlend_ne_operands h
  obtain ⟨hq', hp'⟩ := s3tcBlend_ne_operands h.symm
  rw [← channel_blendPixel p q hk] at hp hq
  rw [← channel_blendPixel q p hk] at hp' hq'
  refine ⟨differ h.ne, differ hp', differ hp, differ hq', differ hq, differ ?_⟩
  rw [channel_blendPixel q p hk, channel_blendPixel p q hk]
  exact s3tcBlend_ne_swap h.symm

/-- `x` lies between `a` and `b`, and strictly where they differ. -/
def Between (a b x : Byte) : Prop :=
  min a.toNat b.toNat ≤ x.toNat ∧ x.toNat ≤ max a.toNat b.toNat ∧
    (min a.toNat b.toNat ≠ max a.toNat b.toNat → min a.toNat b.toNat < x.toNat ∧ x.toNat < max a.toNat b.toNat)

theorem Between.symm {a b x : Byte} (h : Between a b x) : Between b a x := by
  rwa [Between, min_comm, max_comm]

/-- A blend of two decoded colours lies between them in each channel, strictly where they differ (R188). -/
theorem blendPixel_between (c c' : BitVec 16) (alpha : Byte) {k : Nat} (hk : k < 3) :
    Between (channel (rgb565Decode c alpha) k) (channel (rgb565Decode c' alpha) k)
      (channel (blendPixel (rgb565Decode c alpha) (rgb565Decode c' alpha)) k) := by
  rw [channel_blendPixel _ _ hk]
  obtain ⟨-, -, hlo, hhi⟩ :=
    s3tcBlendFormula (channel (rgb565Decode c alpha) k) (channel (rgb565Decode c' alpha) k)
  refine ⟨hlo, hhi, fun hne => s3tcBlend_strictly_between (apart_of_channel_ne hk fun heq => hne ?_)⟩
  rw [heq, min_self, max_self]

theorem colorRampWith_of_lt (last : Pixel → Pixel) {c1 c2 : BitVec 16} (h : c2.toNat < c1.toNat) :
    colorRampWith last c1 c2 = #v[rgb565Decode c1 255, rgb565Decode c2 255,
      blendPixel (rgb565Decode c2 255) (rgb565Decode c1 255), blendPixel (rgb565Decode c1 255) (rgb565Decode c2 255)] :=
  if_pos h

theorem colorRampWith_of_le (last : Pixel → Pixel) {c1 c2 : BitVec 16} (h : c1.toNat ≤ c2.toNat) :
    colorRampWith last c1 c2 = #v[rgb565Decode c1 255, rgb565Decode c2 255,
      averagePixel (rgb565Decode c1 255) (rgb565Decode c2 255),
      last (averagePixel (rgb565Decode c1 255) (rgb565Decode c2 255))] :=
  if_neg (Nat.not_lt.2 h)

/-- The variants differ in entry 3 of one branch only. -/
theorem exists_colorRampWith {c1 c2 : BitVec 16} {r : Vector Pixel 4}
    (h : r = colorRampBc c1 c2 ∨ r = colorRampCmpr c1 c2) : ∃ last, r = colorRampWith last c1 c2 :=
  h.elim (fun hbc => ⟨_, hbc⟩) fun hcmpr => ⟨_, hcmpr⟩

theorem colorRampWith_endpoints (last : Pixel → Pixel) (c1 c2 : BitVec 16) :
    (colorRampWith last c1 c2)[0] = rgb565Decode c1 255 ∧ (colorRampWith last c1 c2)[1] = rgb565Decode c2 255 := by
  rcases Nat.lt_or_ge c2.toNat c1.toNat with h | h
  · simp [colorRampWith_of_lt last h]
  · simp [colorRampWith_of_le last h]

/-- Settles O12: each branch of the ramp, its blends described channel by channel. -/
theorem colourRampShape : Obligations.ColourRampShape := by
  intro c1 c2 r hr
  obtain ⟨last, hlast⟩ := exists_colorRampWith hr
  obtain ⟨h0, h1⟩ := colorRampWith_endpoints last c1 c2
  refine ⟨hlast ▸ h0, hlast ▸ h1, fun hlt => ?four, fun hle => ?three⟩
  case four =>
    obtain ⟨k, hk, hapart⟩ := exists_channel_apart (fun heq : c1 = c2 => absurd hlt (heq ▸ Nat.lt_irrefl _)) 255
    obtain ⟨h01, h02, h03, h12, h13, h23⟩ := blendPixel_distinct hk hapart
    rw [colorRampWith_of_lt last hlt] at hlast
    subst hlast
    refine ⟨fun k hk => ⟨channel_blendPixel_toNat _ _ hk, channel_blendPixel_toNat _ _ hk⟩,
      h01, h02, h03, h12, h13, h23, rfl, rfl, fun k hk e he => ?_⟩
    rcases he with rfl | rfl
    · exact (blendPixel_between c2 c1 255 hk).symm
    · exact blendPixel_between c1 c2 255 hk
  case three =>
    rw [colorRampWith_of_le last hle] at hlast
    refine ⟨fun k hk => ?_, by rw [hlast]; rfl, fun hbc => ?_, fun hcmpr => ?_⟩
    · subst hlast
      exact channel_averagePixel_toNat _ _ hk
    · rw [colorRampBc, colorRampWith_of_le _ hle] at hbc
      subst hbc
      rfl
    · rw [colorRampCmpr, colorRampWith_of_le _ hle] at hcmpr
      subst hcmpr
      rfl

end Sys2Proof.Proofs

namespace Sys2Proof.Proofs

open Sys2Proof.Machine

/-! ## The scalar ramp (spec/42_ramp_builder.md R183 to R186)

Every interpolated entry is one interpolant, at a step between 0 and the divisor. The interpolant is the first endpoint
at step 0, the second at the divisor, and monotone in between; so it stays between the endpoints, and narrowing it to a
byte drops nothing. -/

/-! ### Values and bytes -/

/-- A byte's value is in the mode's range (R183). -/
theorem endpointValue_mem_range (mode : SignMode) (e : Byte) :
    rangeMin mode ≤ endpointValue mode e ∧ endpointValue mode e ≤ rangeMax mode := by
  cases mode with
  | unsigned =>
    simp only [endpointValue, rangeMin, rangeMax]
    omega
  | signed =>
    have hlo : -128 ≤ e.toInt := BitVec.le_toInt e
    have hhi : e.toInt < 128 := BitVec.toInt_lt
    exact ⟨hlo, Int.le_of_lt_add_one hhi⟩

/-- A value in the mode's range is read back from its byte. -/
theorem endpointValue_rampByte {mode : SignMode} {v : Int} (hlo : rangeMin mode ≤ v) (hhi : v ≤ rangeMax mode) :
    endpointValue mode (rampByte v) = v := by
  cases mode with
  | unsigned =>
    simp only [rangeMin, rangeMax] at hlo hhi
    simp only [endpointValue, rampByte, BitVec.toNat_ofInt]
    omega
  | signed =>
    simp only [rangeMin, rangeMax] at hlo hhi
    simp only [endpointValue, rampByte, BitVec.toInt_ofInt]
    exact Int.bmod_eq_of_le (by omega) (by omega)

theorem rampByte_endpointValue (mode : SignMode) (e : Byte) : rampByte (endpointValue mode e) = e := by
  cases mode with
  | unsigned => rw [rampByte, endpointValue, BitVec.ofInt_natCast, BitVec.ofNat_toNat, BitVec.setWidth_eq]
  | signed => exact BitVec.ofInt_toInt

/-! ### The interpolant -/

theorem idiv_mono {mode : SignMode} {n m d : Int} (hd : 0 < d) (h : n ≤ m) : idiv mode n d ≤ idiv mode m d := by
  cases mode with
  | unsigned => exact Int.ediv_le_ediv hd h
  | signed => exact Int.tdiv_le_tdiv hd h

theorem idiv_mul_self (mode : SignMode) (x : Int) {d : Int} (hd : 0 < d) : idiv mode (d * x) d = x := by
  cases mode with
  | unsigned => exact Int.mul_ediv_cancel_left x hd.ne'
  | signed => exact Int.mul_tdiv_cancel_left x hd.ne'

/-- The value `j` steps of `d` from `a1` to `a2`, rounded as the mode divides (R184 to R186). -/
def interpolant (mode : SignMode) (d a1 a2 j : Int) : Int := idiv mode ((d - j) * a1 + j * a2) d

theorem interpolant_zero (mode : SignMode) {d : Int} (hd : 0 < d) (a1 a2 : Int) : interpolant mode d a1 a2 0 = a1 := by
  rw [interpolant, Int.sub_zero, Int.zero_mul, Int.add_zero, idiv_mul_self mode a1 hd]

theorem interpolant_self (mode : SignMode) {d : Int} (hd : 0 < d) (a1 a2 : Int) : interpolant mode d a1 a2 d = a2 := by
  rw [interpolant, Int.sub_self, Int.zero_mul, Int.zero_add, idiv_mul_self mode a2 hd]

/-- The sum before the division moves by `a2 - a1` a step. -/
theorem interpolant_le {mode : SignMode} {d a1 a2 i j : Int} (hd : 0 < d) (h : 0 ≤ (j - i) * (a2 - a1)) :
    interpolant mode d a1 a2 i ≤ interpolant mode d a1 a2 j := by
  refine idiv_mono hd (Int.le_of_sub_nonneg ?_)
  have hdiff : (d - j) * a1 + j * a2 - ((d - i) * a1 + i * a2) = (j - i) * (a2 - a1) := by ring
  rwa [hdiff]

theorem interpolant_mono {mode : SignMode} {d a1 a2 i j : Int} (hd : 0 < d) (ha : a1 ≤ a2) (hij : i ≤ j) :
    interpolant mode d a1 a2 i ≤ interpolant mode d a1 a2 j :=
  interpolant_le hd (Int.mul_nonneg (Int.sub_nonneg_of_le hij) (Int.sub_nonneg_of_le ha))

theorem interpolant_anti {mode : SignMode} {d a1 a2 i j : Int} (hd : 0 < d) (ha : a2 ≤ a1) (hij : i ≤ j) :
    interpolant mode d a1 a2 j ≤ interpolant mode d a1 a2 i :=
  interpolant_le hd (Int.mul_nonneg_of_nonpos_of_nonpos (Int.sub_nonpos_of_le hij) (Int.sub_nonpos_of_le ha))

theorem interpolant_between (mode : SignMode) (a1 a2 : Int) {d j : Int} (hd : 0 < d) (h0 : 0 ≤ j) (hj : j ≤ d) :
    min a1 a2 ≤ interpolant mode d a1 a2 j ∧ interpolant mode d a1 a2 j ≤ max a1 a2 := by
  have hzero := interpolant_zero mode hd a1 a2
  have hself := interpolant_self mode hd a1 a2
  rcases Int.le_total a1 a2 with ha | ha
  · have hlo := interpolant_mono (mode := mode) hd ha h0
    have hhi := interpolant_mono (mode := mode) hd ha hj
    omega
  · have hhi := interpolant_anti (mode := mode) hd ha h0
    have hlo := interpolant_anti (mode := mode) hd ha hj
    omega

/-- The interpolant of two bytes is a value of the mode, so its byte holds it. -/
theorem endpointValue_rampByte_interpolant (mode : SignMode) (e1 e2 : Byte) {d j : Int} (hd : 0 < d) (h0 : 0 ≤ j)
    (hj : j ≤ d) :
    endpointValue mode (rampByte (interpolant mode d (endpointValue mode e1) (endpointValue mode e2) j)) =
      interpolant mode d (endpointValue mode e1) (endpointValue mode e2) j := by
  obtain ⟨hlo1, hhi1⟩ := endpointValue_mem_range mode e1
  obtain ⟨hlo2, hhi2⟩ := endpointValue_mem_range mode e2
  obtain ⟨hlo, hhi⟩ := interpolant_between mode (endpointValue mode e1) (endpointValue mode e2) hd h0 hj
  exact endpointValue_rampByte ((le_min hlo1 hlo2).trans hlo) (hhi.trans (max_le hhi1 hhi2))

/-! ### The entries -/

/-- The ramp as bytes, its interpolated entries as interpolants. -/
theorem scalarRamp_eq_ite (mode : SignMode) (e1 e2 : Byte) :
    scalarRamp mode e1 e2 =
      let a1 := endpointValue mode e1
      let a2 := endpointValue mode e2
      if a2 < a1 then
        #v[e1, e2, rampByte (interpolant mode 7 a1 a2 1), rampByte (interpolant mode 7 a1 a2 2),
          rampByte (interpolant mode 7 a1 a2 3), rampByte (interpolant mode 7 a1 a2 4),
          rampByte (interpolant mode 7 a1 a2 5), rampByte (interpolant mode 7 a1 a2 6)]
      else
        #v[e1, e2, rampByte (interpolant mode 5 a1 a2 1), rampByte (interpolant mode 5 a1 a2 2),
          rampByte (interpolant mode 5 a1 a2 3), rampByte (interpolant mode 5 a1 a2 4),
          rampByte (rangeMin mode), rampByte (rangeMax mode)] := by
  rw [scalarRamp, scalarRampValues, apply_ite (Vector.map rampByte)]
  simp [rampByte_endpointValue, interpolant]

/-- Entries 0 and 1 are the endpoint bytes in either mode of the ramp. -/
theorem scalarRamp_endpoints (mode : SignMode) (e1 e2 : Byte) :
    (scalarRamp mode e1 e2)[0] = e1 ∧ (scalarRamp mode e1 e2)[1] = e2 := by
  rw [scalarRamp_eq_ite]
  dsimp only
  split
  · exact ⟨rfl, rfl⟩
  · exact ⟨rfl, rfl⟩

section Entries

variable {mode : SignMode} {e1 e2 : Byte}

/-- Eight-value mode (R184). -/
theorem scalarRamp_interpolated_of_lt (h : endpointValue mode e2 < endpointValue mode e1) {k : Nat} (hk : k < 6) :
    endpointValue mode (scalarRamp mode e1 e2)[2 + k] =
      interpolant mode 7 (endpointValue mode e1) (endpointValue mode e2) (k + 1) := by
  rw [← endpointValue_rampByte_interpolant mode e1 e2 (by decide) (by omega) (by omega)]
  simp only [scalarRamp_eq_ite, if_pos h]
  interval_cases k <;> rfl

/-- Six-value mode (R185). -/
theorem scalarRamp_interpolated_of_le (h : endpointValue mode e1 ≤ endpointValue mode e2) {k : Nat} (hk : k < 4) :
    endpointValue mode (scalarRamp mode e1 e2)[2 + k] =
      interpolant mode 5 (endpointValue mode e1) (endpointValue mode e2) (k + 1) := by
  rw [← endpointValue_rampByte_interpolant mode e1 e2 (by decide) (by omega) (by omega)]
  simp only [scalarRamp_eq_ite, if_neg (Int.not_lt.2 h)]
  interval_cases k <;> rfl

/-- Six-value mode ends in the bytes of MIN and MAX (R185). -/
theorem scalarRamp_last_of_le (h : endpointValue mode e1 ≤ endpointValue mode e2) :
    (scalarRamp mode e1 e2)[6] = rampByte (rangeMin mode) ∧
      (scalarRamp mode e1 e2)[7] = rampByte (rangeMax mode) := by
  simp only [scalarRamp_eq_ite, if_neg (Int.not_lt.2 h)]
  exact ⟨rfl, rfl⟩

end Entries

/-! ### The statements -/

/-- In unsigned mode the interpolant is the floored quotient of naturals. -/
theorem interpolant_unsigned (n k : Nat) (hk : k ≤ n) (a b : Nat) :
    interpolant .unsigned (n + 1) a b (k + 1) = (((n - k) * a + (1 + k) * b) / (n + 1) : Nat) := by
  rw [interpolant, idiv]
  push_cast [hk]
  ring_nf

/-- Settles O13: the entries in naturals, and the examples evaluated. -/
theorem unsignedScalarRamp : Obligations.UnsignedScalarRamp := by
  refine ⟨fun e1 e2 h => ?eight, fun e1 e2 h => ?six, by simp only [scalarRamp_eq_ite]; decide⟩
  case eight =>
    obtain ⟨h0, h1⟩ := scalarRamp_endpoints .unsigned e1 e2
    refine ⟨h0, h1, fun k hk => Int.ofNat.inj ?_⟩
    exact (scalarRamp_interpolated_of_lt (mode := .unsigned) (Int.ofNat_lt.2 h) hk).trans
      (interpolant_unsigned 6 k hk.le _ _)
  case six =>
    obtain ⟨h0, h1⟩ := scalarRamp_endpoints .unsigned e1 e2
    obtain ⟨h6, h7⟩ := scalarRamp_last_of_le (mode := .unsigned) (Int.ofNat_le.2 h)
    refine ⟨h0, h1, fun k hk => Int.ofNat.inj ?_, h6, h7⟩
    exact (scalarRamp_interpolated_of_le (mode := .unsigned) (Int.ofNat_le.2 h) hk).trans
      (interpolant_unsigned 4 k hk.le _ _)

/-- In signed mode the interpolant truncates toward zero. -/
theorem interpolant_signed (n k a b : Int) :
    interpolant .signed (n + 1) a b (k + 1) = ((n - k) * a + (1 + k) * b).tdiv (n + 1) := by
  rw [interpolant, idiv, Int.add_sub_add_right, Int.add_comm k 1]

/-- Settles O14: the entries in two's complement, and the examples evaluated. -/
theorem signedScalarRamp : Obligations.SignedScalarRamp := by
  refine ⟨fun e1 e2 h => ?eight, fun e1 e2 h => ?six, by simp only [scalarRamp_eq_ite]; decide⟩
  case eight =>
    obtain ⟨h0, h1⟩ := scalarRamp_endpoints .signed e1 e2
    exact ⟨h0, h1,
      fun k hk => (scalarRamp_interpolated_of_lt (mode := .signed) h hk).trans (interpolant_signed 6 k _ _)⟩
  case six =>
    obtain ⟨h0, h1⟩ := scalarRamp_endpoints .signed e1 e2
    obtain ⟨h6, h7⟩ := scalarRamp_last_of_le (mode := .signed) h
    exact ⟨h0, h1,
      fun k hk => (scalarRamp_interpolated_of_le (mode := .signed) h hk).trans (interpolant_signed 4 k _ _),
      congrArg BitVec.toInt h6, congrArg BitVec.toInt h7⟩

/-- MIN and MAX are values of the mode. -/
theorem endpointValue_rampByte_range (mode : SignMode) :
    endpointValue mode (rampByte (rangeMin mode)) = rangeMin mode ∧
      endpointValue mode (rampByte (rangeMax mode)) = rangeMax mode := by
  cases mode <;> decide

/-- Settles O15: the entries are interpolants at rising steps, the endpoints those of step 0 and of the divisor. -/
theorem scalarRampMonotone : Obligations.ScalarRampMonotone := by
  intro mode e1 e2 v
  obtain ⟨h0, h1⟩ := scalarRamp_endpoints mode e1 e2
  have hfirst : v 0 (by omega) = endpointValue mode e1 := congrArg (endpointValue mode) h0
  have hsecond : v 1 (by omega) = endpointValue mode e2 := congrArg (endpointValue mode) h1
  refine ⟨fun h => ?eight, fun h => ?six⟩
  case eight =>
    have entry (k : Nat) (hk : k < 6) : v (2 + k) (by omega) =
        interpolant mode 7 (endpointValue mode e1) (endpointValue mode e2) (k + 1) := scalarRamp_interpolated_of_lt h hk
    have falls {i j : Int} (hij : i ≤ j) := interpolant_anti (mode := mode) (d := 7) (by decide) h.le hij
    refine ⟨?_, fun k hk => ?_, ?_⟩
    · rw [hfirst, entry 0 (by decide), ge_iff_le]
      exact (falls (by decide)).trans_eq (interpolant_zero mode (by decide) _ _)
    · simp only [show 3 + k = 2 + (k + 1) by omega]
      rw [entry k (by omega), entry (k + 1) (by omega)]
      exact falls (by omega)
    · rw [hsecond, entry 5 (by decide), ge_iff_le]
      exact (interpolant_self mode (by decide) _ _).symm.trans_le (falls (by decide))
  case six =>
    have entry (k : Nat) (hk : k < 4) : v (2 + k) (by omega) =
        interpolant mode 5 (endpointValue mode e1) (endpointValue mode e2) (k + 1) := scalarRamp_interpolated_of_le h hk
    have rises {i j : Int} (hij : i ≤ j) := interpolant_mono (mode := mode) (d := 5) (by decide) h hij
    obtain ⟨h6, h7⟩ := scalarRamp_last_of_le h
    obtain ⟨hmin, hmax⟩ := endpointValue_rampByte_range mode
    refine ⟨?_, fun k hk => ?_, ?_, (congrArg _ h6).trans hmin, (congrArg _ h7).trans hmax⟩
    · rw [hfirst, entry 0 (by decide)]
      exact (interpolant_zero mode (by decide) _ _).symm.trans_le (rises (by decide))
    · simp only [show 3 + k = 2 + (k + 1) by omega]
      rw [entry k (by omega), entry (k + 1) (by omega)]
      exact rises (by omega)
    · rw [hsecond, entry 3 (by decide)]
      exact (rises (by decide)).trans_eq (interpolant_self mode (by decide) _ _)

end Sys2Proof.Proofs

namespace Sys2Proof.Proofs

open Sys2Proof.Machine

/-! ## Fields of a block (spec/43_bcn_decompressor.md R202 to R204, R208, spec/44_gx_tiled.md R261) -/

/-- Field `p` of `n` bits is digit `p` of the word in base `2 ^ n`. -/
theorem extractField_toNat {w : Nat} (x : BitVec w) (n p : Nat) :
    (x.extractLsb' (n * p) n).toNat = x.toNat / (2 ^ n) ^ p % 2 ^ n := by
  rw [BitVec.extractLsb'_toNat, Nat.shiftRight_eq_div_pow, pow_mul]

/-- Settles O16: each index is a field of its word; planes hold eight pixels each, and CMPR counts fields from the top. -/
theorem pixelIndexFields : Obligations.PixelIndexFields := by
  refine ⟨fun idx p _ => extractField_toNat idx 2 p, fun p0 p1 p hp => ⟨?_, ?_⟩, fun a0 a1 p hp => ⟨?_, ?_⟩,
    fun row ix hix => ?_⟩
  · rw [scalarIndex, if_pos hp]
    exact extractField_toNat p0 3 p
  · rw [scalarIndex, if_neg (by omega), Nat.add_sub_cancel]
    exact extractField_toNat p1 3 p
  · rw [alphaNibble, if_pos hp]
    exact extractField_toNat a0 4 p
  · rw [alphaNibble, if_neg (by omega), Nat.add_sub_cancel]
    exact extractField_toNat a1 4 p
  · have hfield : 6 - 2 * ix = 2 * (3 - ix) := by omega
    rw [cmprIndex, hfield]
    exact extractField_toNat row 2 (3 - ix)

end Sys2Proof.Proofs

namespace Sys2Proof.Proofs

open Sys2Proof.Machine

/-! ## What the BCn commands compute (spec/43_bcn_decompressor.md R201 to R216) -/

theorem cursorStep_bcn {i : Instr} (hg : groupOf i = .bcn) : cursorStep i = 0 := by
  unfold cursorStep
  split
  · rfl
  · rfl
  · rw [hg]

/-- An accepted BCn command completes, each byte that of its pixel in its block. -/
theorem bcn_completes {i : Instr} {lin : Bool} {bhl2 : BitVec 3} {bpb : Nat} {s : State}
    {block : Window → Memory → Scratch → Nat → Except Halt BlockOut} {tex : State → Nat → Nat → Nat → Option Byte}
    (hblock : BlockOk bpb block tex) (hi : commandOf i = bcnCommand bpb lin bhl2 block) (hg : groupOf i = .bcn)
    (hb : bpb ∈ [1, 4, 8, 16]) (hs : Fresh s) (ha : Accepted i s.d) :
    Completes i s fun o => tex s (pixelBlock bpb lin bhl2 s (o / 4 % s.d.w) (o / 4 / s.d.w))
      (pixelNumber (o / 4 % s.d.w) (o / 4 / s.d.w)) (o % 4) :=
  completes_of_unitsOk hs ha (bcn_units hblock hi hg hb (cursorStep_bcn hg) ha) (by rw [hi]; rfl)

/-- Settles O45: BC1 stores the colour of each pixel. -/
theorem bc1Result : Obligations.Bc1Result :=
  fun _ _ _ _ hs ha => bcn_completes bc1Block_ok rfl rfl (by decide) hs ha

/-- Settles O46: BC2 and BC3 store the colour with the alpha of the block's first half. -/
theorem bc2Bc3Result : Obligations.Bc2Bc3Result := fun _ _ _ _ hs =>
  ⟨fun ha => bcn_completes bc2Block_ok rfl rfl (by decide) hs ha,
    fun ha => bcn_completes bc3Block_ok rfl rfl (by decide) hs ha⟩

/-- Settles O47: BC4 has a value at the R byte of each pixel, and none at the other three. -/
theorem bc4Result : Obligations.Bc4Result := fun _ _ _ _ hs =>
  ⟨fun ha => bcn_completes (bc4Block_ok .unsigned) rfl rfl (by decide) hs ha,
    fun ha => bcn_completes (bc4Block_ok .signed) rfl rfl (by decide) hs ha⟩

/-- Settles O48: BC5 stores both values, and MAX of its mode twice. -/
theorem bc5Result : Obligations.Bc5Result := fun _ _ _ _ hs =>
  ⟨fun ha => bcn_completes (bc5Block_ok .unsigned) rfl rfl (by decide) hs ha,
    fun ha => bcn_completes (bc5Block_ok .signed) rfl rfl (by decide) hs ha⟩

end Sys2Proof.Proofs

namespace Sys2Proof.Proofs

open Sys2Proof.Machine

/-! ## The formats of the BCn commands (spec/43_bcn_decompressor.md R200, R202 to R207) -/

/-- The `n` source bytes from `o` on in `s` are those from `o'` on in `t`. -/
def SameBytes (n : Nat) (s t : State) (o o' : Nat) : Prop := ∀ j < n, srcByte s (o + j) = srcByte t (o' + j)

theorem SameBytes.low {s t : State} {o o' : Nat} (h : SameBytes 16 s t o o') : SameBytes 8 s t o o' :=
  fun j hj => h j (by omega)

theorem SameBytes.high {s t : State} {o o' : Nat} (h : SameBytes 16 s t o o') : SameBytes 8 s t (o + 8) (o' + 8) :=
  fun j hj => by
    rw [Nat.add_assoc, Nat.add_assoc]
    exact h (8 + j) (by omega)

theorem SameBytes.colourOf {s t : State} {o o' : Nat} (h : SameBytes 8 s t o o') (p : Nat) :
    colourOf s o p = colourOf t o' p := by
  have h0 : srcByte s o = srcByte t o' := h 0 (by omega)
  simp only [Machine.colourOf, h0, h 1 (by omega), h 2 (by omega), h 3 (by omega), h 4 (by omega), h 5 (by omega),
    h 6 (by omega), h 7 (by omega)]

theorem SameBytes.valueOf {s t : State} {o o' : Nat} (h : SameBytes 8 s t o o') (mode : SignMode) (p : Nat) :
    valueOf mode s o p = valueOf mode t o' p := by
  have h0 : srcByte s o = srcByte t o' := h 0 (by omega)
  simp only [Machine.valueOf, h0, h 1 (by omega), h 2 (by omega), h 3 (by omega), h 4 (by omega), h 5 (by omega),
    h 6 (by omega), h 7 (by omega)]

theorem SameBytes.nibbleAlphaOf {s t : State} {o o' : Nat} (h : SameBytes 8 s t o o') (p : Nat) :
    nibbleAlphaOf s o p = nibbleAlphaOf t o' p := by
  have h0 : srcByte s o = srcByte t o' := h 0 (by omega)
  simp only [Machine.nibbleAlphaOf, h0, h 1 (by omega), h 2 (by omega), h 3 (by omega), h 4 (by omega),
    h 5 (by omega), h 6 (by omega), h 7 (by omega)]

/-- `block` is the block decoder of the BCn command `i`, and byte `k` of pixel `p` of the block at source offset `o` is
`tex s o p k`: a value at the channels that `i` writes, made of the block's bytes wherever they stand. -/
structure BcnFormat (i : Instr) (block : Window → Memory → Scratch → Nat → Except Halt BlockOut)
    (tex : State → Nat → Nat → Nat → Option Byte) : Prop where
  command : commandOf i = bcnCommand (blockBytes i) (linearSource i) (BitVec.ofNat 3 (blockHeightLog2 i)) block
  linear : commandOf (withLinear i) = bcnCommand (blockBytes i) true 0 block
  decodes : BlockOk (blockBytes i) block tex
  relocates : ∀ (s t : State) (o o' p k : Nat), SameBytes (blockBytes i) s t o o' → tex s o p k = tex t o' p k
  written : ∀ (s : State) (o p k : Nat), (tex s o p k).isSome = true ↔ WritesChannel i k

/-- Every BCn command has its format. -/
theorem exists_bcnFormat {i : Instr} (hg : groupOf i = .bcn) : ∃ block tex, BcnFormat i block tex := by
  cases i with
  | bc1 =>
    exact ⟨_, _, bcnCommand_ofNat_toNat .., rfl, bc1Block_ok, fun _ _ _ _ p _ h => by rw [h.colourOf p],
      fun _ _ _ _ => iff_of_true rfl trivial⟩
  | bc2 =>
    exact ⟨_, _, bcnCommand_ofNat_toNat .., rfl, bc2Block_ok,
      fun _ _ _ _ p _ h => by rw [h.high.colourOf p, h.low.nibbleAlphaOf p], fun _ _ _ _ => iff_of_true rfl trivial⟩
  | bc3 =>
    exact ⟨_, _, bcnCommand_ofNat_toNat .., rfl, bc3Block_ok,
      fun _ _ _ _ p _ h => by rw [h.high.colourOf p, h.low.valueOf _ p], fun _ _ _ _ => iff_of_true rfl trivial⟩
  | bc4u | bc4s =>
    exact ⟨_, _, bcnCommand_ofNat_toNat .., rfl, bc4Block_ok _, fun _ _ _ _ p _ h => by rw [h.valueOf _ p],
      fun _ _ _ _ => Option.isSome_ite⟩
  | bc5u | bc5s =>
    exact ⟨_, _, bcnCommand_ofNat_toNat .., rfl, bc5Block_ok _,
      fun _ _ _ _ p _ h => by rw [h.low.valueOf _ p, h.high.valueOf _ p], fun _ _ _ _ => iff_of_true rfl trivial⟩
  | _ => cases hg

/-! ## A linear BCn command after DESWZ (spec/43_bcn_decompressor.md R209)

Block `(x, y)` of the linear surface is block number `y * wb + x` of DESWZ's output, which DESWZ took from the place where
the block-linear command reads block `(x, y)`. -/

theorem groupOf_withLinear (i : Instr) : groupOf (withLinear i) = groupOf i := by cases i <;> rfl

theorem outputLength_bcn {i : Instr} (hg : groupOf i = .bcn) (d : Desc) : outputLength i d = d.w * d.tall * 4 := by
  simp [outputLength, hg]

/-- The block of a pixel of the image lies in the source window. -/
theorem bcn_pixelBlock_in_source {i : Instr} {s : State} {bpb : Nat} {lin : Bool} {bhl2 : BitVec 3}
    {block : Window → Memory → Scratch → Nat → Except Halt BlockOut} (hi : commandOf i = bcnCommand bpb lin bhl2 block)
    (hg : groupOf i = .bcn) (hb : bpb ∈ [1, 4, 8, 16]) (ha : Accepted i s.d) {x y : Nat} (hx : x < s.d.w)
    (hy : y < s.d.tall) : pixelBlock bpb lin bhl2 s x y + bpb ≤ s.d.srcLen.toNat :=
  bcn_block_in_source hb (srcLen_of_accepted_bcn hi hg ha) (div_lt_ceilDiv (by decide) hx)
    (div_lt_ceilDiv (by decide) hy)

/-- One image of 4x4 blocks of `bpb` bytes by two routes: block-linear in the source of `s0` and of `s2`, and in the source
of `s1` as DESWZ on `s0` leaves it in `m`. -/
structure TwoRoutes (bpb : Nat) (bhl2 : BitVec 3) (s0 s1 s2 : State) (m : Memory) : Prop where
  bw : s0.d.bw = 4
  bh : s0.d.bh = 4
  bpb : s0.d.bpb = bpb
  w1 : s1.d.w = s0.d.w
  w2 : s2.d.w = s0.d.w
  tall2 : s2.d.tall = s0.d.tall
  output : HoldsOutput bhl2 s0 m
  copied : ∀ o < s1.d.srcLen.toNat, srcByte s1 o = byteAt m s0.d.dst o
  swizzled : ∀ o < s2.d.srcLen.toNat, srcByte s2 o = srcByte s0 o

/-- The block of a pixel holds the same bytes on both routes. -/
theorem TwoRoutes.block {bpb : Nat} {bhl2 : BitVec 3} {s0 s1 s2 : State} {m : Memory}
    (h : TwoRoutes bpb bhl2 s0 s1 s2 m) {x y : Nat} (hx : x < s2.d.w) (hy : y < s2.d.tall)
    (hroom1 : pixelBlock bpb true 0 s1 x y + bpb ≤ s1.d.srcLen.toNat)
    (hroom2 : pixelBlock bpb false bhl2 s2 x y + bpb ≤ s2.d.srcLen.toNat) :
    SameBytes bpb s1 s2 (pixelBlock bpb true 0 s1 x y) (pixelBlock bpb false bhl2 s2 x y) := by
  intro k hk
  obtain ⟨hbw, hbh, rfl, hw1, hw2, htall2, output, copied, swizzled⟩ := h
  have hcol : x / 4 < deswzCols s0.d := by
    rw [deswzCols, hbw, ← hw2]
    exact div_lt_ceilDiv (by decide) hx
  have hrow : y / 4 < deswzRows s0.d := by
    rw [deswzRows, hbh, ← htall2]
    exact div_lt_ceilDiv (by decide) hy
  have hlinear : pixelBlock s0.d.bpb true 0 s1 x y = (y / 4 * deswzCols s0.d + x / 4) * s0.d.bpb := by
    rw [pixelBlock, bcnBlockOffset, if_pos rfl, bcnCols, deswzCols, hbw, hw1]
  have hswizzled : pixelBlock s0.d.bpb false bhl2 s2 x y = deswzBlockOffset bhl2 s0.d (x / 4) (y / 4) := by
    simp only [pixelBlock, bcnBlockOffset, Bool.false_eq_true, if_false, bcnBlockHeight, bcnCols, bcnRows,
      deswzBlockOffset, deswzBlockHeight, deswzCols, deswzRows, hbw, hbh, hw2, htall2]
  calc srcByte s1 (pixelBlock s0.d.bpb true 0 s1 x y + k)
      = byteAt m s0.d.dst (pixelBlock s0.d.bpb true 0 s1 x y + k) := copied _ (by omega)
    _ = byteAt m s0.d.dst ((y / 4 * deswzCols s0.d + x / 4) * s0.d.bpb + k) := by rw [hlinear]
    _ = deswzByte bhl2 s0 ((y / 4 * deswzCols s0.d + x / 4) * s0.d.bpb + k) :=
        output _ (deswz_offset_lt hcol hrow hk)
    _ = srcByte s0 (deswzBlockOffset bhl2 s0.d (x / 4) (y / 4) + k) := deswzByte_of_block bhl2 s0 hcol hk
    _ = srcByte s0 (pixelBlock s0.d.bpb false bhl2 s2 x y + k) := by rw [hswizzled]
    _ = srcByte s2 (pixelBlock s0.d.bpb false bhl2 s2 x y + k) := (swizzled _ (by omega)).symm

/-- Settles O50: both commands complete, and each pixel is made of the same bytes. -/
theorem linearAfterDeswz : Obligations.LinearAfterDeswz := by
  intro i bhl2 s0 s1 s2 hg hlin hbhl2 hs0 ha0 hbw hbh hbpb hs1 ha1 hs2 ha2 hw1 ht1 hw2 ht2 hsrc
  obtain ⟨block, tex, hformat⟩ := exists_bcnFormat hg
  have hglin : groupOf (withLinear i) = .bcn := (groupOf_withLinear i).trans hg
  have hcommand : commandOf i = bcnCommand (blockBytes i) false bhl2 block := by
    rw [hformat.command, hlin, hbhl2, BitVec.ofNat_toNat, BitVec.setWidth_eq]
  have hb := blockBytes_mem i
  obtain ⟨m0, e0, hout0⟩ := exec_of_completes (deswzResult bhl2 s0 hs0 ha0).1
  obtain ⟨m1, e1, hout1⟩ := exec_of_completes (bcn_completes hformat.decodes hformat.linear hglin hb hs1 ha1)
  obtain ⟨m2, e2, hout2⟩ := exec_of_completes (bcn_completes hformat.decodes hcommand hg hb hs2 ha2)
  refine ⟨_, e0, fun hcopy => ⟨_, _, e1, e2, fun o ho hk => ?_⟩⟩
  have hroutes : TwoRoutes (blockBytes i) bhl2 s0 s1 s2 m0 :=
    ⟨hbw, hbh, hbpb, hw1, hw2, ht2, fun o ho => hout0 o ho _ rfl, hcopy, hsrc⟩
  have hwidth : s1.d.w = s2.d.w := hw1.trans hw2.symm
  have htall : s1.d.tall = s2.d.tall := ht1.trans ht2.symm
  have hlength : outputLength (withLinear i) s1.d = outputLength i s2.d := by
    rw [outputLength_bcn hglin, outputLength_bcn hg, hwidth, htall]
  have hraster : o < s2.d.tall * s2.d.w * 4 := by rwa [outputLength_bcn hg, Nat.mul_comm s2.d.w] at ho
  obtain ⟨hx, hy, -, -⟩ := offset_split (by decide) hraster
  rw [hlength, hwidth] at hout1
  have hblock := hroutes.block hx hy
    (bcn_pixelBlock_in_source hformat.linear hglin hb ha1 (hwidth ▸ hx) (htall ▸ hy))
    (bcn_pixelBlock_in_source hcommand hg hb ha2 hx hy)
  obtain ⟨b, hbyte⟩ := Option.isSome_iff_exists.1 ((hformat.written s2 _ _ _).2 hk)
  exact (hout1 o ho b ((hformat.relocates s1 s2 _ _ _ _ hblock).trans hbyte)).trans (hout2 o ho b hbyte).symm

end Sys2Proof.Proofs

namespace Sys2Proof.Proofs

open Sys2Proof.Machine

/-! ## Each output byte has one writer (spec/43_bcn_decompressor.md R217, spec/44_gx_tiled.md R263,
spec/46_dispatch.md R311)

That a unit writes the bytes it owns, and no others, is `UnitsOk` with the owner that the spec names. That it writes none
of them twice is shown piece by piece: a pixel's bytes have distinct offsets, and offsets of distinct pixels, rows or
sub-blocks are told apart by a key, which can be read off the offset. -/

/-! ### Lists of writes without a repeated offset -/

/-- The offsets of a list of writes. -/
abbrev offsets (ws : List Write) : List Nat := ws.map Prod.fst

theorem offsets_writesAt (o : Nat) (bs : List Byte) : offsets (writesAt o bs) = List.range' o bs.length := by
  induction bs generalizing o with
  | nil => rfl
  | cons b bs ih => exact congrArg (o :: ·) (ih (o + 1))

theorem writesAt_nodup (o : Nat) (bs : List Byte) : (offsets (writesAt o bs)).Nodup := by
  rw [offsets_writesAt]
  exact List.nodup_range'

/-- Pieces without repeats, told apart by a key of their offsets, are together without repeats. -/
theorem flatMap_nodup_of_key {ι κ : Type} {l : List ι} {piece : ι → List Write} {key : Nat → κ} {g : ι → κ}
    (hl : (l.map g).Nodup) (hnodup : ∀ i ∈ l, (offsets (piece i)).Nodup)
    (hkey : ∀ i ∈ l, ∀ v ∈ piece i, key v.1 = g i) : (offsets (l.flatMap piece)).Nodup := by
  rw [offsets, List.map_flatMap, List.nodup_flatMap]
  refine ⟨hnodup, (List.pairwise_map.1 hl).imp_of_mem fun hi hj hne o ho ho' => hne ?_⟩
  obtain ⟨v, hv, rfl⟩ := List.mem_map.1 ho
  obtain ⟨v', hv', heq⟩ := List.mem_map.1 ho'
  rw [← hkey _ hi v hv, ← hkey _ hj v' hv', heq]

/-- No offset is repeated, and every offset has a key from `k` on. -/
def NodupFrom (key : Nat → Nat) (k : Nat) (ws : List Write) : Prop := (offsets ws).Nodup ∧ ∀ v ∈ ws, k ≤ key v.1

theorem NodupFrom.nil (key : Nat → Nat) (k : Nat) : NodupFrom key k [] := ⟨List.nodup_nil, nofun⟩

/-- A piece with the key `k` goes before pieces with greater keys. -/
theorem NodupFrom.append {key : Nat → Nat} {k : Nat} {here rest : List Write} (hnodup : (offsets here).Nodup)
    (hkey : ∀ v ∈ here, key v.1 = k) (hrest : NodupFrom key (k + 1) rest) : NodupFrom key k (here ++ rest) := by
  obtain ⟨hrest, hlater⟩ := hrest
  constructor
  · rw [offsets, List.map_append]
    refine hnodup.append hrest fun o ho ho' => ?_
    obtain ⟨v, hv, rfl⟩ := List.mem_map.1 ho
    obtain ⟨v', hv', heq⟩ := List.mem_map.1 ho'
    have := hkey v hv
    have := hlater v' hv'
    rw [heq] at this
    omega
  · intro v hv
    rcases List.mem_append.1 hv with h | h
    · exact (hkey v h).ge
    · exact Nat.le_of_succ_le (hlater v h)

/-! ### Pixels and tiles -/

/-- The writes of the bytes of one pixel, at column `x` and row `y` of an image `w` wide. -/
structure OnePixel (w x y : Nat) (ws : List Write) : Prop where
  nodup : (offsets ws).Nodup
  col : ∀ v ∈ ws, v.1 / 4 % w = x
  row : ∀ v ∈ ws, v.1 / 4 / w = y

theorem writesAt_onePixel {w x y : Nat} {bs : List Byte} (hx : x < w) (hbs : bs.length ≤ 4) :
    OnePixel w x y (writesAt ((y * w + x) * 4) bs) := by
  have parts : ∀ v ∈ writesAt ((y * w + x) * 4) bs, v.1 / 4 % w = x ∧ v.1 / 4 / w = y := by
    rintro ⟨o, b⟩ hv
    obtain ⟨k, hk, rfl, -⟩ := mem_writesAt.1 hv
    obtain ⟨hcol, hrow, -⟩ := offset_parts (y := y) (c := k) hx (Nat.lt_of_lt_of_le hk hbs)
    exact ⟨hcol, hrow⟩
  exact ⟨writesAt_nodup _ _, fun v hv => (parts v hv).1, fun v hv => (parts v hv).2⟩

theorem OnePixel.nil (w x y : Nat) : OnePixel w x y [] := ⟨List.nodup_nil, nofun, nofun⟩

/-- The rows of a clipped block are apart, and so are the pixels of a row (R201). -/
theorem clippedWrites_nodup {d : Desc} {bx by_ : Nat} {texel : Nat → List Byte} (h : ∀ p, (texel p).length ≤ 4) :
    (offsets (clippedWrites d bx by_ texel)).Nodup := by
  have hpixel (iy ix : Nat) (hix : ix ∈ List.range (min 4 (d.w - bx * 4))) :
      OnePixel d.w (bx * 4 + ix) (by_ * 4 + iy)
        (writesAt (((by_ * 4 + iy) * d.w + bx * 4 + ix) * 4) (texel (iy * 4 + ix))) := by
    have := List.mem_range.1 hix
    rw [Nat.add_assoc ((by_ * 4 + iy) * d.w)]
    exact writesAt_onePixel (by omega) (h _)
  refine flatMap_nodup_of_key (key := (· / 4 / d.w)) (g := (by_ * 4 + ·))
    (List.nodup_range.map (add_right_injective _)) (fun iy _ => ?_) (fun iy _ v hv => ?_)
  · exact flatMap_nodup_of_key (key := (· / 4 % d.w)) (g := (bx * 4 + ·))
      (List.nodup_range.map (add_right_injective _)) (fun ix hix => (hpixel iy ix hix).nodup)
      fun ix hix => (hpixel iy ix hix).col
  · obtain ⟨ix, hix, hv⟩ := List.mem_flatMap.1 hv
    exact (hpixel iy ix hix).row v hv

/-- The pixels of a tile are apart (R260, R262). -/
theorem tileWrites_nodup (d : Desc) (x0 y0 : Nat) (pixel : Nat → Pixel) : (offsets (tileWrites d x0 y0 pixel)).Nodup := by
  have hpixel (p : Nat) : OnePixel d.w (x0 + p % 4) (y0 + p / 4)
      (if x0 + p % 4 < d.w ∧ y0 + p / 4 < d.h then
        writesAt (((y0 + p / 4) * d.w + (x0 + p % 4)) * 4) (pixelBytes (pixel p)) else []) := by
    split
    · rename_i hvisible
      exact writesAt_onePixel hvisible.1 (Nat.le_refl 4)
    · exact .nil ..
  refine flatMap_nodup_of_key (key := fun o => (o / 4 % d.w, o / 4 / d.w)) (g := fun p => (x0 + p % 4, y0 + p / 4))
    (List.nodup_range.map fun p q hpq => ?_) (fun p _ => (hpixel p).nodup)
    fun p _ v hv => Prod.ext ((hpixel p).col v hv) ((hpixel p).row v hv)
  have hcol : x0 + p % 4 = x0 + q % 4 := congrArg Prod.fst hpq
  have hrow : y0 + p / 4 = y0 + q / 4 := congrArg Prod.snd hpq
  omega

/-! ### The units' writes -/

theorem exists_of_bind_ok {ε α β : Type} {x : Except ε α} {f : α → Except ε β} {b : β} (h : x.bind f = .ok b) :
    ∃ a, x = .ok a ∧ f a = .ok b := by
  cases x with
  | error e => cases h
  | ok a => exact ⟨a, rfl, h⟩

theorem exists_of_map_ok {ε α β : Type} {x : Except ε α} {f : α → β} {b : β} (h : x.map f = .ok b) :
    ∃ a, x = .ok a ∧ f a = b := by
  cases x with
  | error e => cases h
  | ok a => exact ⟨a, rfl, Except.ok.inj h⟩

theorem deswzUnit_nodup {bhl2 : BitVec 3} {s : State} {u : UnitOut} (h : deswzUnit bhl2 s = .ok u) :
    (offsets u.writes).Nodup := by
  obtain ⟨bytes, -, h⟩ := exists_of_bind_ok h
  obtain rfl := Except.ok.inj h
  exact writesAt_nodup _ _

theorem palUnit_nodup {fmt : PalFmt} {s : State} {u : UnitOut} (h : palUnit fmt s = .ok u) :
    (offsets u.writes).Nodup := by
  obtain ⟨p, -, rfl⟩ := exists_of_map_ok h
  exact writesAt_nodup _ _

/-- No pixel of a block has more than four bytes. -/
theorem BlockOk.texel_length_le {bpb : Nat} {block : Window → Memory → Scratch → Nat → Except Halt BlockOut}
    {tex : State → Nat → Nat → Nat → Option Byte} (hblock : BlockOk bpb block tex) {s : State} {o : Nat}
    (hroom : o + bpb ≤ s.d.src.len) (hf : Fits s.d.src) {b : BlockOut} (h : block s.d.src s.mem s.scr o = .ok b)
    (p : Nat) : (b.texel p).length ≤ 4 := by
  obtain ⟨b', e, -, -, -, -, -, htex⟩ := hblock.decodes s s.scr o hroom hf
  obtain rfl : b = b' := Except.ok.inj (h.symm.trans e)
  by_contra hlong
  have := ((htex p 4 _).1 ⟨Nat.lt_of_not_le hlong, rfl⟩).1
  omega

theorem bcnUnit_nodup {i : Instr} (hg : groupOf i = .bcn) {s : State} (ha : Accepted i s.d)
    (hx : s.scr.bx < unitCols i s.d) (hy : s.scr.by_ < unitRows i s.d) {u : UnitOut}
    (h : (commandOf i).decodeUnit s = .ok u) : (offsets u.writes).Nodup := by
  obtain ⟨block, tex, hformat⟩ := exists_bcnFormat hg
  rw [← commandOf_cols, hformat.command] at hx
  rw [← commandOf_rows, hformat.command] at hy
  rw [hformat.command] at h
  have hroom := bcn_block_in_source (blockBytes_mem i) (srcLen_of_accepted_bcn hformat.command hg ha) hx hy
  obtain ⟨b, hb, h⟩ := exists_of_bind_ok h
  obtain rfl := Except.ok.inj h
  exact clippedWrites_nodup
    (BlockOk.texel_length_le hformat.decodes hroom (ha.src_fits (by simp [usesSource, hg])) hb)

theorem rgba8Unit_nodup {s : State} {u : UnitOut} (h : rgba8Unit s = .ok u) : (offsets u.writes).Nodup := by
  obtain ⟨-, -, h⟩ := exists_of_bind_ok h
  obtain ⟨-, -, h⟩ := exists_of_bind_ok h
  obtain rfl := Except.ok.inj h
  exact tileWrites_nodup _ _ _ _

theorem texelWrites_onePixel (f : GxFormat) (s : State) (x y : Nat) (t : BitVec 16) :
    OnePixel s.d.w x y (texelWrites f s x y t) := by
  unfold texelWrites
  split
  · rename_i hvisible
    exact writesAt_onePixel hvisible.1 (Nat.le_refl 4)
  · exact .nil ..

/-- The number, in its `tw` by `th` macroblock, of the texel that offset `o` belongs to. -/
def texelNumber (w tw th o : Nat) : Nat := o / 4 / w % th * tw + o / 4 % w % tw

/-- The texels from `k` on are apart (R241). -/
theorem walkTexels_nodupFrom {f : GxFormat} {s : State} : ∀ {n k cur : Nat} {r : Nat × List Write},
    k + n ≤ f.tw * f.th → walkTexels f s n k cur = .ok r → NodupFrom (texelNumber s.d.w f.tw f.th) k r.2
  | 0, k, cur, r, _, h => by
    obtain rfl := Except.ok.inj h
    exact .nil ..
  | n + 1, k, cur, r, hn, h => by
    obtain ⟨t, -, h⟩ := exists_of_bind_ok h
    obtain ⟨r', hrest, rfl⟩ := exists_of_map_ok h
    have hpixel := texelWrites_onePixel f s (s.scr.bx * f.tw + k % f.tw) (s.scr.by_ * f.th + k / f.tw) t
    have hwidth : 0 < f.tw := Nat.pos_of_mul_pos_right (by omega : 0 < f.tw * f.th)
    have hrow : k / f.tw < f.th := Nat.div_lt_of_lt_mul (by omega)
    refine .append hpixel.nodup (fun v hv => ?_) (walkTexels_nodupFrom (by omega) hrest)
    rw [texelNumber, hpixel.col v hv, hpixel.row v hv, raster_mod hrow, raster_mod (Nat.mod_lt k hwidth),
      Nat.div_add_mod']

theorem gxUnit_nodup {f : GxFormat} {s : State} {u : UnitOut} (h : gxUnit f s = .ok u) : (offsets u.writes).Nodup := by
  obtain ⟨r, hwalk, rfl⟩ := exists_of_map_ok h
  exact (walkTexels_nodupFrom (by omega) hwalk).1

/-- The number, in its 8x8 macroblock, of the sub-block that offset `o` belongs to (R262). -/
def quadrantNumber (w o : Nat) : Nat := o / 4 / w % 8 / 4 * 2 + o / 4 % w % 8 / 4

theorem cmprSubBlock_writes {s : State} {scr : Scratch} {o x0 y0 : Nat} {u : UnitOut}
    (h : cmprSubBlock s scr o x0 y0 = .ok u) : ∃ pixel, u.writes = tileWrites s.d x0 y0 pixel := by
  obtain ⟨c1, -, h⟩ := exists_of_bind_ok h
  obtain ⟨c2, -, h⟩ := exists_of_bind_ok h
  obtain ⟨row0, -, h⟩ := exists_of_bind_ok h
  obtain ⟨row1, -, h⟩ := exists_of_bind_ok h
  obtain ⟨row2, -, h⟩ := exists_of_bind_ok h
  obtain ⟨row3, -, h⟩ := exists_of_bind_ok h
  obtain rfl := Except.ok.inj h
  dsimp only
  exact ⟨_, rfl⟩

/-- The tile of sub-block `q` lies in sub-block `q`. -/
theorem quadrantNumber_of_mem {d : Desc} {bx by_ q : Nat} {pixel : Nat → Pixel} {v : Write} (hq : q < 4)
    (hv : v ∈ tileWrites d (bx * 8 + q % 2 * 4) (by_ * 8 + q / 2 * 4) pixel) : quadrantNumber d.w v.1 = q := by
  obtain ⟨o, b⟩ := v
  obtain ⟨p, hp, k, hk, hx, -, rfl, -⟩ := mem_tileWrites.1 hv
  obtain ⟨hcol, hrow, -⟩ := offset_parts (y := by_ * 8 + q / 2 * 4 + p / 4) hx hk
  rw [quadrantNumber, hcol, hrow]
  omega

/-- The sub-blocks from `k` on are apart (R262). -/
theorem cmprQuadrants_nodupFrom {s : State} {o : Nat} : ∀ {n k : Nat} {scr : Scratch} {u : UnitOut},
    k + n ≤ 4 → cmprQuadrants s o n k scr = .ok u → NodupFrom (quadrantNumber s.d.w) k u.writes
  | 0, k, scr, u, _, h => by
    obtain rfl := Except.ok.inj h
    exact .nil ..
  | n + 1, k, scr, u, hn, h => by
    obtain ⟨here, hhere, h⟩ := exists_of_bind_ok h
    obtain ⟨rest, hrest, h⟩ := exists_of_bind_ok h
    obtain rfl := Except.ok.inj h
    obtain ⟨pixel, hwrites⟩ := cmprSubBlock_writes hhere
    refine .append ?_ (fun v hv => ?_) (cmprQuadrants_nodupFrom (by omega) hrest)
    · rw [hwrites]
      exact tileWrites_nodup _ _ _ _
    · rw [hwrites] at hv
      exact quadrantNumber_of_mem (by omega) hv

/-- No unit writes an offset twice. -/
theorem decodeUnit_nodup (i : Instr) {s : State} (ha : Accepted i s.d) (hx : s.scr.bx < unitCols i s.d)
    (hy : s.scr.by_ < unitRows i s.d) {u : UnitOut} (h : (commandOf i).decodeUnit s = .ok u) :
    (offsets u.writes).Nodup := by
  cases i with
  | deswz => exact deswzUnit_nodup h
  | bc1 | bc2 | bc3 | bc4u | bc4s | bc5u | bc5s => exact bcnUnit_nodup rfl ha hx hy h
  | gxI4 | gxI8 | gxIa4 | gxIa8 | gxRgb565 | gxRgb5a3 | gxC4 | gxC8 | gxC14x2 => exact gxUnit_nodup h
  | gxRgba8 => exact rgba8Unit_nodup h
  | gxCmpr => exact (cmprQuadrants_nodupFrom (by omega) h).1
  | palIa8 | palRgb565 | palRgb5a3 => exact palUnit_nodup h

/-! ### The owner of an offset -/

/-- The raster number of the unit that output offset `o` belongs to. -/
def ownerOf (i : Instr) (d : Desc) (o : Nat) : Nat :=
  (unitOfOffset i d o).2 * unitCols i d + (unitOfOffset i d o).1

theorem ownerOf_deswz (bhl2 : BitVec 3) (d : Desc) : ownerOf (.deswz bhl2) d = fun o => o / d.bpb :=
  funext fun o => Nat.div_add_mod' (o / d.bpb) (unitCols (.deswz bhl2) d)

theorem ownerOf_bcn {i : Instr} (hg : groupOf i = .bcn) (d : Desc) : ownerOf i d = tileOwner d.w 4 4 := by
  funext o
  simp [ownerOf, unitOfOffset, unitCols, tileOwner, hg]

theorem ownerOf_pal {i : Instr} (hg : groupOf i = .pal) (d : Desc) : ownerOf i d = fun o => o / 4 := by
  funext o
  simp [ownerOf, unitOfOffset, hg]

theorem bcn_unitsOk_ownerOf {i : Instr} {d : Desc} (hg : groupOf i = .bcn) (ha : Accepted i d) :
    ∃ owner image, UnitsOk (commandOf i) d (cursorStep i) owner image ∧ owner = ownerOf i d ∧
      ∀ s o, (image s o).isSome = true ↔ WritesChannel i (o % 4) := by
  obtain ⟨block, tex, hformat⟩ := exists_bcnFormat hg
  exact ⟨_, _, bcn_units hformat.decodes hformat.command hg (blockBytes_mem i) (cursorStep_bcn hg) ha,
    (ownerOf_bcn hg d).symm, fun _ _ => hformat.written _ _ _ _⟩

/-- Every accepted command's units write the bytes of an image, each the bytes of the offsets that belong to it; the image
has a byte at exactly the channels that the command writes. -/
theorem unitsOk_ownerOf (i : Instr) {d : Desc} (ha : Accepted i d) :
    ∃ owner image, UnitsOk (commandOf i) d (cursorStep i) owner image ∧ owner = ownerOf i d ∧
      ∀ s o, (image s o).isSome = true ↔ WritesChannel i (o % 4) := by
  cases i with
  | deswz => exact ⟨_, _, deswz_units ha, (ownerOf_deswz _ d).symm, fun _ _ => iff_of_true rfl trivial⟩
  | bc1 | bc2 | bc3 | bc4u | bc4s | bc5u | bc5s => exact bcn_unitsOk_ownerOf rfl ha
  | gxI4 | gxI8 | gxIa4 | gxIa8 | gxRgb565 | gxRgb5a3 =>
    exact ⟨_, _, gx_units rfl (.inl rfl) rfl rfl rfl rfl (by decide) rfl rfl (fun _ _ _ _ _ _ _ => rfl) ha, rfl,
      fun _ _ => iff_of_true rfl trivial⟩
  | gxC4 | gxC8 | gxC14x2 =>
    exact ⟨_, _, gx_units rfl (.inr rfl) rfl rfl rfl rfl (by decide) rfl rfl
      (fun _ _ _ _ h1 h2 h3 => by
        simp only [formatC4, formatC8, formatC14x2, pixelIndexed, pixelC14x2, paletteLookup, h1, h2, h3]) ha, rfl,
      fun _ _ => iff_of_true rfl trivial⟩
  | gxRgba8 => exact ⟨_, _, rgba8_units ha, rfl, fun _ _ => iff_of_true rfl trivial⟩
  | gxCmpr => exact ⟨_, _, cmpr_units ha, rfl, fun _ _ => iff_of_true rfl trivial⟩
  | palIa8 | palRgb565 | palRgb5a3 =>
    exact ⟨_, _, pal_units rfl rfl ha, (ownerOf_pal rfl d).symm, fun _ _ => iff_of_true rfl trivial⟩

theorem tileWidth_pos (i : Instr) : 0 < tileWidth i := by
  unfold tileWidth
  split <;> decide

/-- An output byte belongs to a column of the grid. -/
theorem unitOfOffset_col_lt {i : Instr} {d : Desc} {o : Nat} (ho : o < outputLength i d) :
    (unitOfOffset i d o).1 < unitCols i d := by
  have hcol {h tw : Nat} (htw : 0 < tw) (ho : o < d.w * h * 4) : o / 4 % d.w / tw < ceilDiv d.w tw :=
    div_lt_ceilDiv htw (offset_split (n := 4) (by omega) (by rwa [Nat.mul_comm d.w] at ho)).1
  cases hg : groupOf i <;> simp only [outputLength, unitCols, hg] at ho <;> simp only [unitOfOffset, unitCols, hg]
  case deswz =>
    exact Nat.mod_lt _ (Nat.pos_of_mul_pos_right (Nat.pos_of_mul_pos_right (Nat.zero_lt_of_lt ho)))
  case bcn => exact hcol (by decide) ho
  case gxDirect | gxPaletted => exact hcol (tileWidth_pos i) ho
  case pal => omega

/-- Settles O39: the offsets of a unit are told apart piece by piece, and its bytes are those that it owns. -/
theorem eachByteHasOneWriter : Obligations.EachByteHasOneWriter := by
  intro i d ha
  obtain ⟨_, image, hunits, rfl, hwritten⟩ := unitsOk_ownerOf i ha
  refine ⟨?_, fun o ho => ⟨unitOfOffset_col_lt ho, ?_⟩⟩
  · rintro s rfl hx hy hc
    obtain ⟨u, e, -, -, -, -, -, sound, complete⟩ := hunits.unit s rfl
      ⟨by rwa [commandOf_cols], by rwa [commandOf_rows], by rwa [commandOf_cols]⟩
    simp only [commandOf_outLen, unitNumber, commandOf_cols] at sound complete
    refine ⟨u, e, decodeUnit_nodup i ha hx hy e, fun o => ⟨fun ho => ?_, fun ⟨ho, hk, hunit⟩ => ?_⟩⟩
    · obtain ⟨⟨o, b⟩, hw, rfl⟩ := List.mem_map.1 ho
      obtain ⟨hlt, howner, himage⟩ := sound _ hw
      obtain ⟨hcol, hrow⟩ := raster_inj (unitOfOffset_col_lt hlt) hx howner
      exact ⟨hlt, (hwritten s o).1 (Option.isSome_iff_exists.2 ⟨b, himage⟩), Prod.ext hcol hrow⟩
    · obtain ⟨b, hb⟩ := Option.isSome_iff_exists.1 ((hwritten s o).2 hk)
      exact List.mem_map.2 ⟨(o, b), complete o ho (by rw [ownerOf, hunit]) b hb, rfl⟩
  · have howned := hunits.owned o (by rwa [commandOf_outLen])
    rw [commandOf_rows, commandOf_cols] at howned
    exact Nat.lt_of_mul_lt_mul_right (Nat.lt_of_le_of_lt (Nat.le_add_right _ _) howned)

end Sys2Proof.Proofs

namespace Sys2Proof.Proofs

open Sys2Proof.Machine

/-! ## `rgb5a3_decode` (spec/44_gx_tiled.md R249) -/

/-- Bit 15 says in which half of its range a texel lies. -/
theorem getLsbD_fifteen (v : BitVec 16) : v.getLsbD 15 = decide (2 ^ 15 ≤ v.toNat) :=
  (BitVec.msb_eq_getLsbD_last v).symm.trans (BitVec.msb_eq_decide v)

theorem rgb5a3Decode_of_le {v : BitVec 16} (h : 2 ^ 15 ≤ v.toNat) :
    rgb5a3Decode v = { r := expandField (v.extractLsb' 10 5), g := expandField (v.extractLsb' 5 5),
                       b := expandField (v.extractLsb' 0 5), a := 255 } :=
  if_pos (by rw [getLsbD_fifteen, decide_eq_true h])

theorem rgb5a3Decode_of_lt {v : BitVec 16} (h : v.toNat < 2 ^ 15) :
    rgb5a3Decode v = { r := expandField (v.extractLsb' 8 4), g := expandField (v.extractLsb' 4 4),
                       b := expandField (v.extractLsb' 0 4), a := expandField (v.extractLsb' 12 3) } :=
  if_neg (by rw [getLsbD_fifteen, decide_eq_true_iff]; omega)

/-- A field widened to a byte, as arithmetic on the texel. -/
theorem expandField_extract_toNat (v : BitVec 16) (start len : Nat) :
    (expandField (v.extractLsb' start len)).toNat = expandBits len (v.toNat / 2 ^ start % 2 ^ len) := by
  rw [expandField_toNat, toNat_field]

/-- The lowest field needs no shift. -/
theorem expandField_extract_zero_toNat (v : BitVec 16) (len : Nat) :
    (expandField (v.extractLsb' 0 len)).toNat = expandBits len (v.toNat % 2 ^ len) := by
  rw [expandField_extract_toNat, Nat.pow_zero, Nat.div_one]

/-- Settles O11: one form for each half of the range; with bit 15 clear the alpha field is all that is above bit 11. -/
theorem rgb5a3DecodeFields : Obligations.Rgb5a3DecodeFields := by
  refine ⟨fun v h => ?_, fun v h => ?_, by decide⟩
  · rw [rgb5a3Decode_of_le h]
    exact ⟨expandField_extract_toNat v 10 5, expandField_extract_toNat v 5 5, expandField_extract_zero_toNat v 5,
      rfl⟩
  · have htop : v.toNat / 2 ^ 12 % 2 ^ 3 = v.toNat / 2 ^ 12 := Nat.mod_eq_of_lt (by omega)
    rw [rgb5a3Decode_of_lt h]
    exact ⟨by rw [expandField_extract_toNat, htop], expandField_extract_toNat v 8 4, expandField_extract_toNat v 4 4,
      expandField_extract_zero_toNat v 4⟩

end Sys2Proof.Proofs

namespace Sys2Proof.Proofs

open Sys2Proof.Machine

/-! ## What the GX commands compute (spec/44_gx_tiled.md R241 to R262)

The walk's image has the pixels that each format makes of its texels; what is left is that these are the pixels of the
spec's formulas: a texel zero-extended to 16 bits has the same fields as the byte or nibble it came from, and a palette
loaded from the palette window has that window's entries. -/

/-! ### The generic walk -/

/-- The format in which a command takes the generic walk (spec/10_state.md R39). -/
def gxFormatOf : Instr → Option GxFormat
  | .gxI4 => some formatI4
  | .gxI8 => some formatI8
  | .gxIa4 => some formatIa4
  | .gxIa8 => some formatIa8
  | .gxRgb565 => some formatRgb565
  | .gxRgb5a3 => some formatRgb5a3
  | .gxC4 _ => some formatC4
  | .gxC8 _ => some formatC8
  | .gxC14x2 _ => some formatC14x2
  | _ => none

/-- A command of the generic walk has the image of its format. -/
theorem gxFormat_units {i : Instr} {f : GxFormat} {d : Desc} (hf : gxFormatOf i = some f) (ha : Accepted i d) :
    UnitsOk (commandOf i) d (cursorStep i) (tileOwner d.w f.tw f.th)
      (fun s o => some (rasterByte s.d.w (gxPixelOf f s) o)) := by
  cases i with
  | gxI4 | gxI8 | gxIa4 | gxIa8 | gxRgb565 | gxRgb5a3 =>
    obtain rfl := Option.some.inj hf
    exact gx_units rfl (.inl rfl) rfl rfl rfl rfl (by decide) rfl rfl (fun _ _ _ _ _ _ _ => rfl) ha
  | gxC4 | gxC8 | gxC14x2 =>
    obtain rfl := Option.some.inj hf
    exact gx_units rfl (.inr rfl) rfl rfl rfl rfl (by decide) rfl rfl
      (fun _ _ _ _ h1 h2 h3 => by
        simp only [formatC4, formatC8, formatC14x2, pixelIndexed, pixelC14x2, paletteLookup, h1, h2, h3]) ha
  | deswz | bc1 | bc2 | bc3 | bc4u | bc4s | bc5u | bc5s | gxRgba8 | gxCmpr | palIa8 | palRgb565 | palRgb5a3 => cases hf

/-- A command of the generic walk without a palette completes, each pixel its format's. -/
theorem gxFormat_completes {i : Instr} {f : GxFormat} {s : State} (hf : gxFormatOf i = some f)
    (hfill : (commandOf i).fill = none) (hs : Fresh s) (ha : Accepted i s.d) :
    Completes i s fun o => some (rasterByte s.d.w (gxPixelOf f s) o) :=
  completes_of_unitsOk hs ha (gxFormat_units hf ha) hfill

/-! ### Texels (R242) -/

/-- The low bits of a texel are what was zero-extended to it. -/
theorem extractLsb'_setWidth_self {w : Nat} (v : BitVec w) (h : w ≤ 16) : (v.setWidth 16).extractLsb' 0 w = v := by
  rw [BitVec.extractLsb'_setWidth_of_le (by omega), BitVec.extractLsb'_eq_self]

theorem nibbleAt_srcByte (s : State) (cur : Nat) : nibbleAt (srcByte s (cur / 2)) cur = texel4 s cur := by
  refine BitVec.eq_of_toNat_eq ?_
  unfold nibbleAt texel4
  split <;> simp [BitVec.extractLsb'_toNat, Nat.shiftRight_eq_div_pow]

/-! ### Direct formats (R243 to R248) -/

theorem gxPixelOf_formatI4 (s : State) : gxPixelOf formatI4 s = gxI4Pixel s := by
  funext x y
  show pixelI4 (texelOf 4 s _) = _
  rw [texelOf_four, nibbleAt_srcByte, pixelI4, extractLsb'_setWidth_self _ (by decide)]
  rfl

theorem gxPixelOf_formatI8 (s : State) : gxPixelOf formatI8 s = gxI8Pixel s := by
  funext x y
  show pixelI8 (texelOf 8 s _) = _
  rw [texelOf_eight, pixelI8, extractLsb'_setWidth_self _ (by decide)]
  rfl

theorem gxPixelOf_formatIa4 (s : State) : gxPixelOf formatIa4 s = gxIa4Pixel s := by
  funext x y
  show pixelIa4 (texelOf 8 s _) = _
  rw [texelOf_eight, pixelIa4, BitVec.extractLsb'_setWidth_of_le (by decide),
    BitVec.extractLsb'_setWidth_of_le (by decide)]
  rfl

theorem gxPixelOf_formatIa8 (s : State) : gxPixelOf formatIa8 s = gxIa8Pixel s := by
  funext x y
  show palFmtPixel .ia8 (texelOf 16 s _) = _
  rw [texelOf_sixteen, palFmtPixel, u16be_low, u16be_high]
  rfl

theorem gxPixelOf_formatRgb565 (s : State) : gxPixelOf formatRgb565 s = gxRgb565Pixel s := rfl

theorem gxPixelOf_formatRgb5a3 (s : State) : gxPixelOf formatRgb5a3 s = gxRgb5a3Pixel s := rfl

/-- Settles O51: the walk's image, and the pixel of each format. -/
theorem gxIntensityResult : Obligations.GxIntensityResult := fun s hs =>
  ⟨fun ha => gxPixelOf_formatI4 s ▸ gxFormat_completes rfl rfl hs ha,
    fun ha => gxPixelOf_formatI8 s ▸ gxFormat_completes rfl rfl hs ha,
    fun ha => gxPixelOf_formatIa4 s ▸ gxFormat_completes rfl rfl hs ha,
    fun ha => gxPixelOf_formatIa8 s ▸ gxFormat_completes rfl rfl hs ha⟩

/-- Settles O52: both formats decode the big-endian texel. -/
theorem gxDirectColourResult : Obligations.GxDirectColourResult := fun s hs =>
  ⟨fun ha => gxPixelOf_formatRgb565 s ▸ gxFormat_completes rfl rfl hs ha,
    fun ha => gxPixelOf_formatRgb5a3 s ▸ gxFormat_completes rfl rfl hs ha⟩

/-! ### RGBA8 and CMPR (R260 to R262) -/

/-- Settles O53: the units of RGBA8 have the image of the two planes. -/
theorem gxRgba8Result : Obligations.GxRgba8Result := fun _ hs ha => completes_of_unitsOk hs ha (rgba8_units ha) rfl

/-- Settles O54: the units of CMPR have the image of the four sub-blocks. -/
theorem gxCmprResult : Obligations.GxCmprResult := fun _ hs ha => completes_of_unitsOk hs ha (cmpr_units ha) rfl

/-! ### Paletted formats (R255 to R259) -/

/-- An accepted command completes with the image of its units, read with the palette loaded: one that is the same for
every such palette. -/
theorem completes_of_loadedPalette {i : Instr} {s : State} {owner : Nat → Nat} {image : State → Nat → Option Byte}
    {out : Nat → Option Byte} (hs : Fresh s) (ha : Accepted i s.d)
    (hu : UnitsOk (commandOf i) s.d (cursorStep i) owner image)
    (hout : ∀ scr, (∀ fmt, (commandOf i).fill = some fmt → LoadedPalette fmt s scr) →
      image { s with scr := scr } = out) : Completes i s out := by
  obtain ⟨m, scr, e, hw, hpal, hread⟩ := exec_accepted hs ha hu
  refine ⟨m, e, hw, fun a => ?_⟩
  rw [hread a, imageFrom, commandOf_outLen, hout scr hpal]
  simp only [Nat.zero_le, and_true]

/-- The pixel of a big-endian palette word is the entry's (spec/45_palette.md R290). -/
theorem palFmtPixel_palByte (fmt : PalFmt) (s : State) (n : Nat) :
    palFmtPixel fmt (u16be (palByte s (2 * n)) (palByte s (2 * n + 1))) = paletteEntry fmt s n := by
  cases fmt with
  | ia8 => simp only [palFmtPixel, paletteEntry, grey, u16be_low, u16be_high]
  | rgb565 | rgb5a3 => rfl

/-- `lookup(n)` in range is the palette window's entry. -/
theorem paletteLookup_of_lt {fmt : PalFmt} {s : State} {scr : Scratch} (h : LoadedPalette fmt s scr) (o : Nat) {n : Nat}
    (hn : n < paletteSize s.d) : paletteLookup { s with scr := scr } o n = paletteEntry fmt s n := by
  obtain ⟨hcount, hentries⟩ := h
  have hram : n < Config.palRamEntries := Nat.lt_of_lt_of_le hn (Nat.min_le_right ..)
  have hget : scr.pal.getD n (stalePixel s.draws 0) = scr.pal[n] := by simp [Vector.getD, hram]
  calc paletteLookup { s with scr := scr } o n = scr.pal[n] := by
        rw [paletteLookup, if_pos (by rw [hcount]; exact hn), hget]
    _ = paletteEntry fmt s n := (hentries n hram hn).trans (palFmtPixel_palByte fmt s n)

/-- `lookup(n)` out of range is four free bytes, each drawn at its own offset. -/
theorem channel_paletteLookup_of_le {fmt : PalFmt} {s : State} {scr : Scratch} (h : LoadedPalette fmt s scr) (o : Nat)
    {n k : Nat} (hn : paletteSize s.d ≤ n) (hk : k < 4) :
    channel (paletteLookup { s with scr := scr } o n) k = Config.drawByte s.draws (o + k) := by
  obtain ⟨hcount, -⟩ := h
  rw [paletteLookup, if_neg (by rw [hcount]; exact Nat.not_lt.2 hn)]
  interval_cases k <;> rfl

/-- The pixel of the format `f` is what `lookup` gives for the palette index of the command `i`. -/
def LooksUp (i : Instr) (f : GxFormat) : Prop :=
  ∀ s x y, gxPixelOf f s x y = paletteLookup s ((y * s.d.w + x) * 4) (gxIndex i s x y)

theorem looksUp_formatC4 (fmt : PalFmt) : LooksUp (.gxC4 fmt) formatC4 := fun s x y => by
  show paletteLookup s _ (texelOf 4 s _).toNat = _
  rw [texelOf_four, nibbleAt_srcByte, BitVec.toNat_setWidth_of_le (by decide)]
  rfl

theorem looksUp_formatC8 (fmt : PalFmt) : LooksUp (.gxC8 fmt) formatC8 := fun s x y => by
  show paletteLookup s _ (texelOf 8 s _).toNat = _
  rw [texelOf_eight, BitVec.toNat_setWidth_of_le (by decide)]
  rfl

theorem looksUp_formatC14x2 (fmt : PalFmt) : LooksUp (.gxC14x2 fmt) formatC14x2 := fun s x y => by
  show paletteLookup s _ ((texelOf 16 s _).extractLsb' 0 14).toNat = _
  rw [toNat_field, Nat.pow_zero, Nat.div_one]
  rfl

/-- The palette index is read from the source alone. -/
theorem gxIndex_scr (i : Instr) (s : State) (scr : Scratch) : gxIndex i { s with scr := scr } = gxIndex i s := rfl

/-- With the palette loaded, the walk's image has the bytes of the palette window's entries, and the free ones. -/
theorem rasterByte_of_looksUp {i : Instr} {f : GxFormat} {fmt : PalFmt} {s : State} {scr : Scratch}
    (hlook : LooksUp i f) (h : LoadedPalette fmt s scr) (o : Nat) :
    rasterByte s.d.w (gxPixelOf f { s with scr := scr }) o = gxPalettedByte i fmt s o := by
  have hoff : (o / 4 / s.d.w * s.d.w + o / 4 % s.d.w) * 4 + o % 4 = o := by rw [Nat.div_add_mod', Nat.div_add_mod']
  simp only [rasterByte, hlook { s with scr := scr }, gxIndex_scr, gxPalettedByte]
  split
  · rename_i hn
    rw [paletteLookup_of_lt h _ hn]
  · rename_i hn
    rw [channel_paletteLookup_of_le h _ (Nat.not_lt.1 hn) (Nat.mod_lt o (by decide)), hoff]

/-- An accepted paletted command completes, each byte its entry's or free. -/
theorem gxPaletted_completes {i : Instr} {f : GxFormat} {fmt : PalFmt} {s : State} (hf : gxFormatOf i = some f)
    (hfill : (commandOf i).fill = some fmt) (hlook : LooksUp i f) (hs : Fresh s) (ha : Accepted i s.d) :
    Completes i s fun o => some (gxPalettedByte i fmt s o) :=
  completes_of_loadedPalette hs ha (gxFormat_units hf ha) fun _ hpal =>
    funext fun o => congrArg some (rasterByte_of_looksUp hlook (hpal fmt hfill) o)

/-- Settles O55: each of the three looks up its own index. -/
theorem gxPalettedResult : Obligations.GxPalettedResult := fun fmt _ hs =>
  ⟨gxPaletted_completes rfl rfl (looksUp_formatC4 fmt) hs, gxPaletted_completes rfl rfl (looksUp_formatC8 fmt) hs,
    gxPaletted_completes rfl rfl (looksUp_formatC14x2 fmt) hs⟩

end Sys2Proof.Proofs

namespace Sys2Proof.Proofs

open Sys2Proof.Machine

/-! ## The palette expander (spec/45_palette.md R290 to R293) -/

/-- A PAL command completes, its units being the entries of the palette window. -/
theorem pal_completes {i : Instr} {fmt : PalFmt} {s : State} (hi : commandOf i = palCommand fmt) (hg : groupOf i = .pal)
    (hs : Fresh s) (ha : Accepted i s.d) : Completes i s fun o => some (palettedByte fmt s o) :=
  completes_of_unitsOk hs ha (pal_units hi hg ha) (by rw [hi]; rfl)

/-- Settles O56: the three commands differ in their palette format only. -/
theorem palResult : Obligations.PalResult := fun _ hs =>
  ⟨pal_completes rfl rfl hs, pal_completes rfl rfl hs, pal_completes rfl rfl hs⟩

/-! ## The palette fill (spec/45_palette.md R294) -/

/-- The checks leave a paletted command at least one macroblock (spec/46_dispatch.md R304). -/
theorem paletted_grid_pos {i : Instr} {d : Desc} (ha : Accepted i d) (hg : groupOf i = .gxPaletted) :
    0 < unitCols i d ∧ 0 < unitRows i d := by
  obtain ⟨-, hdims, -⟩ := ha
  simp only [DimsLegal, hg] at hdims
  obtain ⟨⟨hwidth, -⟩, ⟨hheight, -⟩⟩ := hdims
  have hth : 0 < tileHeight i := by
    unfold tileHeight
    split <;> decide
  simp only [unitCols, unitRows, hg]
  exact ⟨Nat.zero_lt_of_lt (div_lt_ceilDiv (tileWidth_pos i) hwidth),
    Nat.zero_lt_of_lt (div_lt_ceilDiv hth hheight)⟩

/-- So the walk follows the fill. -/
theorem walkPhase_of_paletted {i : Instr} {d : Desc} (ha : Accepted i d) (hg : groupOf i = .gxPaletted) :
    walkPhase (commandOf i) d = .walk := by
  obtain ⟨hcols, hrows⟩ := paletted_grid_pos ha hg
  rw [walkPhase, commandOf_cols, commandOf_rows, if_neg (by omega)]

/-- In a sane state the fill is that of an accepted paletted command. -/
theorem accepted_of_fill {s : State} {i : Instr} (h : s.Inv) (hb : s.busy = true) (hp : s.phase = .fill)
    (hd : decode s.d.cmd = .ok i) : Accepted i s.d ∧ groupOf i = .gxPaletted := by
  rcases h.engine hb with ⟨hc, -⟩ | hc
  · rw [hp] at hc; cases hc
  · obtain ⟨ha, hstage⟩ := hc.of_decode hd
    rw [hp] at hstage
    obtain ⟨-, -, -, hg⟩ := hstage
    exact ⟨ha, hg⟩

/-- The fill changes scratch state and stage only, and leaves the palette loaded. -/
theorem stepFill_loadedPalette {c : Command} {fmt : PalFmt} {s : State} (hfill : c.fill = some fmt)
    (hf : Fits s.d.pal) :
    ∃ scr, stepFill c s = .next { s with scr := scr, phase := walkPhase c s.d } ∧ LoadedPalette fmt s scr := by
  obtain ⟨scr, e, -, -, -, hloaded⟩ := paletteFill_ok (fmt := fmt) hf
  exact ⟨scr, by simp only [stepFill, hfill, e], hloaded⟩

/-- A loaded palette has the entries of the palette window. -/
theorem LoadedPalette.entry {fmt : PalFmt} {s : State} {scr : Scratch} (h : LoadedPalette fmt s scr) {k : Nat}
    (hk : k < Config.palRamEntries) (hn : k < scr.palN) : scr.pal[k] = paletteEntry fmt s k := by
  obtain ⟨hcount, hentries⟩ := h
  exact (hentries k hk (hcount ▸ hn)).trans (palFmtPixel_palByte fmt s k)

/-- The palette format of a paletted command is the one it fills in. -/
theorem fill_of_paletted {i : Instr} {fmt : PalFmt} (hi : i = .gxC4 fmt ∨ i = .gxC8 fmt ∨ i = .gxC14x2 fmt) :
    (commandOf i).fill = some fmt := by
  obtain rfl | rfl | rfl := hi <;> rfl

/-- Settles O41: the engine step is the fill, and the walk follows since the grid is not empty. -/
theorem paletteFillLoadsTheWindow : Obligations.PaletteFillLoadsTheWindow := by
  intro s i fmt h hb hp hd hi
  obtain ⟨ha, hg⟩ := accepted_of_fill h hb hp hd
  obtain ⟨scr, e, hloaded⟩ := stepFill_loadedPalette (s := { s with slice := some 1 }) (fill_of_paletted hi)
    (ha.pal_fits (by simp only [usesPalette, hg]))
  have hstep := (engineStep_fill (c := commandOf i) (s := { s with slice := some 1 }) hp).trans e
  exact ⟨_, engineTurn_one hb hd hstep, rfl, walkPhase_of_paletted ha hg, hloaded.1, fun _ => hloaded.entry⟩

end Sys2Proof.Proofs

namespace Sys2Proof.Proofs

open Sys2Proof.Machine

/-! ## Every command ends (spec/46_dispatch.md R308, R312 to R314)

A sane running command is accepted or refused. Accepted, it runs to DONE from wherever it stands
(`State.Inv.run_whole`); refused, it is still at its checks, and their error ends it. -/

/-- The whole of an accepted command ends with DONE. -/
theorem engineTurn_of_runs {s : State} {i : Instr} (h : s.Inv) (hr : Runs i s) (hs : s.slice = none) :
    ∃ m, engineTurn s = .next (finished s m (outputLength i s.d)) := by
  obtain ⟨hb, hd, ha⟩ := hr
  obtain ⟨m, e, -⟩ := h.run_whole hb hd ha
  exact ⟨m, (engineTurn_whole hb hs hd).trans e⟩

/-- The whole of any other command ends with one of the five errors. -/
theorem engineTurn_of_not_runs {s : State} (h : s.Inv) (hb : s.busy = true) (hs : s.slice = none)
    (hr : ¬ ∃ i, Runs i s) :
    ∃ c info, engineTurn s = .next (raiseError c info s) ∧ 1 ≤ c.code.toNat ∧ c.code.toNat ≤ 5 := by
  cases hd : decode s.d.cmd with
  | error e => exact ⟨.unsup, 0, engineTurn_undecoded hb (by simp [hs]) hd, by decide⟩
  | ok i =>
    have ha : ¬ Accepted i s.d := fun ha => hr ⟨i, hb, hd, ha⟩
    cases hv : validate (commandOf i) s.d with
    | ok u => exact absurd ((validate_ok_iff i s.d).1 hv) ha
    | error e => exact ⟨e.1, e.2, engineTurn_rejected hb hs (h.check_of_refused hb hd ha) hd hv, validate_codes hv⟩

/-- Settles O35: DONE where the command is accepted, and the error of its checks where it is not. -/
theorem everyCommandEnds : Obligations.EveryCommandEnds := by
  intro s h hb hs
  by_cases hr : ∃ i, Runs i s
  · obtain ⟨i, hr⟩ := hr
    obtain ⟨m, e⟩ := engineTurn_of_runs h hr hs
    obtain ⟨-, herr, hcode, hinfo⟩ := finished_status h hb m (outputLength i s.d)
    obtain ⟨-, hd, ha⟩ := hr
    exact ⟨_, e, rfl, .inl ⟨⟨i, hd, ha, outLen_toNat_of_accepted ha⟩, rfl, herr, hcode, hinfo⟩⟩
  · obtain ⟨c, info, e, hlo, hhi⟩ := engineTurn_of_not_runs h hb hs hr
    have hdone := done_eq_false_of_busy h hb
    exact ⟨_, e, rfl, .inr ⟨fun ⟨i, hd, ha⟩ => hr ⟨i, hb, hd, ha⟩, hdone, rfl, hlo, hhi, (h.results hb).1⟩⟩

/-! ## A step always answers (spec/46_dispatch.md R308, spec/60_exceptions.md R330) -/

/-- Settles O59: a turn of the engine answers from every sane state, a turn of the host from any state. -/
theorem stepNeverStops : Obligations.StepNeverStops := by
  intro s h
  have engine (slice : Option Nat) (script : List HostOp) :
      ∃ t, engineTurn { s with script := script, slice := slice } = .next t :=
    (engineTurn_outcome (turn_inv h slice script)).imp fun _ ht => ht.1
  cases hscript : s.script with
  | nil => rw [step_of_script_nil hscript]; exact engine none s.script
  | cons op rest =>
    cases op with
    | engine n => rw [step_of_engine_turn hscript]; exact engine n rest
    | regWrite | regRead | memWrite | memRead | irqRead | reset => exact ⟨_, step_of_host_turn hscript nofun⟩

end Sys2Proof.Proofs

namespace Sys2Proof.Proofs

open Sys2Proof.Machine

/-! ## Small steps and the big step (spec/46_dispatch.md R300, R315)

The grant of the schedule, `slice`, says how many engine steps a turn takes; what a step does never depends on it. So a
turn of `n` steps and the whole command take the same first steps, and two runs from one state that both end in an idle
machine end in the same one. -/

/-- The outcome with the grant `k` in its next state. -/
def withSlice (k : Option Nat) : Host.Outcome State Fault Refusal → Host.Outcome State Fault Refusal
  | .next t => .next { t with slice := k }
  | .fault f => .fault f
  | .refused r => .refused r

/-! ### A unit does not look at the grant -/

theorem walkTexels_slice (f : GxFormat) (s : State) (k : Option Nat)
    (hpix : f.pixelOf { s with slice := k } = f.pixelOf s) : ∀ n p cur : Nat,
    walkTexels f { s with slice := k } n p cur = walkTexels f s n p cur
  | 0, _, _ => rfl
  | n + 1, p, cur => by simp only [walkTexels, texelWrites, hpix, walkTexels_slice f s k hpix n]

theorem gxUnit_slice (f : GxFormat) (s : State) (k : Option Nat)
    (hpix : f.pixelOf { s with slice := k } = f.pixelOf s) : gxUnit f { s with slice := k } = gxUnit f s := by
  simp only [gxUnit, walkTexels_slice f s k hpix]

theorem cmprQuadrants_slice (s : State) (k : Option Nat) (o : Nat) : ∀ (n q : Nat) (scr : Scratch),
    cmprQuadrants { s with slice := k } o n q scr = cmprQuadrants s o n q scr
  | 0, _, _ => rfl
  | n + 1, q, scr => by simp only [cmprQuadrants, cmprSubBlock, cmprQuadrants_slice s k o n]

theorem decodeUnit_slice (i : Instr) (s : State) (k : Option Nat) :
    (commandOf i).decodeUnit { s with slice := k } = (commandOf i).decodeUnit s := by
  cases i with
  | gxI4 | gxI8 | gxIa4 | gxIa8 | gxRgb565 | gxRgb5a3 | gxC4 | gxC8 | gxC14x2 => exact gxUnit_slice _ s k rfl
  | gxCmpr => exact cmprQuadrants_slice s k _ 4 0 s.scr
  | deswz | bc1 | bc2 | bc3 | bc4u | bc4s | bc5u | bc5s | gxRgba8 | palIa8 | palRgb565 | palRgb5a3 => rfl

/-! ### Nor does an engine step -/

theorem haltWith_slice (x : Halt) (s : State) (k : Option Nat) :
    haltWith x { s with slice := k } = withSlice k (haltWith x s) := by
  cases x <;> rfl

theorem stepCheck_slice (c : Command) (s : State) (k : Option Nat) :
    stepCheck c { s with slice := k } = withSlice k (stepCheck c s) := by
  simp only [stepCheck]
  cases validate c s.d <;> rfl

theorem stepFill_slice (c : Command) (s : State) (k : Option Nat) :
    stepFill c { s with slice := k } = withSlice k (stepFill c s) := by
  have hfill (fmt : PalFmt) : paletteFill fmt { s with slice := k } = paletteFill fmt s := rfl
  simp only [stepFill, hfill]
  cases c.fill with
  | none => rfl
  | some fmt =>
    cases he : paletteFill fmt s with
    | error x => simp only [he, haltWith_slice]
    | ok scr => simp only [he, withSlice]

theorem advance_with_slice (c : Command) (s : State) (k : Option Nat) :
    advance c { s with slice := k } = { advance c s with slice := k } := by
  rcases advance_cases c s with ⟨hx, h⟩ | ⟨hx, hy, h⟩ | ⟨hx, hy, h⟩
  · rw [h]; exact if_pos hx
  · rw [h]; exact (if_neg (Nat.not_lt.2 hx)).trans (if_pos hy)
  · rw [h]; exact (if_neg (Nat.not_lt.2 hx)).trans (if_neg (Nat.not_lt.2 hy))

theorem stepUnit_slice (i : Instr) (s : State) (k : Option Nat) :
    stepUnit (commandOf i) { s with slice := k } = withSlice k (stepUnit (commandOf i) s) := by
  simp only [stepUnit, decodeUnit_slice]
  cases (commandOf i).decodeUnit s with
  | error x => exact haltWith_slice x s k
  | ok u =>
    cases he : applyWrites s.d.dstBase.toNat u.writes s.mem with
    | error f => simp only [he, withSlice]
    | ok m =>
      simp only [he, withSlice]
      rw [← advance_with_slice]

theorem completeCommand_slice (n : Nat) (s : State) (k : Option Nat) :
    completeCommand n { s with slice := k } = (completeCommand n s).map fun t => { t with slice := k } := by
  simp only [completeCommand]
  cases s.touched with
  | false => rfl
  | true => cases applyWrites s.d.dstBase.toNat (hazardWrites s.draws n) s.mem <;> rfl

theorem stepFinish_slice (c : Command) (s : State) (k : Option Nat) :
    stepFinish c { s with slice := k } = withSlice k (stepFinish c s) := by
  simp only [stepFinish, completeCommand_slice]
  cases completeCommand (c.outLen s.d) s <;> rfl

/-- An engine step leaves the grant as it finds it, and does not depend on it. -/
theorem engineStep_slice (i : Instr) (s : State) (k : Option Nat) :
    engineStep (commandOf i) { s with slice := k } = withSlice k (engineStep (commandOf i) s) := by
  obtain ⟨p, hp⟩ : ∃ p, s.phase = p := ⟨_, rfl⟩
  cases p with
  | check => rw [engineStep_check hp, engineStep_check (s := { s with slice := k }) hp, stepCheck_slice]
  | fill => rw [engineStep_fill hp, engineStep_fill (s := { s with slice := k }) hp, stepFill_slice]
  | walk => rw [engineStep_walk hp, engineStep_walk (s := { s with slice := k }) hp, stepUnit_slice]
  | finish => rw [engineStep_finish hp, engineStep_finish (s := { s with slice := k }) hp, stepFinish_slice]

/-! ### Nor does a run of engine steps -/

theorem runSteps_slice (i : Instr) (k : Option Nat) : ∀ (n : Nat) (s : State),
    runSteps (commandOf i) n { s with slice := k } = withSlice k (runSteps (commandOf i) n s) := by
  intro n
  induction n with
  | zero => exact fun _ => rfl
  | succ n ih =>
    intro s
    by_cases hb : s.busy = true
    · simp only [runSteps, engineStep_slice]
      rw [if_pos hb, if_pos hb]
      cases engineStep (commandOf i) s with
      | next t => exact ih t
      | fault f => rfl
      | refused r => rfl
    · rw [Bool.not_eq_true] at hb
      rw [runSteps_idle hb, runSteps_idle (s := { s with slice := k }) hb, withSlice]

/-! ### Two ways to the end -/

/-- Two runs from one state that both end in an idle machine end in the same one. -/
theorem runSteps_end_unique {c : Command} {a b : Nat} {s t u : State} (ha : runSteps c a s = .next t)
    (ht : t.busy = false) (hb : runSteps c b s = .next u) (hu : u.busy = false) : t = u :=
  Host.Outcome.next.inj <|
    (runSteps_enough ha ht (Nat.le_max_left a b)).symm.trans (runSteps_enough hb hu (Nat.le_max_right a b))

/-- The whole turn of any sane machine ends in an idle machine: at once where it is idle already. -/
theorem engineTurn_ends {s : State} (h : s.Inv) (hs : s.slice = none) :
    ∃ t, engineTurn s = .next t ∧ t.busy = false := by
  cases hb : s.busy with
  | false => exact ⟨s, engineTurn_still (.inl hb), hb⟩
  | true =>
    obtain ⟨t, e, ht, -⟩ := everyCommandEnds s h hb hs
    exact ⟨t, e, ht⟩

/-- Any turn on a decoded command is a run of engine steps: of none where the engine does nothing. -/
theorem exists_runSteps_of_decode {s : State} {i : Instr} (hd : decode s.d.cmd = .ok i) :
    ∃ n, engineTurn s = runSteps (commandOf i) n s := by
  by_cases hstill : s.busy = false ∨ s.slice = some 0
  · exact ⟨0, engineTurn_still hstill⟩
  · rw [not_or, Bool.not_eq_false] at hstill
    obtain ⟨hb, hs⟩ := hstill
    exact engineTurn_eq_runSteps hb hs hd

/-- What is left of a command after a run of its steps leads to where the whole of it leads. -/
theorem engineTurn_after_runSteps {s t : State} {i : Instr} {n : Nat} (h : s.Inv) (hs : s.slice = none)
    (hd : decode s.d.cmd = .ok i) (e : runSteps (commandOf i) n s = .next t) (h' : t.Inv) (hs' : t.slice = none)
    (hd' : t.d = s.d) : engineTurn t = engineTurn s := by
  obtain ⟨u, eu, hu⟩ := engineTurn_ends h hs
  obtain ⟨v, ev, hv⟩ := engineTurn_ends h' hs'
  obtain ⟨a, ea⟩ := exists_runSteps_of_decode hd
  obtain ⟨b, eb⟩ := exists_runSteps_of_decode (s := t) (i := i) (by rw [hd', hd])
  have hrest : runSteps (commandOf i) (n + b) s = .next v := by rw [runSteps_add e, ← eb, ev]
  rw [eu, ev, runSteps_end_unique hrest hv (ea.symm.trans eu) hu]

/-- With a CMD word that selects no command every turn that moves is the same error (spec/46_dispatch.md R303). -/
theorem engineTurn_after_undecoded {s t : State} {x : DecodeError} {n : Nat} (hb : s.busy = true)
    (hd : decode s.d.cmd = .error x) (e : engineTurn { s with slice := some n } = .next t) :
    engineTurn { t with slice := none } = engineTurn { s with slice := none } := by
  have hturn (k : Option Nat) (hk : k ≠ some 0) :
      engineTurn { s with slice := k } = .next (raiseError .unsup 0 { s with slice := k }) :=
    engineTurn_undecoded hb hk hd
  cases n with
  | zero =>
    obtain rfl := Host.Outcome.next.inj ((engineTurn_still (.inr rfl)).symm.trans e)
    rfl
  | succ n =>
    obtain rfl := Host.Outcome.next.inj ((hturn (some (n + 1)) (by simp)).symm.trans e)
    rw [hturn none nofun]
    exact engineTurn_still (.inl rfl)

/-- Settles O36. On a decoded command the turn is a run of engine steps, and the same run takes the machine that is
granted the whole command to the state from which the rest starts. -/
theorem smallStepsMakeTheBigStep : Obligations.SmallStepsMakeTheBigStep := by
  intro s n h hb
  have hinv (k : Option Nat) : ({ s with slice := k } : State).Inv := turn_inv h k s.script
  obtain ⟨t, e, ht, -⟩ := engineTurn_outcome (hinv (some n))
  refine ⟨t, e, ?_⟩
  cases hd : decode s.d.cmd with
  | error x => exact engineTurn_after_undecoded hb hd e
  | ok i =>
    obtain ⟨-, htd, -⟩ := engineStaysInItsWindow _ t (hinv (some n)) hb e
    obtain ⟨k, hrun⟩ := exists_runSteps_of_decode (s := { s with slice := some n }) hd
    have hwhole : runSteps (commandOf i) k { s with slice := none } = .next { t with slice := none } :=
      (runSteps_slice i none k { s with slice := some n }).trans (congrArg (withSlice none) (hrun.symm.trans e))
    exact engineTurn_after_runSteps (hinv none) rfl hd hwhole (turn_inv ht none t.script) rfl htd

end Sys2Proof.Proofs

namespace Sys2Proof.Proofs

open Sys2Proof.Machine

/-! ## Reset during a command (spec/70_reset_and_hazards.md R361)

What a reset leaves in memory is a function of `completed`, the rest of the running command: with no rest there is
nothing to choose from, and the rest of an accepted command offers its own byte beside the old one. -/

/-- A command with nothing left to write leaves memory as it is. -/
theorem memAfterReset_of_completed_none {s : State} (hc : completed s = none) : memAfterReset s = s.mem := by
  simp only [memAfterReset, hc]

/-- Each of the `n` bytes of output that the rest of the command has is old or new; beyond them none changes. -/
theorem memAfterReset_read {s : State} {final : Memory} {n : Nat} (hm : s.mem.wf = true)
    (hc : completed s = some (final, n)) (hn : s.d.dstBase.toNat + n ≤ 2 ^ 32) (a : Nat) :
    (memAfterReset s).read a =
      if s.d.dstBase.toNat ≤ a ∧ a < s.d.dstBase.toNat + n then oldOrNew s final a (a - s.d.dstBase.toNat)
      else s.mem.read a := by
  have hput := (putBytes_spec (base := s.d.dstBase.toNat)
    (f := fun o => oldOrNew s final (s.d.dstBase.toNat + o) o) hm hn).2 a
  simp only [memAfterReset, hc]
  refine hput.trans ?_
  split
  · rename_i hin
    rw [Nat.add_sub_cancel' hin.1]
  · rfl

/-- Settles O29: an accepted command has a rest, which ends with DONE; a refused one and a CMD word that selects no
command have none. -/
theorem resetDuringCommand : Obligations.ResetDuringCommand := by
  intro s h hb
  refine ⟨fun i hd => ⟨fun ha => ?_, fun ha => ?_⟩, fun hn => ?_⟩
  · obtain ⟨m, e, hc, -⟩ := completed_accepted h hb hd ha
    exact ⟨_, e, rfl, memAfterReset_read h.mem hc ha.fits⟩
  · exact memAfterReset_of_completed_none (completed_refused h hb hd ha)
  · cases hd : decode s.d.cmd with
    | ok i => exact absurd hd (hn i)
    | error e => exact memAfterReset_of_completed_none (completed_undecoded h hb hd)

end Sys2Proof.Proofs

namespace Sys2Proof.Proofs

open Sys2Proof.Machine

/-! ## The error of a START (spec/46_dispatch.md R302, R303, spec/60_exceptions.md R333, R338)

Which error a command ends with is a function of its descriptor alone, `startError`. The order of the checks and the
repetition of an error are both read off it. -/

/-- The error code and ERR_INFO that a START with descriptor `d` ends with, where it ends with an error. -/
def startError (d : Desc) : Option (ErrCode × Word) :=
  match decode d.cmd with
  | .error _ => some (.unsup, 0)
  | .ok i =>
    match validate (commandOf i) d with
    | .error e => some e
    | .ok _ => none

theorem startError_of_undecoded {d : Desc} (h : ∀ i, decode d.cmd ≠ .ok i) : startError d = some (.unsup, 0) := by
  cases hd : decode d.cmd with
  | error e => simp only [startError, hd]
  | ok i => exact absurd hd (h i)

theorem startError_of_rejected {d : Desc} {i : Instr} {e : ErrCode × Word} (hd : decode d.cmd = .ok i)
    (hv : validate (commandOf i) d = .error e) : startError d = some e := by
  simp only [startError, hd, hv]

/-- A START without an error is that of an accepted command. -/
theorem accepted_of_startError_none {d : Desc} (h : startError d = none) :
    ∃ i, decode d.cmd = .ok i ∧ Accepted i d := by
  cases hd : decode d.cmd with
  | error e => simp [startError, hd] at h
  | ok i =>
    cases hv : validate (commandOf i) d with
    | error e => simp [startError, hd, hv] at h
    | ok u => exact ⟨i, rfl, (validate_ok_iff i d).1 hv⟩

/-- An engine at its checks ends the command with the error of its descriptor. -/
theorem engineTurn_of_startError {s : State} {c : ErrCode} {info : Word} (hb : s.busy = true) (hs : s.slice = none)
    (hp : s.phase = .check) (h : startError s.d = some (c, info)) : engineTurn s = .next (raiseError c info s) := by
  cases hd : decode s.d.cmd with
  | error e =>
    obtain ⟨rfl, rfl⟩ : ErrCode.unsup = c ∧ 0 = info := by simpa [startError, hd] using h
    exact engineTurn_undecoded hb (by simp [hs]) hd
  | ok i =>
    cases hv : validate (commandOf i) s.d with
    | error e =>
      obtain rfl : e = (c, info) := by simpa [startError, hd, hv] using h
      exact engineTurn_rejected hb hs hp hd hv
    | ok u => simp [startError, hd, hv] at h

/-! ### The order of the checks -/

/-- The error of the checks when the first to fail is the first, the second, up to the fifth. -/
theorem validate_firstFailing (i : Instr) (d : Desc) :
    (¬ Supported i d → validate (commandOf i) d = .error (.unsup, 0)) ∧
    (Supported i d → ¬ DimsLegal i d → validate (commandOf i) d = .error (.dim, 0)) ∧
    (Supported i d → DimsLegal i d → ¬ WindowsLegal i d → validate (commandOf i) d = .error (.window, 0)) ∧
    (Supported i d → DimsLegal i d → WindowsLegal i d → ¬ SourceFits i d →
      validate (commandOf i) d = .error (.size, saturate (requiredSource i d))) ∧
    (Supported i d → DimsLegal i d → WindowsLegal i d → SourceFits i d → ¬ OutputFits i d →
      validate (commandOf i) d = .error (.dst, saturate (outputLength i d))) := by
  rcases validate_cases i d with ⟨h1, e⟩ | ⟨h1, h2, e⟩ | ⟨h1, h2, h3, e⟩ | ⟨h1, h2, h3, h4, e⟩ |
    ⟨h1, h2, h3, h4, h5, e⟩ | ⟨⟨h1, h2, h3, h4, h5⟩, -⟩
  · simp [h1, e]
  · simp [h1, h2, e]
  · simp [h1, h2, h3, e]
  · simp [h1, h2, h3, h4, e]
  · simp [h1, h2, h3, h4, h5, e]
  · simp [h1, h2, h3, h4, h5]

/-- Settles O32: the descriptor's error is that of the first check that fails, and its ERR_INFO, 0 or saturated, fits the
register. -/
theorem firstFailingCheckDecides : Obligations.FirstFailingCheckDecides := by
  intro s hb hp hs ends
  have ends_of (e : ErrCode) (info : Nat) (hinfo : info < 2 ^ 32)
      (h : startError s.d = some (e, BitVec.ofNat 32 info)) : ends e e.code info :=
    ⟨_, engineTurn_of_startError hb hs hp h, rfl, rfl, rfl, rfl, Nat.mod_eq_of_lt hinfo, rfl⟩
  have saturated (n : Nat) : min n (2 ^ 32 - 1) < 2 ^ 32 := by omega
  refine ⟨fun hn => ends_of _ 0 (by decide) (startError_of_undecoded hn), fun i hd => ?_⟩
  obtain ⟨unsup, dim, window, size, dst⟩ := validate_firstFailing i s.d
  exact ⟨fun h => ends_of _ 0 (by decide) (startError_of_rejected hd (unsup h)),
    fun h1 h => ends_of _ 0 (by decide) (startError_of_rejected hd (dim h1 h)),
    fun h1 h2 h => ends_of _ 0 (by decide) (startError_of_rejected hd (window h1 h2 h)),
    fun h1 h2 h3 h => ends_of _ _ (saturated _) (startError_of_rejected hd (size h1 h2 h3 h)),
    fun h1 h2 h3 h4 h => ends_of _ _ (saturated _) (startError_of_rejected hd (dst h1 h2 h3 h4 h))⟩

/-! ### The same error again -/

/-- A START whose descriptor is accepted ends with DONE, whatever the machine holds (spec/46_dispatch.md R314). -/
theorem engineTurn_startCommand_of_accepted {s : State} {i : Instr} (hm : s.mem.wf = true) (hs : s.slice = none)
    (hd : decode s.reg.cmd = .ok i) (ha : Accepted i s.reg) :
    ∃ m, engineTurn (startCommand s) = .next (finished (startCommand s) m (outputLength i s.reg)) := by
  obtain ⟨k, hk, m, e, -⟩ := runsToDone_check (s := startCommand s) ha rfl hm rfl rfl rfl rfl
  refine ⟨m, (engineTurn_whole (s := startCommand s) rfl hs hd).trans
    (runSteps_enough (t := finished (startCommand s) m _) e rfl (Nat.le_trans ?_ (stepBound_enough _ _)))⟩
  rw [commandOf_rows, commandOf_cols]
  omega

/-- A START that ends with ERR had a descriptor with an error, since DONE leaves ERR clear. -/
theorem startError_of_err {s t : State} (hm : s.mem.wf = true) (hs : s.slice = none)
    (e : engineTurn (startCommand s) = .next t) (ht : t.err = true) : ∃ c info, startError s.reg = some (c, info) := by
  cases h : startError s.reg with
  | some x => exact ⟨x.1, x.2, rfl⟩
  | none =>
    obtain ⟨i, hd, ha⟩ := accepted_of_startError_none h
    obtain ⟨m, e'⟩ := engineTurn_startCommand_of_accepted hm hs hd ha
    obtain rfl := Host.Outcome.next.inj (e'.symm.trans e)
    cases ht

/-- Settles O34: both machines end with the error of the one descriptor. -/
theorem sameDescriptorSameError : Obligations.SameDescriptorSameError := by
  intro s u t h _ _ _ hs hu hreg e ht
  obtain ⟨c, info, herr⟩ := startError_of_err h.mem hs e ht
  have es := engineTurn_of_startError (s := startCommand s) rfl hs rfl herr
  have eu := engineTurn_of_startError (s := startCommand u) rfl hu rfl ((congrArg startError hreg).trans herr)
  obtain rfl := Host.Outcome.next.inj (es.symm.trans e)
  exact ⟨_, eu, rfl, rfl, rfl, rfl⟩

end Sys2Proof.Proofs

namespace Sys2Proof.Proofs

open Sys2Proof.Machine

/-! ## The interrupt line (spec/60_exceptions.md R336)

The line is a function of the two flags and their enables. A register write in a sane state finds reset released, or
else no flag set, and then the line is down anyway. -/

theorem irq_of_flags_clear {s : State} (hdone : s.done = false) (herr : s.err = false) : s.irq = false := by
  simp [State.irq, hdone, herr]

/-- A register write that takes the line down when it is not dropped leaves it down also when it is. -/
theorem irq_regWrite_eq_false {s : State} (h : s.Inv) {r : Reg} {v : Word} (hr : regAt r.offset 4 = some r)
    (hdown : (writeReg s r v).irq = false) : (hostTurn (opWr r v) s).irq = false := by
  rw [opWr, hostTurn_regWrite hr]
  split
  · rename_i hin
    obtain ⟨hdone, herr⟩ := flags_clear_inReset h hin
    exact irq_of_flags_clear hdone herr
  · exact hdown

/-- Under a flag reset is released, so a write to IRQ_EN is taken. -/
theorem hostTurn_irqEn_of_flag {s : State} (h : s.Inv) (hflag : s.done = true ∨ s.err = true) (v : Word) :
    hostTurn (opWr .irqEn v) s = writeIrqEn v s := by
  have hr : ¬ s.inReset = true := fun hin => by
    obtain ⟨hdone, herr⟩ := flags_clear_inReset h hin
    simp [hdone, herr] at hflag
  exact (hostTurn_regWrite (r := .irqEn) rfl s v).trans (if_neg hr)

/-- Settles O26: the two completions set one flag each; the writes set the enables, or clear the flags or the enables. -/
theorem interruptLineFollowsFlags : Obligations.InterruptLineFollowsFlags := by
  intro s h
  refine ⟨fun herr m n => ?_, fun hdone c info => ?_, fun hdone => ?_, fun herr => ?_, ?_, ?_, fun hb => ?_⟩
  · show (true && s.doneIe || s.err && s.errIe) = s.doneIe
    simp [herr]
  · show (s.done && s.doneIe || true && s.errIe) = s.errIe
    simp [hdone]
  · rw [hostTurn_irqEn_of_flag h (.inl hdone)]
    simp [State.irq, writeIrqEn, hdone]
  · rw [hostTurn_irqEn_of_flag h (.inr herr)]
    simp [State.irq, writeIrqEn, herr]
  · refine irq_regWrite_eq_false h rfl (irq_of_flags_clear ?_ ?_)
    · exact Bool.and_false s.done
    · exact Bool.and_false s.err
  · refine irq_regWrite_eq_false h rfl ?_
    simp [State.irq, writeReg, writeIrqEn]
  · refine irq_regWrite_eq_false h rfl ?_
    rw [writeReg, if_pos ⟨rfl, hb⟩]
    exact irq_of_flags_clear rfl rfl

end Sys2Proof.Proofs
